-- ==== Sys2Proof/Word.lean ====
section
/-! DEFINITION. The two widths of the block: a byte and a word (spec/00_scope.md R11). -/

namespace Sys2Proof

/-- A byte: 8 bits (R11). -/
abbrev Byte := BitVec 8

/-- A word, also called a register: 16 bits (R11). -/
abbrev Word := BitVec 16

end Sys2Proof
end

