-- ==== Sys2Proof/Config.lean ====
section
/-! DEFINITION. What one instance is configured with (spec/00_scope.md R7, spec/10_state.md R32 to R36,
spec/20_memory.md R84), the statuses, and the host's draws: the values the spec leaves to the host's
callbacks (R111), as opaque constants that no proof can evaluate. -/

namespace Sys2Proof

/-- Handler statuses (R14): OK and the eight errors, which "map one-to-one to wire exception codes". -/
inductive Status where
  | ok
  | illegalFn
  | illegalDataAddr
  | illegalDataVal
  | devFail
  | ack
  | busy
  | negAck
  | memParErr
deriving DecidableEq, Repr, Inhabited

/-- Read modes of a coil descriptor (R84). `cell r b` names bit `b` of the host's byte cell `r`. -/
inductive CoilReadMode where
  | none
  | const (c : Byte)
  | cell (r b : Nat)
  | cb
deriving DecidableEq, Repr

/-- Write modes of a coil descriptor (R84). -/
inductive CoilWriteMode where
  | none
  | cell (r b : Nat)
  | cb
deriving DecidableEq, Repr

/-- A coil descriptor, of COILS or of DISCRETE (R84). `rlock`, `wlock` and `postWrite` say whether the
optional predicate or hook is present. -/
structure CoilDesc where
  key : Word
  rmode : CoilReadMode
  wmode : CoilWriteMode
  rlock : Bool
  wlock : Bool
  postWrite : Bool
deriving DecidableEq, Repr

/-- Register types (R84). A block type carries its element count `L`. -/
inductive RegType where
  | u8
  | u16
  | u32
  | i32
  | f32
  | u64
  | i64
  | f64
  | blkU8 (len : Nat)
  | blkU16 (len : Nat)
deriving DecidableEq, Repr

/-- The value of a `CONST(v)` read mode (R84, R92): a scalar's bit pattern (its low bits count, by the
type's width), or the elements of a block. -/
inductive ConstValue where
  | scalar (p : BitVec 64)
  | bytes (e : List Byte)
  | words (e : List Word)
deriving DecidableEq, Repr

/-- Read modes of a register descriptor (R84). `ptr r` names the host's word array `r`. -/
inductive RegReadMode where
  | none
  | const (v : ConstValue)
  | ptr (r : Nat)
  | cb
deriving DecidableEq, Repr

/-- Write modes of a register descriptor (R84). `const` is no write access (R93). -/
inductive RegWriteMode where
  | none
  | const (v : ConstValue)
  | ptr (r : Nat)
  | cb
deriving DecidableEq, Repr

/-- A register descriptor, of HOLDING, of INPUT or of a file's records (R84). -/
structure RegDesc where
  key : Word
  type : RegType
  rmode : RegReadMode
  wmode : RegWriteMode
  rlock : Bool
  wlock : Bool
  allowPartialWrite : Bool
  postWrite : Bool
deriving DecidableEq, Repr

/-- A file descriptor (R84): its key is the file number. -/
structure FileDesc where
  key : Word
  records : List RegDesc
deriving DecidableEq, Repr

/-- Which of the optional host callbacks are present (R7 `HAS_CB_<name>`, R36). -/
structure Callbacks where
  requestRestart : Bool
  readDiagnostics : Bool
  resetDiagnostics : Bool
  readExceptionStatus : Bool
  commitCoilsWrite : Bool
  commitRegsWrite : Bool
  handleFn : Bool
deriving DecidableEq, Repr

/-- The configuration of an instance (R32 to R36). A table that is `none` is ABSENT, which differs from
a present but empty one (R35). -/
structure InstanceConfig where
  slaveAddr : Byte
  defaultRespEn : Bool
  extFileRange : Bool
  coils : Option (List CoilDesc)
  discrete : Option (List CoilDesc)
  holding : Option (List RegDesc)
  input : Option (List RegDesc)
  files : Option (List FileDesc)
  callbacks : Callbacks
deriving DecidableEq, Repr

/-- One change a host makes to its storage (R90): a byte cell, or one word of a word array. -/
inductive CellChange where
  | byteCell (r : Nat) (v : Byte)
  | wordCell (r : Nat) (off v : Word)
deriving DecidableEq, Repr

/-- `DEFAULT_RESP_ADDR` (R7). -/
def Config.defaultRespAddr : Byte := 0xF8

/-- `BROADCAST_ADDR` (R7). -/
def Config.broadcastAddr : Byte := 0x00

/-- `PDU_MAX` (R7). -/
def Config.pduMax : Nat := 253

/-- `RTU_MIN` and `RTU_MAX` (R7). -/
def Config.rtuMin : Nat := 4

@[inherit_doc Config.rtuMin]
def Config.rtuMax : Nat := 256

/-- `ASCII_MIN` and `ASCII_MAX` (R7). -/
def Config.asciiMin : Nat := 11

@[inherit_doc Config.asciiMin]
def Config.asciiMax : Nat := 513

/-- `TCP_MIN` and `TCP_MAX` (R7). -/
def Config.tcpMin : Nat := 8

@[inherit_doc Config.tcpMin]
def Config.tcpMax : Nat := 260

/-- The free draws of the host (R111, U15; notes/assumptions/1.md): what the callback invocation of a
given index answers when the host's script holds no answer for it. They have no body: nothing can be
proved of them but their type. -/
opaque Config.hostBool : Nat → Bool

@[inherit_doc Config.hostBool]
opaque Config.hostFails : Nat → Bool

@[inherit_doc Config.hostBool]
opaque Config.hostByte : Nat → Byte

@[inherit_doc Config.hostBool]
opaque Config.hostWord : Nat → Word

/-- A free draw of words: the invocation's index, then the word's (R111 `reg_read_cb`). -/
opaque Config.hostWords : Nat → Nat → Word

@[inherit_doc Config.hostBool]
opaque Config.hostStatus : Nat → Status

/-- A free draw of a `handle_fn` body; the reader of it keeps at most 252 bytes (R272). -/
opaque Config.hostBody : Nat → List Byte

/-- A free draw of the storage cells an invocation changes ("Any invocation may change any storage
cell", R111). -/
opaque Config.hostCells : Nat → List CellChange

end Sys2Proof
end

