-- ==== Sys2Proof/Syntax.lean ====
section
/-! DEFINITION. The instructions: one constructor per row of spec/opcode_table.json. The five commands
enter the block (spec/10_state.md R62); the others are the function codes and diagnostic sub-functions
that a request PDU selects (spec/30_encoding.md R146, R148). -/

namespace Sys2Proof

/-- The operands of a request whose length the function code fixes (R146). `fields` holds the decoded
fields of a request of the required length; `badLength` holds, undecoded, the bytes after the opcode of
a request of any other length, which the handler answers with ILLEGAL_DATA_VAL (R274). -/
inductive Form (α : Type) where
  | fields (a : α)
  | badLength (body : List Byte)
deriving DecidableEq, Repr

/-- Start address and quantity (R146, FC 0x01 to 0x04). -/
structure AddrQty where
  addr : Word
  qty : Word
deriving DecidableEq, Repr

/-- Address and value (R146, FC 0x05 and 0x06). -/
structure AddrValue where
  addr : Word
  value : Word
deriving DecidableEq, Repr

/-- FC 0x0F and 0x10 (R146): `data` is the `bc` bytes after the byte count, so `bc = data.length`. -/
structure MultiWrite where
  addr : Word
  qty : Word
  data : List Byte
deriving DecidableEq, Repr

/-- FC 0x16 (R146). -/
structure MaskWrite where
  addr : Word
  andMask : Word
  orMask : Word
deriving DecidableEq, Repr

/-- FC 0x17 (R146): `data` is the `wbc` bytes after the byte count. -/
structure ReadWrite where
  raddr : Word
  rq : Word
  waddr : Word
  wq : Word
  data : List Byte
deriving DecidableEq, Repr

/-- FC 0x08 sub 0x0003 (R154): the new delimiter and the byte that must be 0. -/
structure DelimField where
  delim : Byte
  zero : Byte
deriving DecidableEq, Repr

/-- A request of FC 0x08 that selects no implemented sub-function: it has no sub-function field at all
(`truncated`, n < 3, R441), or one that is not implemented (R452). -/
inductive SubForm where
  | truncated (body : List Byte)
  | unknown (sub : Word) (data : List Byte)
deriving DecidableEq, Repr

/-- The instructions, in the order of the opcode table. -/
inductive Instr where
  | rxRtu (f : List Byte)
  | rxAscii (a : List Byte)
  | rxTcp (f : List Byte)
  | rxPdu (p : List Byte)
  | setStatus (v : Word)
  | readCoils (o : Form AddrQty)
  | readDiscreteInputs (o : Form AddrQty)
  | readHoldingRegisters (o : Form AddrQty)
  | readInputRegisters (o : Form AddrQty)
  | writeSingleCoil (o : Form AddrValue)
  | writeSingleRegister (o : Form AddrValue)
  | readExceptionStatus (o : Form Unit)
  | getCommEventCounter (o : Form Unit)
  | getCommEventLog (o : Form Unit)
  | writeMultipleCoils (o : Form MultiWrite)
  | writeMultipleRegisters (o : Form MultiWrite)
  | readFileRecord (o : Form (List Byte))
  | writeFileRecord (o : Form (List Byte))
  | maskWriteRegister (o : Form MaskWrite)
  | readWriteMultipleRegisters (o : Form ReadWrite)
  | diagReturnQueryData (data : List Byte)
  | diagRestartCommunications (o : Form Word)
  | diagReturnDiagnosticRegister (o : Form Word)
  | diagChangeAsciiDelimiter (o : Form DelimField)
  | diagForceListenOnly (o : Form Word)
  | diagClearCounters (o : Form Word)
  | diagReturnBusMessageCount (o : Form Word)
  | diagReturnBusCommErrorCount (o : Form Word)
  | diagReturnExceptionErrorCount (o : Form Word)
  | diagReturnServerMessageCount (o : Form Word)
  | diagReturnServerNoResponseCount (o : Form Word)
  | diagReturnNakCount (o : Form Word)
  | diagReturnBusyCount (o : Form Word)
  | diagReturnBusCharOverrunCount (o : Form Word)
  | diagClearOverrun (o : Form Word)
  | diagUnimplementedSub (o : SubForm)
  | reportSlaveId (body : List Byte)
  | fallback (fc : Byte) (body : List Byte)
deriving DecidableEq, Repr

/-- The five commands of the host (R62). -/
inductive Command where
  | rxRtu (f : List Byte)
  | rxAscii (a : List Byte)
  | rxTcp (f : List Byte)
  | rxPdu (p : List Byte)
  | setStatus (v : Word)
deriving DecidableEq, Repr

/-- What the decoder reads: a command at the host's port, or a request PDU. -/
inductive Encoded where
  | command (c : Command)
  | pdu (bytes : List Byte)
deriving DecidableEq, Repr

/-- Why the decoder rejects a request PDU (R140, R260: a PDU is 1..253 bytes). -/
inductive DecodeReject where
  | emptyPdu
  | oversizePdu
deriving DecidableEq, Repr

end Sys2Proof
end

