-- ==== Sys2Proof/Machine/State.lean ====
section
/-! DEFINITION. The state of one instance (spec/10_state.md), as plain data, its value after reset
(spec/70_reset_and_hazards.md R560), and the reasons a step can stop. -/

namespace Sys2Proof.Machine

/-- Why a step faults. -/
inductive Fault where
  /-- A scripted host answer is outside its callback's type (R112, D46). Raised by the askers of
  Machine/Oracle.lean. Safe: the host broke its contract, and the spec asks a model to fault. -/
  | callbackAnswerType
  /-- The host reports that a register write callback left its descriptor half written (U7, R101).
  Raised by `askStatus`. Safe: the spec asks a model to fault. -/
  | halfWrittenDescriptor
  /-- `handle_fn` answered a body of more than 252 bytes (R272, U6). Raised by `fallbackCall`. Safe: the
  spec asks a model to fault. -/
  | fallbackBodyTooLong
  /-- A transaction register is read before it is written (R61: "a model faults on it"). Raised by the
  dispatcher's and framers' phases. Safe: no step from a state that meets `State.Inv` raises it. -/
  | transactionRegisterUnwritten
  /-- A function code is executed outside phase EXEC (R60). Raised by `runFunction`. Safe: no step raises
  it, since a step executes a function code in phase EXEC only. -/
  | handlerOutsideExec
  /-- The sequencer stands in a phase its command never visits (R60: `RX_PDU` enters at GATE). Raised by
  the receive phases. Safe: no step from a state that meets `State.Inv` raises it. -/
  | sequencerOutOfOrder
  /-- The request of phase EXEC is no PDU (R140). Raised by `step`. Safe: the gate lets no such request
  reach phase EXEC (R260). -/
  | undecodableRequest
deriving DecidableEq, Repr

/-- Why a step is refused. -/
inductive Refusal where
  /-- An instruction without a meaning; no arm of `exec` uses it. Safe. -/
  | notModelled (mnemonic : String)
  /-- A command is issued while another is in progress, from inside a callback too (R62, R575, D44).
  Raised by `beginCommand` and `breach`. Safe: the spec asks a model to refuse it. -/
  | commandWhileBusy
  /-- The configuration breaks an invariant of R85 or R32 (R9, R565, D43), or a descriptor of it is none of R84
  (notes/assumptions/6.md). Raised by `beginCommand` and
  `createInstance`. Safe: the spec asks a model to refuse it. -/
  | invalidConfiguration
deriving DecidableEq, Repr

/-- Storage bytes in canonical form: addresses strictly rising, no entry equal to `unlistedByte`
(`Memory.wf`). -/
abbrev Memory := List Host.Cell

/-- What an address that is not listed reads as (notes/assumptions/2.md). -/
def unlistedByte : Byte := 0x00

/-- The nine diagnostic counters (R40), each 16 bits, each wrapping. -/
structure Counters where
  busMsg : Word
  busCommErr : Word
  exception : Word
  msg : Word
  noResp : Word
  nak : Word
  busy : Word
  busCharOverrun : Word
  commEvent : Word
deriving DecidableEq, Repr

/-- The communication-event ring (R50): 64 entries, a write position and a fill count 0..64. -/
structure EventRing where
  ev : Vector Byte 64
  wpos : Fin 64
  count : Fin 65
deriving DecidableEq, Repr

/-- The instance registers (R37 to R40, R50). -/
structure Registers where
  asciiDelimiter : Byte
  isListenOnly : Bool
  status : Word
  counters : Counters
  ring : EventRing
deriving DecidableEq, Repr

/-- One invocation of a host callback or lock predicate, with its arguments (R111). -/
inductive HostCall where
  | coilRlock (d : CoilDesc)
  | coilWlock (d : CoilDesc)
  | coilRead (d : CoilDesc)
  | coilWrite (d : CoilDesc) (v : Bool)
  | coilPostWrite (d : CoilDesc)
  | regRlock (d : RegDesc)
  | regWlock (d : RegDesc) (a blk : Nat) (data : List Word)
  | regRead (d : RegDesc)
  | regWrite (d : RegDesc) (off k : Nat) (data : List Word)
  | regPostWrite (d : RegDesc)
  | requestRestart
  | readDiagnostics
  | resetDiagnostics
  | readExceptionStatus
  | commitCoilsWrite
  | commitRegsWrite
  | handleFn (req : List Byte)
deriving DecidableEq, Repr

/-- An answer of the host (R111). Which of them a callback may give is the callback's type; `status`
carries the raw code, of which 0..8 are the nine statuses; `halfWritten` is the host's report of U7, and
`reenters c` says that the callback issued command `c` to the block (R575). -/
inductive HostAnswer where
  | unit
  | bool (b : Bool)
  | byte (b : Byte)
  | word (w : Word)
  | words (ws : List Word)
  | fail
  | status (code : Byte)
  | statusBody (code : Byte) (body : List Byte)
  | halfWritten
  | reenters (c : Command)
deriving DecidableEq, Repr

/-- A scripted draw: the answer, and the storage cells the invocation changes (R111). -/
structure HostDraw where
  answer : HostAnswer
  cells : List CellChange
deriving DecidableEq, Repr

/-- The object store's storage and the host behind the accessor port (R90, R111). `script` holds the
answers the host will give, `draws` counts the invocations (the index of a free draw where the script is
empty), `calls` lists them, oldest first. -/
structure World where
  byteCells : Memory
  wordCells : Memory
  script : List HostDraw
  draws : Nat
  calls : List HostCall
deriving DecidableEq, Repr

/-- The sequencer's phases (R60). -/
inductive Phase where
  | idle
  | rxShape
  | rxCheck
  | rxFilter
  | gate
  | exec
  | result
  | tx
deriving DecidableEq, Repr

/-- Which command a transaction began with, so that phase TX returns to its framer (R60, R62). -/
inductive Entry where
  | rtu
  | ascii
  | tcp
  | pdu
deriving DecidableEq, Repr

/-- The transaction registers (R61). `none` is "no value", which each holds at command start; `bin` is the
ASCII framer's own decode buffer (R83). `res` holds `res[0..res_len-1]`, so `res_len` is its length; `m` is
the length the dispatcher returned (R261), `out` the output ADU, whose length is `out_len`. -/
structure Txn where
  entry : Entry
  adu : List Byte
  addr : Option Byte
  delim : Option Byte
  bin : Option (List Byte)
  req : Option (List Byte)
  res : Option (List Byte)
  wasListenOnly : Option Bool
  status : Option Status
  m : Option Nat
  out : Option (List Byte)
deriving DecidableEq, Repr

/-- One entry of the host's command port: the storage cells the host changes between transactions (R90,
R566), then the command it issues. -/
structure HostRequest where
  cells : List CellChange
  command : Command
deriving DecidableEq, Repr

/-- The state of one instance. `pending` and `outputs` are the host's ports: the commands it will issue,
next first, and the outputs returned so far, oldest first, one per command (R60). -/
structure State where
  cfg : InstanceConfig
  regs : Registers
  world : World
  phase : Phase
  busy : Bool
  txn : Option Txn
  pending : List HostRequest
  outputs : List (List Byte)
deriving DecidableEq, Repr

/-- Zeroed counters (R42, R560). -/
def Counters.zero : Counters := ⟨0, 0, 0, 0, 0, 0, 0, 0, 0⟩

/-- The event ring after reset: empty. Its entries are "unspecified, unobservable" (R560); the model
holds zeros (notes/assumptions/4.md). -/
def EventRing.empty : EventRing := ⟨Vector.replicate 64 0, 0, 0⟩

/-- The instance registers after reset (R560). -/
def Registers.reset : Registers :=
  { asciiDelimiter := 0x0A
    isListenOnly := false
    status := 0
    counters := Counters.zero
    ring := EventRing.empty }

/-- No callback present. -/
def Callbacks.absent : Callbacks := ⟨false, false, false, false, false, false, false⟩

/-- The configuration of `State.reset`: the one the spec's test vectors take "unless stated"
(spec/95_test_vectors.md; notes/assumptions/3.md). -/
def InstanceConfig.testVectors : InstanceConfig :=
  { slaveAddr := 0x11
    defaultRespEn := false
    extFileRange := false
    coils := none
    discrete := none
    holding := none
    input := none
    files := none
    callbacks := Callbacks.absent }

/-- Storage the host has not written and a host that has said nothing yet. -/
def World.initial : World := ⟨[], [], [], 0, []⟩

/-- An instance right after its creation with a configuration and the host's storage (R560). -/
def State.created (cfg : InstanceConfig) (world : World) : State :=
  { cfg := cfg
    regs := Registers.reset
    world := world
    phase := .idle
    busy := false
    txn := none
    pending := []
    outputs := [] }

/-- The machine right after reset (R560): it waits in IDLE for the first command. -/
def State.reset : State := State.created InstanceConfig.testVectors World.initial

end Sys2Proof.Machine
end

