-- ==== Sys2Proof/Machine/Flags.lean ====
section
/-! DEFINITION. The block has no condition codes (spec/10_state.md R63); what it computes as flags are the
named bits of the event bytes (R51), the wire code of a status (R500) and the counters' increments (R40). -/

namespace Sys2Proof.Machine

/-- RECV_COMM_ERR (R51). -/
def recvCommErr : Byte := 0x02

/-- RECV_BROADCAST (R51). -/
def recvBroadcast : Byte := 0x40

/-- COMM_RESTART (R51). -/
def commRestart : Byte := 0x00

/-- ENTERED_LISTEN_ONLY (R51). -/
def enteredListenOnly : Byte := 0x04

/-- `recv_event(extra)` (R216): IS_RECV, and RECV_LISTEN_MODE in listen-only mode. -/
def recvEvent (listenOnly : Bool) (extra : Byte) : Byte :=
  0x80 ||| (if listenOnly then 0x20 else 0x00) ||| extra

/-- `x(S)` (R269): the exception bits of a send event. -/
def sendExBits : Status → Byte
  | .ok => 0x00
  | .illegalFn => 0x01
  | .illegalDataAddr => 0x01
  | .illegalDataVal => 0x01
  | .devFail => 0x02
  | .ack => 0x04
  | .busy => 0x04
  | .negAck => 0x08
  | .memParErr => 0x00

/-- `send_event(S, wl)` (R269): IS_SEND, and SEND_LISTEN_ONLY of the snapshot. -/
def sendEvent (st : Status) (wasListenOnly : Bool) : Byte :=
  0x40 ||| (if wasListenOnly then 0x20 else 0x00) ||| sendExBits st

/-- `code(S)` (R500): the wire exception code of a status; OK has none and is written 0. -/
def statusCode : Status → Byte
  | .ok => 0x00
  | .illegalFn => 0x01
  | .illegalDataAddr => 0x02
  | .illegalDataVal => 0x03
  | .devFail => 0x04
  | .ack => 0x05
  | .busy => 0x06
  | .negAck => 0x07
  | .memParErr => 0x08

/-- The status of a raw code a callback answers: 0 is OK, 1..8 the errors, and no other code is a status
(R112). -/
def statusOfCode (code : Byte) : Option Status :=
  match code.toNat with
  | 0 => some .ok
  | 1 => some .illegalFn
  | 2 => some .illegalDataAddr
  | 3 => some .illegalDataVal
  | 4 => some .devFail
  | 5 => some .ack
  | 6 => some .busy
  | 7 => some .negAck
  | 8 => some .memParErr
  | _ => none

/-- `inc(bus_msg)` (R40). -/
def Counters.incBusMsg (c : Counters) : Counters := { c with busMsg := c.busMsg + 1 }

/-- `inc(bus_comm_err)` (R40). -/
def Counters.incBusCommErr (c : Counters) : Counters := { c with busCommErr := c.busCommErr + 1 }

/-- `inc(msg)` (R40). -/
def Counters.incMsg (c : Counters) : Counters := { c with msg := c.msg + 1 }

/-- `inc(no_resp)` (R40). -/
def Counters.incNoResp (c : Counters) : Counters := { c with noResp := c.noResp + 1 }

/-- `inc(comm_event)` (R40). -/
def Counters.incCommEvent (c : Counters) : Counters := { c with commEvent := c.commEvent + 1 }

/-- The counters an exception response changes (R266): `exception`, `nak` if NEG_ACK, `busy` if BUSY. -/
def Counters.takeException (c : Counters) (st : Status) : Counters :=
  { c with
    exception := c.exception + 1
    nak := if st = .negAck then c.nak + 1 else c.nak
    busy := if st = .busy then c.busy + 1 else c.busy }

/-- `clear_overrun()` (R43). -/
def Counters.clearOverrun (c : Counters) : Counters := { c with busCharOverrun := 0 }

end Sys2Proof.Machine
end

