-- ==== Sys2Proof/Machine/Bytes.lean ====
section
/-! DEFINITION. Byte order (spec/00_scope.md R12, spec/20_memory.md R115): every wire field is big-endian
but the RTU CRC trailer. -/

namespace Sys2Proof

/-- `be16`: the big-endian 16-bit field of two bytes (R12). -/
def be16 (hi lo : Byte) : Word := hi ++ lo

/-- `le16`: the little-endian 16-bit field of two bytes (R12). -/
def le16 (lo hi : Byte) : Word := hi ++ lo

/-- Bits 15..8 of a word. -/
def hiByte (v : Word) : Byte := v.extractLsb' 8 8

/-- Bits 7..0 of a word. -/
def loByte (v : Word) : Byte := v.extractLsb' 0 8

/-- `BE16(v)` (R12). -/
def be16Bytes (v : Word) : List Byte := [hiByte v, loByte v]

/-- `LE16(v)` (R12). -/
def le16Bytes (v : Word) : List Byte := [loByte v, hiByte v]

/-- The words of a byte string, two bytes each (R152); a last single byte belongs to no word. -/
def wordsOfBytes : List Byte → List Word
  | hi :: lo :: rest => be16 hi lo :: wordsOfBytes rest
  | _ => []

/-- The bytes of a word list, big-endian (R152). -/
def bytesOfWords : List Word → List Byte
  | [] => []
  | w :: ws => hiByte w :: loByte w :: bytesOfWords ws

end Sys2Proof
end

