-- ==== Sys2Proof/WellFormed.lean ====
section
/-! DEFINITION. Well-formed instructions: those that some words stand for (spec/30_encoding.md R140,
R146, R148, R160, R161). -/

namespace Sys2Proof

/-- At most 252 bytes after the function code: a PDU is 1..253 bytes (R140). -/
def fitsBody (n : Nat) : Bool := n ≤ 252

/-- A form whose `badLength` body is not `k` bytes long, the length R146 requires after the opcode, and
fits the PDU after `lead` more opcode bytes (2 for FC 0x08's sub-function). -/
def Form.wfFixed {α : Type} (k lead : Nat) : Form α → Bool
  | .fields _ => true
  | .badLength body => fitsBody (lead + body.length) && body.length != k

/-- The bytes after the function code of a request that carries a byte count at offset `at_` of them are
well formed as a bad length: too short for the count, or not as long as it says. -/
def wfBadCount (at_ : Nat) (body : List Byte) : Bool :=
  fitsBody body.length
    && (body.length ≤ at_ || body.length != at_ + 1 + (body.getD at_ 0).toNat)

/-- FC 0x0F and 0x10 (R146): n = 6 + bc. -/
def wfMultiWrite : Form MultiWrite → Bool
  | .fields m => fitsBody (5 + m.data.length)
  | .badLength body => wfBadCount 4 body

/-- FC 0x14 and 0x15 (R146): n = 2 + bc. -/
def wfFileBytes : Form (List Byte) → Bool
  | .fields d => fitsBody (1 + d.length)
  | .badLength body => wfBadCount 0 body

/-- FC 0x17 (R146): n = 10 + wbc. -/
def wfReadWrite : Form ReadWrite → Bool
  | .fields m => fitsBody (9 + m.data.length)
  | .badLength body => wfBadCount 8 body

/-- The sub-functions of FC 0x08 that are implemented (R148). -/
def implementedSub (sub : Word) : Bool :=
  sub ≤ 0x0004 || (0x000A ≤ sub && sub ≤ 0x0012) || sub = 0x0014

/-- The function codes that have a row of their own in the opcode table (R160, R161). -/
def listedFc (fc : Byte) : Bool :=
  (0x01 ≤ fc && fc ≤ 0x08) || fc = 0x0B || fc = 0x0C || (0x0F ≤ fc && fc ≤ 0x11)
    || (0x14 ≤ fc && fc ≤ 0x17)

/-- FC 0x08 without an implemented sub-function (R441, R452). -/
def SubForm.wf : SubForm → Bool
  | .truncated body => body.length < 2
  | .unknown sub data => !implementedSub sub && fitsBody (2 + data.length)

/-- Well-formed instructions. A command takes any byte string: its framer rejects what has no shape. -/
def Instr.wf : Instr → Bool
  | .rxRtu _ => true
  | .rxAscii _ => true
  | .rxTcp _ => true
  | .rxPdu _ => true
  | .setStatus _ => true
  | .readCoils o => o.wfFixed 4 0
  | .readDiscreteInputs o => o.wfFixed 4 0
  | .readHoldingRegisters o => o.wfFixed 4 0
  | .readInputRegisters o => o.wfFixed 4 0
  | .writeSingleCoil o => o.wfFixed 4 0
  | .writeSingleRegister o => o.wfFixed 4 0
  | .readExceptionStatus o => o.wfFixed 0 0
  | .getCommEventCounter o => o.wfFixed 0 0
  | .getCommEventLog o => o.wfFixed 0 0
  | .writeMultipleCoils o => wfMultiWrite o
  | .writeMultipleRegisters o => wfMultiWrite o
  | .readFileRecord o => wfFileBytes o
  | .writeFileRecord o => wfFileBytes o
  | .maskWriteRegister o => o.wfFixed 6 0
  | .readWriteMultipleRegisters o => wfReadWrite o
  | .diagReturnQueryData data => fitsBody (2 + data.length)
  | .diagRestartCommunications o => o.wfFixed 2 2
  | .diagReturnDiagnosticRegister o => o.wfFixed 2 2
  | .diagChangeAsciiDelimiter o => o.wfFixed 2 2
  | .diagForceListenOnly o => o.wfFixed 2 2
  | .diagClearCounters o => o.wfFixed 2 2
  | .diagReturnBusMessageCount o => o.wfFixed 2 2
  | .diagReturnBusCommErrorCount o => o.wfFixed 2 2
  | .diagReturnExceptionErrorCount o => o.wfFixed 2 2
  | .diagReturnServerMessageCount o => o.wfFixed 2 2
  | .diagReturnServerNoResponseCount o => o.wfFixed 2 2
  | .diagReturnNakCount o => o.wfFixed 2 2
  | .diagReturnBusyCount o => o.wfFixed 2 2
  | .diagReturnBusCharOverrunCount o => o.wfFixed 2 2
  | .diagClearOverrun o => o.wfFixed 2 2
  | .diagUnimplementedSub o => o.wf
  | .reportSlaveId body => fitsBody body.length
  | .fallback fc body => !listedFc fc && fitsBody body.length

end Sys2Proof
end

