-- ==== Sys2Proof/Decode.lean ====
section
/-! DEFINITION. The decoder of request PDUs and commands (spec/30_encoding.md R146, R148, R160, R161),
total on any bytes, and the encoder. The decoder reads the bytes only: whether the table or the callback
a function code needs is present is the handler's question (R264). -/

namespace Sys2Proof

/-- Address and quantity, 4 bytes (R146). -/
def parseAddrQty : List Byte → Form AddrQty
  | [a1, a0, q1, q0] => .fields ⟨be16 a1 a0, be16 q1 q0⟩
  | body => .badLength body

/-- Address and value, 4 bytes (R146). -/
def parseAddrValue : List Byte → Form AddrValue
  | [a1, a0, v1, v0] => .fields ⟨be16 a1 a0, be16 v1 v0⟩
  | body => .badLength body

/-- No operand (R146). -/
def parseUnit : List Byte → Form Unit
  | [] => .fields ()
  | body => .badLength body

/-- Address, quantity, byte count and as many bytes (R146, FC 0x0F and 0x10). -/
def parseMultiWrite : List Byte → Form MultiWrite
  | a1 :: a0 :: q1 :: q0 :: bc :: data =>
    if data.length = bc.toNat then .fields ⟨be16 a1 a0, be16 q1 q0, data⟩
    else .badLength (a1 :: a0 :: q1 :: q0 :: bc :: data)
  | body => .badLength body

/-- Byte count and as many bytes (R146, FC 0x14 and 0x15). -/
def parseFileBytes : List Byte → Form (List Byte)
  | bc :: data => if data.length = bc.toNat then .fields data else .badLength (bc :: data)
  | body => .badLength body

/-- Address and two masks, 6 bytes (R146, FC 0x16). -/
def parseMaskWrite : List Byte → Form MaskWrite
  | [a1, a0, m1, m0, o1, o0] => .fields ⟨be16 a1 a0, be16 m1 m0, be16 o1 o0⟩
  | body => .badLength body

/-- The read range, the write range, byte count and as many bytes (R146, FC 0x17). -/
def parseReadWrite : List Byte → Form ReadWrite
  | r1 :: r0 :: n1 :: n0 :: w1 :: w0 :: k1 :: k0 :: bc :: data =>
    if data.length = bc.toNat then
      .fields ⟨be16 r1 r0, be16 n1 n0, be16 w1 w0, be16 k1 k0, data⟩
    else .badLength (r1 :: r0 :: n1 :: n0 :: w1 :: w0 :: k1 :: k0 :: bc :: data)
  | body => .badLength body

/-- The data field of FC 0x08, 2 bytes (R148). -/
def parseData : List Byte → Form Word
  | [d1, d0] => .fields (be16 d1 d0)
  | body => .badLength body

/-- The delimiter field of FC 0x08 sub 0x0003 (R154). -/
def parseDelim : List Byte → Form DelimField
  | [d, z] => .fields ⟨d, z⟩
  | body => .badLength body

/-- The sub-functions of FC 0x08 (R148), on the bytes after the sub-function field. -/
def decodeSub (sub : Word) (data : List Byte) : Instr :=
  match sub.toNat with
  | 0x0000 => .diagReturnQueryData data
  | 0x0001 => .diagRestartCommunications (parseData data)
  | 0x0002 => .diagReturnDiagnosticRegister (parseData data)
  | 0x0003 => .diagChangeAsciiDelimiter (parseDelim data)
  | 0x0004 => .diagForceListenOnly (parseData data)
  | 0x000A => .diagClearCounters (parseData data)
  | 0x000B => .diagReturnBusMessageCount (parseData data)
  | 0x000C => .diagReturnBusCommErrorCount (parseData data)
  | 0x000D => .diagReturnExceptionErrorCount (parseData data)
  | 0x000E => .diagReturnServerMessageCount (parseData data)
  | 0x000F => .diagReturnServerNoResponseCount (parseData data)
  | 0x0010 => .diagReturnNakCount (parseData data)
  | 0x0011 => .diagReturnBusyCount (parseData data)
  | 0x0012 => .diagReturnBusCharOverrunCount (parseData data)
  | 0x0014 => .diagClearOverrun (parseData data)
  | _ => .diagUnimplementedSub (.unknown sub data)

/-- FC 0x08 (R441): the sub-function is bytes 1..2. -/
def decodeDiag : List Byte → Instr
  | s1 :: s0 :: data => decodeSub (be16 s1 s0) data
  | body => .diagUnimplementedSub (.truncated body)

/-- The function codes (R160, R161), on the bytes after byte 0. -/
def decodeFc (fc : Byte) (body : List Byte) : Instr :=
  match fc.toNat with
  | 0x01 => .readCoils (parseAddrQty body)
  | 0x02 => .readDiscreteInputs (parseAddrQty body)
  | 0x03 => .readHoldingRegisters (parseAddrQty body)
  | 0x04 => .readInputRegisters (parseAddrQty body)
  | 0x05 => .writeSingleCoil (parseAddrValue body)
  | 0x06 => .writeSingleRegister (parseAddrValue body)
  | 0x07 => .readExceptionStatus (parseUnit body)
  | 0x08 => decodeDiag body
  | 0x0B => .getCommEventCounter (parseUnit body)
  | 0x0C => .getCommEventLog (parseUnit body)
  | 0x0F => .writeMultipleCoils (parseMultiWrite body)
  | 0x10 => .writeMultipleRegisters (parseMultiWrite body)
  | 0x11 => .reportSlaveId body
  | 0x14 => .readFileRecord (parseFileBytes body)
  | 0x15 => .writeFileRecord (parseFileBytes body)
  | 0x16 => .maskWriteRegister (parseMaskWrite body)
  | 0x17 => .readWriteMultipleRegisters (parseReadWrite body)
  | _ => .fallback fc body

/-- The decoder of a request PDU: 1..253 bytes, or rejected by name (R140, R260). -/
def decodePdu : List Byte → Except DecodeReject Instr
  | [] => .error .emptyPdu
  | fc :: body =>
    if body.length < Config.pduMax then .ok (decodeFc fc body) else .error .oversizePdu

/-- The decoder of a command (R62): each command is one instruction. -/
def decodeCommand : Command → Instr
  | .rxRtu f => .rxRtu f
  | .rxAscii a => .rxAscii a
  | .rxTcp f => .rxTcp f
  | .rxPdu p => .rxPdu p
  | .setStatus v => .setStatus v

/-- The decoder. -/
def decode : Encoded → Except DecodeReject Instr
  | .command c => .ok (decodeCommand c)
  | .pdu bytes => decodePdu bytes

/-! ## The encoder (R146, R148) -/

/-- The bytes after the opcode of a form, its fields encoded by `f`. -/
def Form.encodeWith {α : Type} (f : α → List Byte) : Form α → List Byte
  | .fields a => f a
  | .badLength body => body

/-- A byte count (R146). -/
def countByte (n : Nat) : Byte := BitVec.ofNat 8 n

def encodeAddrQty (o : AddrQty) : List Byte := be16Bytes o.addr ++ be16Bytes o.qty

def encodeAddrValue (o : AddrValue) : List Byte := be16Bytes o.addr ++ be16Bytes o.value

def encodeMultiWrite (o : MultiWrite) : List Byte :=
  be16Bytes o.addr ++ be16Bytes o.qty ++ countByte o.data.length :: o.data

def encodeFileBytes (d : List Byte) : List Byte := countByte d.length :: d

def encodeMaskWrite (o : MaskWrite) : List Byte :=
  be16Bytes o.addr ++ be16Bytes o.andMask ++ be16Bytes o.orMask

def encodeReadWrite (o : ReadWrite) : List Byte :=
  be16Bytes o.raddr ++ be16Bytes o.rq ++ be16Bytes o.waddr ++ be16Bytes o.wq
    ++ countByte o.data.length :: o.data

def encodeDelim (o : DelimField) : List Byte := [o.delim, o.zero]

/-- A request of FC 0x08: the sub-function, then the bytes after it (R148). -/
def encodeDiag (sub : Word) (rest : List Byte) : List Byte := 0x08 :: (be16Bytes sub ++ rest)

def SubForm.encode : SubForm → List Byte
  | .truncated body => 0x08 :: body
  | .unknown sub data => encodeDiag sub data

/-- The encoder: a command stands for itself, a function code for its request PDU (R146, R148). -/
def encode : Instr → Encoded
  | .rxRtu f => .command (.rxRtu f)
  | .rxAscii a => .command (.rxAscii a)
  | .rxTcp f => .command (.rxTcp f)
  | .rxPdu p => .command (.rxPdu p)
  | .setStatus v => .command (.setStatus v)
  | .readCoils o => .pdu (0x01 :: o.encodeWith encodeAddrQty)
  | .readDiscreteInputs o => .pdu (0x02 :: o.encodeWith encodeAddrQty)
  | .readHoldingRegisters o => .pdu (0x03 :: o.encodeWith encodeAddrQty)
  | .readInputRegisters o => .pdu (0x04 :: o.encodeWith encodeAddrQty)
  | .writeSingleCoil o => .pdu (0x05 :: o.encodeWith encodeAddrValue)
  | .writeSingleRegister o => .pdu (0x06 :: o.encodeWith encodeAddrValue)
  | .readExceptionStatus o => .pdu (0x07 :: o.encodeWith fun _ => [])
  | .getCommEventCounter o => .pdu (0x0B :: o.encodeWith fun _ => [])
  | .getCommEventLog o => .pdu (0x0C :: o.encodeWith fun _ => [])
  | .writeMultipleCoils o => .pdu (0x0F :: o.encodeWith encodeMultiWrite)
  | .writeMultipleRegisters o => .pdu (0x10 :: o.encodeWith encodeMultiWrite)
  | .readFileRecord o => .pdu (0x14 :: o.encodeWith encodeFileBytes)
  | .writeFileRecord o => .pdu (0x15 :: o.encodeWith encodeFileBytes)
  | .maskWriteRegister o => .pdu (0x16 :: o.encodeWith encodeMaskWrite)
  | .readWriteMultipleRegisters o => .pdu (0x17 :: o.encodeWith encodeReadWrite)
  | .diagReturnQueryData data => .pdu (encodeDiag 0x0000 data)
  | .diagRestartCommunications o => .pdu (encodeDiag 0x0001 (o.encodeWith be16Bytes))
  | .diagReturnDiagnosticRegister o => .pdu (encodeDiag 0x0002 (o.encodeWith be16Bytes))
  | .diagChangeAsciiDelimiter o => .pdu (encodeDiag 0x0003 (o.encodeWith encodeDelim))
  | .diagForceListenOnly o => .pdu (encodeDiag 0x0004 (o.encodeWith be16Bytes))
  | .diagClearCounters o => .pdu (encodeDiag 0x000A (o.encodeWith be16Bytes))
  | .diagReturnBusMessageCount o => .pdu (encodeDiag 0x000B (o.encodeWith be16Bytes))
  | .diagReturnBusCommErrorCount o => .pdu (encodeDiag 0x000C (o.encodeWith be16Bytes))
  | .diagReturnExceptionErrorCount o => .pdu (encodeDiag 0x000D (o.encodeWith be16Bytes))
  | .diagReturnServerMessageCount o => .pdu (encodeDiag 0x000E (o.encodeWith be16Bytes))
  | .diagReturnServerNoResponseCount o => .pdu (encodeDiag 0x000F (o.encodeWith be16Bytes))
  | .diagReturnNakCount o => .pdu (encodeDiag 0x0010 (o.encodeWith be16Bytes))
  | .diagReturnBusyCount o => .pdu (encodeDiag 0x0011 (o.encodeWith be16Bytes))
  | .diagReturnBusCharOverrunCount o => .pdu (encodeDiag 0x0012 (o.encodeWith be16Bytes))
  | .diagClearOverrun o => .pdu (encodeDiag 0x0014 (o.encodeWith be16Bytes))
  | .diagUnimplementedSub o => .pdu o.encode
  | .reportSlaveId body => .pdu (0x11 :: body)
  | .fallback fc body => .pdu (fc :: body)

/-- The request PDU of a function-code instruction, `req[0..n-1]` (R145); empty for a command. -/
def encodePdu (i : Instr) : List Byte :=
  match encode i with
  | .pdu bytes => bytes
  | .command _ => []

/-! ## Words of the opcode table -/

/-- The shortest request the opcode requires (R146) when `k` opcode bytes are given: what a table word's
bytes are filled up to with zero operands. A bare FC 0x08 byte is itself a whole request (n < 3). -/
def minLength (fc : Byte) (k : Nat) : Nat :=
  match fc.toNat with
  | 0x01 => 5
  | 0x02 => 5
  | 0x03 => 5
  | 0x04 => 5
  | 0x05 => 5
  | 0x06 => 5
  | 0x08 => if k < 3 then k else 5
  | 0x0F => 6
  | 0x10 => 6
  | 0x14 => 2
  | 0x15 => 2
  | 0x16 => 7
  | 0x17 => 10
  | _ => k

/-- The low `8 * k` bits of `w` as `k` bytes, big-endian: the table reads PDU bytes 0..2 "as one 24-bit
big-endian value". -/
def bytesOfNat (w : Nat) : Nat → List Byte
  | 0 => []
  | k + 1 => BitVec.ofNat 8 (w >>> (8 * k)) :: bytesOfNat w k

/-- The request PDU that a table row's word stands for: its `nbits` bits as opcode bytes, byte 0 in the
highest of them as the table numbers them, and zero operand bytes after them (notes/assumptions/13.md). -/
def tablePdu (nbits w : Nat) : List Byte :=
  let opcode := bytesOfNat w (max 1 (nbits / 8))
  opcode ++ List.replicate (minLength (opcode.headD 0) opcode.length - opcode.length) 0

/-- The instruction the decoder reads from a table row's word. The five command rows are no bit pattern
("command selector"), so no word decodes to one. -/
def decodeTableWord (nbits w : Nat) : Option Instr :=
  match decodePdu (tablePdu nbits w) with
  | .ok i => some i
  | .error _ => none

end Sys2Proof
end

