-- ==== Sys2Proof/Machine/Operands.lean ====
section
/-! DEFINITION. The operand forms of the handlers: quantities and ranges (spec/41_dispatcher.md R277),
packed coils (spec/30_encoding.md R151), and the sub-requests of the file function codes
(spec/44_file_record.md R400). -/

namespace Sys2Proof.Machine

/-- `ceil(a/b)` for the byte counts of packed bits (R10). -/
def ceilDiv8 (n : Nat) : Nat := (n + 7) / 8

/-- A range `addr .. addr + qty - 1` passes 0xFFFF (R277). -/
def rangeOverflows (addr qty : Nat) : Bool := 0xFFFF < addr + qty - 1

/-- A quantity outside `1..max` (R276 (2)). -/
def qtyOutside (qty max : Nat) : Bool := qty < 1 || max < qty

/-- A byte whose bit `j` is element `j` of the list, bit 0 first; missing elements are 0 (R151). -/
def byteOfBits (bits : List Bool) : Byte :=
  (List.range 8).foldl
    (fun acc j => if bits.getD j false then acc ||| ((1 : Byte) <<< j) else acc) 0

/-- The packed bits of `bc` response bytes (R151): bit `j` of byte `m` carries element `8 * m + j`, and the
bits past the last element are 0. -/
def packBits : (bc : Nat) → List Bool → List Byte
  | 0, _ => []
  | bc + 1, bits => byteOfBits (bits.take 8) :: packBits bc (bits.drop 8)

/-- Bit `i` of the packed data of FC 0x0F: `(data[i div 8] >> (i mod 8)) & 1` (R151, R315). -/
def packedBit (data : List Byte) (i : Nat) : Bool := (data.getD (i / 8) 0).getLsbD (i % 8)

/-- The header of a sub-request of FC 0x14 or 0x15 (R400). -/
structure SubRequest where
  refType : Byte
  fileNo : Word
  recNo : Word
  recLen : Word
deriving DecidableEq, Repr

/-- The 7-byte header at the front of a byte string, and the bytes after it (R400); `none` where fewer than
7 bytes are left. -/
def takeHeader : List Byte → Option (SubRequest × List Byte)
  | t :: f1 :: f0 :: r1 :: r0 :: l1 :: l0 :: rest =>
    some (⟨t, be16 f1 f0, be16 r1 r0, be16 l1 l0⟩, rest)
  | _ => none

/-- The first `k` headers of FC 0x14, 7 bytes each with no padding (R400, R405). -/
def takeHeaders : Nat → List Byte → List SubRequest
  | 0, _ => []
  | k + 1, data =>
    match takeHeader data with
    | none => []
    | some (h, rest) => h :: takeHeaders k rest

end Sys2Proof.Machine
end

