-- ==== Sys2Proof/Machine/Ops.lean ====
section
/-! DEFINITION. The named operations: storage bytes and words, the result of a handler, the event ring,
the start and the end of a command, and taking an exception (spec/41_dispatcher.md R266,
spec/60_exceptions.md R508). -/

namespace Sys2Proof.Machine

/-- What one step answers. -/
abbrev Answer := Host.Outcome State Fault Refusal

/-- Why a handler ends without a next state: the host broke its contract (R503). -/
inductive Stop where
  | fault (f : Fault)
  | refuse (r : Refusal)
deriving DecidableEq, Repr

/-- The step's answer for a stop. -/
def Stop.answer : Stop → Answer
  | .fault f => .fault f
  | .refuse r => .refused r

/-- How far a handler got, over the state `σ` it works on: a value, a raised status other than OK
(`raise Exception(S)`, R13; the state effects made before it stay), or a stop. -/
inductive Res (σ α : Type) where
  | val (a : α) (s : σ)
  | raise (e : Status) (s : σ)
  | stop (x : Stop)

/-- Go on with the value, or end with the raised status or the stop. -/
def Res.bind {σ α β : Type} (r : Res σ α) (k : α → σ → Res σ β) : Res σ β :=
  match r with
  | .val a s => k a s
  | .raise e s => .raise e s
  | .stop x => .stop x

/-- Apply a function to the value. -/
def Res.map {σ α β : Type} (f : α → β) (r : Res σ α) : Res σ β :=
  r.bind fun a s => .val (f a) s

/-! ## Storage -/

/-- The byte stored at an address (R91). -/
def Memory.read (mem : Memory) (a : Nat) : Byte :=
  match mem with
  | [] => unlistedByte
  | (b, x) :: rest => if a = b then x else Memory.read rest a

/-- Store a byte, keeping the canonical form. -/
def Memory.write (mem : Memory) (a : Nat) (v : Byte) : Memory :=
  match mem with
  | [] => if v = unlistedByte then [] else [(a, v)]
  | (b, x) :: rest =>
    if a < b then (if v = unlistedByte then (b, x) :: rest else (a, v) :: (b, x) :: rest)
    else if a = b then (if v = unlistedByte then rest else (a, v) :: rest)
    else (b, x) :: Memory.write rest a v

/-- The canonical form above an address: rising, and no entry that an unlisted address reads as. -/
def Memory.wfFrom (lo : Nat) : Memory → Bool
  | [] => true
  | (b, x) :: rest => lo ≤ b && x != unlistedByte && Memory.wfFrom (b + 1) rest

/-- The canonical form. -/
def Memory.wf (mem : Memory) : Bool := Memory.wfFrom 0 mem

/-- Where word `j` of the word array `r` lies: each array has room for 0x10000 words of two bytes, so
different arrays never meet (R90; notes/assumptions/5.md). -/
def wordAddr (r j : Nat) : Nat := r * 0x20000 + 2 * j

/-- Word `j` of `cell[r]` (R91). -/
def Memory.readWord (mem : Memory) (r j : Nat) : Word :=
  be16 (mem.read (wordAddr r j)) (mem.read (wordAddr r j + 1))

/-- Store word `j` of `cell[r]` (R91). -/
def Memory.writeWord (mem : Memory) (r j : Nat) (v : Word) : Memory :=
  (mem.write (wordAddr r j) (hiByte v)).write (wordAddr r j + 1) (loByte v)

/-- Bit `b` of `byte[r]` set or cleared, the other seven unchanged (R91). -/
def Memory.writeBit (mem : Memory) (r b : Nat) (v : Bool) : Memory :=
  mem.write r
    (if v then mem.read r ||| ((1 : Byte) <<< b) else mem.read r &&& ~~~((1 : Byte) <<< b))

/-- One storage change of the host (R90). -/
def World.change (w : World) : CellChange → World
  | .byteCell r v => { w with byteCells := w.byteCells.write r v }
  | .wordCell r off v => { w with wordCells := w.wordCells.writeWord r off.toNat v }

/-- The storage changes of the host, in order (R90). -/
def World.changes (w : World) (cs : List CellChange) : World := cs.foldl World.change w

/-! ## The event ring (R50 to R54) -/

/-- `log_append(e)` (R52). -/
def EventRing.append (g : EventRing) (e : Byte) : EventRing :=
  { ev := g.ev.set g.wpos.val e g.wpos.isLt
    wpos := ⟨(g.wpos.val + 1) % 64, Nat.mod_lt _ (by decide)⟩
    count := ⟨min (g.count.val + 1) 64, by omega⟩ }

/-- `log_read()` (R53): the `count` newest entries, newest first. -/
def EventRing.newestFirst (g : EventRing) : List Byte :=
  (List.range g.count.val).map fun i =>
    g.ev[(g.wpos.val + 64 - 1 - i) % 64]'(Nat.mod_lt _ (by decide))

/-- `log_clear()` (R54): the entries stay, no longer observable. -/
def EventRing.clear (g : EventRing) : EventRing := { g with wpos := 0, count := 0 }

/-- `log_append` on the instance registers. -/
def Registers.log (r : Registers) (e : Byte) : Registers := { r with ring := r.ring.append e }

/-- A change of the counters. -/
def Registers.count (r : Registers) (f : Counters → Counters) : Registers :=
  { r with counters := f r.counters }

/-- `reset_counters()` (R42): all nine, and nothing else. -/
def Registers.resetCounters (r : Registers) : Registers := { r with counters := Counters.zero }

/-! ## Commands -/

/-- `log_append(e)` (R13). -/
def State.log (s : State) (e : Byte) : State := { s with regs := s.regs.log e }

/-- `inc` of a counter (R40). -/
def State.count (s : State) (f : Counters → Counters) : State := { s with regs := s.regs.count f }

/-- The transaction registers at command start: the received string, and no other value (R61). -/
def Txn.start (entry : Entry) (adu : List Byte) : Txn :=
  { entry := entry
    adu := adu
    addr := none
    delim := none
    bin := none
    req := none
    res := none
    wasListenOnly := none
    status := none
    m := none
    out := none }

/-- A command ends in IDLE with exactly one output (R60); its transaction registers are discarded (R61). -/
def endCommand (out : List Byte) (s : State) : State :=
  { s with phase := .idle, busy := false, txn := none, outputs := s.outputs ++ [out] }

/-- `drop` (R13): the command ends with output length 0. -/
def drop (s : State) : Answer := .next (endCommand [] s)

/-! ## Taking an exception, and completing normally (R266 to R269) -/

/-- The exception response `[fc | 0x80, code(S)]` (R266, R500). -/
def exceptionPdu (fc : Byte) (st : Status) : List Byte := [fc ||| 0x80, statusCode st]

/-- Function codes that never count in `comm_event` (R267). -/
def skipsCommEvent (fc : Byte) : Bool := fc = 0x08 || fc = 0x0B || fc = 0x0C

/-- Exception entry (R266, R508): nothing is saved, the response buffer becomes the exception response,
`exception` (and `nak` or `busy`) count, and one send event is logged; object-store and register writes
the handler made stay; the mode does not change. -/
def takeException (fc : Byte) (st : Status) (wasListenOnly : Bool) (t : Txn) (s : State) : State :=
  ({ s with txn := some { t with res := some (exceptionPdu fc st) } }.count
    (·.takeException st)).log (sendEvent st wasListenOnly)

/-- Normal completion (R267, R268): `comm_event` counts unless the function code is 0x08, 0x0B or 0x0C,
and one send event is logged. -/
def completeOk (fc : Byte) (wasListenOnly : Bool) (s : State) : State :=
  (if skipsCommEvent fc then s else s.count Counters.incCommEvent).log (sendEvent .ok wasListenOnly)

end Sys2Proof.Machine
end

