-- ==== Sys2Proof/Machine/Descriptors.lean ====
section
/-! DEFINITION. Descriptor tables: lookup (spec/20_memory.md R86 to R88), word images (R92), and the
configuration invariants (R85, R9, R565). -/

namespace Sys2Proof.Machine

/-- `nwords(d)` (R86): the register addresses a type covers. -/
def nwordsOf : RegType → Nat
  | .u8 => 1
  | .u16 => 1
  | .u32 => 2
  | .i32 => 2
  | .f32 => 2
  | .u64 => 4
  | .i64 => 4
  | .f64 => 4
  | .blkU8 len => max 1 ((len + 1) / 2)
  | .blkU16 len => len

@[inherit_doc nwordsOf]
def nwords (d : RegDesc) : Nat := nwordsOf d.type

/-- `find(T, k)` on a coil table (R87). -/
def findCoil (T : List CoilDesc) (k : Nat) : Option CoilDesc := T.find? fun d => d.key.toNat = k

/-- `find(FILES, k)` (R87). -/
def findFile (T : List FileDesc) (k : Word) : Option FileDesc := T.find? fun d => d.key = k

/-- The address lies in the span of the descriptor (R88). -/
def covers (d : RegDesc) (a : Nat) : Bool := d.key.toNat ≤ a && a < d.key.toNat + nwords d

/-- `cover(T, a)` on a register table (R88). -/
def cover (T : List RegDesc) (a : Nat) : Option RegDesc := T.find? fun d => covers d a

/-- `off(d, a)` (R88). -/
def offset (d : RegDesc) (a : Nat) : Nat := a - d.key.toNat

/-! ## Word images (R92) -/

/-- The words of a byte block, high byte first; an odd last byte is padded with 0 (R92). -/
def pairBytes : List Byte → List Word
  | [] => []
  | [b] => [be16 b 0]
  | b :: c :: rest => be16 b c :: pairBytes rest

/-- `image(v)` of a constant (R92, R93): most significant word first. -/
def image (ty : RegType) (v : ConstValue) : List Word :=
  match ty, v with
  | .u8, .scalar p => [(p.extractLsb' 0 8).zeroExtend 16]
  | .u16, .scalar p => [p.extractLsb' 0 16]
  | .u32, .scalar p => [p.extractLsb' 16 16, p.extractLsb' 0 16]
  | .i32, .scalar p => [p.extractLsb' 16 16, p.extractLsb' 0 16]
  | .f32, .scalar p => [p.extractLsb' 16 16, p.extractLsb' 0 16]
  | .u64, .scalar p =>
    [p.extractLsb' 48 16, p.extractLsb' 32 16, p.extractLsb' 16 16, p.extractLsb' 0 16]
  | .i64, .scalar p =>
    [p.extractLsb' 48 16, p.extractLsb' 32 16, p.extractLsb' 16 16, p.extractLsb' 0 16]
  | .f64, .scalar p =>
    [p.extractLsb' 48 16, p.extractLsb' 32 16, p.extractLsb' 16 16, p.extractLsb' 0 16]
  | .blkU8 _, .bytes e => pairBytes e
  | .blkU16 _, .words e => e
  | _, _ => []

/-- What a write of word `w` at offset `j` stores (R92): a U8 keeps bits 7..0; the last word of an
odd-length byte block keeps bits 15..8. -/
def storedWord (ty : RegType) (j : Nat) (w : Word) : Word :=
  match ty with
  | .u8 => w &&& 0x00FF
  | .blkU8 len => if len % 2 = 1 ∧ j = len / 2 then w &&& 0xFF00 else w
  | _ => w

/-! ## The configuration invariants (R85, R565) -/

/-- A block type has at least one element (R84). -/
def typeValid : RegType → Bool
  | .blkU8 len => 1 ≤ len
  | .blkU16 len => 1 ≤ len
  | _ => true

/-- A constant is a value of the descriptor's type (R84; notes/assumptions/6.md). -/
def constFits : RegType → ConstValue → Bool
  | .blkU8 len, .bytes e => e.length = len
  | .blkU16 len, .words e => e.length = len
  | .blkU8 _, _ => false
  | .blkU16 _, _ => false
  | _, .scalar _ => true
  | _, _ => false

/-- A register descriptor by itself is valid: its type, its constant, and its span (R85 (4)). -/
def regDescValid (d : RegDesc) : Bool :=
  typeValid d.type && d.key.toNat + nwords d - 1 ≤ 0xFFFF
    && (match d.rmode with | .const v => constFits d.type v | _ => true)

/-- Every key lies after the span of the descriptor before it (R85 (1), (3)), from address `lo` on. -/
def regTableValidFrom (lo : Nat) : List RegDesc → Bool
  | [] => true
  | d :: rest =>
    lo ≤ d.key.toNat && regDescValid d && regTableValidFrom (d.key.toNat + nwords d) rest

/-- A register table is sorted, without duplicates and without overlaps (R85). -/
def regTableValid (T : List RegDesc) : Bool := regTableValidFrom 0 T

/-- Keys rise strictly (R85 (1), (2)), from `lo` on. -/
def keysRiseFrom (lo : Nat) : List Nat → Bool
  | [] => true
  | k :: rest => lo ≤ k && keysRiseFrom (k + 1) rest

/-- A coil table is sorted without duplicates (R85 (1)). -/
def coilTableValid (T : List CoilDesc) : Bool := keysRiseFrom 0 (T.map fun d => d.key.toNat)

/-- The file table is sorted without duplicates, and so is each record table (R85 (2), R565). -/
def fileTableValid (T : List FileDesc) : Bool :=
  keysRiseFrom 0 (T.map fun d => d.key.toNat) && T.all fun d => regTableValid d.records

/-- An ABSENT table is valid (R35). -/
def optValid {α : Type} (p : List α → Bool) : Option (List α) → Bool
  | none => true
  | some T => p T

/-- A valid configuration (R9, R32, R85, R565). -/
def configValid (c : InstanceConfig) : Bool :=
  1 ≤ c.slaveAddr.toNat && c.slaveAddr.toNat ≤ 247
    && optValid coilTableValid c.coils && optValid coilTableValid c.discrete
    && optValid regTableValid c.holding && optValid regTableValid c.input
    && optValid fileTableValid c.files

/-- Instance creation (R560): an invalid configuration is refused (R9, D43). -/
def createInstance (cfg : InstanceConfig) (world : World) : Answer :=
  if configValid cfg then .next (State.created cfg world) else .refused .invalidConfiguration

end Sys2Proof.Machine
end

