-- ==== Sys2Proof/Machine/Oracle.lean ====
section
/-! DEFINITION. Invoking the host's callbacks and lock predicates (spec/20_memory.md R111): each
invocation is recorded with its arguments, may change storage cells, and answers. A scripted answer
outside the callback's type faults (R112), and a command from inside a callback is refused (R575); where the
script is empty the answer is a free draw of the type (Sys2Proof/Config.lean). -/

namespace Sys2Proof.Machine

/-- One invocation: the call is recorded and counted and the storage cells change. The scripted answer is
given where there is one. -/
def invoke (c : HostCall) (w : World) : Option HostAnswer × World :=
  let called : World := { w with draws := w.draws + 1, calls := w.calls ++ [c] }
  match w.script with
  | [] => (none, called.changes (Config.hostCells w.draws))
  | d :: rest => (some d.answer, { called with script := rest }.changes d.cells)

/-- The contract an answer breaks that is none of the callback's own (R112): a re-entrant command is refused
(R575), every other answer is outside the callback's type. -/
def breach : HostAnswer → Stop
  | .reenters _ => .refuse .commandWhileBusy
  | _ => .fault .callbackAnswerType

/-- A predicate: true means "currently forbidden" (R111). -/
def askBool (c : HostCall) (w : World) : Res World Bool :=
  match invoke c w with
  | (none, w') => .val (Config.hostBool w.draws) w'
  | (some (.bool b), w') => .val b w'
  | (some a, _) => .stop (breach a)

/-- A callback that answers nothing (R111). -/
def askUnit (c : HostCall) (w : World) : Res World Unit :=
  match invoke c w with
  | (none, w') => .val () w'
  | (some .unit, w') => .val () w'
  | (some a, _) => .stop (breach a)

/-- A callback that answers a byte (R111 `read_exception_status`). -/
def askByte (c : HostCall) (w : World) : Res World Byte :=
  match invoke c w with
  | (none, w') => .val (Config.hostByte w.draws) w'
  | (some (.byte b), w') => .val b w'
  | (some a, _) => .stop (breach a)

/-- A callback that answers FAIL or a byte (R111 `coil_read_cb`). -/
def askByteOrFail (c : HostCall) (w : World) : Res World (Option Byte) :=
  match invoke c w with
  | (none, w') =>
    .val (if Config.hostFails w.draws then none else some (Config.hostByte w.draws)) w'
  | (some .fail, w') => .val none w'
  | (some (.byte b), w') => .val (some b) w'
  | (some a, _) => .stop (breach a)

/-- A callback that answers a word (R111 `read_diagnostics`). -/
def askWord (c : HostCall) (w : World) : Res World Word :=
  match invoke c w with
  | (none, w') => .val (Config.hostWord w.draws) w'
  | (some (.word v), w') => .val v w'
  | (some a, _) => .stop (breach a)

/-- A callback that answers FAIL or exactly `n` words (R111 `reg_read_cb`, R112). -/
def askWordsOrFail (n : Nat) (c : HostCall) (w : World) : Res World (Option (List Word)) :=
  match invoke c w with
  | (none, w') =>
    .val (if Config.hostFails w.draws then none
      else some ((List.range n).map (Config.hostWords w.draws))) w'
  | (some .fail, w') => .val none w'
  | (some (.words ws), w') =>
    if ws.length = n then .val (some ws) w' else .stop (.fault .callbackAnswerType)
  | (some a, _) => .stop (breach a)

/-- A callback that answers a status (R111 `coil_write_cb`, `reg_write_cb`). -/
def askStatus (c : HostCall) (w : World) : Res World Status :=
  match invoke c w with
  | (none, w') => .val (Config.hostStatus w.draws) w'
  | (some (.status code), w') =>
    match statusOfCode code with
    | some st => .val st w'
    | none => .stop (.fault .callbackAnswerType)
  | (some .halfWritten, _) => .stop (.fault .halfWrittenDescriptor)
  | (some a, _) => .stop (breach a)

/-- `handle_fn` (R272): a status and a body of at most 252 bytes. -/
def askStatusBody (c : HostCall) (w : World) : Res World (Status × List Byte) :=
  match invoke c w with
  | (none, w') => .val (Config.hostStatus w.draws, (Config.hostBody w.draws).take 252) w'
  | (some (.statusBody code body), w') =>
    match statusOfCode code with
    | none => .stop (.fault .callbackAnswerType)
    | some st =>
      if 252 < body.length then .stop (.fault .fallbackBodyTooLong) else .val (st, body) w'
  | (some a, _) => .stop (breach a)

/-- A notification the block makes only where the callback or hook is present (R36). -/
def notifyIf (present : Bool) (c : HostCall) (w : World) : Res World Unit :=
  if present then askUnit c w else .val () w

/-- A lock predicate, open where it is absent (R96, R97, R99, R100). -/
def lockedIf (present : Bool) (c : HostCall) (w : World) : Res World Bool :=
  if present then askBool c w else .val false w

end Sys2Proof.Machine
end

