-- ==== Sys2Proof/Machine/Accessors.lean ====
section
/-! DEFINITION. The accessor port of the object store (spec/20_memory.md R95 to R106). Each accessor works
on the storage and the host alone. -/

namespace Sys2Proof.Machine

/-- Coil read results (R95), and MISSING where no descriptor has the address (R300). -/
inductive CoilRead where
  | off
  | on
  | locked
  | noAccess
  | devFail
  | missing
deriving DecidableEq, Repr

/-- ON or OFF. -/
def CoilRead.ofBool (b : Bool) : CoilRead := if b then .on else .off

/-- `coil_read(d)` after its lock (R96). A bit index above 7 is DEV_FAIL (D39). -/
def coilReadOpen (d : CoilDesc) (w : World) : Res World CoilRead :=
  match d.rmode with
  | .none => .val .noAccess w
  | .const c => .val (.ofBool (c != 0)) w
  | .cell r b =>
    .val (if 7 < b then .devFail else .ofBool ((w.byteCells.read r).getLsbD b)) w
  | .cb => (askByteOrFail (.coilRead d) w).map fun x =>
      match x with
      | none => .devFail
      | some v => .ofBool (v != 0)

/-- `coil_read(d)` (R96). -/
def coilRead (d : CoilDesc) (w : World) : Res World CoilRead :=
  (lockedIf d.rlock (.coilRlock d) w).bind fun locked w =>
    if locked then .val .locked w else coilReadOpen d w

/-- `coil_write_allowed(d)` (R97): the write lock only; the write mode is not looked at. -/
def coilWriteAllowed (d : CoilDesc) (w : World) : Res World Bool :=
  (lockedIf d.wlock (.coilWlock d) w).map fun locked => !locked

/-- The store of `coil_write` (R98), before its hook. -/
def coilStore (d : CoilDesc) (v : Bool) (w : World) : Res World Status :=
  match d.wmode with
  | .none => .val .devFail w
  | .cell r b =>
    if 7 < b then .val .devFail w
    else .val .ok { w with byteCells := w.byteCells.writeBit r b v }
  | .cb => askStatus (.coilWrite d v) w

/-- `coil_write(d, v)` (R98): the hook runs after a successful write only (D20). -/
def coilWrite (d : CoilDesc) (v : Bool) (w : World) : Res World Status :=
  (coilStore d v w).bind fun st w =>
    if st = .ok then (notifyIf d.postWrite (.coilPostWrite d) w).map fun _ => .ok
    else .val st w

/-- Register read results (R95): the words emitted, or why there are none; MISSING where no descriptor
covers the address (R340). -/
inductive RegRead where
  | words (ws : List Word)
  | locked
  | noAccess
  | devFail
  | missing
deriving DecidableEq, Repr

/-- The lock and access checks of `reg_read` (R99), and in VALIDATE mode all of it: no read callback is
invoked. `none` is "go on". -/
def regReadDenied (d : RegDesc) (w : World) : Res World (Option RegRead) :=
  (lockedIf d.rlock (.regRlock d) w).map fun locked =>
    if locked then some .locked else if d.rmode = .none then some .noAccess else none

/-- The words `off .. off + k - 1` of the descriptor's image (R99, EMIT), once access is granted. -/
def regEmit (d : RegDesc) (off k : Nat) (w : World) : Res World RegRead :=
  match d.rmode with
  | .none => .val .noAccess w
  | .const v => .val (.words ((List.range k).map fun j => (image d.type v).getD (off + j) 0)) w
  | .ptr r => .val (.words ((List.range k).map fun j => w.wordCells.readWord r (off + j))) w
  | .cb => (askWordsOrFail (nwords d) (.regRead d) w).map fun x =>
      match x with
      | none => .devFail
      | some ws => .words ((List.range k).map fun j => ws.getD (off + j) 0)

/-- `reg_read(d, a, rem, EMIT, -)` (R99): the words emitted, `min(nwords(d) - off, rem)` of them. -/
def regRead (d : RegDesc) (a rem : Nat) (w : World) : Res World RegRead :=
  (regReadDenied d w).bind fun denied w =>
    match denied with
    | some r => .val r w
    | none => regEmit d (offset d a) (min (nwords d - offset d a) rem) w

/-- `reg_write_allowed(d, a, blk, rem, data)` (R100): the words that may be written, 0 for none. -/
def regWriteAllowed (d : RegDesc) (a blk rem : Nat) (data : List Word) (w : World) : Res World Nat :=
  match d.wmode with
  | .none => .val 0 w
  | .const _ => .val 0 w
  | mode =>
    (lockedIf d.wlock (.regWlock d a blk data) w).map fun locked =>
      let off := offset d a
      let k := min (nwords d - off) rem
      let typed := match mode with | .ptr _ => true | _ => false
      if locked then 0
      else if 0 < off && !d.allowPartialWrite then 0
      else if typed && k < nwords d - off && !d.allowPartialWrite then 0
      else k

/-- The words `data[0..k-1]` stored from offset `off` of `cell[r]` (R101, R92). -/
def storeWords (ty : RegType) (r : Nat) : (off : Nat) → List Word → Memory → Memory
  | _, [], mem => mem
  | off, v :: vs, mem => storeWords ty r (off + 1) vs (mem.writeWord r off (storedWord ty off v))

/-- The store of `reg_write` (R101), before its hook. It follows `regWriteAllowed`, which admits no other
write mode; one would be a write accessor failure (R500). -/
def regStore (d : RegDesc) (off k : Nat) (data : List Word) (w : World) : Res World Status :=
  match d.wmode with
  | .none => .val .devFail w
  | .const _ => .val .devFail w
  | .ptr r => .val .ok { w with wordCells := storeWords d.type r off (data.take k) w.wordCells }
  | .cb => askStatus (.regWrite d off k (data.take k)) w

/-- `reg_write(d, a, rem, data)` (R101): the status and the word count. -/
def regWrite (d : RegDesc) (a rem : Nat) (data : List Word) (w : World) : Res World (Status × Nat) :=
  let off := offset d a
  let k := min (nwords d - off) rem
  (regStore d off k data w).bind fun st w =>
    if st = .ok then (notifyIf d.postWrite (.regPostWrite d) w).map fun _ => (.ok, k)
    else .val (st, k) w

/-- `read_regs(T, addr, qty, base)` (R340) and `file_read` (R104), which share one text: ascending, one
access per descriptor; a missing, locked or denied word raises ILLEGAL_DATA_ADDR in the first position and
reads as 0 later. `fuel` bounds the accesses: each gives at least one word. -/
def readRegs (T : List RegDesc) :
    (fuel : Nat) → (first : Bool) → (a rem : Nat) → World → Res World (List Word)
  | 0, _, _, _, w => .val [] w
  | fuel + 1, first, a, rem, w =>
    if rem = 0 then .val [] w
    else
      (match cover T a with
        | none => Res.val RegRead.missing w
        | some d => regRead d a rem w).bind fun r w =>
        match r with
        | .words ws =>
          (readRegs T fuel false (a + ws.length) (rem - ws.length) w).map fun rest => ws ++ rest
        | .devFail => .raise .devFail w
        | _ =>
          if first then .raise .illegalDataAddr w
          else (readRegs T fuel false (a + 1) (rem - 1) w).map fun rest => 0 :: rest

/-- `validate_writes(T, addr, qty, W)` (R348) and `file_write_allowed` (R105), which share one text: every
target exists and may be written; no write happens. -/
def validateWrites (T : List RegDesc) (blk : Nat) :
    (fuel : Nat) → (a rem : Nat) → List Word → World → Res World Unit
  | 0, _, _, _, w => .val () w
  | fuel + 1, a, rem, data, w =>
    if rem = 0 then .val () w
    else
      match cover T a with
      | none => .raise .illegalDataAddr w
      | some d =>
        (regWriteAllowed d a blk rem data w).bind fun k w =>
          if k = 0 then .raise .illegalDataAddr w
          else validateWrites T blk fuel (a + k) (rem - k) (data.drop k) w

/-- The write loop of `apply_writes` (R349) and of `file_write` (R106): ascending, one write per
descriptor; the first status other than OK ends it, and the words written before stay. -/
def applyWrites (T : List RegDesc) :
    (fuel : Nat) → (a rem : Nat) → List Word → World → Res World Unit
  | 0, _, _, _, w => .val () w
  | fuel + 1, a, rem, data, w =>
    if rem = 0 then .val () w
    else
      match cover T a with
      | none => .raise .illegalDataAddr w
      | some d =>
        (regWrite d a rem data w).bind fun sk w =>
          if sk.1 = .ok then applyWrites T fuel (a + sk.2) (rem - sk.2) (data.drop sk.2) w
          else .raise sk.1 w

end Sys2Proof.Machine
end

