-- ==== Sys2Proof/Machine/Integrity.lean ====
section
/-! DEFINITION. Integrity codes and the ASCII hexadecimal codec (spec/40_framing.md R200 to R212). -/

namespace Sys2Proof.Machine

/-- One bit of the CRC (R201): shift right, XOR 0xA001 if the bit shifted out is 1. -/
def crcBit (c : Word) : Word := if c.getLsbD 0 then (c >>> 1) ^^^ 0xA001 else c >>> 1

/-- One byte of the CRC (R201): eight bits, LSB first. -/
def crcByte (c : Word) (b : Byte) : Word :=
  crcBit (crcBit (crcBit (crcBit (crcBit (crcBit (crcBit (crcBit (c ^^^ b.zeroExtend 16))))))))

/-- `crc16(b)` (R201): polynomial 0xA001, initial 0xFFFF, no final XOR. -/
def crc16 (b : List Byte) : Word := b.foldl crcByte 0xFFFF

/-- `lrc(b)` (R203): the two's complement of the sum of the bytes. -/
def lrc (b : List Byte) : Byte := - b.foldl (· + ·) 0

/-- A received RTU frame passes its CRC (R202): the trailer is low byte first. -/
def rtuPasses (f : List Byte) : Bool :=
  let n := f.length
  crc16 (f.take (n - 2)) = le16 (f.getD (n - 2) 0) (f.getD (n - 1) 0)

/-- A received ASCII image passes its LRC (R204). -/
def lrcPasses (bin : List Byte) : Bool :=
  lrc (bin.take (bin.length - 1)) = bin.getD (bin.length - 1) 0

/-- The value of a hex digit, upper case only (R210); `none` for every other character. -/
def hexValue (c : Byte) : Option Byte :=
  if 0x30 ≤ c ∧ c ≤ 0x39 then some (c - 0x30)
  else if 0x41 ≤ c ∧ c ≤ 0x46 then some (c - 0x37)
  else none

/-- `digit(v)` (R211). -/
def hexDigit (v : Byte) : Byte := if v ≤ 9 then 0x30 + v else 0x37 + v

/-- `hex(b)` of a byte (R211): high nibble first. -/
def hexByte (b : Byte) : List Byte := [hexDigit (b >>> 4), hexDigit (b &&& 0x0F)]

/-- `hex(s)` of a string (R211). -/
def hexString : List Byte → List Byte
  | [] => []
  | b :: rest => hexByte b ++ hexString rest

/-- `unhex` of one pair (R212). -/
def unhexPair (c1 c2 : Byte) : Option Byte :=
  match hexValue c1, hexValue c2 with
  | some v1, some v2 => some (v1 <<< 4 ||| v2)
  | _, _ => none

/-- The binary image of a character string (R232, R233); `none` if a character is no hex digit (or one is
left over, which R230's parity check rules out). -/
def unhexString : List Byte → Option (List Byte)
  | [] => some []
  | [_] => none
  | c1 :: c2 :: rest =>
    match unhexPair c1 c2, unhexString rest with
    | some b, some bs => some (b :: bs)
    | _, _ => none

/-- `RTU{a; p}` of body `a ++ p` (R165, R225). -/
def rtuFrame (body : List Byte) : List Byte := body ++ le16Bytes (crc16 body)

/-- `ASC{a; p}` of body `a ++ p` with a delimiter (R165, R236). -/
def asciiFrame (body : List Byte) (delim : Byte) : List Byte :=
  0x3A :: hexString (body ++ [lrc body]) ++ [0x0D, delim]

/-- `TCP{t; u; p}` with the header's first four bytes given (R165, R245). -/
def tcpFrame (header : List Byte) (unitId : Byte) (pdu : List Byte) : List Byte :=
  header ++ be16Bytes (BitVec.ofNat 16 (1 + pdu.length)) ++ unitId :: pdu

end Sys2Proof.Machine
end

