-- ==== Sys2Proof/Machine/Dispatcher.lean ====
section
/-! DEFINITION. The dispatcher's state machine and the framers' transmit step (spec/41_dispatcher.md R260
to R272, spec/40_framing.md R219, R225, R236, R245). Each phase runs on to the next phase (R60) and stops
where an instruction is fetched: in EXEC, or in IDLE. -/

namespace Sys2Proof.Machine

/-! ## Phase TX -/

/-- The output ADU of a response PDU (R225, R236, R245); for `RX_PDU` the PDU itself (R271). The framers'
registers must hold a value. -/
def framed (t : Txn) (pdu : List Byte) : Option (List Byte) :=
  match t.entry with
  | .pdu => some pdu
  | .rtu => t.addr.map fun a => rtuFrame (a :: pdu)
  | .ascii =>
    match t.addr, t.delim with
    | some a, some d => some (asciiFrame (a :: pdu) d)
    | _, _ => none
  | .tcp => some (tcpFrame (t.adu.take 4) (t.adu.getD 6 0) pdu)

/-- A broadcast: an accepted frame with address byte 0x00 (R218). `RX_PDU` has no address. -/
def isBroadcast (t : Txn) : Bool := t.entry != .pdu && t.addr = some Config.broadcastAddr

/-- Phase TX (R225, R236, R245, R271): a broadcast counts in `no_resp` and outputs nothing (R219); length 0
outputs nothing; otherwise the framed response goes out. -/
def transmit (s : State) : Answer :=
  match s.txn with
  | none => .fault .transactionRegisterUnwritten
  | some t =>
    if t.entry ≠ .pdu ∧ t.addr = none then .fault .transactionRegisterUnwritten
    else if isBroadcast t then .next (endCommand [] (s.count Counters.incNoResp))
    else
      match t.m, t.res with
      | none, _ => .fault .transactionRegisterUnwritten
      | some 0, _ => .next (endCommand [] s)
      | some _, none => .fault .transactionRegisterUnwritten
      | some m, some res =>
        match framed t (res.take m) with
        | none => .fault .transactionRegisterUnwritten
        | some out => .next (endCommand out { s with txn := some { t with out := some out } })

/-- The dispatcher returns `m` (R261) and the framer transmits. -/
def dispatcherReturns (m : Nat) (t : Txn) (s : State) : Answer :=
  transmit { s with phase := .tx, txn := some { t with m := some m } }

/-! ## Phase RESULT -/

/-- Step 9 (R270): no reply if the instance was or is listen-only. -/
def replyLength (wasListenOnly isListenOnly : Bool) (res : List Byte) : Nat :=
  if wasListenOnly || isListenOnly then 0 else res.length

/-- Steps 6 to 8 (R266 to R268): the exception path, or the normal one. -/
def applyStatus (fc : Byte) (st : Status) (wasListenOnly : Bool) (t : Txn) (s : State) : State :=
  if st = .ok then completeOk fc wasListenOnly s else takeException fc st wasListenOnly t s

/-- The rest of phase RESULT (R270), once steps 6 to 8 are done. -/
def returnReply (wasListenOnly : Bool) (s : State) : Answer :=
  match s.txn with
  | none => .fault .transactionRegisterUnwritten
  | some t =>
    match t.res with
    | none => .fault .transactionRegisterUnwritten
    | some res => dispatcherReturns (replyLength wasListenOnly s.regs.isListenOnly res) t s

/-- Phase RESULT (R266 to R270), for the function code `fc`. -/
def result (fc : Byte) (s : State) : Answer :=
  match s.txn with
  | none => .fault .transactionRegisterUnwritten
  | some t =>
    match t.status, t.wasListenOnly with
    | some st, some wl => returnReply wl (applyStatus fc st wl t s)
    | _, _ => .fault .transactionRegisterUnwritten

/-! ## Phase EXEC -/

/-- The handler's status and, on OK, its response PDU, written to the transaction registers; phase RESULT
follows (R265). -/
def State.handlerReturns (st : Status) (res : Option (List Byte)) (s : State) : State :=
  { s with
    phase := .result
    txn := s.txn.map fun t =>
      { t with status := some st, res := match res with | some r => some r | none => t.res } }

/-- A handler: it works on the state and answers the response PDU `res[0..res_len-1]` (R265). What it
wrote into `res` before raising a status is discarded (R265), so only the response of an OK is kept. -/
abbrev Handler := State → Res State (List Byte)

/-- Run a function code's handler and then phase RESULT (R264 to R270). -/
def runFunction (fc : Byte) (h : Handler) (s : State) : Answer :=
  if s.phase = .exec then
    match h s with
    | .val res s' => result fc (s'.handlerReturns .ok (some res))
    | .raise e s' => result fc (s'.handlerReturns e none)
    | .stop x => x.answer
  else .fault .handlerOutsideExec

/-- A handler that works on the storage and the host alone. -/
def onWorld {α : Type} (h : World → Res World α) (s : State) : Res State α :=
  match h s.world with
  | .val a w => .val a { s with world := w }
  | .raise e w => .raise e { s with world := w }
  | .stop x => .stop x

/-- `fallback()` (R272): `handle_fn` gets the whole request, and its body follows the function code. -/
def fallbackCall (req : List Byte) (w : World) : Res World (List Byte) :=
  (askStatusBody (.handleFn req) w).bind fun sb w =>
    if sb.1 = .ok then .val (req.headD 0 :: sb.2) w else .raise sb.1 w

/-- FALLBACK (R264): `handle_fn` if present, else ILLEGAL_FN. -/
def fallbackHandler (req : List Byte) (s : State) : Res State (List Byte) :=
  if s.cfg.callbacks.handleFn then onWorld (fallbackCall req) s else .raise .illegalFn s

/-- A function code that needs a table: ABSENT falls through to the fallback (R264, D21). -/
def withTable {α : Type} (table : Option (List α)) (req : List Byte)
    (h : List α → World → Res World (List Byte)) : Handler := fun s =>
  match table with
  | none => fallbackHandler req s
  | some T => onWorld (h T) s

/-! ## Phase GATE -/

/-- The restart request, the only one the listen-only gate passes (R262, D10). -/
def isRestart : List Byte → Bool
  | fc :: s1 :: s0 :: _ => fc = 0x08 && be16 s1 s0 = 0x0001
  | _ => false

/-- Steps 3 and 4 (R263): count, take the snapshot, start the response with the function code; phase EXEC
follows, where the function code is fetched from the request. -/
def enterExec (fc : Byte) (t : Txn) (s : State) : State :=
  { s.count Counters.incMsg with
    phase := .exec
    txn := some
      { t with wasListenOnly := some s.regs.isListenOnly, res := some [fc] } }

/-- Phase GATE (R260, R262, R263). -/
def gate (s : State) : Answer :=
  match s.txn with
  | none => .fault .transactionRegisterUnwritten
  | some t =>
    match t.req with
    | none => .fault .transactionRegisterUnwritten
    | some req =>
      if req.length < 1 ∨ Config.pduMax < req.length then dispatcherReturns 0 t s
      else if s.regs.isListenOnly ∧ ¬ isRestart req then
        dispatcherReturns 0 t (s.log (sendEvent .ok true))
      else .next (enterExec (req.headD 0) t s)

/-- The dispatcher is entered with a request (R224, R235, R244, R271). -/
def enterDispatcher (req : List Byte) (t : Txn) (s : State) : Answer :=
  gate { s with phase := .gate, txn := some { t with req := some req } }

/-- A command begins (R61, R62, R575): refused while another is in progress (D44), and on an invalid
configuration (R9). -/
def beginCommand (s : State) (k : State → Answer) : Answer :=
  if s.busy then .refused .commandWhileBusy
  else if configValid s.cfg then k { s with busy := true }
  else .refused .invalidConfiguration

/-- `RX_PDU(p)` (R271): the dispatcher is entered directly; no framer counter, no receive event (D51). -/
def execRxPdu (p : List Byte) (s : State) : Answer :=
  beginCommand s fun s => enterDispatcher p (Txn.start .pdu p) s

/-- `SET_STATUS(v)` (R41): the status word is written, nothing else changes, and the output is empty. -/
def execSetStatus (v : Word) (s : State) : Answer :=
  beginCommand s fun s => .next (endCommand [] { s with regs := { s.regs with status := v } })

/-- FC 0x11 Report Slave ID (R161, R272): not handled internally, the fallback. -/
def execReportSlaveId (body : List Byte) (s : State) : Answer :=
  runFunction 0x11 (fallbackHandler (0x11 :: body)) s

/-- Every function code that has no row of its own (R161, R272): the fallback. -/
def execFallback (fc : Byte) (body : List Byte) (s : State) : Answer :=
  runFunction fc (fallbackHandler (fc :: body)) s

end Sys2Proof.Machine
end

