-- ==== Sys2Proof/Machine/BitAccess.lean ====
section
/-! DEFINITION. Bit access: FC 0x01, 0x02, 0x05, 0x0F (spec/42_bit_access.md). -/

namespace Sys2Proof.Machine

/-- The bit loop of `read_bits` (R300), from coil `i` of the request on: a missing, locked or denied coil
raises ILLEGAL_DATA_ADDR in the first position and reads as 0 later. -/
def readBits (T : List CoilDesc) (addr : Nat) : (i n : Nat) → World → Res World (List Bool)
  | _, 0, w => .val [] w
  | i, n + 1, w =>
    (match findCoil T (addr + i) with
      | none => Res.val CoilRead.missing w
      | some d => coilRead d w).bind fun r w =>
      match r with
      | .on => (readBits T addr (i + 1) n w).map fun bits => true :: bits
      | .off => (readBits T addr (i + 1) n w).map fun bits => false :: bits
      | .devFail => .raise .devFail w
      | _ =>
        if i = 0 then .raise .illegalDataAddr w
        else (readBits T addr (i + 1) n w).map fun bits => false :: bits

/-- FC 0x01 and 0x02 (R301, R305): length, quantity, range, then `read_bits`. -/
def readBitsHandler (fc : Byte) (o : Form AddrQty) (T : List CoilDesc) (w : World) :
    Res World (List Byte) :=
  match o with
  | .badLength _ => .raise .illegalDataVal w
  | .fields f =>
    if qtyOutside f.qty.toNat 2000 then .raise .illegalDataVal w
    else if rangeOverflows f.addr.toNat f.qty.toNat then .raise .illegalDataAddr w
    else
      (readBits T f.addr.toNat 0 f.qty.toNat w).map fun bits =>
        fc :: countByte (ceilDiv8 f.qty.toNat) :: packBits (ceilDiv8 f.qty.toNat) bits

/-- FC 0x01 Read Coils (R301). -/
def execReadCoils (o : Form AddrQty) (s : State) : Answer :=
  runFunction 0x01
    (withTable s.cfg.coils (encodePdu (.readCoils o)) (readBitsHandler 0x01 o)) s

/-- FC 0x02 Read Discrete Inputs (R305). -/
def execReadDiscreteInputs (o : Form AddrQty) (s : State) : Answer :=
  runFunction 0x02
    (withTable s.cfg.discrete (encodePdu (.readDiscreteInputs o)) (readBitsHandler 0x02 o)) s

/-- FC 0x05 (R310): length, value, existence, write lock, write, commit; the response is the echo. -/
def writeCoilHandler (commit : Bool) (o : Form AddrValue) (T : List CoilDesc) (w : World) :
    Res World (List Byte) :=
  match o with
  | .badLength _ => .raise .illegalDataVal w
  | .fields f =>
    if f.value ≠ 0x0000 ∧ f.value ≠ 0xFF00 then .raise .illegalDataVal w
    else
      match findCoil T f.addr.toNat with
      | none => .raise .illegalDataAddr w
      | some d =>
        (coilWriteAllowed d w).bind fun allowed w =>
          if allowed then
            (coilWrite d (f.value = 0xFF00) w).bind fun st w =>
              if st = .ok then
                (notifyIf commit .commitCoilsWrite w).map fun _ => 0x05 :: encodeAddrValue f
              else .raise st w
          else .raise .illegalDataAddr w

/-- FC 0x05 Write Single Coil (R310). -/
def execWriteSingleCoil (o : Form AddrValue) (s : State) : Answer :=
  runFunction 0x05
    (withTable s.cfg.coils (encodePdu (.writeSingleCoil o))
      (writeCoilHandler s.cfg.callbacks.commitCoilsWrite o)) s

/-- The pre-validation loop of FC 0x0F (R315): every coil exists and its write lock is open; no write. -/
def validateCoils (T : List CoilDesc) : (a n : Nat) → World → Res World Unit
  | _, 0, w => .val () w
  | a, n + 1, w =>
    match findCoil T a with
    | none => .raise .illegalDataAddr w
    | some d =>
      (coilWriteAllowed d w).bind fun allowed w =>
        if allowed then validateCoils T (a + 1) n w else .raise .illegalDataAddr w

/-- The write loop of FC 0x0F (R315), from bit `i` on: ascending; a status other than OK ends it, and the
coils written before stay. -/
def writeCoils (T : List CoilDesc) (addr : Nat) (data : List Byte) :
    (i n : Nat) → World → Res World Unit
  | _, 0, w => .val () w
  | i, n + 1, w =>
    match findCoil T (addr + i) with
    | none => .raise .illegalDataAddr w
    | some d =>
      (coilWrite d (packedBit data i) w).bind fun st w =>
        if st = .ok then writeCoils T addr data (i + 1) n w else .raise st w

/-- FC 0x0F (R315): length, quantity, byte count, range, pre-validation, write, commit. -/
def writeCoilsHandler (commit : Bool) (o : Form MultiWrite) (T : List CoilDesc) (w : World) :
    Res World (List Byte) :=
  match o with
  | .badLength _ => .raise .illegalDataVal w
  | .fields f =>
    if qtyOutside f.qty.toNat 1968 then .raise .illegalDataVal w
    else if f.data.length ≠ ceilDiv8 f.qty.toNat then .raise .illegalDataVal w
    else if rangeOverflows f.addr.toNat f.qty.toNat then .raise .illegalDataAddr w
    else
      (validateCoils T f.addr.toNat f.qty.toNat w).bind fun _ w =>
        (writeCoils T f.addr.toNat f.data 0 f.qty.toNat w).bind fun _ w =>
          (notifyIf commit .commitCoilsWrite w).map fun _ =>
            0x0F :: (be16Bytes f.addr ++ be16Bytes f.qty)

/-- FC 0x0F Write Multiple Coils (R315). -/
def execWriteMultipleCoils (o : Form MultiWrite) (s : State) : Answer :=
  runFunction 0x0F
    (withTable s.cfg.coils (encodePdu (.writeMultipleCoils o))
      (writeCoilsHandler s.cfg.callbacks.commitCoilsWrite o)) s

end Sys2Proof.Machine
end

