-- ==== Sys2Proof/Machine/Diagnostics.lean ====
section
/-! DEFINITION. Diagnostics and events: FC 0x07, 0x08, 0x0B, 0x0C (spec/45_diagnostics.md). -/

namespace Sys2Proof.Machine

/-- A length the function code does not have is ILLEGAL_DATA_VAL (R274, R441). -/
def onFields {α : Type} (o : Form α) (h : α → Handler) : Handler := fun s =>
  match o with
  | .badLength _ => .raise .illegalDataVal s
  | .fields a => h a s

/-- A diagnostic sub-function whose data must be 0 (R445, R448 to R451). -/
def onZeroData (o : Form Word) (h : Handler) : Handler :=
  onFields o fun data s => if data = 0 then h s else .raise .illegalDataVal s

/-- The response `08 sub data` (R443). -/
def diagResponse (sub data : Word) : List Byte := encodeDiag sub (be16Bytes data)

/-- FC 0x07's handler (R440); without its callback it takes the fallback (R264, D21). -/
def exceptionStatusHandler (o : Form Unit) : Handler := fun s =>
  if s.cfg.callbacks.readExceptionStatus then
    onFields o
      (fun _ => onWorld fun w => (askByte .readExceptionStatus w).map fun v => [0x07, v]) s
  else fallbackHandler (encodePdu (.readExceptionStatus o)) s

/-- FC 0x07 Read Exception Status (R440). -/
def execReadExceptionStatus (o : Form Unit) (s : State) : Answer :=
  runFunction 0x07 (exceptionStatusHandler o) s

/-- The response of FC 0x0B (R460). -/
def eventCounterHandler : Handler := fun s =>
  .val (0x0B :: (be16Bytes s.regs.status ++ be16Bytes s.regs.counters.commEvent)) s

/-- FC 0x0B Get Comm Event Counter (R460). -/
def execGetCommEventCounter (o : Form Unit) (s : State) : Answer :=
  runFunction 0x0B (onFields o fun _ => eventCounterHandler) s

/-- The response of FC 0x0C (R462): the log is read before this request's send event is appended. -/
def eventLogResponse (r : Registers) : List Byte :=
  let events := r.ring.newestFirst
  0x0C :: countByte (6 + events.length)
    :: (be16Bytes r.status ++ be16Bytes r.counters.commEvent ++ be16Bytes r.counters.busMsg
      ++ events)

/-- FC 0x0C's handler (R462). -/
def eventLogHandler : Handler := fun s => .val (eventLogResponse s.regs) s

/-- FC 0x0C Get Comm Event Log (R462). -/
def execGetCommEventLog (o : Form Unit) (s : State) : Answer :=
  runFunction 0x0C (onFields o fun _ => eventLogHandler) s

/-- The handler of sub 0x0000 (R442): the echo of the request. -/
def queryDataHandler (data : List Byte) : Handler := fun s => .val (encodeDiag 0x0000 data) s

/-- Sub 0x0000 Return Query Data (R442). -/
def execDiagReturnQueryData (data : List Byte) (s : State) : Answer :=
  runFunction 0x08 (queryDataHandler data) s

/-- What a restart does to the instance registers (R444): listen-only is left, the counters are zeroed, and
the log is cleared (data 0xFF00) or gets COMM_RESTART. -/
def restartRegisters (data : Word) (r : Registers) : Registers :=
  let r := { r with isListenOnly := false }.resetCounters
  if data = 0xFF00 then { r with ring := r.ring.clear } else r.log commRestart

/-- The handler of sub 0x0001 (R444, D48): the data check, the host's restart callback, the registers. -/
def restartHandler (data : Word) : Handler := fun s =>
  if data ≠ 0x0000 ∧ data ≠ 0xFF00 then .raise .illegalDataVal s
  else
    (onWorld (notifyIf s.cfg.callbacks.requestRestart .requestRestart) s).bind fun _ s =>
      .val (diagResponse 0x0001 data) { s with regs := restartRegisters data s.regs }

/-- Sub 0x0001 Restart Communications Option (R444). -/
def execDiagRestartCommunications (o : Form Word) (s : State) : Answer :=
  runFunction 0x08 (onFields o restartHandler) s

/-- The diagnostic register (R445): the host's, or 0 without its callback. -/
def readDiagnosticRegister (present : Bool) (w : World) : Res World Word :=
  if present then askWord .readDiagnostics w else .val 0 w

/-- The handler of sub 0x0002 (R445). -/
def diagnosticRegisterHandler : Handler := fun s =>
  (onWorld (readDiagnosticRegister s.cfg.callbacks.readDiagnostics) s).map (diagResponse 0x0002)

/-- Sub 0x0002 Return Diagnostic Register (R445). -/
def execDiagReturnDiagnosticRegister (o : Form Word) (s : State) : Answer :=
  runFunction 0x08 (onZeroData o diagnosticRegisterHandler) s

/-- The handler of sub 0x0003 (R446): the high byte at most 127, the low byte 0. -/
def delimiterHandler (f : DelimField) : Handler := fun s =>
  if 127 < f.delim.toNat ∨ f.zero ≠ 0x00 then .raise .illegalDataVal s
  else .val (encodeDiag 0x0003 (encodeDelim f)) { s with regs := { s.regs with asciiDelimiter := f.delim } }

/-- Sub 0x0003 Change ASCII Input Delimiter (R446). -/
def execDiagChangeAsciiDelimiter (o : Form DelimField) (s : State) : Answer :=
  runFunction 0x08 (onFields o delimiterHandler) s

/-- The handler of sub 0x0004 (R448); its reply is suppressed by R270. -/
def listenOnlyHandler : Handler := fun s =>
  .val (diagResponse 0x0004 0)
    { s with regs := { s.regs with isListenOnly := true }.log enteredListenOnly }

/-- Sub 0x0004 Force Listen Only Mode (R448). -/
def execDiagForceListenOnly (o : Form Word) (s : State) : Answer :=
  runFunction 0x08 (onZeroData o listenOnlyHandler) s

/-- The handler of sub 0x000A (R449): the counters, then the host's reset callback. -/
def clearCountersHandler : Handler := fun s =>
  (onWorld (notifyIf s.cfg.callbacks.resetDiagnostics .resetDiagnostics)
    { s with regs := s.regs.resetCounters }).map fun _ => diagResponse 0x000A 0

/-- Sub 0x000A Clear Counters and Diagnostic Register (R449). -/
def execDiagClearCounters (o : Form Word) (s : State) : Answer :=
  runFunction 0x08 (onZeroData o clearCountersHandler) s

/-- The handler of subs 0x000B to 0x0012 (R450): the named counter. -/
def counterHandler (sub : Word) (c : Counters → Word) : Handler := fun s =>
  .val (diagResponse sub (c s.regs.counters)) s

/-- Subs 0x000B to 0x0012 (R450). -/
def returnCounter (sub : Word) (c : Counters → Word) (o : Form Word) (s : State) : Answer :=
  runFunction 0x08 (onZeroData o (counterHandler sub c)) s

/-- Sub 0x000B (R450): `bus_msg`. -/
def execDiagReturnBusMessageCount (o : Form Word) (s : State) : Answer :=
  returnCounter 0x000B Counters.busMsg o s

/-- Sub 0x000C (R450): `bus_comm_err`. -/
def execDiagReturnBusCommErrorCount (o : Form Word) (s : State) : Answer :=
  returnCounter 0x000C Counters.busCommErr o s

/-- Sub 0x000D (R450): `exception`. -/
def execDiagReturnExceptionErrorCount (o : Form Word) (s : State) : Answer :=
  returnCounter 0x000D Counters.exception o s

/-- Sub 0x000E (R450): `msg`. -/
def execDiagReturnServerMessageCount (o : Form Word) (s : State) : Answer :=
  returnCounter 0x000E Counters.msg o s

/-- Sub 0x000F (R450): `no_resp`. -/
def execDiagReturnServerNoResponseCount (o : Form Word) (s : State) : Answer :=
  returnCounter 0x000F Counters.noResp o s

/-- Sub 0x0010 (R450): `nak`. -/
def execDiagReturnNakCount (o : Form Word) (s : State) : Answer :=
  returnCounter 0x0010 Counters.nak o s

/-- Sub 0x0011 (R450): `busy`. -/
def execDiagReturnBusyCount (o : Form Word) (s : State) : Answer :=
  returnCounter 0x0011 Counters.busy o s

/-- Sub 0x0012 (R450): `bus_char_overrun`. -/
def execDiagReturnBusCharOverrunCount (o : Form Word) (s : State) : Answer :=
  returnCounter 0x0012 Counters.busCharOverrun o s

/-- The handler of sub 0x0014 (R451): `clear_overrun()` (R43). -/
def clearOverrunHandler : Handler := fun s =>
  .val (diagResponse 0x0014 0) { s with regs := s.regs.count Counters.clearOverrun }

/-- Sub 0x0014 Clear Overrun Counter and Flag (R451). -/
def execDiagClearOverrun (o : Form Word) (s : State) : Answer :=
  runFunction 0x08 (onZeroData o clearOverrunHandler) s

/-- FC 0x08 with no implemented sub-function: without a sub-function field ILLEGAL_DATA_VAL (R441), with
an unimplemented one ILLEGAL_FN, never passed to `handle_fn` (R452). -/
def unimplementedSubHandler (o : SubForm) : Handler := fun s =>
  match o with
  | .truncated _ => .raise .illegalDataVal s
  | .unknown _ _ => .raise .illegalFn s

/-- FC 0x08 without an implemented sub-function (R441, R452). -/
def execDiagUnimplementedSub (o : SubForm) (s : State) : Answer :=
  runFunction 0x08 (unimplementedSubHandler o) s

end Sys2Proof.Machine
end

