-- ==== Sys2Proof/Machine/FileRecord.lean ====
section
/-! DEFINITION. File records: FC 0x14, 0x15 (spec/44_file_record.md). -/

namespace Sys2Proof.Machine

/-- `check_sub` (R401, R402): the file descriptor of a sub-request, or the status it raises. -/
def checkSub (ext : Bool) (T : List FileDesc) (h : SubRequest) : Except Status FileDesc :=
  if h.refType ≠ 0x06 then .error .illegalDataVal
  else if h.recLen.toNat < 1 then .error .illegalDataVal
  else if h.fileNo = 0 then .error .illegalDataAddr
  else if !ext && 9999 < h.fileNo.toNat then .error .illegalDataAddr
  else if !ext && 0x270F < h.recNo.toNat then .error .illegalDataAddr
  else if rangeOverflows h.recNo.toNat h.recLen.toNat then .error .illegalDataAddr
  else
    match findFile T h.fileNo with
    | none => .error .illegalDataAddr
    | some F => .ok F

/-- Pass 1 of FC 0x14 (R405): every header is checked and the response length `rbc` summed up; no read. -/
def checkReads (ext : Bool) (T : List FileDesc) :
    (rbc : Nat) → List SubRequest → Except Status (List (FileDesc × SubRequest) × Nat)
  | rbc, [] => .ok ([], rbc)
  | rbc, h :: hs =>
    match checkSub ext T h with
    | .error e => .error e
    | .ok F =>
      if 245 < rbc + 2 + 2 * h.recLen.toNat then .error .illegalDataVal
      else
        match checkReads ext T (rbc + 2 + 2 * h.recLen.toNat) hs with
        | .error e => .error e
        | .ok (rest, total) => .ok ((F, h) :: rest, total)

/-- `file_read(F, rec_no, rec_len, -)` (R104). -/
def fileRead (F : FileDesc) (h : SubRequest) (w : World) : Res World (List Word) :=
  readRegs F.records h.recLen.toNat true h.recNo.toNat h.recLen.toNat w

/-- Pass 2 of FC 0x14 (R405): read in request order; each answer is its length, 0x06 and its words. -/
def readSubs : List (FileDesc × SubRequest) → World → Res World (List Byte)
  | [], w => .val [] w
  | (F, h) :: rest, w =>
    (fileRead F h w).bind fun ws w =>
      (readSubs rest w).map fun more =>
        countByte (1 + 2 * h.recLen.toNat) :: 0x06 :: (bytesOfWords ws ++ more)

/-- FC 0x14 (R405). -/
def readFileHandler (ext : Bool) (o : Form (List Byte)) (T : List FileDesc) (w : World) :
    Res World (List Byte) :=
  match o with
  | .badLength _ => .raise .illegalDataVal w
  | .fields data =>
    if data.length < 7 ∨ 245 < data.length ∨ data.length % 7 ≠ 0 then .raise .illegalDataVal w
    else
      match checkReads ext T 0 (takeHeaders (data.length / 7) data) with
      | .error e => .raise e w
      | .ok (subs, rbc) =>
        (readSubs subs w).map fun body => 0x14 :: countByte rbc :: body

/-- FC 0x14 Read File Record (R405). -/
def execReadFileRecord (o : Form (List Byte)) (s : State) : Answer :=
  runFunction 0x14
    (withTable s.cfg.files (encodePdu (.readFileRecord o)) (readFileHandler s.cfg.extFileRange o)) s

/-- A checked sub-request of FC 0x15: its file, its header and its data words `D_j` (R415). -/
structure FileWrite where
  file : FileDesc
  head : SubRequest
  data : List Word
deriving DecidableEq, Repr

/-- `file_write_allowed` (R105). -/
def fileWriteAllowed (f : FileWrite) (w : World) : Res World Unit :=
  validateWrites f.file.records f.head.recNo.toNat f.head.recLen.toNat f.head.recNo.toNat
    f.head.recLen.toNat f.data w

/-- Pass 1 of FC 0x15 (R415): parse the sub-requests to the exact end of the byte count and pre-validate
every target; no write. `fuel` bounds the sub-requests: each takes at least 7 bytes. -/
def checkFileWrites (ext : Bool) (T : List FileDesc) :
    (fuel : Nat) → List Byte → World → Res World (List FileWrite)
  | _, [], w => .val [] w
  | 0, _ :: _, w => .raise .illegalDataVal w
  | fuel + 1, data, w =>
    match takeHeader data with
    | none => .raise .illegalDataVal w
    | some (h, rest) =>
      if rest.length < 2 * h.recLen.toNat then .raise .illegalDataVal w
      else
        match checkSub ext T h with
        | .error e => .raise e w
        | .ok F =>
          let f : FileWrite := ⟨F, h, wordsOfBytes (rest.take (2 * h.recLen.toNat))⟩
          (fileWriteAllowed f w).bind fun _ w =>
            (checkFileWrites ext T fuel (rest.drop (2 * h.recLen.toNat)) w).map fun fs => f :: fs

/-- `file_write` (R106): an earlier word stays written when a later one fails. -/
def fileWrite (f : FileWrite) (w : World) : Res World Unit :=
  applyWrites f.file.records f.head.recLen.toNat f.head.recNo.toNat f.head.recLen.toNat f.data w

/-- Pass 2 of FC 0x15 (R415): apply in request order. -/
def applyFileWrites : List FileWrite → World → Res World Unit
  | [], w => .val () w
  | f :: fs, w => (fileWrite f w).bind fun _ w => applyFileWrites fs w

/-- FC 0x15 (R415): the response is the echo of the request. -/
def writeFileHandler (ext commit : Bool) (o : Form (List Byte)) (T : List FileDesc) (w : World) :
    Res World (List Byte) :=
  match o with
  | .badLength _ => .raise .illegalDataVal w
  | .fields data =>
    if data.length < 9 then .raise .illegalDataVal w
    else
      (checkFileWrites ext T data.length data w).bind fun fs w =>
        (applyFileWrites fs w).bind fun _ w =>
          (notifyIf commit .commitRegsWrite w).map fun _ => 0x15 :: encodeFileBytes data

/-- FC 0x15 Write File Record (R415). -/
def execWriteFileRecord (o : Form (List Byte)) (s : State) : Answer :=
  runFunction 0x15
    (withTable s.cfg.files (encodePdu (.writeFileRecord o))
      (writeFileHandler s.cfg.extFileRange s.cfg.callbacks.commitRegsWrite o)) s

end Sys2Proof.Machine
end

