-- ==== Sys2Proof/Machine/Framers.lean ====
section
/-! DEFINITION. The receive pipelines of the three framers (spec/40_framing.md R215 to R245): phases
RX_SHAPE, RX_CHECK and RX_FILTER. -/

namespace Sys2Proof.Machine

/-- `accept(a)` (R215). -/
def accept (c : InstanceConfig) (a : Byte) : Bool :=
  a = c.slaveAddr || a = Config.broadcastAddr || (c.defaultRespEn && a = Config.defaultRespAddr)

/-- `log_append(recv_event(extra))` (R216, R217). -/
def logReceive (extra : Byte) (s : State) : State := s.log (recvEvent s.regs.isListenOnly extra)

/-- An integrity failure (R222, R232, R233, R242): counted, logged with COMM_ERR, dropped. -/
def integrityFailure (s : State) : Answer :=
  drop (logReceive recvCommErr (s.count Counters.incBusCommErr))

/-- Phase RX_FILTER (R223 and R224, R234 and R235, R243 and R244), on the address byte and the request
PDU: a foreign address is logged and dropped; an accepted one is logged, with BROADCAST for address 0,
and the dispatcher is entered. -/
def filterAddress (addr : Byte) (req : List Byte) (t : Txn) (s : State) : Answer :=
  if accept s.cfg addr then
    enterDispatcher req { t with addr := some addr }
      (logReceive (if addr = Config.broadcastAddr then recvBroadcast else 0x00) s)
  else drop (logReceive 0x00 s)

/-! ## RTU -/

/-- RTU filter and dispatch (R223, R224): address `f[0]`, request `f[1..L-3]`. -/
def rtuFilter (t : Txn) (s : State) : Answer :=
  filterAddress (t.adu.getD 0 0) ((t.adu.take (t.adu.length - 2)).drop 1) t s

/-- RTU integrity (R222). -/
def rtuCheck (t : Txn) (s : State) : Answer :=
  if rtuPasses t.adu then rtuFilter t { s with phase := .rxFilter } else integrityFailure s

/-- RTU shape and count (R220, R221). -/
def rtuShape (t : Txn) (s : State) : Answer :=
  if t.adu.length < Config.rtuMin ∨ Config.rtuMax < t.adu.length then drop s
  else rtuCheck t { s.count Counters.incBusMsg with phase := .rxCheck }

/-! ## ASCII -/

/-- ASCII filter and dispatch (R234, R235): address `bin[0]`, request `bin[1..nb-2]`. -/
def asciiFilter (t : Txn) (s : State) : Answer :=
  match t.bin with
  | none => .fault .transactionRegisterUnwritten
  | some bin => filterAddress (bin.getD 0 0) ((bin.take (bin.length - 1)).drop 1) t s

/-- ASCII hex check, decode and LRC (R232, R233): the characters `a[1..L-3]`. -/
def asciiCheck (t : Txn) (s : State) : Answer :=
  match unhexString ((t.adu.take (t.adu.length - 2)).drop 1) with
  | none => integrityFailure s
  | some bin =>
    if lrcPasses bin then
      asciiFilter { t with bin := some bin }
        { s with phase := .rxFilter, txn := some { t with bin := some bin } }
    else integrityFailure s

/-- The shape of an ASCII frame (R230). -/
def asciiHasShape (a : List Byte) (delim : Byte) : Bool :=
  Config.asciiMin ≤ a.length && a.length ≤ Config.asciiMax && a.length % 2 = 1
    && a.getD 0 0 = 0x3A && a.getD (a.length - 2) 0 = 0x0D && a.getD (a.length - 1) 0 = delim

/-- ASCII shape and count (R230, R231): the delimiter is latched. -/
def asciiShape (t : Txn) (s : State) : Answer :=
  if asciiHasShape t.adu s.regs.asciiDelimiter then
    asciiCheck { t with delim := some s.regs.asciiDelimiter }
      { s.count Counters.incBusMsg with
        phase := .rxCheck, txn := some { t with delim := some s.regs.asciiDelimiter } }
  else drop s

/-! ## TCP -/

/-- TCP filter and dispatch (R243, R244): unit id `f[6]`, request `f[7..L-1]`. -/
def tcpFilter (t : Txn) (s : State) : Answer :=
  filterAddress (t.adu.getD 6 0) (t.adu.drop 7) t s

/-- TCP header check (R242): protocol id 0, length `L - 6`. -/
def tcpHeaderPasses (f : List Byte) : Bool :=
  be16 (f.getD 2 0) (f.getD 3 0) = 0 && (be16 (f.getD 4 0) (f.getD 5 0)).toNat = f.length - 6

@[inherit_doc tcpHeaderPasses]
def tcpCheck (t : Txn) (s : State) : Answer :=
  if tcpHeaderPasses t.adu then tcpFilter t { s with phase := .rxFilter } else integrityFailure s

/-- TCP shape and count (R240, R241). -/
def tcpShape (t : Txn) (s : State) : Answer :=
  if t.adu.length < Config.tcpMin ∨ Config.tcpMax < t.adu.length then drop s
  else tcpCheck t { s.count Counters.incBusMsg with phase := .rxCheck }

/-! ## The receive commands -/

/-- A receive command begins in phase RX_SHAPE with its string in `t.adu` (R60, R61). -/
def beginReceive (entry : Entry) (adu : List Byte) (shape : Txn → State → Answer) (s : State) : Answer :=
  beginCommand s fun s =>
    shape (Txn.start entry adu) { s with phase := .rxShape, txn := some (Txn.start entry adu) }

/-- `RX_RTU(f)` (R220 to R225): up to the dispatcher's fetch, or to the end of the command. -/
def execRxRtu (f : List Byte) (s : State) : Answer := beginReceive .rtu f rtuShape s

/-- `RX_ASCII(a)` (R230 to R236). -/
def execRxAscii (a : List Byte) (s : State) : Answer := beginReceive .ascii a asciiShape s

/-- `RX_TCP(f)` (R240 to R245). -/
def execRxTcp (f : List Byte) (s : State) : Answer := beginReceive .tcp f tcpShape s

/-! ## Resuming a phase -/

/-- A receive phase of the command in progress, by its framer; `RX_PDU` has none (R60, R271). -/
def receivePhase (rtu ascii tcp : Txn → State → Answer) (s : State) : Answer :=
  match s.txn with
  | none => .fault .transactionRegisterUnwritten
  | some t =>
    match t.entry with
    | .rtu => rtu t s
    | .ascii => ascii t s
    | .tcp => tcp t s
    | .pdu => .fault .sequencerOutOfOrder

/-- Phase RESULT of the command in progress: the function code is `req[0]` (R266). -/
def resultPhase (s : State) : Answer :=
  match s.txn with
  | none => .fault .transactionRegisterUnwritten
  | some t =>
    match t.req with
    | none => .fault .transactionRegisterUnwritten
    | some req => result (req.headD 0) s

end Sys2Proof.Machine
end

