-- ==== Sys2Proof/Machine/RegisterAccess.lean ====
section
/-! DEFINITION. Register access: FC 0x03, 0x04, 0x06, 0x10, 0x16, 0x17 (spec/43_register_access.md). -/

namespace Sys2Proof.Machine

/-- The response of a register read (R147): function code, byte count, words. -/
def wordsResponse (fc : Byte) (qty : Nat) (ws : List Word) : List Byte :=
  fc :: countByte (2 * qty) :: bytesOfWords ws

/-- FC 0x03 and 0x04 (R341, R345): length, quantity, range, then `read_regs`. -/
def readRegsHandler (fc : Byte) (o : Form AddrQty) (T : List RegDesc) (w : World) :
    Res World (List Byte) :=
  match o with
  | .badLength _ => .raise .illegalDataVal w
  | .fields f =>
    if qtyOutside f.qty.toNat 125 then .raise .illegalDataVal w
    else if rangeOverflows f.addr.toNat f.qty.toNat then .raise .illegalDataAddr w
    else
      (readRegs T f.qty.toNat true f.addr.toNat f.qty.toNat w).map
        (wordsResponse fc f.qty.toNat)

/-- FC 0x03 Read Holding Registers (R341). -/
def execReadHoldingRegisters (o : Form AddrQty) (s : State) : Answer :=
  runFunction 0x03
    (withTable s.cfg.holding (encodePdu (.readHoldingRegisters o)) (readRegsHandler 0x03 o)) s

/-- FC 0x04 Read Input Registers (R345). -/
def execReadInputRegisters (o : Form AddrQty) (s : State) : Answer :=
  runFunction 0x04
    (withTable s.cfg.input (encodePdu (.readInputRegisters o)) (readRegsHandler 0x04 o)) s

/-- FC 0x06 (R350): length, existence, write access, write, commit; the response is the echo. -/
def writeRegHandler (commit : Bool) (o : Form AddrValue) (T : List RegDesc) (w : World) :
    Res World (List Byte) :=
  match o with
  | .badLength _ => .raise .illegalDataVal w
  | .fields f =>
    match cover T f.addr.toNat with
    | none => .raise .illegalDataAddr w
    | some d =>
      (regWriteAllowed d f.addr.toNat f.addr.toNat 1 [f.value] w).bind fun k w =>
        if k = 0 then .raise .illegalDataAddr w
        else
          (regWrite d f.addr.toNat 1 [f.value] w).bind fun sk w =>
            if sk.1 = .ok then
              (notifyIf commit .commitRegsWrite w).map fun _ => 0x06 :: encodeAddrValue f
            else .raise sk.1 w

/-- FC 0x06 Write Single Register (R350). -/
def execWriteSingleRegister (o : Form AddrValue) (s : State) : Answer :=
  runFunction 0x06
    (withTable s.cfg.holding (encodePdu (.writeSingleRegister o))
      (writeRegHandler s.cfg.callbacks.commitRegsWrite o)) s

/-- `validate_writes` then `apply_writes` with its commit (R348, R349). -/
def writeRegs (commit : Bool) (T : List RegDesc) (addr qty : Nat) (data : List Word) (w : World) :
    Res World Unit :=
  (validateWrites T addr qty addr qty data w).bind fun _ w =>
    (applyWrites T qty addr qty data w).bind fun _ w => notifyIf commit .commitRegsWrite w

/-- FC 0x10 (R355): length, quantity, byte count, range, `validate_writes`, `apply_writes`. -/
def writeRegsHandler (commit : Bool) (o : Form MultiWrite) (T : List RegDesc) (w : World) :
    Res World (List Byte) :=
  match o with
  | .badLength _ => .raise .illegalDataVal w
  | .fields f =>
    if qtyOutside f.qty.toNat 123 then .raise .illegalDataVal w
    else if f.data.length ≠ 2 * f.qty.toNat then .raise .illegalDataVal w
    else if rangeOverflows f.addr.toNat f.qty.toNat then .raise .illegalDataAddr w
    else
      (writeRegs commit T f.addr.toNat f.qty.toNat (wordsOfBytes f.data) w).map fun _ =>
        0x10 :: (be16Bytes f.addr ++ be16Bytes f.qty)

/-- FC 0x10 Write Multiple Registers (R355). -/
def execWriteMultipleRegisters (o : Form MultiWrite) (s : State) : Answer :=
  runFunction 0x10
    (withTable s.cfg.holding (encodePdu (.writeMultipleRegisters o))
      (writeRegsHandler s.cfg.callbacks.commitRegsWrite o)) s

/-- The mask law of FC 0x16 (R360): "value' = (value & and) | (or & ~and)". -/
def maskedWord (v andMask orMask : Word) : Word := (v &&& andMask) ||| (orMask &&& ~~~andMask)

/-- FC 0x16 (R360): length, existence, write access, the current word, the write, commit. -/
def maskWriteHandler (commit : Bool) (o : Form MaskWrite) (T : List RegDesc) (w : World) :
    Res World (List Byte) :=
  match o with
  | .badLength _ => .raise .illegalDataVal w
  | .fields f =>
    match cover T f.addr.toNat with
    | none => .raise .illegalDataAddr w
    | some d =>
      (regWriteAllowed d f.addr.toNat f.addr.toNat 1 [f.andMask, f.orMask] w).bind fun k w =>
        if k = 0 then .raise .illegalDataAddr w
        else
          (regRead d f.addr.toNat 1 w).bind fun r w =>
            match r with
            | .words ws =>
              (regWrite d f.addr.toNat 1 [maskedWord (ws.headD 0) f.andMask f.orMask] w).bind
                fun sk w =>
                  if sk.1 = .ok then
                    (notifyIf commit .commitRegsWrite w).map fun _ => 0x16 :: encodeMaskWrite f
                  else .raise sk.1 w
            | .devFail => .raise .devFail w
            | _ => .raise .illegalDataAddr w

/-- FC 0x16 Mask Write Register (R360). -/
def execMaskWriteRegister (o : Form MaskWrite) (s : State) : Answer :=
  runFunction 0x16
    (withTable s.cfg.holding (encodePdu (.maskWriteRegister o))
      (maskWriteHandler s.cfg.callbacks.commitRegsWrite o)) s

/-- FC 0x17 (R365): length, quantities, byte count, ranges, the read start's pre-check, then the writes,
then the reads, which see the writes. -/
def readWriteHandler (commit : Bool) (o : Form ReadWrite) (T : List RegDesc) (w : World) :
    Res World (List Byte) :=
  match o with
  | .badLength _ => .raise .illegalDataVal w
  | .fields f =>
    if qtyOutside f.rq.toNat 125 then .raise .illegalDataVal w
    else if qtyOutside f.wq.toNat 121 then .raise .illegalDataVal w
    else if f.data.length ≠ 2 * f.wq.toNat then .raise .illegalDataVal w
    else if rangeOverflows f.raddr.toNat f.rq.toNat || rangeOverflows f.waddr.toNat f.wq.toNat then
      .raise .illegalDataAddr w
    else
      match cover T f.raddr.toNat with
      | none => .raise .illegalDataAddr w
      | some d =>
        (regReadDenied d w).bind fun denied w =>
          if denied.isSome then .raise .illegalDataAddr w
          else
            (writeRegs commit T f.waddr.toNat f.wq.toNat (wordsOfBytes f.data) w).bind fun _ w =>
              (readRegs T f.rq.toNat true f.raddr.toNat f.rq.toNat w).map
                (wordsResponse 0x17 f.rq.toNat)

/-- FC 0x17 Read/Write Multiple Registers (R365). -/
def execReadWriteMultipleRegisters (o : Form ReadWrite) (s : State) : Answer :=
  runFunction 0x17
    (withTable s.cfg.holding (encodePdu (.readWriteMultipleRegisters o))
      (readWriteHandler s.cfg.callbacks.commitRegsWrite o)) s

end Sys2Proof.Machine
end

