-- ==== Sys2Proof/Machine/Dispatch.lean ====
section
/-! DEFINITION. The meaning of every instruction, one arm each. -/

namespace Sys2Proof.Machine

def exec (i : Instr) (s : State) : Host.Outcome State Fault Refusal :=
  match i with
  | .rxRtu f => Sys2Proof.Machine.execRxRtu f s
  | .rxAscii a => Sys2Proof.Machine.execRxAscii a s
  | .rxTcp f => Sys2Proof.Machine.execRxTcp f s
  | .rxPdu p => Sys2Proof.Machine.execRxPdu p s
  | .setStatus v => Sys2Proof.Machine.execSetStatus v s
  | .readCoils o => Sys2Proof.Machine.execReadCoils o s
  | .readDiscreteInputs o => Sys2Proof.Machine.execReadDiscreteInputs o s
  | .readHoldingRegisters o => Sys2Proof.Machine.execReadHoldingRegisters o s
  | .readInputRegisters o => Sys2Proof.Machine.execReadInputRegisters o s
  | .writeSingleCoil o => Sys2Proof.Machine.execWriteSingleCoil o s
  | .writeSingleRegister o => Sys2Proof.Machine.execWriteSingleRegister o s
  | .readExceptionStatus o => Sys2Proof.Machine.execReadExceptionStatus o s
  | .getCommEventCounter o => Sys2Proof.Machine.execGetCommEventCounter o s
  | .getCommEventLog o => Sys2Proof.Machine.execGetCommEventLog o s
  | .writeMultipleCoils o => Sys2Proof.Machine.execWriteMultipleCoils o s
  | .writeMultipleRegisters o => Sys2Proof.Machine.execWriteMultipleRegisters o s
  | .readFileRecord o => Sys2Proof.Machine.execReadFileRecord o s
  | .writeFileRecord o => Sys2Proof.Machine.execWriteFileRecord o s
  | .maskWriteRegister o => Sys2Proof.Machine.execMaskWriteRegister o s
  | .readWriteMultipleRegisters o => Sys2Proof.Machine.execReadWriteMultipleRegisters o s
  | .diagReturnQueryData data => Sys2Proof.Machine.execDiagReturnQueryData data s
  | .diagRestartCommunications o => Sys2Proof.Machine.execDiagRestartCommunications o s
  | .diagReturnDiagnosticRegister o => Sys2Proof.Machine.execDiagReturnDiagnosticRegister o s
  | .diagChangeAsciiDelimiter o => Sys2Proof.Machine.execDiagChangeAsciiDelimiter o s
  | .diagForceListenOnly o => Sys2Proof.Machine.execDiagForceListenOnly o s
  | .diagClearCounters o => Sys2Proof.Machine.execDiagClearCounters o s
  | .diagReturnBusMessageCount o => Sys2Proof.Machine.execDiagReturnBusMessageCount o s
  | .diagReturnBusCommErrorCount o => Sys2Proof.Machine.execDiagReturnBusCommErrorCount o s
  | .diagReturnExceptionErrorCount o => Sys2Proof.Machine.execDiagReturnExceptionErrorCount o s
  | .diagReturnServerMessageCount o => Sys2Proof.Machine.execDiagReturnServerMessageCount o s
  | .diagReturnServerNoResponseCount o => Sys2Proof.Machine.execDiagReturnServerNoResponseCount o s
  | .diagReturnNakCount o => Sys2Proof.Machine.execDiagReturnNakCount o s
  | .diagReturnBusyCount o => Sys2Proof.Machine.execDiagReturnBusyCount o s
  | .diagReturnBusCharOverrunCount o => Sys2Proof.Machine.execDiagReturnBusCharOverrunCount o s
  | .diagClearOverrun o => Sys2Proof.Machine.execDiagClearOverrun o s
  | .diagUnimplementedSub o => Sys2Proof.Machine.execDiagUnimplementedSub o s
  | .reportSlaveId body => Sys2Proof.Machine.execReportSlaveId body s
  | .fallback fc body => Sys2Proof.Machine.execFallback fc body s

end Sys2Proof.Machine
end

