-- ==== Sys2Proof/Machine/Fetch.lean ====
section
/-! DEFINITION. Fetching. The sequencer's phase is the program counter (spec/10_state.md R31, R60): in IDLE
the host's next command is fetched, in EXEC the function code of the request; in any other phase the block
goes on with that phase. -/

namespace Sys2Proof.Machine

/-- What a step does: run an instruction on a state, or end with an answer that needs none. -/
inductive Fetch where
  | run (i : Instr) (s : State)
  | ends (a : Answer)

/-- Phase IDLE: the host's storage changes (R90, R566), then its next command (R125); without one the
block waits (R560). -/
def fetchCommand (s : State) : Fetch :=
  match s.pending with
  | [] => .ends (.next s)
  | r :: rest =>
    .run (decodeCommand r.command) { s with world := s.world.changes r.cells, pending := rest }

/-- Phase EXEC: the function code is decoded from the request (R160, R264). -/
def fetchFunction (s : State) : Fetch :=
  match s.txn with
  | none => .ends (.fault .transactionRegisterUnwritten)
  | some t =>
    match t.req with
    | none => .ends (.fault .transactionRegisterUnwritten)
    | some req =>
      match decodePdu req with
      | .ok i => .run i s
      | .error _ => .ends (.fault .undecodableRequest)

/-- What the next step does, by the sequencer's phase (R60). -/
def fetch (s : State) : Fetch :=
  match s.phase with
  | .idle => fetchCommand s
  | .rxShape => .ends (receivePhase rtuShape asciiShape tcpShape s)
  | .rxCheck => .ends (receivePhase rtuCheck asciiCheck tcpCheck s)
  | .rxFilter => .ends (receivePhase rtuFilter asciiFilter tcpFilter s)
  | .gate => .ends (gate s)
  | .exec => fetchFunction s
  | .result => .ends (resultPhase s)
  | .tx => .ends (transmit s)

/-- The transaction registers of an `RX_PDU` command the dispatcher has let in (R263, R271). -/
def fetchedTxn (req : List Byte) (listenOnly : Bool) : Txn :=
  { Txn.start .pdu req with
    req := some req
    res := some [req.headD 0]
    wasListenOnly := some listenOnly }

/-- The state in which phase EXEC fetches a request: as the `RX_PDU` command with that request leaves it
(notes/assumptions/12.md). -/
def placeRequest (req : List Byte) (s : State) : State :=
  { s with phase := .exec, busy := true, txn := some (fetchedTxn req s.regs.isListenOnly) }

end Sys2Proof.Machine
end

