-- ==== Sys2Proof/Machine/Step.lean ====
section
/-! DEFINITION. One step: fetch, then run the instruction (spec/10_state.md R60). Every step runs to the
next fetch. -/

namespace Sys2Proof.Machine

/-- One step. -/
def step (s : State) : Host.Outcome State Fault Refusal :=
  match fetch s with
  | .run i s' => exec i s'
  | .ends a => a

/-- The state with a table row's request where phase EXEC fetches it. -/
def State.withFetchWord (s : State) (nbits w : Nat) : State := placeRequest (tablePdu nbits w) s

end Sys2Proof.Machine
end

