-- ==== Sys2Proof/Safety.lean ====
section
/-! DEFINITION. What counts as a good state of the block, and the shape of a completed and of a failed
request, in the terms the statements use. -/

namespace Sys2Proof.Machine

/-! ## The invariant -/

/-- The delimiter stays in 0..127 (R37), and a ring that is not full has been written from position 0 on
(R50, R52, R54). -/
def Registers.good (r : Registers) : Bool :=
  r.asciiDelimiter.toNat ≤ 127 && (r.ring.count.val = 64 || r.ring.wpos.val = r.ring.count.val)

/-- The storage is in its canonical form. -/
def World.good (w : World) : Bool := w.byteCells.wf && w.wordCells.wf

/-- The registers phase TX reads for the framer hold a value (R225, R236, R245). -/
def Txn.framerReady (t : Txn) : Bool :=
  (t.entry == .pdu || t.addr.isSome) && (t.entry != .ascii || t.delim.isSome)

/-- The transaction registers as phase EXEC finds them: the request is a PDU, the snapshot is the current
mode, and in listen-only mode the request is the restart (R263, R515). -/
def Txn.ready (listenOnly : Bool) (t : Txn) : Bool :=
  match t.req with
  | none => false
  | some req =>
    1 ≤ req.length && req.length ≤ 253 && t.wasListenOnly == some listenOnly && t.res.isSome
      && t.framerReady && (!listenOnly || isRestart req)

/-- Between steps the block waits in IDLE with no transaction (R60, R61), or stands in EXEC with one; the
busy bit is 1 exactly in a transaction (R575). -/
def State.atFetch (s : State) : Bool :=
  match s.txn with
  | none => s.phase == .idle && !s.busy
  | some t => s.phase == .exec && s.busy && t.ready s.regs.isListenOnly

/-- The invariant of every step. -/
def State.inv (s : State) : Bool :=
  configValid s.cfg && s.regs.good && s.world.good && s.atFetch

/-- The host keeps its contract from here on: no scripted answer is left, so every answer is a free draw
of its callback's type (R111, R112). -/
def State.hostFree (s : State) : Bool := s.world.script.isEmpty

/-- The host broke its contract (R503): an answer outside its callback's type, a half-written descriptor
(U7), a fallback body too long, or a command from inside a callback. -/
def isContractStop (x : Stop) : Prop :=
  x = .fault .callbackAnswerType ∨ x = .fault .halfWrittenDescriptor
    ∨ x = .fault .fallbackBodyTooLong ∨ x = .refuse .commandWhileBusy

/-! ## Handlers at work -/

/-- A function code's handler is about to run (phase EXEC) in transaction `t` with snapshot `wl`. -/
def AtHandler (s : State) (t : Txn) (wl : Bool) : Prop :=
  s.phase = .exec ∧ s.txn = some t ∧ t.wasListenOnly = some wl ∧ t.framerReady = true

/-- What goes out for a response PDU: nothing for a broadcast (R219) or in listen-only mode (R270), else
the framed response (R225, R236, R245, R271). -/
def replyOf (t : Txn) (silent : Bool) (res : List Byte) : List Byte :=
  if isBroadcast t || silent then [] else (framed t res).getD []

/-- The end of a command with response PDU `res` (R60, R61, R219, R270): `no_resp` counts a broadcast, the
transaction is discarded, one output is returned, and nothing else changes. -/
def closed (t : Txn) (wl : Bool) (res : List Byte) (s : State) : State :=
  { s with
    regs := if isBroadcast t then s.regs.count Counters.incNoResp else s.regs
    phase := .idle
    busy := false
    txn := none
    outputs := s.outputs ++ [replyOf t (wl || s.regs.isListenOnly) res] }

/-- A request answered OK (R267, R268, R270): `comm_event` counts unless the function code is 0x08, 0x0B or
0x0C, one send event is logged, the response goes out. -/
def completed (fc : Byte) (t : Txn) (wl : Bool) (res : List Byte) (s : State) : State :=
  closed t wl res
    { s with
      regs :=
        { s.regs with
          counters :=
            if fc = 0x08 ∨ fc = 0x0B ∨ fc = 0x0C then s.regs.counters
            else { s.regs.counters with commEvent := s.regs.counters.commEvent + 1 }
          ring := s.regs.ring.append (if wl then 0x60 else 0x40) } }

/-- The wire exception codes of R500, written out here; OK has none. -/
def wireCode : Status → Byte
  | .ok => 0x00
  | .illegalFn => 0x01
  | .illegalDataAddr => 0x02
  | .illegalDataVal => 0x03
  | .devFail => 0x04
  | .ack => 0x05
  | .busy => 0x06
  | .negAck => 0x07
  | .memParErr => 0x08

/-- The exception bits of a send event by wire code (R269, R501), written out here: 0x01 for the codes 1 to 3,
0x02 for 4, 0x04 for 5 and 6, 0x08 for 7, none for 8. -/
def eventBits (code : Byte) : Byte :=
  if code = 0x00 then 0x00
  else if code.toNat ≤ 3 then 0x01
  else if code = 0x04 then 0x02
  else if code.toNat ≤ 6 then 0x04
  else if code = 0x07 then 0x08
  else 0x00

/-- A request answered with an exception (R266, R268, R270, R508): `exception` counts, `nak` for NEG_ACK,
`busy` for BUSY, one send event is logged, `[fc | 0x80, code]` goes out, and nothing else changes. -/
def failed (fc : Byte) (t : Txn) (wl : Bool) (e : Status) (s : State) : State :=
  closed t wl [fc ||| 0x80, wireCode e]
    { s with
      regs :=
        { s.regs with
          counters :=
            { s.regs.counters with
              exception := s.regs.counters.exception + 1
              nak := if e = .negAck then s.regs.counters.nak + 1 else s.regs.counters.nak
              busy := if e = .busy then s.regs.counters.busy + 1 else s.regs.counters.busy }
          ring :=
            s.regs.ring.append ((if wl then 0x60 else 0x40) ||| eventBits (wireCode e)) } }

/-- The end of a request that a status decides: answered with `res` on OK, with the exception otherwise. -/
def ended (fc : Byte) (t : Txn) (wl : Bool) (res : List Byte) (e : Status) (s : State) : State :=
  if e = .ok then completed fc t wl res s else failed fc t wl e s

/-- The end of a request that reads: answered with what was read, or with the exception. -/
def answered {α : Type} (fc : Byte) (t : Txn) (wl : Bool) (res : List α → List Byte)
    (out : Except Status (List α)) (s : State) : State :=
  match out with
  | .ok xs => completed fc t wl (res xs) s
  | .error e => failed fc t wl e s

/-! ## The object store as a requester sees it -/

/-- A coil without a read lock and without a read callback: what R96 reads of it. `none` is a coil the
block cannot read (no access, or a bit index above 7). -/
def coilValue (w : World) (d : CoilDesc) : Option Bool :=
  match d.rmode with
  | .const c => some (c != 0)
  | .cell r b => if b ≤ 7 then some ((w.byteCells.read r).getLsbD b) else none
  | _ => none

/-- The coil does not ask the host when it is read, and its bit index is one of a byte's. -/
def plainCoilRead (d : CoilDesc) : Bool :=
  !d.rlock
    && (match d.rmode with | .none => true | .const _ => true | .cell _ b => b ≤ 7 | .cb => false)

/-- Every coil of the table is such a coil. -/
def plainCoilReads (T : List CoilDesc) : Bool := T.all plainCoilRead

/-- The bit a requester reads at an address of such a table, 0 where there is none (R300). -/
def coilBit (w : World) (T : List CoilDesc) (a : Nat) : Bool :=
  match findCoil T a with
  | none => false
  | some d => (coilValue w d).getD false

/-- Every coil of the `n` addresses from `a` on is such a coil. -/
def plainCoilReadsOn (T : List CoilDesc) (a n : Nat) : Bool :=
  (List.range n).all fun i => (findCoil T (a + i)).all plainCoilRead

/-- The address has a readable coil. -/
def coilReadable (T : List CoilDesc) (a : Nat) : Bool :=
  match findCoil T a with
  | none => false
  | some d => d.rmode != .none

/-- The register does not ask the host when it is read. -/
def plainRegRead (d : RegDesc) : Bool := !d.rlock && d.rmode != .cb

/-- Every register of the table is such a register. -/
def plainRegReads (T : List RegDesc) : Bool := T.all plainRegRead

/-- Every register of the `n` addresses from `a` on is such a register. -/
def plainRegReadsOn (T : List RegDesc) (a n : Nat) : Bool :=
  (List.range n).all fun i => (cover T (a + i)).all plainRegRead

/-- The word a requester reads at an address of such a table, 0 where there is none (R340). -/
def regWord (w : World) (T : List RegDesc) (a : Nat) : Word :=
  match cover T a with
  | none => 0
  | some d =>
    match d.rmode with
    | .const v => (image d.type v).getD (offset d a) 0
    | .ptr r => w.wordCells.readWord r (offset d a)
    | _ => 0

/-- The address has a readable register. -/
def regReadable (T : List RegDesc) (a : Nat) : Bool :=
  match cover T a with
  | none => false
  | some d => d.rmode != .none

/-- The host's side after a notification that is made only where `present` (R36), when the host keeps its
contract. -/
def notified (present : Bool) (c : HostCall) (w : World) : World :=
  if present then (invoke c w).2 else w

/-- The host keeps its contract for the next notification, if there is one: it has no scripted answer left, or
answers nothing (R111). -/
def listens (present : Bool) (w : World) : Bool :=
  !present
    || (match w.script with
        | [] => true
        | d :: _ => d.answer == .unit)

/-- Where a write to one address of a register table goes when no host software has a say in it: the word
array, the word of it and the type, of a descriptor written by pointer with no write lock and no hook. -/
def regTarget (T : List RegDesc) (a : Nat) : Option (Nat × Nat × RegType) :=
  match cover T a with
  | none => none
  | some d =>
    if !d.wlock && !d.postWrite then
      match d.wmode with
      | .ptr r => some (r, offset d a, d.type)
      | _ => none
    else none

/-- Where a write to one address of a coil table goes when no host software has a say in it: the byte cell
and the bit. -/
def coilTarget (T : List CoilDesc) (a : Nat) : Option (Nat × Nat) :=
  match findCoil T a with
  | none => none
  | some d =>
    if !d.wlock && !d.postWrite then
      match d.wmode with
      | .cell r b => if b ≤ 7 then some (r, b) else none
      | _ => none
    else none

/-- Every one of the `n` addresses from `a` on is such a register. -/
def plainRegTargets (T : List RegDesc) (a n : Nat) : Bool :=
  (List.range n).all fun i => (regTarget T (a + i)).isSome

/-- Every one of the `n` addresses from `a` on is such a coil. -/
def plainCoilTargets (T : List CoilDesc) (a n : Nat) : Bool :=
  (List.range n).all fun i => (coilTarget T (a + i)).isSome

/-- The block of `n` addresses from `a` on cuts no descriptor that forbids partial writes (R100). -/
def wholeWrites (T : List RegDesc) (a n : Nat) : Bool :=
  (List.range n).all fun i =>
    match cover T (a + i) with
    | none => false
    | some d => d.allowPartialWrite || (a ≤ d.key.toNat && d.key.toNat + nwords d ≤ a + n)

/-- A register that a write to the block of `n` addresses from `a` on cannot write, whatever its lock says
(R100): it has no write access, or the block cuts it and it forbids partial writes. A callback register may be
cut at the end of the block (D38). -/
def refusesWrite (d : RegDesc) (a n : Nat) : Bool :=
  match d.wmode with
  | .none => true
  | .const _ => true
  | .ptr _ => !d.allowPartialWrite && (d.key.toNat < a || a + n < d.key.toNat + nwords d)
  | .cb => !d.allowPartialWrite && d.key.toNat < a

/-- Address `b` of that block has no register, or one that cannot be written (R348, R105). -/
def unwritable (T : List RegDesc) (a n b : Nat) : Bool :=
  match cover T b with
  | none => true
  | some d => refusesWrite d a n

/-- A write asks the register's lock: it has one, and write access (R100). -/
def asksWriteLock (d : RegDesc) : Bool :=
  d.wlock && (match d.wmode with | .ptr _ => true | .cb => true | _ => false)

/-- No register of the `n` addresses from `a` on asks a lock when it is written. -/
def unlockedWrites (T : List RegDesc) (a n : Nat) : Bool :=
  (List.range n).all fun i => (cover T (a + i)).all fun d => !asksWriteLock d

/-- The first `m` addresses of the block of `n` from `a` on may be written with no lock to ask. -/
def openWrites (T : List RegDesc) (a n m : Nat) : Bool :=
  unlockedWrites T a m && (List.range m).all fun i => !unwritable T a n (a + i)

/-- The `n` addresses from `a` on have coils, none with a write lock: what R97 admits without asking. -/
def openCoils (T : List CoilDesc) (a n : Nat) : Bool :=
  (List.range n).all fun i => (findCoil T (a + i)).any fun d => !d.wlock

/-- One word stored at an address (R92, R101). -/
def storeReg (T : List RegDesc) (a : Nat) (v : Word) (m : Memory) : Memory :=
  match regTarget T a with
  | none => m
  | some (r, off, ty) => m.writeWord r off (storedWord ty off v)

/-- Words stored from address `a` on, in ascending order (R349). -/
def storeRegs (T : List RegDesc) : (a : Nat) → List Word → Memory → Memory
  | _, [], m => m
  | a, v :: vs, m => storeRegs T (a + 1) vs (storeReg T a v m)

/-- One bit stored at an address (R98). -/
def storeCoil (T : List CoilDesc) (a : Nat) (v : Bool) (m : Memory) : Memory :=
  match coilTarget T a with
  | none => m
  | some (r, b) => m.writeBit r b v

/-- Bits stored from address `a` on, in ascending order (R315). -/
def storeCoils (T : List CoilDesc) : (a : Nat) → List Bool → Memory → Memory
  | _, [], m => m
  | a, v :: vs, m => storeCoils T (a + 1) vs (storeCoil T a v m)

/-- The first `n` packed bits of a request (R151). -/
def requestBits (data : List Byte) (n : Nat) : List Bool := (List.range n).map (packedBit data)

/-- A byte of the word storage that no write to the `n` addresses from `a` on stores to. -/
def outsideRegs (T : List RegDesc) (a n b : Nat) : Prop :=
  ∀ i < n, ∀ x, regTarget T (a + i) = some x → b ≠ wordAddr x.1 x.2.1 ∧ b ≠ wordAddr x.1 x.2.1 + 1

/-- A byte of the byte storage that no write to the `n` addresses from `a` on stores to. -/
def outsideCoils (T : List CoilDesc) (a n b : Nat) : Prop :=
  ∀ i < n, ∀ x, coilTarget T (a + i) = some x → b ≠ x.1

/-- The words a requester reads at `n` addresses from `a` on (R340). -/
def regWords (w : World) (T : List RegDesc) (a n : Nat) : List Word :=
  (List.range n).map fun i => regWord w T (a + i)

/-- The bits a requester reads at `n` addresses from `a` on (R300). -/
def coilBits (w : World) (T : List CoilDesc) (a n : Nat) : List Bool :=
  (List.range n).map fun i => coilBit w T (a + i)

/-- The bytes of a sub-request header (R400). -/
def headerBytes (h : SubRequest) : List Byte :=
  h.refType :: (be16Bytes h.fileNo ++ be16Bytes h.recNo ++ be16Bytes h.recLen)

/-- The records of a file, none where it does not exist. -/
def recordsOf (T : List FileDesc) (h : SubRequest) : List RegDesc :=
  match findFile T h.fileNo with
  | none => []
  | some F => F.records

/-- A sub-request header that R401 accepts. -/
def headerValid (ext : Bool) (T : List FileDesc) (h : SubRequest) : Bool :=
  h.refType = 0x06 && 1 ≤ h.recLen.toNat && 1 ≤ h.fileNo.toNat
    && (ext || (h.fileNo.toNat ≤ 9999 && h.recNo.toNat ≤ 0x270F))
    && h.recNo.toNat + h.recLen.toNat ≤ 0x10000 && (findFile T h.fileNo).isSome

/-- What R401 and R402 raise for a header. -/
def HeaderRaises (ext : Bool) (T : List FileDesc) (h : SubRequest) (e : Status) : Prop :=
  e = .illegalDataVal ∧ (h.refType ≠ 0x06 ∨ h.recLen = 0x0000)
    ∨ e = .illegalDataAddr ∧ h.refType = 0x06 ∧ h.recLen ≠ 0x0000
      ∧ (h.fileNo = 0x0000 ∨ ext = false ∧ (9999 < h.fileNo.toNat ∨ 0x270F < h.recNo.toNat)
        ∨ 0x10000 < h.recNo.toNat + h.recLen.toNat ∨ findFile T h.fileNo = none)

/-- The response bytes of sub-requests of FC 0x14 (R405 `rbc`). -/
def answerSize (subs : List SubRequest) : Nat := (subs.map fun h => 2 + 2 * h.recLen.toNat).sum

/-- The bytes of sub-requests of FC 0x15, each a header and its data (R400). -/
def fileWriteBytes (subs : List (SubRequest × List Word)) : List Byte :=
  subs.flatMap fun x => headerBytes x.1 ++ bytesOfWords x.2

/-- A sub-request of FC 0x15 that pass 1 of R415 accepts with no lock to ask. -/
def openFileWrite (ext : Bool) (T : List FileDesc) (x : SubRequest × List Word) : Bool :=
  headerValid ext T x.1 && x.2.length = x.1.recLen.toNat
    && openWrites (recordsOf T x.1) x.1.recNo.toNat x.1.recLen.toNat x.1.recLen.toNat

/-- The words of sub-requests of FC 0x15 stored in request order (R415). -/
def storeFiles (T : List FileDesc) (subs : List (SubRequest × List Word)) (m : Memory) : Memory :=
  subs.foldl (fun m x => storeRegs (recordsOf T x.1) x.1.recNo.toNat x.2 m) m

/-! ## What the host answers

The host answers a call as its script says next, or by a free draw of the answer's type where the script is empty
(R111; notes/assumptions/14.md and 1.md). -/

/-- A predicate answers `b`. -/
def SaysBool (c : HostCall) (w : World) (b : Bool) (w' : World) : Prop :=
  invoke c w = (some (.bool b), w') ∨ invoke c w = (none, w') ∧ b = Config.hostBool w.draws

/-- A coil read callback answers a byte, or FAIL. -/
def SaysByte (c : HostCall) (w : World) (x : Option Byte) (w' : World) : Prop :=
  invoke c w = (some (match x with | none => .fail | some v => .byte v), w')
    ∨ invoke c w = (none, w')
      ∧ x = if Config.hostFails w.draws then none else some (Config.hostByte w.draws)

/-- A register read callback answers `n` words, or FAIL. -/
def SaysWords (n : Nat) (c : HostCall) (w : World) (x : Option (List Word)) (w' : World) : Prop :=
  invoke c w = (some (match x with | none => .fail | some ws => .words ws), w')
      ∧ (∀ ws, x = some ws → ws.length = n)
    ∨ invoke c w = (none, w')
      ∧ x = if Config.hostFails w.draws then none
        else some ((List.range n).map (Config.hostWords w.draws))

/-- A write callback answers a status, by its wire code. -/
def SaysStatus (c : HostCall) (w : World) (e : Status) (w' : World) : Prop :=
  invoke c w = (some (.status (wireCode e)), w')
    ∨ invoke c w = (none, w') ∧ e = Config.hostStatus w.draws

/-- A lock predicate: open where it is absent (R96, R97, R99, R100). -/
def LockSays (present : Bool) (c : HostCall) (w : World) (locked : Bool) (w' : World) : Prop :=
  if present then SaysBool c w locked w' else locked = false ∧ w' = w

/-- A hook or a commit: run only where it is present (R36, R98, R101). -/
def Told (present : Bool) (c : HostCall) (w w' : World) : Prop :=
  if present then invoke c w = (some .unit, w') ∨ invoke c w = (none, w') else w' = w

/-! ## Reads, whatever the host answers -/

/-- What reading a coil gives (R96). -/
def CoilSays (d : CoilDesc) (w : World) (r : CoilRead) (w' : World) : Prop :=
  ∃ locked w1, LockSays d.rlock (.coilRlock d) w locked w1
    ∧ if locked then r = .locked ∧ w' = w1
      else
        match d.rmode with
        | .none => r = .noAccess ∧ w' = w1
        | .const c => r = (if c = 0x00 then .off else .on) ∧ w' = w1
        | .cell p b =>
          r = (if 7 < b then .devFail
            else if (w1.byteCells.read p).getLsbD b then .on else .off) ∧ w' = w1
        | .cb => ∃ x, SaysByte (.coilRead d) w1 x w'
          ∧ r = match x with
            | none => .devFail
            | some v => if v = 0x00 then .off else .on

/-- Reading address `a` gives no value: there is no coil, or it is locked or has no read access (R300). -/
def CoilDenied (T : List CoilDesc) (a : Nat) (w w' : World) : Prop :=
  findCoil T a = none ∧ w' = w
    ∨ ∃ d, findCoil T a = some d ∧ (CoilSays d w .locked w' ∨ CoilSays d w .noAccess w')

/-- What reading `n` coils from address `a` on gives (R300). -/
inductive CoilsRead (T : List CoilDesc) :
    (first : Bool) → (a n : Nat) → World → Except Status (List Bool) → World → Prop
  | done {first : Bool} {a : Nat} {w : World} : CoilsRead T first a 0 w (.ok []) w
  | bit {first v : Bool} {a n : Nat} {d : CoilDesc} {w w1 w' : World}
      {out : Except Status (List Bool)} : findCoil T a = some d →
      CoilSays d w (if v then .on else .off) w1 → CoilsRead T false (a + 1) n w1 out w' →
      CoilsRead T first a (n + 1) w (out.map fun bits => v :: bits) w'
  | fails {first : Bool} {a n : Nat} {d : CoilDesc} {w w' : World} : findCoil T a = some d →
      CoilSays d w .devFail w' → CoilsRead T first a (n + 1) w (.error .devFail) w'
  | denied {a n : Nat} {w w' : World} : CoilDenied T a w w' →
      CoilsRead T true a (n + 1) w (.error .illegalDataAddr) w'
  | zero {a n : Nat} {w w1 w' : World} {out : Except Status (List Bool)} : CoilDenied T a w w1 →
      CoilsRead T false (a + 1) n w1 out w' →
      CoilsRead T false a (n + 1) w (out.map fun bits => false :: bits) w'

/-- What reading a register at address `a`, with `n` words left to read, gives (R99). -/
def RegSays (d : RegDesc) (a n : Nat) (w : World) (r : RegRead) (w' : World) : Prop :=
  ∃ locked w1, LockSays d.rlock (.regRlock d) w locked w1
    ∧ if locked then r = .locked ∧ w' = w1
      else
        let off := a - d.key.toNat
        let k := min (nwords d - off) n
        match d.rmode with
        | .none => r = .noAccess ∧ w' = w1
        | .const v =>
          r = .words ((List.range k).map fun j => (image d.type v).getD (off + j) 0) ∧ w' = w1
        | .ptr p =>
          r = .words ((List.range k).map fun j => w1.wordCells.readWord p (off + j)) ∧ w' = w1
        | .cb => ∃ x, SaysWords (nwords d) (.regRead d) w1 x w'
          ∧ r = match x with
            | none => .devFail
            | some ws => .words ((ws.drop off).take n)

/-- Reading address `a` gives no value: there is no register, or it is locked or has no read access (R340). -/
def RegDenied (T : List RegDesc) (a n : Nat) (w w' : World) : Prop :=
  cover T a = none ∧ w' = w
    ∨ ∃ d, cover T a = some d ∧ (RegSays d a n w .locked w' ∨ RegSays d a n w .noAccess w')

/-- What reading `n` words from address `a` on gives (R104, R340). -/
inductive RegsRead (T : List RegDesc) :
    (first : Bool) → (a n : Nat) → World → Except Status (List Word) → World → Prop
  | done {first : Bool} {a : Nat} {w : World} : RegsRead T first a 0 w (.ok []) w
  | words {first : Bool} {a n : Nat} {d : RegDesc} {ws : List Word} {w w1 w' : World}
      {out : Except Status (List Word)} : 0 < n → cover T a = some d →
      RegSays d a n w (.words ws) w1 →
      RegsRead T false (a + ws.length) (n - ws.length) w1 out w' →
      RegsRead T first a n w (out.map fun rest => ws ++ rest) w'
  | fails {first : Bool} {a n : Nat} {d : RegDesc} {w w' : World} : 0 < n → cover T a = some d →
      RegSays d a n w .devFail w' → RegsRead T first a n w (.error .devFail) w'
  | denied {a n : Nat} {w w' : World} : 0 < n → RegDenied T a n w w' →
      RegsRead T true a n w (.error .illegalDataAddr) w'
  | zero {a n : Nat} {w w1 w' : World} {out : Except Status (List Word)} : 0 < n →
      RegDenied T a n w w1 → RegsRead T false (a + 1) (n - 1) w1 out w' →
      RegsRead T false a n w (out.map fun rest => 0x0000 :: rest) w'

/-- What reading sub-requests of FC 0x14 in order gives: each answer is its length, 0x06 and its words; the first
that raises ends the reads (R405). -/
inductive FilesRead (T : List FileDesc) :
    List SubRequest → World → Except Status (List Byte) → World → Prop
  | done {w : World} : FilesRead T [] w (.ok []) w
  | next {h : SubRequest} {hs : List SubRequest} {ws : List Word} {w w1 w' : World}
      {out : Except Status (List Byte)} :
      RegsRead (recordsOf T h) true h.recNo.toNat h.recLen.toNat w (.ok ws) w1 →
      FilesRead T hs w1 out w' →
      FilesRead T (h :: hs) w
        (out.map fun more => countByte (1 + 2 * h.recLen.toNat) :: 0x06 :: (bytesOfWords ws ++ more))
        w'
  | fails {h : SubRequest} {hs : List SubRequest} {e : Status} {w w' : World} :
      RegsRead (recordsOf T h) true h.recNo.toNat h.recLen.toNat w (.error e) w' →
      FilesRead T (h :: hs) w (.error e) w'

/-! ## Writes, whatever the host answers -/

/-- Whether the `n` coils from address `a` on may be written (R97, R315). -/
inductive CoilsAdmitted (T : List CoilDesc) : (a n : Nat) → World → Bool → World → Prop
  | done {a : Nat} {w : World} : CoilsAdmitted T a 0 w true w
  | missing {a n : Nat} {w : World} : findCoil T a = none → CoilsAdmitted T a (n + 1) w false w
  | locked {a n : Nat} {d : CoilDesc} {w w' : World} : findCoil T a = some d →
      LockSays d.wlock (.coilWlock d) w true w' → CoilsAdmitted T a (n + 1) w false w'
  | next {a n : Nat} {d : CoilDesc} {ok : Bool} {w w1 w' : World} : findCoil T a = some d →
      LockSays d.wlock (.coilWlock d) w false w1 → CoilsAdmitted T (a + 1) n w1 ok w' →
      CoilsAdmitted T a (n + 1) w ok w'

/-- What writing a coil gives: a status, and the hook on OK (R98). -/
def CoilWrites (d : CoilDesc) (v : Bool) (w : World) (e : Status) (w' : World) : Prop :=
  match d.wmode with
  | .none => e = .devFail ∧ w' = w
  | .cell p b =>
    if 7 < b then e = .devFail ∧ w' = w
    else e = .ok
      ∧ Told d.postWrite (.coilPostWrite d) { w with byteCells := w.byteCells.writeBit p b v } w'
  | .cb => ∃ w1, SaysStatus (.coilWrite d v) w e w1
    ∧ if e = .ok then Told d.postWrite (.coilPostWrite d) w1 w' else w' = w1

/-- What writing bits from address `a` on gives: the first status other than OK ends the writes (R315). -/
inductive CoilsWritten (T : List CoilDesc) : (a : Nat) → List Bool → World → Status → World → Prop
  | done {a : Nat} {w : World} : CoilsWritten T a [] w .ok w
  | fails {a : Nat} {d : CoilDesc} {v : Bool} {vs : List Bool} {e : Status} {w w' : World} :
      findCoil T a = some d → CoilWrites d v w e w' → e ≠ .ok → CoilsWritten T a (v :: vs) w e w'
  | next {a : Nat} {d : CoilDesc} {v : Bool} {vs : List Bool} {e : Status} {w w1 w' : World} :
      findCoil T a = some d → CoilWrites d v w .ok w1 → CoilsWritten T (a + 1) vs w1 e w' →
      CoilsWritten T a (v :: vs) w e w'

/-- What a request that writes bits comes to: nothing is written unless every coil may be, and the commit follows
only where every write was OK (R310, R315). -/
def CoilsEnd (commit : Bool) (T : List CoilDesc) (a : Nat) (bits : List Bool) (w : World)
    (e : Status) (w' : World) : Prop :=
  (e = .illegalDataAddr ∧ CoilsAdmitted T a bits.length w false w')
    ∨ ∃ w1 w2, CoilsAdmitted T a bits.length w true w1 ∧ CoilsWritten T a bits w1 e w2
      ∧ if e = .ok then Told commit .commitCoilsWrite w2 w' else w' = w2

/-- How many of the words `data`, at address `a` of the block that starts at `blk`, may be written to a register:
0 where it has no write access, is locked, or forbids the cut the block makes (R100). -/
def RegAdmits (d : RegDesc) (a blk : Nat) (rem : Nat) (data : List Word) (w : World) (k : Nat)
    (w' : World) : Prop :=
  match d.wmode with
  | .none => k = 0 ∧ w' = w
  | .const _ => k = 0 ∧ w' = w
  | mode => ∃ locked, LockSays d.wlock (.regWlock d a blk data) w locked w'
    ∧ k =
      if locked = true
          ∨ d.allowPartialWrite = false
            ∧ (d.key.toNat < a ∨ mode ≠ .cb ∧ rem < nwords d - (a - d.key.toNat)) then 0
      else min (nwords d - (a - d.key.toNat)) rem

/-- Whether every register of the words `data` from address `a` on may be written (R105, R348). -/
inductive RegsAdmitted (T : List RegDesc) (blk : Nat) :
    (a : Nat) → List Word → World → Bool → World → Prop
  | done {a : Nat} {w : World} : RegsAdmitted T blk a [] w true w
  | missing {a : Nat} {data : List Word} {w : World} : data ≠ [] → cover T a = none →
      RegsAdmitted T blk a data w false w
  | denied {a : Nat} {data : List Word} {d : RegDesc} {w w' : World} : data ≠ [] →
      cover T a = some d → RegAdmits d a blk data.length data w 0 w' →
      RegsAdmitted T blk a data w false w'
  | next {a k : Nat} {data : List Word} {d : RegDesc} {ok : Bool} {w w1 w' : World} : data ≠ [] →
      cover T a = some d → RegAdmits d a blk data.length data w k w1 → 0 < k →
      RegsAdmitted T blk (a + k) (data.drop k) w1 ok w' → RegsAdmitted T blk a data w ok w'

/-- What writing the words `data` to a register from offset `off` on gives: a status, and the hook on OK
(R101). -/
def RegWrites (d : RegDesc) (off : Nat) (data : List Word) (w : World) (e : Status) (w' : World) :
    Prop :=
  match d.wmode with
  | .none => False
  | .const _ => False
  | .ptr p => e = .ok
    ∧ Told d.postWrite (.regPostWrite d)
      { w with wordCells := storeWords d.type p off data w.wordCells } w'
  | .cb => ∃ w1, SaysStatus (.regWrite d off data.length data) w e w1
    ∧ if e = .ok then Told d.postWrite (.regPostWrite d) w1 w' else w' = w1

/-- What writing words from address `a` on gives, one write per register: the first status other than OK ends the
writes (R106, R349). -/
inductive RegsWritten (T : List RegDesc) : (a : Nat) → List Word → World → Status → World → Prop
  | done {a : Nat} {w : World} : RegsWritten T a [] w .ok w
  | fails {a k : Nat} {data : List Word} {d : RegDesc} {e : Status} {w w' : World} : data ≠ [] →
      cover T a = some d → k = min (nwords d - (a - d.key.toNat)) data.length →
      RegWrites d (a - d.key.toNat) (data.take k) w e w' → e ≠ .ok → RegsWritten T a data w e w'
  | next {a k : Nat} {data : List Word} {d : RegDesc} {e : Status} {w w1 w' : World} : data ≠ [] →
      cover T a = some d → k = min (nwords d - (a - d.key.toNat)) data.length →
      RegWrites d (a - d.key.toNat) (data.take k) w .ok w1 →
      RegsWritten T (a + k) (data.drop k) w1 e w' → RegsWritten T a data w e w'

/-- What a request that writes words comes to: nothing is written unless every register may be, and the commit
follows only where every write was OK (R348, R349, R350). -/
def RegsEnd (commit : Bool) (T : List RegDesc) (a : Nat) (data : List Word) (w : World) (e : Status)
    (w' : World) : Prop :=
  (e = .illegalDataAddr ∧ RegsAdmitted T a a data w false w')
    ∨ ∃ w1 w2, RegsAdmitted T a a data w true w1 ∧ RegsWritten T a data w1 e w2
      ∧ if e = .ok then Told commit .commitRegsWrite w2 w' else w' = w2

/-- Whether every register of the sub-requests of FC 0x15 may be written (R415, pass 1). -/
inductive FilesAdmitted (T : List FileDesc) :
    List (SubRequest × List Word) → World → Bool → World → Prop
  | done {w : World} : FilesAdmitted T [] w true w
  | denied {x : SubRequest × List Word} {subs : List (SubRequest × List Word)} {w w' : World} :
      RegsAdmitted (recordsOf T x.1) x.1.recNo.toNat x.1.recNo.toNat x.2 w false w' →
      FilesAdmitted T (x :: subs) w false w'
  | next {x : SubRequest × List Word} {subs : List (SubRequest × List Word)} {ok : Bool}
      {w w1 w' : World} :
      RegsAdmitted (recordsOf T x.1) x.1.recNo.toNat x.1.recNo.toNat x.2 w true w1 →
      FilesAdmitted T subs w1 ok w' → FilesAdmitted T (x :: subs) w ok w'

/-- What writing the sub-requests of FC 0x15 in order gives (R415, pass 2). -/
inductive FilesWritten (T : List FileDesc) :
    List (SubRequest × List Word) → World → Status → World → Prop
  | done {w : World} : FilesWritten T [] w .ok w
  | fails {x : SubRequest × List Word} {subs : List (SubRequest × List Word)} {e : Status}
      {w w' : World} : RegsWritten (recordsOf T x.1) x.1.recNo.toNat x.2 w e w' → e ≠ .ok →
      FilesWritten T (x :: subs) w e w'
  | next {x : SubRequest × List Word} {subs : List (SubRequest × List Word)} {e : Status}
      {w w1 w' : World} : RegsWritten (recordsOf T x.1) x.1.recNo.toNat x.2 w .ok w1 →
      FilesWritten T subs w1 e w' → FilesWritten T (x :: subs) w e w'

/-- What FC 0x15 comes to (R415). -/
def FilesEnd (commit : Bool) (T : List FileDesc) (subs : List (SubRequest × List Word)) (w : World)
    (e : Status) (w' : World) : Prop :=
  (e = .illegalDataAddr ∧ FilesAdmitted T subs w false w')
    ∨ ∃ w1 w2, FilesAdmitted T subs w true w1 ∧ FilesWritten T subs w1 e w2
      ∧ if e = .ok then Told commit .commitRegsWrite w2 w' else w' = w2

/-! ## Receiving -/

/-- The instance registers after a frame with a good shape is counted and its receive event logged (R221,
R216): bit 5 of the event shows listen-only mode, `extra` is 0x02 for an integrity failure, 0x40 for a
broadcast, else 0. -/
def received (extra : Byte) (r : Registers) : Registers :=
  { r with
    counters := { r.counters with busMsg := r.counters.busMsg + 1 }
    ring := r.ring.append ((if r.isListenOnly then 0xA0 else 0x80) ||| extra) }

/-- The registers after an integrity failure (R222, R232, R233, R242). -/
def corrupted (r : Registers) : Registers :=
  { received 0x02 r with
    counters :=
      { r.counters with
        busMsg := r.counters.busMsg + 1
        busCommErr := r.counters.busCommErr + 1 } }

/-- The extra bit of an accepted frame's receive event (R218). -/
def broadcastBit (a : Byte) : Byte := if a = 0x00 then 0x40 else 0x00

/-- The state in which the function code of request `p` is fetched (R263): the request is counted in `msg`,
the snapshot is taken, the response starts with the function code, and nothing else changes but the
registers `r` the framer left. -/
def dispatched (t : Txn) (p : List Byte) (r : Registers) (s : State) : State :=
  { s with
    regs := { r with counters := { r.counters with msg := r.counters.msg + 1 } }
    phase := .exec
    busy := true
    txn := some
      { t with req := some p, res := some [p.headD 0], wasListenOnly := some s.regs.isListenOnly } }

/-- The block takes a command (R9, R575). -/
def State.takesCommand (s : State) : Bool := !s.busy && configValid s.cfg

/-- The listen-only gate lets a request in (R262). -/
def gateOpen (s : State) (p : List Byte) : Bool := !s.regs.isListenOnly || isRestart p

/-- The end of a command that outputs nothing and leaves the registers `r`. -/
def dropped (r : Registers) (s : State) : State :=
  { s with regs := r, phase := .idle, busy := false, txn := none, outputs := s.outputs ++ [[]] }

/-- The command at hand ends in IDLE with one output, in one step or, where it reaches phase EXEC, in two
(R60; the cut of steps is notes/assumptions/8.md), and leaves the commands `rest` to come. -/
def ReturnsOneOutput (s : State) (rest : List HostRequest) : Prop :=
  ∃ s' out, s'.phase = .idle ∧ s'.busy = false ∧ s'.txn = none ∧ s'.pending = rest
    ∧ s'.outputs = s.outputs ++ [out]
    ∧ (step s = .next s'
      ∨ ∃ m, step s = .next m ∧ m.phase = .exec ∧ m.outputs = s.outputs ∧ step m = .next s')

/-! ## Classes of function-code instructions -/

/-- The function code of an instruction, none for a command. -/
def fcOf (i : Instr) : Option Byte :=
  match encode i with
  | .pdu (fc :: _) => some fc
  | _ => none

/-- The table or callback the instruction's function code needs is ABSENT, or it needs a code that the block
does not implement (R264). -/
def unimplemented (c : InstanceConfig) (i : Instr) : Bool :=
  match fcOf i with
  | none => false
  | some fc =>
    if fc = 0x01 || fc = 0x05 || fc = 0x0F then c.coils.isNone
    else if fc = 0x02 then c.discrete.isNone
    else if fc = 0x03 || fc = 0x06 || fc = 0x10 || fc = 0x16 || fc = 0x17 then c.holding.isNone
    else if fc = 0x04 then c.input.isNone
    else if fc = 0x14 || fc = 0x15 then c.files.isNone
    else if fc = 0x07 then !c.callbacks.readExceptionStatus
    else !(fc = 0x08 || fc = 0x0B || fc = 0x0C)

/-- The length the request of an implemented function code must have (R146, R441): the exact length, its
byte count included, or the reason there is none. -/
def lengthRight (p : List Byte) : Bool :=
  let n := p.length
  let fc := p.headD 0
  if fc = 0x01 || fc = 0x02 || fc = 0x03 || fc = 0x04 || fc = 0x05 || fc = 0x06 then n = 5
  else if fc = 0x07 || fc = 0x0B || fc = 0x0C then n = 1
  else if fc = 0x08 then
    3 ≤ n && (n = 5 || !implementedSub (be16 (p.getD 1 0) (p.getD 2 0))
      || be16 (p.getD 1 0) (p.getD 2 0) = 0x0000)
  else if fc = 0x0F || fc = 0x10 then 6 ≤ n && n = 6 + (p.getD 5 0).toNat
  else if fc = 0x14 || fc = 0x15 then 2 ≤ n && n = 2 + (p.getD 1 0).toNat
  else if fc = 0x16 then n = 7
  else if fc = 0x17 then 10 ≤ n && n = 10 + (p.getD 9 0).toNat
  else true

end Sys2Proof.Machine
end

