-- ==== Sys2Proof/Certificates/Slice0/Obligations.lean ====
section
/-! DEFINITION. The statements for the provers, each with the rules of spec/ it rests on. -/

section

open Sys2Proof Sys2Proof.Machine

/-! ## Encoding -/

/-- Decoding an encoded well-formed instruction gives it back, with every operand (R146, R148). -/
def Obligations.DecodeOfEncodeIsTheInstruction : Prop :=
  ∀ i : Instr, i.wf = true → decode (encode i) = .ok i

/-- A PDU of 1..253 bytes decodes to a well-formed instruction that stands for exactly these bytes; every
other byte string is rejected by name (R140, R160). -/
def Obligations.EveryPduDecodesToItsEncoding : Prop :=
  ∀ p : List Byte,
    (1 ≤ p.length ∧ p.length ≤ 253 →
      ∃ i, decodePdu p = .ok i ∧ i.wf = true ∧ encode i = .pdu p)
    ∧ (p.length = 0 → decodePdu p = .error .emptyPdu)
    ∧ (253 < p.length → decodePdu p = .error .oversizePdu)

/-- Requests written out from the spec's vectors, one of each family, decode to what they stand for. -/
def Obligations.WrittenOutRequestsDecode : Prop :=
  decodePdu [0x01, 0x00, 0x13, 0x00, 0x0A] = .ok (.readCoils (.fields ⟨0x0013, 0x000A⟩))
  ∧ decodePdu [0x05, 0x00, 0xAC, 0xFF, 0x00] = .ok (.writeSingleCoil (.fields ⟨0x00AC, 0xFF00⟩))
  ∧ decodePdu [0x03, 0x00, 0x6B, 0x00, 0x03]
      = .ok (.readHoldingRegisters (.fields ⟨0x006B, 0x0003⟩))
  ∧ decodePdu [0x10, 0x00, 0x01, 0x00, 0x02, 0x04, 0x00, 0x0A, 0x01, 0x02]
      = .ok (.writeMultipleRegisters (.fields ⟨0x0001, 0x0002, [0x00, 0x0A, 0x01, 0x02]⟩))
  ∧ decodePdu [0x16, 0x00, 0x04, 0x00, 0xF2, 0x00, 0x25]
      = .ok (.maskWriteRegister (.fields ⟨0x0004, 0x00F2, 0x0025⟩))
  ∧ decodePdu [0x14, 0x07, 0x06, 0x00, 0x04, 0x00, 0x01, 0x00, 0x03]
      = .ok (.readFileRecord (.fields [0x06, 0x00, 0x04, 0x00, 0x01, 0x00, 0x03]))
  ∧ decodePdu [0x08, 0x00, 0x03, 0x3A, 0x00]
      = .ok (.diagChangeAsciiDelimiter (.fields ⟨0x3A, 0x00⟩))
  ∧ decodePdu [0x08, 0x00, 0x13, 0x00, 0x00] = .ok (.diagUnimplementedSub (.unknown 0x0013 [0, 0]))
  ∧ decodePdu [0x08, 0x00] = .ok (.diagUnimplementedSub (.truncated [0x00]))
  ∧ decodePdu [0x0C] = .ok (.getCommEventLog (.fields ()))
  ∧ decodePdu [0x41] = .ok (.fallback 0x41 [])

/-! ## The step -/

/-- A step runs what it fetches. In phase EXEC that is the function code the request decodes to, on the state
as it stands (R160). In phase IDLE it is the host's next command, after the host's storage changes (R62, R90,
R125); without a command the block waits. That a step is one function code with all that follows it, or one
command up to there, is the model's cut of steps (notes/assumptions/8.md), and that the host's commands stand
in a list is its form of the command port (notes/assumptions/14.md). -/
def Obligations.StepRunsWhatItFetches : Prop :=
  (∀ (s : State) (t : Txn) (p : List Byte) (i : Instr),
    s.phase = .exec → s.txn = some t → t.req = some p → decodePdu p = .ok i → step s = exec i s)
  ∧ ∀ s : State, s.phase = .idle →
    (∀ r rest, s.pending = r :: rest →
      step s = exec (decodeCommand r.command)
        { s with world := s.world.changes r.cells, pending := rest })
    ∧ (s.pending = [] → step s = .next s)

/-- An instance created with a valid configuration holds every reset value of R560, and waits; an invalid
configuration is refused. R9 asks for the refusal where R85 or the address range of R32 is broken; that a block of no
elements, or a CONST that does not fit its type, makes a configuration invalid too is the model's inference from R84
(notes/assumptions/6.md, DEDUCED). What its ring entries hold is not stated: it is open. -/
def Obligations.CreationLeavesTheResetValues : Prop :=
  ∀ (c : InstanceConfig) (w : World),
    (configValid c = true → ∃ s, createInstance c w = .next s
      ∧ s.regs.counters = ⟨0, 0, 0, 0, 0, 0, 0, 0, 0⟩ ∧ s.regs.asciiDelimiter = 0x0A
      ∧ s.regs.isListenOnly = false ∧ s.regs.status = 0x0000 ∧ s.regs.ring.wpos = 0
      ∧ s.regs.ring.count = 0 ∧ s.phase = .idle ∧ s.txn = none ∧ s.cfg = c ∧ s.world = w
      ∧ step s = .next s)
    ∧ (configValid c = false → createInstance c w = .refused .invalidConfiguration)

/-- The reset state meets the invariant. Its configuration is the model's choice
(notes/assumptions/3.md). -/
def Obligations.ResetMeetsTheInvariant : Prop := State.reset.inv = true

/-- Every step keeps the invariant: a valid configuration, a delimiter of at most 127, a well-formed ring,
storage in canonical form, and the sequencer in IDLE without a transaction or in EXEC with a whole one. -/
def Obligations.StepKeepsTheInvariant : Prop :=
  ∀ s s' : State, s.inv = true → step s = .next s' → s'.inv = true

/-- A step from a good state stops only where the host breaks its contract: it never reads an unwritten
transaction register, never runs out of order, never fails to decode (R61, R503). While the host keeps its
contract, no request, frame or command of any content stops the block. -/
def Obligations.StepStopsOnlyOnABrokenContract : Prop :=
  ∀ s : State, s.inv = true →
    ((∃ s', step s = .next s') ∨ ∃ x, isContractStop x ∧ step s = x.answer)
    ∧ (s.hostFree = true → ∃ s', step s = .next s' ∧ s'.inv = true ∧ s'.hostFree = true)

/-- A command ends in IDLE with exactly one output (R60, R506), unless a host with scripted answers breaks its
contract in it; while the host keeps its contract, always. That this takes one step or two is the model's cut of
steps (notes/assumptions/8.md), and that commands and answers stand in lists is its form of the host's ports
(notes/assumptions/14.md). -/
def Obligations.EveryCommandReturnsOneOutput : Prop :=
  ∀ (s : State) (r : HostRequest) (rest : List HostRequest),
    s.inv = true → s.phase = .idle → s.pending = r :: rest →
    (ReturnsOneOutput s rest
      ∨ ∃ m x, step s = .next m ∧ m.phase = .exec ∧ m.outputs = s.outputs ∧ isContractStop x
        ∧ step m = x.answer)
    ∧ (s.hostFree = true → ReturnsOneOutput s rest)

/-- What a function code sends fits the output buffers: 253 bytes for a bare PDU, 256 over RTU, 513
characters over ASCII, 260 bytes over TCP (R82, R275). -/
def Obligations.OutputsFitTheirBuffers : Prop :=
  ∀ (s s' : State) (t : Txn), s.inv = true → s.phase = .exec → s.txn = some t →
    step s = .next s' →
    ∃ out, s'.outputs = s.outputs ++ [out]
      ∧ out.length ≤
        (match t.entry with | .pdu => 253 | .rtu => 256 | .ascii => 513 | .tcp => 260)

/-- No step writes the configuration: addresses, toggles, descriptor tables, callbacks (R32 to R36, R84,
R128). -/
def Obligations.ConfigurationIsNeverWritten : Prop :=
  ∀ s s' : State, step s = .next s' → s'.cfg = s.cfg

/-- Each of these registers has its writers only: listen-only mode is entered by FC 0x08 sub 0x0004 with data
0 and left by sub 0x0001 with data 0x0000 or 0xFF00 (R38, R515); the delimiter is written by FC 0x08 sub
0x0003 and the status word by SET_STATUS (R37, R39, R41); the overrun counter is zeroed by FC 0x08 subs 0x0001,
0x000A and 0x0014 and written by nothing else (R42, R43; 93 U18). -/
def Obligations.RegistersHaveTheirWritersOnly : Prop :=
  ∀ (i : Instr) (s s' : State), exec i s = .next s' →
    (s'.regs.isListenOnly = s.regs.isListenOnly
      ∨ (i = .diagForceListenOnly (.fields 0x0000) ∧ s'.regs.isListenOnly = true)
      ∨ ((i = .diagRestartCommunications (.fields 0x0000)
          ∨ i = .diagRestartCommunications (.fields 0xFF00)) ∧ s'.regs.isListenOnly = false))
    ∧ (s'.regs.asciiDelimiter = s.regs.asciiDelimiter
      ∨ ∃ d, i = .diagChangeAsciiDelimiter (.fields ⟨d, 0x00⟩) ∧ d.toNat ≤ 127
          ∧ s'.regs.asciiDelimiter = d)
    ∧ (s'.regs.status = s.regs.status ∨ ∃ v, i = .setStatus v ∧ s'.regs.status = v)
    ∧ (s'.regs.counters.busCharOverrun = s.regs.counters.busCharOverrun
      ∨ ((i = .diagRestartCommunications (.fields 0x0000)
          ∨ i = .diagRestartCommunications (.fields 0xFF00)
          ∨ i = .diagClearCounters (.fields 0x0000) ∨ i = .diagClearOverrun (.fields 0x0000))
        ∧ s'.regs.counters.busCharOverrun = 0))

/-- A command issued while another is in progress is refused, from inside a callback too, whatever the
callback (R62, R575); and on a configuration the block is not defined for every command is refused (R9,
R85, R565). R9 speaks of creation: that a state with such a configuration refuses every command is the model's
inference (notes/assumptions/16.md, DEDUCED), and so is that a block of no elements, or a CONST that does not fit its
type, makes a configuration invalid (notes/assumptions/6.md, DEDUCED). That a callback's command ends the outer step is its inference too
(notes/assumptions/11.md, DEDUCED), in the script form of the host's answers (notes/assumptions/14.md). -/
def Obligations.CommandsOutOfContractAreRefused : Prop :=
  (∀ (c : Command) (s : State), s.busy = true →
    exec (decodeCommand c) s = .refused .commandWhileBusy)
  ∧ (∀ (c : Command) (s : State), s.busy = false → configValid s.cfg = false →
    exec (decodeCommand c) s = .refused .invalidConfiguration)
  ∧ ∀ (c : Command) (cells : List CellChange) (rest : List HostDraw) (w : World) (h : HostCall)
      (n : Nat),
    w.script = ⟨.reenters c, cells⟩ :: rest →
    askBool h w = .stop (.refuse .commandWhileBusy)
    ∧ askUnit h w = .stop (.refuse .commandWhileBusy)
    ∧ askByte h w = .stop (.refuse .commandWhileBusy)
    ∧ askByteOrFail h w = .stop (.refuse .commandWhileBusy)
    ∧ askWord h w = .stop (.refuse .commandWhileBusy)
    ∧ askWordsOrFail n h w = .stop (.refuse .commandWhileBusy)
    ∧ askStatus h w = .stop (.refuse .commandWhileBusy)
    ∧ askStatusBody h w = .stop (.refuse .commandWhileBusy)

/-- A register table is accepted exactly when its descriptors are valid by themselves and lie one after
another without overlap (R85), and then the descriptor that covers an address is the one lookup finds
(R88). Valid by itself means R85's span, and also a block of at least one element and a CONST that fits its type,
which R84 says of a descriptor and no list of invariants names: the model's inference (notes/assumptions/6.md,
DEDUCED). -/
def Obligations.LookupFindsTheOneCover : Prop :=
  ∀ T : List RegDesc,
    (regTableValid T = true ↔
      (∀ d ∈ T, regDescValid d = true)
        ∧ T.Pairwise fun d e => d.key.toNat + nwords d ≤ e.key.toNat)
    ∧ (regTableValid T = true →
      ∀ (a : Nat) (d : RegDesc), cover T a = some d
        ↔ d ∈ T ∧ d.key.toNat ≤ a ∧ a < d.key.toNat + nwords d)

/-! ## Integrity codes -/

/-- An RTU frame passes its CRC, no single-byte substitution of its body does, and a frame with its own
trailer has CRC 0 (R201, R202, R205). -/
def Obligations.CrcDetectsEverySubstitution : Prop :=
  ∀ body : List Byte,
    rtuPasses (rtuFrame body) = true
    ∧ crc16 (rtuFrame body) = 0x0000
    ∧ ∀ (k : Nat) (v : Byte), k < body.length → v ≠ body.getD k 0 →
      rtuPasses (body.set k v ++ le16Bytes (crc16 body)) = false

/-- An ASCII image passes its LRC; no substitution of one of its characters gives an accepted image
(R203, R204, R205, R210). -/
def Obligations.AsciiDetectsEverySubstitution : Prop :=
  ∀ body : List Byte,
    lrcPasses (body ++ [lrc body]) = true
    ∧ ∀ (k : Nat) (c : Byte), k < (hexString (body ++ [lrc body])).length →
      c ≠ (hexString (body ++ [lrc body])).getD k 0 →
      ∀ bin, unhexString ((hexString (body ++ [lrc body])).set k c) = some bin →
        lrcPasses bin = false

/-- The hexadecimal codec decodes exactly its own encodings, and encodes each byte as two upper-case digits, the
high nibble first (R210 to R212). -/
def Obligations.HexCodecIsExact : Prop :=
  (∀ (b c : List Byte), unhexString c = some b ↔ c = hexString b)
  ∧ hexString [] = []
  ∧ ∀ (D : List Byte) (b : Byte) (c : List Byte),
    D = [0x30, 0x31, 0x32, 0x33, 0x34, 0x35, 0x36, 0x37, 0x38, 0x39, 0x41, 0x42, 0x43, 0x44, 0x45,
      0x46] →
    hexString (b :: c) = D.getD (b.toNat / 16) 0 :: D.getD (b.toNat % 16) 0 :: hexString c

/-! ## Receiving -/

/-- An accepted RTU frame of a request the gate lets in reaches phase EXEC with exactly that request: the
frame is counted, its receive event logged, `msg` counted (R220 to R224, R251, R263). -/
def Obligations.RtuFrameReachesItsHandler : Prop :=
  ∀ (s : State) (a : Byte) (p : List Byte), s.takesCommand = true → accept s.cfg a = true →
    1 ≤ p.length → p.length ≤ 253 → gateOpen s p = true →
    exec (.rxRtu (rtuFrame (a :: p))) s = .next
      (dispatched { Txn.start .rtu (rtuFrame (a :: p)) with addr := some a } p
        (received (broadcastBit a) s.regs) s)

/-- An accepted ASCII frame of a request of 2..253 bytes that the gate lets in, with the current delimiter,
reaches phase EXEC with exactly that request: the frame is counted, its receive event logged, the delimiter
latched, `msg` counted (R230 to R235, R142, R263). -/
def Obligations.AsciiFrameReachesItsHandler : Prop :=
  ∀ (s : State) (a : Byte) (p : List Byte), s.takesCommand = true → accept s.cfg a = true →
    2 ≤ p.length → p.length ≤ 253 → gateOpen s p = true →
    exec (.rxAscii (asciiFrame (a :: p) s.regs.asciiDelimiter)) s = .next
      (dispatched
        { Txn.start .ascii (asciiFrame (a :: p) s.regs.asciiDelimiter) with
          addr := some a
          delim := some s.regs.asciiDelimiter
          bin := some (a :: p ++ [lrc (a :: p)]) } p
        (received (broadcastBit a) s.regs) s)

/-- An accepted TCP frame, with any transaction id, of a request the gate lets in reaches phase EXEC with
exactly that request: the frame is counted, its receive event logged, `msg` counted (R240 to R244, R251,
R263). -/
def Obligations.TcpFrameReachesItsHandler : Prop :=
  ∀ (s : State) (id : Word) (a : Byte) (p : List Byte), s.takesCommand = true →
    accept s.cfg a = true → 1 ≤ p.length → p.length ≤ 253 → gateOpen s p = true →
    exec (.rxTcp (tcpFrame (be16Bytes id ++ [0x00, 0x00]) a p)) s = .next
      (dispatched
        { Txn.start .tcp (tcpFrame (be16Bytes id ++ [0x00, 0x00]) a p) with addr := some a } p
        (received (broadcastBit a) s.regs) s)

/-- A bare PDU reaches phase EXEC without a framer's counts or events (R263, R271). -/
def Obligations.BarePduReachesItsHandler : Prop :=
  ∀ (s : State) (p : List Byte), s.takesCommand = true → 1 ≤ p.length → p.length ≤ 253 →
    gateOpen s p = true →
    exec (.rxPdu p) s = .next (dispatched (Txn.start .pdu p) p s.regs s)

/-- A bare PDU of length 0 or above 253 changes nothing and outputs nothing (R260). -/
def Obligations.PduOutOfLengthChangesNothing : Prop :=
  ∀ (s : State) (p : List Byte), s.takesCommand = true → (p.length < 1 ∨ 253 < p.length) →
    exec (.rxPdu p) s = .next (dropped s.regs s)

/-- In listen-only mode a request that is no restart is gated: a bare PDU only logs 0x60; a frame, over any
transport, is counted and its receive event logged first, and a broadcast counts in `no_resp` (R262, R219;
conflict C9). -/
def Obligations.GateDropsAllButTheRestart : Prop :=
  ∀ (s : State) (p : List Byte), s.takesCommand = true → 1 ≤ p.length → p.length ≤ 253 →
    gateOpen s p = false →
    exec (.rxPdu p) s = .next (dropped { s.regs with ring := s.regs.ring.append 0x60 } s)
    ∧ ∀ (a : Byte) (id : Word) (i : Instr), accept s.cfg a = true →
      (i = .rxRtu (rtuFrame (a :: p)) ∨ i = .rxTcp (tcpFrame (be16Bytes id ++ [0x00, 0x00]) a p)
        ∨ 2 ≤ p.length ∧ i = .rxAscii (asciiFrame (a :: p) s.regs.asciiDelimiter)) →
      exec i s = .next
        (dropped
          { received (broadcastBit a) s.regs with
            counters :=
              { s.regs.counters with
                busMsg := s.regs.counters.busMsg + 1
                noResp :=
                  if a = 0x00 then s.regs.counters.noResp + 1 else s.regs.counters.noResp }
            ring := (received (broadcastBit a) s.regs).ring.append 0x60 } s)

/-- SET_STATUS writes the status word and nothing else, and its output is empty (R41). -/
def Obligations.SetStatusWritesTheStatusWord : Prop :=
  ∀ (s : State) (v : Word), s.takesCommand = true → s.phase = .idle → s.txn = none →
    exec (.setStatus v) s
      = .next
        { s with regs := { s.regs with status := v }, outputs := s.outputs ++ [[]] }

/-- A frame without its transport's size or shape is dropped with no state change (R220, R230, R240). -/
def Obligations.ShapelessFramesChangeNothing : Prop :=
  ∀ (s : State) (f : List Byte), s.takesCommand = true →
    (f.length < 4 ∨ 256 < f.length → exec (.rxRtu f) s = .next (dropped s.regs s))
    ∧ (f.length < 8 ∨ 260 < f.length → exec (.rxTcp f) s = .next (dropped s.regs s))
    ∧ (f.length < 11 ∨ 513 < f.length ∨ f.length % 2 = 0 ∨ f.getD 0 0 ≠ 0x3A
        ∨ f.getD (f.length - 2) 0 ≠ 0x0D ∨ f.getD (f.length - 1) 0 ≠ s.regs.asciiDelimiter →
      exec (.rxAscii f) s = .next (dropped s.regs s))

/-- A frame with a good shape and a bad CRC, a non-hex character, a bad LRC or a bad MBAP header is counted
in `bus_msg` and `bus_comm_err`, logged with COMM_ERR and dropped, whatever its address (R222, R232,
R233, R242, R506). -/
def Obligations.CorruptFramesAreCountedAndDropped : Prop :=
  ∀ (s : State) (f : List Byte), s.takesCommand = true →
    (4 ≤ f.length → f.length ≤ 256 →
      crc16 (f.take (f.length - 2)) ≠ le16 (f.getD (f.length - 2) 0) (f.getD (f.length - 1) 0) →
      exec (.rxRtu f) s = .next (dropped (corrupted s.regs) s))
    ∧ (8 ≤ f.length → f.length ≤ 260 →
      (be16 (f.getD 2 0) (f.getD 3 0) ≠ 0x0000
        ∨ (be16 (f.getD 4 0) (f.getD 5 0)).toNat ≠ f.length - 6) →
      exec (.rxTcp f) s = .next (dropped (corrupted s.regs) s))
    ∧ (11 ≤ f.length → f.length ≤ 513 → f.length % 2 = 1 → f.getD 0 0 = 0x3A →
      f.getD (f.length - 2) 0 = 0x0D → f.getD (f.length - 1) 0 = s.regs.asciiDelimiter →
      (∀ bin, unhexString ((f.take (f.length - 2)).drop 1) = some bin → lrcPasses bin = false) →
      exec (.rxAscii f) s = .next (dropped (corrupted s.regs) s))

/-- A sound frame for another address is counted, its receive event logged, and dropped (R215, R223, R234,
R243). -/
def Obligations.ForeignFramesAreLoggedAndDropped : Prop :=
  ∀ (s : State) (id : Word) (a : Byte) (p : List Byte), s.takesCommand = true →
    a ≠ s.cfg.slaveAddr → a ≠ 0x00 → (a = 0xF8 → s.cfg.defaultRespEn = false) →
    1 ≤ p.length → p.length ≤ 253 →
    exec (.rxRtu (rtuFrame (a :: p))) s = .next (dropped (received 0x00 s.regs) s)
    ∧ (2 ≤ p.length → exec (.rxAscii (asciiFrame (a :: p) s.regs.asciiDelimiter)) s
        = .next (dropped (received 0x00 s.regs) s))
    ∧ exec (.rxTcp (tcpFrame (be16Bytes id ++ [0x00, 0x00]) a p)) s
        = .next (dropped (received 0x00 s.regs) s)

/-- A pending loopback frame is answered with the frame itself, over every transport: the frame is counted and
logged, `msg` counts, one send event follows, and nothing else changes (R225, R236, R245, R251, R442). That it
takes two steps is the model's cut of steps (notes/assumptions/8.md), and that the frame stands in a list of
commands its form of the port (notes/assumptions/14.md). -/
def Obligations.LoopbackReturnsTheFrame : Prop :=
  ∀ (s : State) (rest : List HostRequest) (frame : List Byte) (c : Command) (id : Word) (a : Byte)
      (data : List Byte),
    s.takesCommand = true → s.phase = .idle → s.txn = none → s.regs.isListenOnly = false →
    accept s.cfg a = true → a ≠ 0x00 → data.length ≤ 250 → s.pending = ⟨[], c⟩ :: rest →
    ((c = .rxRtu frame ∧ frame = rtuFrame (a :: 0x08 :: 0x00 :: 0x00 :: data))
      ∨ (c = .rxAscii frame
        ∧ frame = asciiFrame (a :: 0x08 :: 0x00 :: 0x00 :: data) s.regs.asciiDelimiter)
      ∨ (c = .rxTcp frame
        ∧ frame = tcpFrame (be16Bytes id ++ [0x00, 0x00]) a (0x08 :: 0x00 :: 0x00 :: data))) →
    ∃ m, step s = .next m
      ∧ step m = .next
        { s with
          regs :=
            { s.regs with
              counters :=
                { s.regs.counters with
                  busMsg := s.regs.counters.busMsg + 1
                  msg := s.regs.counters.msg + 1 }
              ring := (s.regs.ring.append 0x80).append 0x40 }
          pending := rest
          outputs := s.outputs ++ [frame] }

/-- A broadcast never gets a reply and counts in `no_resp`, which goes up by 1, or is 1 after the restart and
after sub 0x000A, which zero it just before (R444, R449); a request received in listen-only mode never gets a
reply (R219, R270). -/
def Obligations.SilentRequestsGetNoReply : Prop :=
  ∀ (i : Instr) (s s' : State) (t : Txn) (wl : Bool) (fc : Byte), fcOf i = some fc →
    AtHandler s t wl → exec i s = .next s' →
    ((isBroadcast t = true ∨ wl = true) → s'.outputs = s.outputs ++ [[]])
    ∧ (isBroadcast t = true →
      s'.regs.counters.noResp
        = if i = .diagRestartCommunications (.fields 0x0000)
            ∨ i = .diagRestartCommunications (.fields 0xFF00)
            ∨ i = .diagClearCounters (.fields 0x0000) then 1
          else s.regs.counters.noResp + 1)

/-! ## The event ring -/

/-- After any appends the log reads them back newest first, in front of what it held, 64 events at most
(R50, R52, R53). -/
def Obligations.RingHoldsTheNewestEvents : Prop :=
  ∀ (g : EventRing) (es : List Byte),
    (es.foldl EventRing.append g).newestFirst = (es.reverse ++ g.newestFirst).take 64

/-! ## Bit access -/

/-- Packed coils are LSB first per address: bit `j` of byte `m` is element `8 * m + j`, and the unused high
bits are 0 (R151). -/
def Obligations.PackedBitsAreLsbFirst : Prop :=
  ∀ (bits : List Bool) (bc : Nat),
    (packBits bc bits).length = bc
    ∧ ∀ m j, m < bc → j < 8 →
      ((packBits bc bits).getD m 0).getLsbD j = bits.getD (8 * m + j) false

/-- FC 0x01 and 0x02 answer the bit of every address, 0 where it has no readable coil, and write nothing
(R300, R301, R305). -/
def Obligations.ReadBitsAnswersTheTable : Prop :=
  ∀ (s : State) (t : Txn) (wl : Bool) (T : List CoilDesc) (f : AddrQty), AtHandler s t wl →
    1 ≤ f.qty.toNat → f.qty.toNat ≤ 2000 → f.addr.toNat + f.qty.toNat ≤ 0x10000 →
    plainCoilReads T = true → coilReadable T f.addr.toNat = true →
    (s.cfg.coils = some T →
      exec (.readCoils (.fields f)) s = .next
        (completed 0x01 t wl
          (0x01 :: countByte ((f.qty.toNat + 7) / 8)
            :: packBits ((f.qty.toNat + 7) / 8) (coilBits s.world T f.addr.toNat f.qty.toNat)) s))
    ∧ (s.cfg.discrete = some T →
      exec (.readDiscreteInputs (.fields f)) s = .next
        (completed 0x02 t wl
          (0x02 :: countByte ((f.qty.toNat + 7) / 8)
            :: packBits ((f.qty.toNat + 7) / 8) (coilBits s.world T f.addr.toNat f.qty.toNat)) s))

/-- FC 0x05 on a coil in a byte cell sets or clears that one bit, then runs the hook and the commit where
they are present, and echoes the request; every other byte and bit stays (R91, R98, R153, R310). -/
def Obligations.WriteSingleCoilSetsOneBit : Prop :=
  ∀ (s : State) (t : Txn) (wl : Bool) (T : List CoilDesc) (d : CoilDesc) (f : AddrValue) (r b : Nat),
    AtHandler s t wl → s.world.good = true → s.cfg.coils = some T →
    findCoil T f.addr.toNat = some d → d.wlock = false → d.wmode = .cell r b → b ≤ 7 →
    (f.value = 0x0000 ∨ f.value = 0xFF00) →
    listens d.postWrite s.world = true →
    listens s.cfg.callbacks.commitCoilsWrite
      (notified d.postWrite (.coilPostWrite d) s.world) = true →
    exec (.writeSingleCoil (.fields f)) s = .next
      (completed 0x05 t wl (0x05 :: (be16Bytes f.addr ++ be16Bytes f.value))
        { s with
          world := notified s.cfg.callbacks.commitCoilsWrite .commitCoilsWrite
            (notified d.postWrite (.coilPostWrite d)
              { s.world with
                byteCells := s.world.byteCells.writeBit r b (f.value = 0xFF00) }) })
    ∧ (∀ c, c ≠ r →
      (s.world.byteCells.writeBit r b (f.value = 0xFF00)).read c = s.world.byteCells.read c)
    ∧ ∀ j, j < 8 →
      ((s.world.byteCells.writeBit r b (f.value = 0xFF00)).read r).getLsbD j
        = if j = b then decide (f.value = 0xFF00) else (s.world.byteCells.read r).getLsbD j

/-- What the single writes raise, with nothing written. FC 0x05: a value other than 0 and 0xFF00 is
ILLEGAL_DATA_VAL; then a missing coil is ILLEGAL_DATA_ADDR; then a coil without write mode or with a bit
index above 7 is DEV_FAIL (R96, R98, R310; 93 U22). FC 0x06: ILLEGAL_DATA_ADDR for an address without a
register, one without write access, a typed register of several words that forbids partial writes, and a
start inside a register that forbids them (R100, R350). -/
def Obligations.SingleWritesCheckTheirTarget : Prop :=
  ∀ (s : State) (t : Txn) (wl : Bool) (f : AddrValue), AtHandler s t wl →
    (∀ C : List CoilDesc, s.cfg.coils = some C →
      (f.value ≠ 0x0000 → f.value ≠ 0xFF00 →
        exec (.writeSingleCoil (.fields f)) s = .next (failed 0x05 t wl .illegalDataVal s))
      ∧ ((f.value = 0x0000 ∨ f.value = 0xFF00) → findCoil C f.addr.toNat = none →
        exec (.writeSingleCoil (.fields f)) s = .next (failed 0x05 t wl .illegalDataAddr s))
      ∧ ∀ d, (f.value = 0x0000 ∨ f.value = 0xFF00) → findCoil C f.addr.toNat = some d →
        d.wlock = false → (d.wmode = .none ∨ ∃ r b, d.wmode = .cell r b ∧ 7 < b) →
        exec (.writeSingleCoil (.fields f)) s = .next (failed 0x05 t wl .devFail s))
    ∧ ∀ T : List RegDesc, s.cfg.holding = some T →
      (cover T f.addr.toNat = none
        ∨ ∃ d, cover T f.addr.toNat = some d ∧ d.wlock = false
          ∧ (d.wmode = .none ∨ (∃ v, d.wmode = .const v)
            ∨ (d.allowPartialWrite = false
              ∧ (d.key.toNat < f.addr.toNat ∨ (1 < nwords d ∧ ∃ r, d.wmode = .ptr r))))) →
      exec (.writeSingleRegister (.fields f)) s = .next (failed 0x06 t wl .illegalDataAddr s)

/-- FC 0x0F stores the packed bits in ascending order and answers address and quantity: where two addresses
share a bit the later one wins, every other bit and byte stays (R151, R315). Targets with locks, callbacks and
hooks: CallbackStatusDecidesTheOutcome. -/
def Obligations.WriteMultipleCoilsStoresEveryBit : Prop :=
  ∀ (s : State) (t : Txn) (wl : Bool) (T : List CoilDesc) (f : MultiWrite), AtHandler s t wl →
    s.world.good = true → s.cfg.coils = some T →
    1 ≤ f.qty.toNat → f.qty.toNat ≤ 1968 → f.data.length = (f.qty.toNat + 7) / 8 →
    f.addr.toNat + f.qty.toNat ≤ 0x10000 → plainCoilTargets T f.addr.toNat f.qty.toNat = true →
    listens s.cfg.callbacks.commitCoilsWrite s.world = true →
    ∀ m, m = storeCoils T f.addr.toNat (requestBits f.data f.qty.toNat) s.world.byteCells →
    exec (.writeMultipleCoils (.fields f)) s = .next
      (completed 0x0F t wl (0x0F :: (be16Bytes f.addr ++ be16Bytes f.qty))
        { s with
          world := notified s.cfg.callbacks.commitCoilsWrite .commitCoilsWrite
            { s.world with byteCells := m } })
    ∧ (∀ c, outsideCoils T f.addr.toNat f.qty.toNat c → m.read c = s.world.byteCells.read c)
    ∧ (∀ i r b, i < f.qty.toNat → coilTarget T (f.addr.toNat + i) = some (r, b) →
      (∀ k, i < k → k < f.qty.toNat → coilTarget T (f.addr.toNat + k) ≠ some (r, b)) →
      (m.read r).getLsbD b = (f.data.getD (i / 8) 0).getLsbD (i % 8))
    ∧ ∀ r b, b < 8 → (∀ k, k < f.qty.toNat → coilTarget T (f.addr.toNat + k) ≠ some (r, b)) →
      (m.read r).getLsbD b = (s.world.byteCells.read r).getLsbD b

/-! ## Register access -/

/-- FC 0x03 and 0x04 answer the word of every address, 0 where it has no readable register, and write
nothing; a start or an end inside a multi-word register is cut there (R340, R341, R345). A register that is a
constant answers these bytes, written out: a U8 a zero byte and its byte; the 16-, 32- and 64-bit types their
pattern over 1, 2 and 4 addresses, most significant byte first; a block of bytes its bytes, and a zero byte after
an odd number of them; a block of words its words (R86, R92, R93). -/
def Obligations.ReadRegistersAnswersTheImages : Prop :=
  ∀ (s : State) (t : Txn) (wl : Bool) (T : List RegDesc) (f : AddrQty), AtHandler s t wl →
    regTableValid T = true → 1 ≤ f.qty.toNat → f.qty.toNat ≤ 125 →
    f.addr.toNat + f.qty.toNat ≤ 0x10000 → plainRegReads T = true →
    regReadable T f.addr.toNat = true →
    (s.cfg.holding = some T →
      exec (.readHoldingRegisters (.fields f)) s = .next
        (completed 0x03 t wl
          (0x03 :: countByte (2 * f.qty.toNat)
            :: bytesOfWords (regWords s.world T f.addr.toNat f.qty.toNat)) s))
    ∧ (s.cfg.input = some T →
      exec (.readInputRegisters (.fields f)) s = .next
        (completed 0x04 t wl
          (0x04 :: countByte (2 * f.qty.toNat)
            :: bytesOfWords (regWords s.world T f.addr.toNat f.qty.toNat)) s))
    ∧ ∀ (d : RegDesc) (bytes : List Byte), cover T f.addr.toNat = some d → d.key = f.addr →
      ((∃ p : BitVec 64, d.rmode = .const (.scalar p)
          ∧ (d.type = .u8 ∧ f.qty = 0x0001 ∧ bytes = [0x00, p.extractLsb' 0 8]
            ∨ d.type = .u16 ∧ f.qty = 0x0001 ∧ bytes = [p.extractLsb' 8 8, p.extractLsb' 0 8]
            ∨ (d.type = .u32 ∨ d.type = .i32 ∨ d.type = .f32) ∧ f.qty = 0x0002
              ∧ bytes = [p.extractLsb' 24 8, p.extractLsb' 16 8, p.extractLsb' 8 8,
                p.extractLsb' 0 8]
            ∨ (d.type = .u64 ∨ d.type = .i64 ∨ d.type = .f64) ∧ f.qty = 0x0004
              ∧ bytes = [p.extractLsb' 56 8, p.extractLsb' 48 8, p.extractLsb' 40 8,
                p.extractLsb' 32 8, p.extractLsb' 24 8, p.extractLsb' 16 8, p.extractLsb' 8 8,
                p.extractLsb' 0 8]))
        ∨ (∃ e : List Byte, d.rmode = .const (.bytes e) ∧ d.type = .blkU8 e.length
          ∧ f.qty.toNat = (e.length + 1) / 2
          ∧ bytes = if e.length % 2 = 1 then e ++ [0x00] else e)
        ∨ ∃ e : List Word, d.rmode = .const (.words e) ∧ d.type = .blkU16 e.length
          ∧ f.qty.toNat = e.length ∧ bytes = e.flatMap fun v => [v.extractLsb' 8 8, v.extractLsb' 0 8]) →
      bytesOfWords (regWords s.world T f.addr.toNat f.qty.toNat) = bytes
        ∧ nwords d = f.qty.toNat

/-- A read whose first address has no readable target raises ILLEGAL_DATA_ADDR, by FC 0x01 to 0x04; so does a
first target that is locked; a later locked target reads as 0, and the targets after it as its lock predicate
left them; a target whose lock is present and answers open is read, and so is what follows it, as the predicate
left the storage (R96, R99, R121, R300, R340). That the predicate's answer stands in a script of the host is the
model's form of it (notes/assumptions/14.md). Any number of locks, of any answers, also by FC 0x14, 0x16 and
0x17: ReadCallbacksDecideTheAnswer. -/
def Obligations.UnreadableFirstTargetRaisesAddress : Prop :=
  ∀ (s : State) (t : Txn) (wl : Bool) (f : AddrQty) (fc : Byte) (i : Instr) (k : Nat) (locked : Bool)
      (cells : List CellChange) (rest : List HostDraw) (w' : World),
    AtHandler s t wl → 1 ≤ f.qty.toNat → f.addr.toNat + f.qty.toNat ≤ 0x10000 →
    (∀ T : List CoilDesc, f.qty.toNat ≤ 2000 →
      (fc = 0x01 ∧ s.cfg.coils = some T ∧ i = .readCoils (.fields f)
        ∨ fc = 0x02 ∧ s.cfg.discrete = some T ∧ i = .readDiscreteInputs (.fields f)) →
      ((findCoil T f.addr.toNat = none
          ∨ ∃ d, findCoil T f.addr.toNat = some d ∧ d.rlock = false ∧ d.rmode = .none) →
        exec i s = .next (failed fc t wl .illegalDataAddr s))
      ∧ ∀ d, findCoil T (f.addr.toNat + k) = some d → d.rlock = true →
        s.world.script = ⟨.bool locked, cells⟩ :: rest → w' = (invoke (.coilRlock d) s.world).2 →
        (k = 0 → (locked = true ∨ d.rmode = .none) →
          exec i s = .next (failed fc t wl .illegalDataAddr { s with world := w' }))
        ∧ (k < f.qty.toNat → coilReadable T f.addr.toNat = true →
          plainCoilReadsOn T f.addr.toNat k = true →
          plainCoilReadsOn T (f.addr.toNat + k + 1) (f.qty.toNat - k - 1) = true →
          (locked = true → 0 < k →
            exec i s = .next
              (completed fc t wl
                (fc :: countByte ((f.qty.toNat + 7) / 8) :: packBits ((f.qty.toNat + 7) / 8)
                  (coilBits s.world T f.addr.toNat k
                    ++ false :: coilBits w' T (f.addr.toNat + k + 1) (f.qty.toNat - k - 1)))
                { s with world := w' }))
          ∧ (locked = false → plainCoilRead { d with rlock := false } = true →
            exec i s = .next
              (completed fc t wl
                (fc :: countByte ((f.qty.toNat + 7) / 8) :: packBits ((f.qty.toNat + 7) / 8)
                  (coilBits s.world T f.addr.toNat k
                    ++ coilBits w' T (f.addr.toNat + k) (f.qty.toNat - k)))
                { s with world := w' }))))
    ∧ ∀ T : List RegDesc, f.qty.toNat ≤ 125 →
      (fc = 0x03 ∧ s.cfg.holding = some T ∧ i = .readHoldingRegisters (.fields f)
        ∨ fc = 0x04 ∧ s.cfg.input = some T ∧ i = .readInputRegisters (.fields f)) →
      ((cover T f.addr.toNat = none
          ∨ ∃ d, cover T f.addr.toNat = some d ∧ d.rlock = false ∧ d.rmode = .none) →
        exec i s = .next (failed fc t wl .illegalDataAddr s))
      ∧ ∀ d, cover T (f.addr.toNat + k) = some d → d.rlock = true →
        s.world.script = ⟨.bool locked, cells⟩ :: rest → w' = (invoke (.regRlock d) s.world).2 →
        (k = 0 → (locked = true ∨ d.rmode = .none) →
          exec i s = .next (failed fc t wl .illegalDataAddr { s with world := w' }))
        ∧ (k < f.qty.toNat → regTableValid T = true → regReadable T f.addr.toNat = true →
          (k = 0 ∨ d.key.toNat = f.addr.toNat + k) → plainRegReadsOn T f.addr.toNat k = true →
          (locked = true → 0 < k →
            plainRegReadsOn T (f.addr.toNat + k + 1) (f.qty.toNat - k - 1) = true →
            exec i s = .next
              (completed fc t wl
                (fc :: countByte (2 * f.qty.toNat) :: bytesOfWords
                  (regWords s.world T f.addr.toNat k
                    ++ 0 :: regWords w' T (f.addr.toNat + k + 1) (f.qty.toNat - k - 1)))
                { s with world := w' }))
          ∧ (locked = false → d.rmode ≠ .none → d.rmode ≠ .cb →
            plainRegReadsOn T (d.key.toNat + nwords d)
              (f.addr.toNat + f.qty.toNat - (d.key.toNat + nwords d)) = true →
            exec i s = .next
              (completed fc t wl
                (fc :: countByte (2 * f.qty.toNat) :: bytesOfWords
                  (regWords s.world T f.addr.toNat k
                    ++ regWords w' T (f.addr.toNat + k) (f.qty.toNat - k)))
                { s with world := w' })))

/-- A quantity out of the function code's range, or a byte count that does not agree with it, raises
ILLEGAL_DATA_VAL; a range past 0xFFFF raises ILLEGAL_DATA_ADDR, before any target is looked at (R276, R277,
R301, R305, R315, R341, R345, R355, R365). -/
def Obligations.QuantitiesAndRangesAreChecked : Prop :=
  ∀ (s : State) (t : Txn) (wl : Bool) (f : AddrQty) (m : MultiWrite) (x : ReadWrite),
    AtHandler s t wl →
    ((f.qty.toNat < 1 ∨ 2000 < f.qty.toNat) →
      (s.cfg.coils.isSome = true →
        exec (.readCoils (.fields f)) s = .next (failed 0x01 t wl .illegalDataVal s))
      ∧ (s.cfg.discrete.isSome = true →
        exec (.readDiscreteInputs (.fields f)) s = .next (failed 0x02 t wl .illegalDataVal s)))
    ∧ ((f.qty.toNat < 1 ∨ 125 < f.qty.toNat) →
      (s.cfg.holding.isSome = true →
        exec (.readHoldingRegisters (.fields f)) s = .next (failed 0x03 t wl .illegalDataVal s))
      ∧ (s.cfg.input.isSome = true →
        exec (.readInputRegisters (.fields f)) s = .next (failed 0x04 t wl .illegalDataVal s)))
    ∧ (1 ≤ f.qty.toNat → f.qty.toNat ≤ 2000 → 0x10000 < f.addr.toNat + f.qty.toNat →
      (s.cfg.coils.isSome = true →
        exec (.readCoils (.fields f)) s = .next (failed 0x01 t wl .illegalDataAddr s))
      ∧ (s.cfg.discrete.isSome = true →
        exec (.readDiscreteInputs (.fields f)) s = .next (failed 0x02 t wl .illegalDataAddr s)))
    ∧ (1 ≤ f.qty.toNat → f.qty.toNat ≤ 125 → 0x10000 < f.addr.toNat + f.qty.toNat →
      (s.cfg.holding.isSome = true →
        exec (.readHoldingRegisters (.fields f)) s = .next (failed 0x03 t wl .illegalDataAddr s))
      ∧ (s.cfg.input.isSome = true →
        exec (.readInputRegisters (.fields f)) s = .next (failed 0x04 t wl .illegalDataAddr s)))
    ∧ (s.cfg.coils.isSome = true →
      ((m.qty.toNat < 1 ∨ 1968 < m.qty.toNat ∨ m.data.length ≠ (m.qty.toNat + 7) / 8) →
        exec (.writeMultipleCoils (.fields m)) s = .next (failed 0x0F t wl .illegalDataVal s))
      ∧ (1 ≤ m.qty.toNat → m.qty.toNat ≤ 1968 → m.data.length = (m.qty.toNat + 7) / 8 →
        0x10000 < m.addr.toNat + m.qty.toNat →
        exec (.writeMultipleCoils (.fields m)) s = .next (failed 0x0F t wl .illegalDataAddr s)))
    ∧ (s.cfg.holding.isSome = true →
      ((m.qty.toNat < 1 ∨ 123 < m.qty.toNat ∨ m.data.length ≠ 2 * m.qty.toNat) →
        exec (.writeMultipleRegisters (.fields m)) s
          = .next (failed 0x10 t wl .illegalDataVal s))
      ∧ (1 ≤ m.qty.toNat → m.qty.toNat ≤ 123 → m.data.length = 2 * m.qty.toNat →
        0x10000 < m.addr.toNat + m.qty.toNat →
        exec (.writeMultipleRegisters (.fields m)) s
          = .next (failed 0x10 t wl .illegalDataAddr s))
      ∧ ((x.rq.toNat < 1 ∨ 125 < x.rq.toNat ∨ x.wq.toNat < 1 ∨ 121 < x.wq.toNat
          ∨ x.data.length ≠ 2 * x.wq.toNat) →
        exec (.readWriteMultipleRegisters (.fields x)) s
          = .next (failed 0x17 t wl .illegalDataVal s))
      ∧ (1 ≤ x.rq.toNat → x.rq.toNat ≤ 125 → 1 ≤ x.wq.toNat → x.wq.toNat ≤ 121 →
        x.data.length = 2 * x.wq.toNat →
        (0x10000 < x.raddr.toNat + x.rq.toNat ∨ 0x10000 < x.waddr.toNat + x.wq.toNat) →
        exec (.readWriteMultipleRegisters (.fields x)) s
          = .next (failed 0x17 t wl .illegalDataAddr s)))

/-- FC 0x06 stores one word of a register in a word array, then runs the hook and the commit where they are
present, and echoes the request; every other byte stays. A U8 keeps the value's low byte and a zero high byte; the
last word of a byte block of odd length keeps the high byte and a zero low byte; every other word is the value, and
a 16-bit register read where it is written then reads as the value (R92, R101, R350). Where the bytes of a word
lie is the model's choice (notes/assumptions/5.md). -/
def Obligations.WriteSingleRegisterStoresTheWord : Prop :=
  ∀ (s : State) (t : Txn) (wl : Bool) (T : List RegDesc) (d : RegDesc) (f : AddrValue) (r off : Nat),
    AtHandler s t wl → s.world.good = true → s.cfg.holding = some T →
    cover T f.addr.toNat = some d → d.wlock = false → d.wmode = .ptr r →
    refusesWrite d f.addr.toNat 1 = false → off = f.addr.toNat - d.key.toNat →
    listens d.postWrite s.world = true →
    listens s.cfg.callbacks.commitRegsWrite
      (notified d.postWrite (.regPostWrite d) s.world) = true →
    ∀ m, m = s.world.wordCells.writeWord r off (storedWord d.type off f.value) →
    exec (.writeSingleRegister (.fields f)) s = .next
      (completed 0x06 t wl (0x06 :: (be16Bytes f.addr ++ be16Bytes f.value))
        { s with
          world := notified s.cfg.callbacks.commitRegsWrite .commitRegsWrite
            (notified d.postWrite (.regPostWrite d) { s.world with wordCells := m }) })
    ∧ (∀ b, b ≠ wordAddr r off → b ≠ wordAddr r off + 1 → m.read b = s.world.wordCells.read b)
    ∧ (d.type = .u8 →
      m.read (wordAddr r off) = 0x00 ∧ m.read (wordAddr r off + 1) = f.value.extractLsb' 0 8)
    ∧ (∀ len, d.type = .blkU8 len → len % 2 = 1 → 2 * off + 1 = len →
      m.read (wordAddr r off) = f.value.extractLsb' 8 8 ∧ m.read (wordAddr r off + 1) = 0x00)
    ∧ (d.type ≠ .u8 → (∀ len, d.type = .blkU8 len → len % 2 = 0 ∨ 2 * off + 1 ≠ len) →
      m.readWord r off = f.value)
    ∧ (d.type = .u16 → d.rmode = .ptr r →
      regWord { s.world with wordCells := m } T f.addr.toNat = f.value)

/-- FC 0x10 stores the words in ascending order, register by register, and answers address and quantity: where
two addresses share a word the later one wins, every other byte stays (R92, R348, R349, R355). Where the bytes
of a word lie is the model's choice (notes/assumptions/5.md). Targets with locks, callbacks and hooks:
CallbackStatusDecidesTheOutcome. -/
def Obligations.WriteMultipleRegistersStoresEveryWord : Prop :=
  ∀ (s : State) (t : Txn) (wl : Bool) (T : List RegDesc) (f : MultiWrite), AtHandler s t wl →
    s.world.good = true → s.cfg.holding = some T → regTableValid T = true →
    1 ≤ f.qty.toNat → f.qty.toNat ≤ 123 → f.data.length = 2 * f.qty.toNat →
    f.addr.toNat + f.qty.toNat ≤ 0x10000 → plainRegTargets T f.addr.toNat f.qty.toNat = true →
    wholeWrites T f.addr.toNat f.qty.toNat = true →
    listens s.cfg.callbacks.commitRegsWrite s.world = true →
    ∀ m, m = storeRegs T f.addr.toNat (wordsOfBytes f.data) s.world.wordCells →
    exec (.writeMultipleRegisters (.fields f)) s = .next
      (completed 0x10 t wl (0x10 :: (be16Bytes f.addr ++ be16Bytes f.qty))
        { s with
          world := notified s.cfg.callbacks.commitRegsWrite .commitRegsWrite
            { s.world with wordCells := m } })
    ∧ (∀ b, outsideRegs T f.addr.toNat f.qty.toNat b → m.read b = s.world.wordCells.read b)
    ∧ ∀ i r off ty, i < f.qty.toNat → regTarget T (f.addr.toNat + i) = some (r, off, ty) →
      (∀ k x, i < k → k < f.qty.toNat → regTarget T (f.addr.toNat + k) = some x →
        (x.1, x.2.1) ≠ (r, off)) →
      m.readWord r off
        = storedWord ty off (be16 (f.data.getD (2 * i) 0) (f.data.getD (2 * i + 1) 0))

/-- A write one of whose targets is missing, may not be written or is write-locked raises ILLEGAL_DATA_ADDR
before anything is written, by FC 0x0F, 0x10, 0x15 (whatever follows the sub-request at hand), 0x16 and 0x17;
so does a target of FC 0x16 or a read start of FC 0x17 that may not be read or is read-locked (R97, R100, R105,
R118, R121, R315, R348, R355, R360, R365, R415). A lock predicate is asked once, and its own storage changes
stay; that its answer stands in a script of the host is the model's form of it (notes/assumptions/14.md). A lock
that answers open lets the request go on: CallbackStatusDecidesTheOutcome for writes,
ReadCallbacksDecideTheAnswer for reads. -/
def Obligations.MissingTargetStopsAWriteBeforeItBegins : Prop :=
  ∀ (s : State) (t : Txn) (wl : Bool) (i : Nat) (cells : List CellChange) (rest : List HostDraw),
    AtHandler s t wl →
    (∀ (T : List CoilDesc) (f : MultiWrite), s.cfg.coils = some T →
      1 ≤ f.qty.toNat → f.qty.toNat ≤ 1968 → f.data.length = (f.qty.toNat + 7) / 8 →
      f.addr.toNat + f.qty.toNat ≤ 0x10000 → i < f.qty.toNat → openCoils T f.addr.toNat i = true →
      (findCoil T (f.addr.toNat + i) = none →
        exec (.writeMultipleCoils (.fields f)) s = .next (failed 0x0F t wl .illegalDataAddr s))
      ∧ ∀ d, findCoil T (f.addr.toNat + i) = some d → d.wlock = true →
        s.world.script = ⟨.bool true, cells⟩ :: rest →
        exec (.writeMultipleCoils (.fields f)) s = .next
          (failed 0x0F t wl .illegalDataAddr
            { s with world := (invoke (.coilWlock d) s.world).2 }))
    ∧ (∀ T : List RegDesc, s.cfg.holding = some T → regTableValid T = true →
      (∀ f : MultiWrite, 1 ≤ f.qty.toNat → f.qty.toNat ≤ 123 → f.data.length = 2 * f.qty.toNat →
        f.addr.toNat + f.qty.toNat ≤ 0x10000 → i < f.qty.toNat →
        (unlockedWrites T f.addr.toNat (i + 1) = true →
          unwritable T f.addr.toNat f.qty.toNat (f.addr.toNat + i) = true →
          exec (.writeMultipleRegisters (.fields f)) s
            = .next (failed 0x10 t wl .illegalDataAddr s))
        ∧ ∀ d, openWrites T f.addr.toNat f.qty.toNat i = true → cover T (f.addr.toNat + i) = some d →
          asksWriteLock d = true → s.world.script = ⟨.bool true, cells⟩ :: rest →
          exec (.writeMultipleRegisters (.fields f)) s = .next
            (failed 0x10 t wl .illegalDataAddr
              { s with
                world :=
                  (invoke (.regWlock d (f.addr.toNat + i) f.addr.toNat ((wordsOfBytes f.data).drop i))
                    s.world).2 }))
      ∧ (∀ f : MaskWrite,
        (cover T f.addr.toNat = none →
          exec (.maskWriteRegister (.fields f)) s = .next (failed 0x16 t wl .illegalDataAddr s))
        ∧ ∀ d, cover T f.addr.toNat = some d →
          (asksWriteLock d = false →
            (refusesWrite d f.addr.toNat 1 = true ∨ d.rlock = false ∧ d.rmode = .none) →
            exec (.maskWriteRegister (.fields f)) s
              = .next (failed 0x16 t wl .illegalDataAddr s))
          ∧ (s.world.script = ⟨.bool true, cells⟩ :: rest →
            (asksWriteLock d = true →
              exec (.maskWriteRegister (.fields f)) s = .next
                (failed 0x16 t wl .illegalDataAddr
                  { s with
                    world :=
                      (invoke (.regWlock d f.addr.toNat f.addr.toNat [f.andMask, f.orMask])
                        s.world).2 }))
            ∧ (asksWriteLock d = false → refusesWrite d f.addr.toNat 1 = false →
              d.rlock = true →
              exec (.maskWriteRegister (.fields f)) s = .next
                (failed 0x16 t wl .illegalDataAddr
                  { s with world := (invoke (.regRlock d) s.world).2 }))))
      ∧ ∀ f : ReadWrite, 1 ≤ f.rq.toNat → f.rq.toNat ≤ 125 → 1 ≤ f.wq.toNat → f.wq.toNat ≤ 121 →
        f.data.length = 2 * f.wq.toNat → f.raddr.toNat + f.rq.toNat ≤ 0x10000 →
        f.waddr.toNat + f.wq.toNat ≤ 0x10000 →
        ((cover T f.raddr.toNat = none
            ∨ ∃ d, cover T f.raddr.toNat = some d ∧ d.rlock = false ∧ d.rmode = .none) →
          exec (.readWriteMultipleRegisters (.fields f)) s
            = .next (failed 0x17 t wl .illegalDataAddr s))
        ∧ ∀ e, cover T f.raddr.toNat = some e →
          (e.rlock = true → s.world.script = ⟨.bool true, cells⟩ :: rest →
            exec (.readWriteMultipleRegisters (.fields f)) s = .next
              (failed 0x17 t wl .illegalDataAddr
                { s with world := (invoke (.regRlock e) s.world).2 }))
          ∧ (e.rlock = false → e.rmode ≠ .none → i < f.wq.toNat →
            (unlockedWrites T f.waddr.toNat (i + 1) = true →
              unwritable T f.waddr.toNat f.wq.toNat (f.waddr.toNat + i) = true →
              exec (.readWriteMultipleRegisters (.fields f)) s
                = .next (failed 0x17 t wl .illegalDataAddr s))
            ∧ ∀ d, openWrites T f.waddr.toNat f.wq.toNat i = true →
              cover T (f.waddr.toNat + i) = some d → asksWriteLock d = true →
              s.world.script = ⟨.bool true, cells⟩ :: rest →
              exec (.readWriteMultipleRegisters (.fields f)) s = .next
                (failed 0x17 t wl .illegalDataAddr
                  { s with
                    world :=
                      (invoke
                        (.regWlock d (f.waddr.toNat + i) f.waddr.toNat
                          ((wordsOfBytes f.data).drop i)) s.world).2 })))
    ∧ ∀ (T : List FileDesc) (pre : List (SubRequest × List Word)) (h : SubRequest) (ws : List Word)
        (more data : List Byte), s.cfg.files = some T → fileTableValid T = true →
      (∀ x ∈ pre, openFileWrite s.cfg.extFileRange T x = true) →
      headerValid s.cfg.extFileRange T h = true → ws.length = h.recLen.toNat → i < h.recLen.toNat →
      data = fileWriteBytes pre ++ (headerBytes h ++ (bytesOfWords ws ++ more)) →
      (unlockedWrites (recordsOf T h) h.recNo.toNat (i + 1) = true →
        unwritable (recordsOf T h) h.recNo.toNat h.recLen.toNat (h.recNo.toNat + i) = true →
        exec (.writeFileRecord (.fields data)) s = .next (failed 0x15 t wl .illegalDataAddr s))
      ∧ ∀ d, openWrites (recordsOf T h) h.recNo.toNat h.recLen.toNat i = true →
        cover (recordsOf T h) (h.recNo.toNat + i) = some d → asksWriteLock d = true →
        s.world.script = ⟨.bool true, cells⟩ :: rest →
        exec (.writeFileRecord (.fields data)) s = .next
          (failed 0x15 t wl .illegalDataAddr
            { s with
              world :=
                (invoke (.regWlock d (h.recNo.toNat + i) h.recNo.toNat (ws.drop i)) s.world).2 })

/-- FC 0x16 stores `(value AND and) OR (or AND NOT and)` and echoes the request; every other byte stays, and
with masks 0xFFFF and 0 a 16-bit register keeps its value (R360). Where the bytes of a word lie is the model's
choice (notes/assumptions/5.md). A register with locks, callbacks or a hook: CallbackStatusDecidesTheOutcome and
ReadCallbacksDecideTheAnswer. -/
def Obligations.MaskWriteFollowsTheMaskLaw : Prop :=
  ∀ (s : State) (t : Txn) (wl : Bool) (T : List RegDesc) (f : MaskWrite) (r off : Nat)
      (ty : RegType), AtHandler s t wl → s.world.good = true → s.cfg.holding = some T →
    regTarget T f.addr.toNat = some (r, off, ty) → wholeWrites T f.addr.toNat 1 = true →
    plainRegReads T = true → regReadable T f.addr.toNat = true →
    listens s.cfg.callbacks.commitRegsWrite s.world = true →
    ∀ m, m = s.world.wordCells.writeWord r off
        (storedWord ty off
          ((regWord s.world T f.addr.toNat &&& f.andMask) ||| (f.orMask &&& ~~~f.andMask))) →
    exec (.maskWriteRegister (.fields f)) s = .next
      (completed 0x16 t wl
        (0x16 :: (be16Bytes f.addr ++ be16Bytes f.andMask ++ be16Bytes f.orMask))
        { s with
          world := notified s.cfg.callbacks.commitRegsWrite .commitRegsWrite
            { s.world with wordCells := m } })
    ∧ (∀ b, b ≠ wordAddr r off → b ≠ wordAddr r off + 1 → m.read b = s.world.wordCells.read b)
    ∧ (ty = .u16 → (∀ d, cover T f.addr.toNat = some d → d.rmode = .ptr r) →
      f.andMask = 0xFFFF → f.orMask = 0x0000 →
      regWord { s.world with wordCells := m } T f.addr.toNat = regWord s.world T f.addr.toNat)

/-- FC 0x17 writes first, then answers the words of the read range as the writes and the commit left them;
every byte outside the write targets stays up to the commit (R365, R584). Where the bytes of a word lie is the
model's choice (notes/assumptions/5.md). Targets with locks, callbacks and hooks: ReadCallbacksDecideTheAnswer. -/
def Obligations.ReadWriteReadsWhatItWrote : Prop :=
  ∀ (s : State) (t : Txn) (wl : Bool) (T : List RegDesc) (f : ReadWrite) (m : Memory) (w' : World),
    AtHandler s t wl → s.world.good = true → s.cfg.holding = some T → regTableValid T = true →
    1 ≤ f.rq.toNat → f.rq.toNat ≤ 125 → 1 ≤ f.wq.toNat → f.wq.toNat ≤ 121 →
    f.data.length = 2 * f.wq.toNat → f.raddr.toNat + f.rq.toNat ≤ 0x10000 →
    f.waddr.toNat + f.wq.toNat ≤ 0x10000 → plainRegReads T = true →
    regReadable T f.raddr.toNat = true → plainRegTargets T f.waddr.toNat f.wq.toNat = true →
    wholeWrites T f.waddr.toNat f.wq.toNat = true →
    listens s.cfg.callbacks.commitRegsWrite s.world = true →
    m = storeRegs T f.waddr.toNat (wordsOfBytes f.data) s.world.wordCells →
    w' = notified s.cfg.callbacks.commitRegsWrite .commitRegsWrite
      { s.world with wordCells := m } →
    exec (.readWriteMultipleRegisters (.fields f)) s = .next
      (completed 0x17 t wl
        (0x17 :: countByte (2 * f.rq.toNat)
          :: bytesOfWords (regWords w' T f.raddr.toNat f.rq.toNat)) { s with world := w' })
    ∧ ∀ b, outsideRegs T f.waddr.toNat f.wq.toNat b → m.read b = s.world.wordCells.read b

/-! ## File records -/

/-- FC 0x14 answers every sub-request in order with its length, 0x06 and its records' words, 0 where a
record is missing, and writes nothing (R104, R400, R401, R405). -/
def Obligations.ReadFileRecordAnswersEverySubrequest : Prop :=
  ∀ (s : State) (t : Txn) (wl : Bool) (T : List FileDesc) (subs : List SubRequest),
    AtHandler s t wl → s.cfg.files = some T → fileTableValid T = true →
    subs ≠ [] → subs.length ≤ 35 →
    (∀ h ∈ subs, headerValid s.cfg.extFileRange T h = true
      ∧ plainRegReads (recordsOf T h) = true
      ∧ regReadable (recordsOf T h) h.recNo.toNat = true) →
    answerSize subs ≤ 245 →
    exec (.readFileRecord (.fields (subs.flatMap headerBytes))) s = .next
      (completed 0x14 t wl
        (0x14 :: countByte (answerSize subs)
          :: subs.flatMap fun h =>
            countByte (1 + 2 * h.recLen.toNat) :: 0x06
              :: bytesOfWords (regWords s.world (recordsOf T h) h.recNo.toNat h.recLen.toNat)) s)

/-- FC 0x15 stores every sub-request's words in request order and echoes the whole request (R105, R106, R400,
R401, R415); every byte outside the targets stays. Where the bytes of a word lie is the model's choice
(notes/assumptions/5.md). Targets with locks, callbacks and hooks: CallbackStatusDecidesTheOutcome. -/
def Obligations.WriteFileRecordStoresEverySubrequest : Prop :=
  ∀ (s : State) (t : Txn) (wl : Bool) (T : List FileDesc) (subs : List (SubRequest × List Word)),
    AtHandler s t wl → s.world.good = true → s.cfg.files = some T → fileTableValid T = true →
    subs ≠ [] →
    (∀ x ∈ subs, headerValid s.cfg.extFileRange T x.1 = true ∧ x.2.length = x.1.recLen.toNat
      ∧ plainRegTargets (recordsOf T x.1) x.1.recNo.toNat x.1.recLen.toNat = true
      ∧ wholeWrites (recordsOf T x.1) x.1.recNo.toNat x.1.recLen.toNat = true) →
    listens s.cfg.callbacks.commitRegsWrite s.world = true →
    ∀ (data : List Byte) (m : Memory),
    data = fileWriteBytes subs → m = storeFiles T subs s.world.wordCells →
    exec (.writeFileRecord (.fields data)) s = .next
      (completed 0x15 t wl (0x15 :: countByte data.length :: data)
        { s with
          world := notified s.cfg.callbacks.commitRegsWrite .commitRegsWrite
            { s.world with wordCells := m } })
    ∧ ∀ b, (∀ x ∈ subs, outsideRegs (recordsOf T x.1) x.1.recNo.toNat x.1.recLen.toNat b) →
      m.read b = s.world.wordCells.read b

/-- What FC 0x14 and 0x15 raise, with nothing written. FC 0x14: a byte count outside 7..245 or no multiple of 7 is
ILLEGAL_DATA_VAL; then the first bad header decides: a reference type other than 6 or no record is
ILLEGAL_DATA_VAL, file number 0, a file or record number out of range, a range past 0xFFFF and an unknown file
are ILLEGAL_DATA_ADDR, answers of more than 245 bytes in all are ILLEGAL_DATA_VAL; then a sub-request whose first
record is missing, denied or locked is ILLEGAL_DATA_ADDR. FC 0x15: a byte count below 9 is ILLEGAL_DATA_VAL;
after sub-requests that pass, a header or data that does not fit is ILLEGAL_DATA_VAL, and a bad header raises
what it does for FC 0x14 (R104, R401, R402, R405, R415). That a lock's answer stands in a script of the host is
the model's form of it (notes/assumptions/14.md); a lock that answers open: ReadCallbacksDecideTheAnswer. -/
def Obligations.FileHeadersAreChecked : Prop :=
  ∀ (s : State) (t : Txn) (wl : Bool) (T : List FileDesc) (h : SubRequest) (e : Status),
    AtHandler s t wl → s.cfg.files = some T →
    (∀ data : List Byte, (data.length < 7 ∨ 245 < data.length ∨ data.length % 7 ≠ 0) →
      exec (.readFileRecord (.fields data)) s = .next (failed 0x14 t wl .illegalDataVal s))
    ∧ (∀ (pre post : List SubRequest) (data : List Byte),
      data = (pre ++ h :: post).flatMap headerBytes → data.length ≤ 245 →
      (∀ x ∈ pre, headerValid s.cfg.extFileRange T x = true) →
      (answerSize pre ≤ 245 → HeaderRaises s.cfg.extFileRange T h e →
        exec (.readFileRecord (.fields data)) s = .next (failed 0x14 t wl e s))
      ∧ (headerValid s.cfg.extFileRange T h = true → answerSize pre ≤ 245 →
        245 < answerSize pre + (2 + 2 * h.recLen.toNat) →
        exec (.readFileRecord (.fields data)) s = .next (failed 0x14 t wl .illegalDataVal s))
      ∧ ((∀ x ∈ h :: post, headerValid s.cfg.extFileRange T x = true) →
        answerSize (pre ++ h :: post) ≤ 245 → fileTableValid T = true →
        (∀ x ∈ pre, plainRegReadsOn (recordsOf T x) x.recNo.toNat x.recLen.toNat = true
          ∧ regReadable (recordsOf T x) x.recNo.toNat = true) →
        ((cover (recordsOf T h) h.recNo.toNat = none
            ∨ ∃ d, cover (recordsOf T h) h.recNo.toNat = some d ∧ d.rlock = false
              ∧ d.rmode = .none) →
          exec (.readFileRecord (.fields data)) s = .next (failed 0x14 t wl .illegalDataAddr s))
        ∧ ∀ d cells rest, cover (recordsOf T h) h.recNo.toNat = some d → d.rlock = true →
          s.world.script = ⟨.bool true, cells⟩ :: rest →
          exec (.readFileRecord (.fields data)) s = .next
            (failed 0x14 t wl .illegalDataAddr
              { s with world := (invoke (.regRlock d) s.world).2 })))
    ∧ (∀ data : List Byte, data.length < 9 →
      exec (.writeFileRecord (.fields data)) s = .next (failed 0x15 t wl .illegalDataVal s))
    ∧ ∀ (pre : List (SubRequest × List Word)) (more : List Byte), fileTableValid T = true →
      (∀ x ∈ pre, openFileWrite s.cfg.extFileRange T x = true) →
      (more ≠ [] → more.length < 7 →
        exec (.writeFileRecord (.fields (fileWriteBytes pre ++ more))) s
          = .next (failed 0x15 t wl .illegalDataVal s))
      ∧ (more.length < 2 * h.recLen.toNat →
        exec (.writeFileRecord (.fields (fileWriteBytes pre ++ (headerBytes h ++ more)))) s
          = .next (failed 0x15 t wl .illegalDataVal s))
      ∧ (2 * h.recLen.toNat ≤ more.length → (pre ≠ [] ∨ 2 ≤ more.length) →
        HeaderRaises s.cfg.extFileRange T h e →
        exec (.writeFileRecord (.fields (fileWriteBytes pre ++ (headerBytes h ++ more)))) s
          = .next (failed 0x15 t wl e s))

/-! ## The host's answers -/

/-- What the host answers decides a read (R96, R99, R111). In one read by FC 0x01 or 0x03 a callback's byte is ON
exactly if it is not 0, a register's words go out from the requested offset, and FAIL is DEV_FAIL. In general, by FC
0x01 to 0x04 and 0x14, each target is read by R96 or R99: a read lock that answers open lets it go on, a closed
one, a missing target and one without read access are ILLEGAL_DATA_ADDR in the first position and 0 later; a
callback gives its value; FAIL and a coil with a bit index above 7 are DEV_FAIL and end the read (R104, R300, R340,
R405). FC 0x16 reads so between its write check and its write, where DEV_FAIL leaves nothing written (R360); FC
0x17 reads so after its writes and their commit, which stay written (R365). That answers stand in a script of the
host, or are free draws where it is empty, is the model's form of them (notes/assumptions/14.md and 1.md). -/
def Obligations.ReadCallbacksDecideTheAnswer : Prop :=
  ∀ (s : State) (t : Txn) (wl : Bool) (cells : List CellChange) (rest : List HostDraw) (f : AddrQty)
      (fc : Byte) (i : Instr) (w' : World), AtHandler s t wl →
    (∀ (C : List CoilDesc) (d : CoilDesc) (v : Byte), s.cfg.coils = some C → f.qty = 0x0001 →
      findCoil C f.addr.toNat = some d → d.rlock = false → d.rmode = .cb →
      (s.world.script = ⟨.byte v, cells⟩ :: rest →
        exec (.readCoils (.fields f)) s = .next
          (completed 0x01 t wl [0x01, 0x01, if v = 0x00 then 0x00 else 0x01]
            { s with world := (invoke (.coilRead d) s.world).2 }))
      ∧ (s.world.script = ⟨.fail, cells⟩ :: rest →
        exec (.readCoils (.fields f)) s = .next
          (failed 0x01 t wl .devFail { s with world := (invoke (.coilRead d) s.world).2 })))
    ∧ (∀ (T : List RegDesc) (d : RegDesc) (ws : List Word), s.cfg.holding = some T →
      1 ≤ f.qty.toNat → f.qty.toNat ≤ 125 → cover T f.addr.toNat = some d → d.rlock = false →
      d.rmode = .cb → f.addr.toNat + f.qty.toNat ≤ d.key.toNat + nwords d →
      f.addr.toNat + f.qty.toNat ≤ 0x10000 →
      (s.world.script = ⟨.words ws, cells⟩ :: rest → ws.length = nwords d →
        exec (.readHoldingRegisters (.fields f)) s = .next
          (completed 0x03 t wl
            (0x03 :: countByte (2 * f.qty.toNat)
              :: bytesOfWords ((ws.drop (f.addr.toNat - d.key.toNat)).take f.qty.toNat))
            { s with world := (invoke (.regRead d) s.world).2 }))
      ∧ (s.world.script = ⟨.fail, cells⟩ :: rest →
        exec (.readHoldingRegisters (.fields f)) s = .next
          (failed 0x03 t wl .devFail { s with world := (invoke (.regRead d) s.world).2 })))
    ∧ (∀ (T : List CoilDesc) (out : Except Status (List Bool)), 1 ≤ f.qty.toNat →
      f.qty.toNat ≤ 2000 → f.addr.toNat + f.qty.toNat ≤ 0x10000 →
      (fc = 0x01 ∧ s.cfg.coils = some T ∧ i = .readCoils (.fields f)
        ∨ fc = 0x02 ∧ s.cfg.discrete = some T ∧ i = .readDiscreteInputs (.fields f)) →
      CoilsRead T true f.addr.toNat f.qty.toNat s.world out w' →
      exec i s = .next
        (answered fc t wl
          (fun bits => fc :: countByte ((f.qty.toNat + 7) / 8) :: packBits ((f.qty.toNat + 7) / 8) bits)
          out { s with world := w' }))
    ∧ (∀ (T : List RegDesc) (out : Except Status (List Word)), 1 ≤ f.qty.toNat →
      f.qty.toNat ≤ 125 → f.addr.toNat + f.qty.toNat ≤ 0x10000 →
      (fc = 0x03 ∧ s.cfg.holding = some T ∧ i = .readHoldingRegisters (.fields f)
        ∨ fc = 0x04 ∧ s.cfg.input = some T ∧ i = .readInputRegisters (.fields f)) →
      RegsRead T true f.addr.toNat f.qty.toNat s.world out w' →
      exec i s = .next
        (answered fc t wl (fun ws => fc :: countByte (2 * f.qty.toNat) :: bytesOfWords ws) out
          { s with world := w' }))
    ∧ (∀ (T : List FileDesc) (subs : List SubRequest) (out : Except Status (List Byte)),
      s.cfg.files = some T → subs ≠ [] → subs.length ≤ 35 →
      (∀ h ∈ subs, headerValid s.cfg.extFileRange T h = true) → answerSize subs ≤ 245 →
      FilesRead T subs s.world out w' →
      exec (.readFileRecord (.fields (subs.flatMap headerBytes))) s = .next
        (answered 0x14 t wl (fun body => 0x14 :: countByte (answerSize subs) :: body) out
          { s with world := w' }))
    ∧ ∀ (T : List RegDesc) (d : RegDesc) (w0 w1 : World), s.cfg.holding = some T →
      (∀ (x : MaskWrite) (k : Nat), cover T x.addr.toNat = some d →
        RegAdmits d x.addr.toNat x.addr.toNat 1 [x.andMask, x.orMask] s.world k w0 → 0 < k →
        (RegSays d x.addr.toNat 1 w0 .devFail w' →
          exec (.maskWriteRegister (.fields x)) s
            = .next (failed 0x16 t wl .devFail { s with world := w' }))
        ∧ ((RegSays d x.addr.toNat 1 w0 .locked w' ∨ RegSays d x.addr.toNat 1 w0 .noAccess w') →
          exec (.maskWriteRegister (.fields x)) s
            = .next (failed 0x16 t wl .illegalDataAddr { s with world := w' })))
      ∧ ∀ (x : ReadWrite) (out : Except Status (List Word)), 1 ≤ x.rq.toNat → x.rq.toNat ≤ 125 →
        1 ≤ x.wq.toNat → x.wq.toNat ≤ 121 → x.data.length = 2 * x.wq.toNat →
        x.raddr.toNat + x.rq.toNat ≤ 0x10000 → x.waddr.toNat + x.wq.toNat ≤ 0x10000 →
        cover T x.raddr.toNat = some d → LockSays d.rlock (.regRlock d) s.world false w0 →
        d.rmode ≠ .none →
        RegsEnd s.cfg.callbacks.commitRegsWrite T x.waddr.toNat (wordsOfBytes x.data) w0 .ok w1 →
        RegsRead T true x.raddr.toNat x.rq.toNat w1 out w' →
        exec (.readWriteMultipleRegisters (.fields x)) s = .next
          (answered 0x17 t wl (fun ws => 0x17 :: countByte (2 * x.rq.toNat) :: bytesOfWords ws) out
            { s with world := w' })

/-- A status that a write callback or the fallback answers becomes the exception of its code, with its
counters and its send event; OK completes (R111, R266). The code that goes out is the answered code itself, and the
event is 0x41 for the codes 1 to 3, 0x42 for 4, 0x44 for 5 and 6, 0x48 for 7, 0x40 for 8, with 0x20 more in
listen-only mode (R269, R500, R501). A write by FC 0x0F, 0x10, 0x15 or 0x17 that fails at one target leaves the
targets before it written and every later one as it was, up to the storage changes of the failing callback itself,
and invokes no commit; for coils a target without write mode or with a bit index above 7 fails so with DEV_FAIL
(R118, R315, R349, R415, R585). In general, whatever write locks, callbacks and hooks answer, and at however many
targets: a lock that answers closed ends the request before anything is written, open lets it go on; a callback
that answers OK lets the writes after it go on, its hook runs then, and the commit follows the last of them; so
for FC 0x05, 0x06, 0x0F, 0x10, 0x15, 0x16 and 0x17 (R97, R98, R100, R101, R348, R360). The fallback answers for
every function code that is not listed, for FC 0x11, and for a listed one whose table or callback is ABSENT (R161,
R264, R272; notes/assumptions/19.md). That answers stand in a script of the host, or are free draws where it is
empty, is the model's form of them (notes/assumptions/14.md and 1.md), and where the bytes of a word lie is the
model's choice (notes/assumptions/5.md). -/
def Obligations.CallbackStatusDecidesTheOutcome : Prop :=
  ∀ (s : State) (t : Txn) (wl : Bool) (code : Byte) (e : Status) (cells : List CellChange)
      (rest : List HostDraw), AtHandler s t wl → code = wireCode e →
    (∀ (C : List CoilDesc) (d : CoilDesc) (f : AddrValue), s.cfg.coils = some C →
      findCoil C f.addr.toNat = some d → d.wlock = false → d.wmode = .cb → d.postWrite = false →
      s.cfg.callbacks.commitCoilsWrite = false → (f.value = 0x0000 ∨ f.value = 0xFF00) →
      s.world.script = ⟨.status code, cells⟩ :: rest →
      exec (.writeSingleCoil (.fields f)) s = .next
        (if e = .ok then
          completed 0x05 t wl (0x05 :: (be16Bytes f.addr ++ be16Bytes f.value))
            { s with world := (invoke (.coilWrite d (f.value = 0xFF00)) s.world).2 }
        else failed 0x05 t wl e
          { s with world := (invoke (.coilWrite d (f.value = 0xFF00)) s.world).2 }))
    ∧ (∀ (T : List RegDesc) (d : RegDesc) (f : AddrValue), s.cfg.holding = some T →
      cover T f.addr.toNat = some d → f.addr = d.key → d.wlock = false → d.wmode = .cb →
      d.postWrite = false → s.cfg.callbacks.commitRegsWrite = false →
      s.world.script = ⟨.status code, cells⟩ :: rest →
      exec (.writeSingleRegister (.fields f)) s = .next
        (if e = .ok then
          completed 0x06 t wl (0x06 :: (be16Bytes f.addr ++ be16Bytes f.value))
            { s with world := (invoke (.regWrite d 0 1 [f.value]) s.world).2 }
        else failed 0x06 t wl e
          { s with world := (invoke (.regWrite d 0 1 [f.value]) s.world).2 }))
    ∧ (∀ (C : List CoilDesc) (d : CoilDesc) (f : MultiWrite) (i : Nat) (m : Memory),
      s.cfg.coils = some C → 1 ≤ f.qty.toNat → f.qty.toNat ≤ 1968 →
      f.data.length = (f.qty.toNat + 7) / 8 → f.addr.toNat + f.qty.toNat ≤ 0x10000 →
      openCoils C f.addr.toNat f.qty.toNat = true → i < f.qty.toNat →
      plainCoilTargets C f.addr.toNat i = true → findCoil C (f.addr.toNat + i) = some d →
      m = storeCoils C f.addr.toNat (requestBits f.data i) s.world.byteCells →
      (d.wmode = .cb → e ≠ .ok → s.world.script = ⟨.status code, cells⟩ :: rest →
        exec (.writeMultipleCoils (.fields f)) s = .next
          (failed 0x0F t wl e
            { s with
              world :=
                (invoke (.coilWrite d (packedBit f.data i)) { s.world with byteCells := m }).2 }))
      ∧ ((d.wmode = .none ∨ ∃ r b, d.wmode = .cell r b ∧ 7 < b) →
        exec (.writeMultipleCoils (.fields f)) s = .next
          (failed 0x0F t wl .devFail { s with world := { s.world with byteCells := m } }))
      ∧ (s.world.good = true →
        ∀ c, outsideCoils C f.addr.toNat i c → m.read c = s.world.byteCells.read c))
    ∧ (∀ (T : List RegDesc) (d : RegDesc) (a n i k off : Nat) (ws : List Word) (m : Memory)
        (w' : World), s.cfg.holding = some T → regTableValid T = true → e ≠ .ok →
      s.world.script = ⟨.status code, cells⟩ :: rest → ws.length = n →
      openWrites T a n n = true → i < n → plainRegTargets T a i = true →
      cover T (a + i) = some d → d.wmode = .cb → off = offset d (a + i) →
      k = min (nwords d - off) (n - i) → m = storeRegs T a (ws.take i) s.world.wordCells →
      w' = (invoke (.regWrite d off k ((ws.drop i).take k)) { s.world with wordCells := m }).2 →
      (∀ f : MultiWrite, f.addr.toNat = a → f.qty.toNat = n → n ≤ 123 → a + n ≤ 0x10000 →
        f.data = bytesOfWords ws →
        exec (.writeMultipleRegisters (.fields f)) s
          = .next (failed 0x10 t wl e { s with world := w' }))
      ∧ (∀ (f : ReadWrite) (c : RegDesc), f.waddr.toNat = a → f.wq.toNat = n → n ≤ 121 →
        a + n ≤ 0x10000 → f.data = bytesOfWords ws → 1 ≤ f.rq.toNat → f.rq.toNat ≤ 125 →
        f.raddr.toNat + f.rq.toNat ≤ 0x10000 → cover T f.raddr.toNat = some c → c.rlock = false →
        c.rmode ≠ .none →
        exec (.readWriteMultipleRegisters (.fields f)) s
          = .next (failed 0x17 t wl e { s with world := w' }))
      ∧ (s.world.good = true → ∀ b, outsideRegs T a i b → m.read b = s.world.wordCells.read b))
    ∧ (∀ (T : List FileDesc) (pre post : List (SubRequest × List Word)) (h : SubRequest)
        (ws : List Word) (d : RegDesc) (i k off : Nat) (m : Memory) (w' : World),
      s.cfg.files = some T → fileTableValid T = true → e ≠ .ok →
      s.world.script = ⟨.status code, cells⟩ :: rest →
      (∀ x ∈ pre ++ (h, ws) :: post, openFileWrite s.cfg.extFileRange T x = true) →
      (∀ x ∈ pre,
        plainRegTargets (recordsOf T x.1) x.1.recNo.toNat x.1.recLen.toNat = true) →
      i < h.recLen.toNat → plainRegTargets (recordsOf T h) h.recNo.toNat i = true →
      cover (recordsOf T h) (h.recNo.toNat + i) = some d → d.wmode = .cb →
      off = offset d (h.recNo.toNat + i) → k = min (nwords d - off) (h.recLen.toNat - i) →
      m = storeRegs (recordsOf T h) h.recNo.toNat (ws.take i)
          (storeFiles T pre s.world.wordCells) →
      w' = (invoke (.regWrite d off k ((ws.drop i).take k)) { s.world with wordCells := m }).2 →
      exec (.writeFileRecord (.fields (fileWriteBytes (pre ++ (h, ws) :: post)))) s
          = .next (failed 0x15 t wl e { s with world := w' })
      ∧ (s.world.good = true → ∀ b, outsideRegs (recordsOf T h) h.recNo.toNat i b →
        (∀ x ∈ pre, outsideRegs (recordsOf T x.1) x.1.recNo.toNat x.1.recLen.toNat b) →
        m.read b = s.world.wordCells.read b))
    ∧ (∀ (C : List CoilDesc) (w' : World), s.cfg.coils = some C →
      (∀ f : AddrValue, (f.value = 0x0000 ∨ f.value = 0xFF00) →
        CoilsEnd s.cfg.callbacks.commitCoilsWrite C f.addr.toNat [f.value = 0xFF00] s.world e w' →
        exec (.writeSingleCoil (.fields f)) s = .next
          (ended 0x05 t wl (0x05 :: (be16Bytes f.addr ++ be16Bytes f.value)) e
            { s with world := w' }))
      ∧ ∀ f : MultiWrite, 1 ≤ f.qty.toNat → f.qty.toNat ≤ 1968 →
        f.data.length = (f.qty.toNat + 7) / 8 → f.addr.toNat + f.qty.toNat ≤ 0x10000 →
        CoilsEnd s.cfg.callbacks.commitCoilsWrite C f.addr.toNat (requestBits f.data f.qty.toNat)
          s.world e w' →
        exec (.writeMultipleCoils (.fields f)) s = .next
          (ended 0x0F t wl (0x0F :: (be16Bytes f.addr ++ be16Bytes f.qty)) e
            { s with world := w' }))
    ∧ (∀ (T : List RegDesc) (w' : World), s.cfg.holding = some T →
      (∀ f : AddrValue,
        RegsEnd s.cfg.callbacks.commitRegsWrite T f.addr.toNat [f.value] s.world e w' →
        exec (.writeSingleRegister (.fields f)) s = .next
          (ended 0x06 t wl (0x06 :: (be16Bytes f.addr ++ be16Bytes f.value)) e
            { s with world := w' }))
      ∧ (∀ f : MultiWrite, 1 ≤ f.qty.toNat → f.qty.toNat ≤ 123 →
        f.data.length = 2 * f.qty.toNat → f.addr.toNat + f.qty.toNat ≤ 0x10000 →
        RegsEnd s.cfg.callbacks.commitRegsWrite T f.addr.toNat (wordsOfBytes f.data) s.world e w' →
        exec (.writeMultipleRegisters (.fields f)) s = .next
          (ended 0x10 t wl (0x10 :: (be16Bytes f.addr ++ be16Bytes f.qty)) e
            { s with world := w' }))
      ∧ (∀ (f : MaskWrite) (d : RegDesc) (k : Nat) (v : Word) (w1 w2 w3 : World),
        cover T f.addr.toNat = some d →
        RegAdmits d f.addr.toNat f.addr.toNat 1 [f.andMask, f.orMask] s.world k w1 →
        (k = 0 → exec (.maskWriteRegister (.fields f)) s
          = .next (failed 0x16 t wl .illegalDataAddr { s with world := w1 }))
        ∧ (0 < k → RegSays d f.addr.toNat 1 w1 (.words [v]) w2 →
          RegWrites d (f.addr.toNat - d.key.toNat)
            [(v &&& f.andMask) ||| (f.orMask &&& ~~~f.andMask)] w2 e w3 →
          (if e = .ok then Told s.cfg.callbacks.commitRegsWrite .commitRegsWrite w3 w'
            else w' = w3) →
          exec (.maskWriteRegister (.fields f)) s = .next
            (ended 0x16 t wl
              (0x16 :: (be16Bytes f.addr ++ be16Bytes f.andMask ++ be16Bytes f.orMask)) e
              { s with world := w' })))
      ∧ ∀ (f : ReadWrite) (d : RegDesc) (w0 : World), 1 ≤ f.rq.toNat → f.rq.toNat ≤ 125 →
        1 ≤ f.wq.toNat → f.wq.toNat ≤ 121 → f.data.length = 2 * f.wq.toNat →
        f.raddr.toNat + f.rq.toNat ≤ 0x10000 → f.waddr.toNat + f.wq.toNat ≤ 0x10000 →
        cover T f.raddr.toNat = some d → LockSays d.rlock (.regRlock d) s.world false w0 →
        d.rmode ≠ .none → e ≠ .ok →
        RegsEnd s.cfg.callbacks.commitRegsWrite T f.waddr.toNat (wordsOfBytes f.data) w0 e w' →
        exec (.readWriteMultipleRegisters (.fields f)) s
          = .next (failed 0x17 t wl e { s with world := w' }))
    ∧ (∀ (T : List FileDesc) (subs : List (SubRequest × List Word)) (w' : World),
      s.cfg.files = some T → subs ≠ [] →
      (∀ x ∈ subs, headerValid s.cfg.extFileRange T x.1 = true ∧ x.2.length = x.1.recLen.toNat) →
      FilesEnd s.cfg.callbacks.commitRegsWrite T subs s.world e w' →
      exec (.writeFileRecord (.fields (fileWriteBytes subs))) s = .next
        (ended 0x15 t wl (0x15 :: countByte (fileWriteBytes subs).length :: fileWriteBytes subs) e
          { s with world := w' }))
    ∧ ∀ (i : Instr) (fc : Byte) (body answer : List Byte),
      (i = .fallback fc body ∨ (fc = 0x11 ∧ i = .reportSlaveId body)
        ∨ encode i = .pdu (fc :: body) ∧ unimplemented s.cfg i = true) →
      s.cfg.callbacks.handleFn = true → answer.length ≤ 252 →
      s.world.script = ⟨.statusBody code answer, cells⟩ :: rest →
      exec i s = .next
        (if e = .ok then
          completed fc t wl (fc :: answer)
            { s with world := (invoke (.handleFn (fc :: body)) s.world).2 }
        else failed fc t wl e { s with world := (invoke (.handleFn (fc :: body)) s.world).2 })
      ∧ (e ≠ .ok → ∃ s', exec i s = .next s'
        ∧ s'.outputs
          = s.outputs ++ [replyOf t (wl || s.regs.isListenOnly) [fc ||| 0x80, code]]
        ∧ s'.regs.ring = s.regs.ring.append
          ((if wl then 0x20 else 0x00)
            ||| (if code.toNat ≤ 3 then 0x41 else if code = 0x04 then 0x42
              else if code.toNat ≤ 6 then 0x44 else if code = 0x07 then 0x48 else 0x40)))

/-- A write lock decides too: locked is ILLEGAL_DATA_ADDR, open lets the write through, by FC 0x05 and 0x06
(R97, R100, R111, R121). That an answer stands in a script of the host is the model's form of it
(notes/assumptions/14.md). Any number of locks, and every write: CallbackStatusDecidesTheOutcome. -/
def Obligations.WriteLocksDecideTheWrite : Prop :=
  ∀ (s : State) (t : Txn) (wl locked : Bool) (cells : List CellChange) (rest : List HostDraw)
      (f : AddrValue), AtHandler s t wl → s.world.script = ⟨.bool locked, cells⟩ :: rest →
    (∀ (C : List CoilDesc) (d : CoilDesc) (r b : Nat) (w' : World), s.cfg.coils = some C →
      findCoil C f.addr.toNat = some d → d.wlock = true → d.wmode = .cell r b → b ≤ 7 →
      d.postWrite = false → s.cfg.callbacks.commitCoilsWrite = false →
      (f.value = 0x0000 ∨ f.value = 0xFF00) → w' = (invoke (.coilWlock d) s.world).2 →
      exec (.writeSingleCoil (.fields f)) s = .next
        (if locked then failed 0x05 t wl .illegalDataAddr { s with world := w' }
        else completed 0x05 t wl (0x05 :: (be16Bytes f.addr ++ be16Bytes f.value))
          { s with
            world := { w' with byteCells := w'.byteCells.writeBit r b (f.value = 0xFF00) } }))
    ∧ ∀ (T : List RegDesc) (d : RegDesc) (r : Nat) (w' : World), s.cfg.holding = some T →
      cover T f.addr.toNat = some d → d.type = .u16 → d.wlock = true → d.wmode = .ptr r →
      d.postWrite = false → s.cfg.callbacks.commitRegsWrite = false →
      w' = (invoke (.regWlock d f.addr.toNat f.addr.toNat [f.value]) s.world).2 →
      exec (.writeSingleRegister (.fields f)) s = .next
        (if locked then failed 0x06 t wl .illegalDataAddr { s with world := w' }
        else completed 0x06 t wl (0x06 :: (be16Bytes f.addr ++ be16Bytes f.value))
          { s with world := { w' with wordCells := w'.wordCells.writeWord r 0 f.value } })

/-- FC 0x07 answers the host's exception-status byte, FC 0x08 sub 0x0002 the host's diagnostic register, 0
without its callback: the scripted answer where there is one, else a free draw. A request of another length to
FC 0x07, and data other than 0 to the sub-function, are ILLEGAL_DATA_VAL (R111, R440, R445). The script and
the free draw are the model's form of R111 (notes/assumptions/14.md and 1.md). -/
def Obligations.HostValuesAreReturned : Prop :=
  ∀ (s : State) (t : Txn) (wl : Bool), AtHandler s t wl →
    (s.cfg.callbacks.readExceptionStatus = true →
      (∀ v cells rest, s.world.script = ⟨.byte v, cells⟩ :: rest →
        exec (.readExceptionStatus (.fields ())) s = .next
          (completed 0x07 t wl [0x07, v]
            { s with world := (invoke .readExceptionStatus s.world).2 }))
      ∧ (s.hostFree = true →
        exec (.readExceptionStatus (.fields ())) s = .next
          (completed 0x07 t wl [0x07, Config.hostByte s.world.draws]
            { s with world := (invoke .readExceptionStatus s.world).2 }))
      ∧ ∀ body, exec (.readExceptionStatus (.badLength body)) s
          = .next (failed 0x07 t wl .illegalDataVal s))
    ∧ (∀ data, data ≠ 0x0000 →
      exec (.diagReturnDiagnosticRegister (.fields data)) s
        = .next (failed 0x08 t wl .illegalDataVal s))
    ∧ (s.cfg.callbacks.readDiagnostics = false →
      exec (.diagReturnDiagnosticRegister (.fields 0x0000)) s = .next
        (completed 0x08 t wl [0x08, 0x00, 0x02, 0x00, 0x00] s))
    ∧ (s.cfg.callbacks.readDiagnostics = true →
      (∀ v cells rest, s.world.script = ⟨.word v, cells⟩ :: rest →
        exec (.diagReturnDiagnosticRegister (.fields 0x0000)) s = .next
          (completed 0x08 t wl (0x08 :: 0x00 :: 0x02 :: be16Bytes v)
            { s with world := (invoke .readDiagnostics s.world).2 }))
      ∧ (s.hostFree = true →
        exec (.diagReturnDiagnosticRegister (.fields 0x0000)) s = .next
          (completed 0x08 t wl
            (0x08 :: 0x00 :: 0x02 :: be16Bytes (Config.hostWord s.world.draws))
            { s with world := (invoke .readDiagnostics s.world).2 })))

/-! ## Diagnostics and events -/

/-- FC 0x08 sub 0x0000 answers the request byte for byte (R442). -/
def Obligations.QueryDataIsEchoed : Prop :=
  ∀ (s : State) (t : Txn) (wl : Bool) (data : List Byte), AtHandler s t wl →
    exec (.diagReturnQueryData data) s = .next
      (completed 0x08 t wl (0x08 :: 0x00 :: 0x00 :: data) s)

/-- FC 0x08 sub 0x0001 leaves listen-only mode, zeroes the nine counters and clears the log, or appends
COMM_RESTART to it, by its data; delimiter and status word stay (R444, R561). Other data is
ILLEGAL_DATA_VAL and changes no register of it. -/
def Obligations.RestartReturnsToNormalMode : Prop :=
  ∀ (s : State) (t : Txn) (wl : Bool) (data : Word), AtHandler s t wl →
    ((data = 0x0000 ∨ data = 0xFF00) →
      listens s.cfg.callbacks.requestRestart s.world = true →
      exec (.diagRestartCommunications (.fields data)) s = .next
        (completed 0x08 t wl (0x08 :: 0x00 :: 0x01 :: be16Bytes data)
          { s with
            world := notified s.cfg.callbacks.requestRestart .requestRestart s.world
            regs :=
              { s.regs with
                isListenOnly := false
                counters := ⟨0, 0, 0, 0, 0, 0, 0, 0, 0⟩
                ring :=
                  if data = 0xFF00 then { s.regs.ring with wpos := 0, count := 0 }
                  else s.regs.ring.append 0x00 } }))
    ∧ (data ≠ 0x0000 → data ≠ 0xFF00 →
      exec (.diagRestartCommunications (.fields data)) s
        = .next (failed 0x08 t wl .illegalDataVal s))

/-- FC 0x08 sub 0x0003 stores a delimiter of at most 127 whose low byte is 0, and echoes it; every other
field is ILLEGAL_DATA_VAL (R154, R446). -/
def Obligations.DelimiterIsStoredIfLegal : Prop :=
  ∀ (s : State) (t : Txn) (wl : Bool) (f : DelimField), AtHandler s t wl →
    (f.delim.toNat ≤ 127 → f.zero = 0x00 →
      exec (.diagChangeAsciiDelimiter (.fields f)) s = .next
        (completed 0x08 t wl [0x08, 0x00, 0x03, f.delim, 0x00]
          { s with regs := { s.regs with asciiDelimiter := f.delim } }))
    ∧ ((127 < f.delim.toNat ∨ f.zero ≠ 0x00) →
      exec (.diagChangeAsciiDelimiter (.fields f)) s
        = .next (failed 0x08 t wl .illegalDataVal s))

/-- FC 0x08 sub 0x0004 with data 0 enters listen-only mode, appends ENTERED_LISTEN_ONLY, then its send
event, and is not answered; other data is ILLEGAL_DATA_VAL (R448). -/
def Obligations.ForceListenOnlyEntersTheMode : Prop :=
  ∀ (s : State) (t : Txn) (wl : Bool) (data : Word), AtHandler s t wl →
    (data = 0x0000 → ∃ s', exec (.diagForceListenOnly (.fields data)) s = .next s'
      ∧ s' = completed 0x08 t wl [0x08, 0x00, 0x04, 0x00, 0x00]
        { s with
          regs := { s.regs with isListenOnly := true, ring := s.regs.ring.append 0x04 } }
      ∧ s'.outputs = s.outputs ++ [[]])
    ∧ (data ≠ 0x0000 →
      exec (.diagForceListenOnly (.fields data)) s = .next (failed 0x08 t wl .illegalDataVal s))

/-- FC 0x08 sub 0x000A zeroes the nine counters and tells the host; sub 0x0014 zeroes the overrun counter
alone; both answer 0 and leave the log and the mode; other data is ILLEGAL_DATA_VAL (R42, R43, R449,
R451). -/
def Obligations.ClearingSubfunctionsZeroTheirCounters : Prop :=
  ∀ (s : State) (t : Txn) (wl : Bool) (data : Word), AtHandler s t wl →
    (data = 0x0000 →
      (listens s.cfg.callbacks.resetDiagnostics s.world = true →
        exec (.diagClearCounters (.fields data)) s = .next
          (completed 0x08 t wl [0x08, 0x00, 0x0A, 0x00, 0x00]
            { s with
              world := notified s.cfg.callbacks.resetDiagnostics .resetDiagnostics s.world
              regs := { s.regs with counters := ⟨0, 0, 0, 0, 0, 0, 0, 0, 0⟩ } }))
      ∧ exec (.diagClearOverrun (.fields data)) s = .next
          (completed 0x08 t wl [0x08, 0x00, 0x14, 0x00, 0x00]
            { s with
              regs :=
                { s.regs with counters := { s.regs.counters with busCharOverrun := 0 } } }))
    ∧ (data ≠ 0x0000 →
      exec (.diagClearCounters (.fields data)) s = .next (failed 0x08 t wl .illegalDataVal s)
      ∧ exec (.diagClearOverrun (.fields data)) s = .next (failed 0x08 t wl .illegalDataVal s))

/-- FC 0x08 subs 0x000B to 0x0012 answer the counter R450 names, this request's own `msg` count included;
other data than 0 is ILLEGAL_DATA_VAL (R450). -/
def Obligations.CounterSubfunctionsAnswerTheirCounter : Prop :=
  ∀ (s : State) (t : Txn) (wl : Bool) (data : Word) (i : Instr) (low : Byte) (c : Word),
    AtHandler s t wl →
    (i = .diagReturnBusMessageCount (.fields data) ∧ low = 0x0B ∧ c = s.regs.counters.busMsg
      ∨ i = .diagReturnBusCommErrorCount (.fields data) ∧ low = 0x0C
        ∧ c = s.regs.counters.busCommErr
      ∨ i = .diagReturnExceptionErrorCount (.fields data) ∧ low = 0x0D
        ∧ c = s.regs.counters.exception
      ∨ i = .diagReturnServerMessageCount (.fields data) ∧ low = 0x0E ∧ c = s.regs.counters.msg
      ∨ i = .diagReturnServerNoResponseCount (.fields data) ∧ low = 0x0F
        ∧ c = s.regs.counters.noResp
      ∨ i = .diagReturnNakCount (.fields data) ∧ low = 0x10 ∧ c = s.regs.counters.nak
      ∨ i = .diagReturnBusyCount (.fields data) ∧ low = 0x11 ∧ c = s.regs.counters.busy
      ∨ i = .diagReturnBusCharOverrunCount (.fields data) ∧ low = 0x12
        ∧ c = s.regs.counters.busCharOverrun) →
    (data = 0x0000 →
      exec i s = .next (completed 0x08 t wl (0x08 :: 0x00 :: low :: be16Bytes c) s))
    ∧ (data ≠ 0x0000 → exec i s = .next (failed 0x08 t wl .illegalDataVal s))

/-- FC 0x0B answers the status word and the event counter; FC 0x0C answers them, the bus message count and
the log, newest first, without this request's own send event; a request of another length is ILLEGAL_DATA_VAL
(R460, R462). -/
def Obligations.EventRequestsAnswerTheRegisters : Prop :=
  ∀ (s : State) (t : Txn) (wl : Bool), AtHandler s t wl →
    exec (.getCommEventCounter (.fields ())) s = .next
      (completed 0x0B t wl
        (0x0B :: (be16Bytes s.regs.status ++ be16Bytes s.regs.counters.commEvent)) s)
    ∧ exec (.getCommEventLog (.fields ())) s = .next
      (completed 0x0C t wl
        (0x0C :: countByte (6 + s.regs.ring.count.val)
          :: (be16Bytes s.regs.status ++ be16Bytes s.regs.counters.commEvent
            ++ be16Bytes s.regs.counters.busMsg ++ s.regs.ring.newestFirst)) s)
    ∧ ∀ body,
      exec (.getCommEventCounter (.badLength body)) s
          = .next (failed 0x0B t wl .illegalDataVal s)
      ∧ exec (.getCommEventLog (.badLength body)) s
          = .next (failed 0x0C t wl .illegalDataVal s)

/-- An unimplemented sub-function is ILLEGAL_FN and is not passed to the fallback; a request without the
sub-function field is ILLEGAL_DATA_VAL (R441, R452). An unimplemented function code is ILLEGAL_FN without
the fallback callback (R161, R264, R272). -/
def Obligations.UnimplementedCodesRaiseIllegalFunction : Prop :=
  ∀ (s : State) (t : Txn) (wl : Bool), AtHandler s t wl →
    (∀ sub data, exec (.diagUnimplementedSub (.unknown sub data)) s
      = .next (failed 0x08 t wl .illegalFn s))
    ∧ (∀ body, exec (.diagUnimplementedSub (.truncated body)) s
      = .next (failed 0x08 t wl .illegalDataVal s))
    ∧ ∀ (i : Instr) (fc : Byte), unimplemented s.cfg i = true → fcOf i = some fc →
      s.cfg.callbacks.handleFn = false →
      exec i s = .next (failed fc t wl .illegalFn s)

/-- A request whose length its implemented function code does not have raises ILLEGAL_DATA_VAL, before
anything else is looked at (R146, R274, R276, R441). -/
def Obligations.WrongLengthsRaiseValueErrors : Prop :=
  ∀ (s : State) (t : Txn) (wl : Bool) (p : List Byte) (i : Instr), AtHandler s t wl →
    decodePdu p = .ok i → unimplemented s.cfg i = false → lengthRight p = false →
    exec i s = .next (failed (p.headD 0) t wl .illegalDataVal s)

/-! ## Storage -/

/-- A stored byte and a stored word read back, and every other byte and word stays; the canonical form is
kept (R91). Where words lie is the model's choice (notes/assumptions/5.md). -/
def Obligations.StorageReadsWhatWasLastWritten : Prop :=
  ∀ m : Memory, m.wf = true →
    (∀ a v, (m.write a v).wf = true
      ∧ ∀ b, (m.write a v).read b = if b = a then v else m.read b)
    ∧ ∀ r j r' j' v, j < 0x10000 → j' < 0x10000 →
      (m.writeWord r j v).readWord r' j' = if r' = r ∧ j' = j then v else m.readWord r' j'

end
end

