-- ==== Sys2Proof/Laws/Memory.lean ====
section
/-! SUPPORT. Storage: a read gives what was last written, and every write keeps the canonical form. -/

namespace Sys2Proof.Machine

theorem Memory.read_write (m : Memory) (a b : Nat) (v : Byte)
    (lo : Nat) (h : m.wfFrom lo = true) :
    (m.write a v).read b = if b = a then v else m.read b := by
  induction m generalizing lo with
  | nil =>
    by_cases hv : v = unlistedByte <;> by_cases hb : b = a <;> simp [Memory.write, Memory.read, hv, hb]
  | cons c rest ih =>
    obtain ⟨k, x⟩ := c
    simp only [Memory.wfFrom, Bool.and_eq_true, decide_eq_true_eq, bne_iff_ne] at h
    obtain ⟨⟨hlo, hx⟩, hrest⟩ := h
    have below : ∀ (r : Memory) (l j : Nat), r.wfFrom l = true → j < l → r.read j = unlistedByte := by
      intro r
      induction r with
      | nil => intro l j _ _; rfl
      | cons d r ih' =>
        intro l j hw hj
        obtain ⟨q, y⟩ := d
        simp only [Memory.wfFrom, Bool.and_eq_true, decide_eq_true_eq] at hw
        have : j ≠ q := by omega
        simp only [Memory.read, this, if_false]
        exact ih' (q + 1) j hw.2 (by omega)
    simp only [Memory.write]
    by_cases h1 : a < k
    · simp only [h1, if_true]
      by_cases hv : v = unlistedByte
      · simp only [hv, if_true]
        by_cases hb : b = a
        · subst hb
          have : b ≠ k := by omega
          simp only [Memory.read, this, if_false, if_true]
          exact below rest (k + 1) b hrest (by omega)
        · simp [hb]
      · simp only [hv, if_false]
        simp only [Memory.read]
    · simp only [h1, if_false]
      by_cases h2 : a = k
      · subst h2
        simp only [if_true]
        by_cases hv : v = unlistedByte
        · simp only [hv, if_true, Memory.read]
          by_cases hb : b = a
          · subst hb
            simp only [if_true]
            exact below rest (b + 1) b hrest (by omega)
          · simp [hb]
        · simp only [hv, if_false, Memory.read]
          by_cases hb : b = a <;> simp [hb]
      · simp only [h2, if_false, Memory.read]
        by_cases hb : b = k
        · subst hb
          have : b ≠ a := fun h => h2 h.symm
          simp [this]
        · simp only [hb, if_false]
          exact ih (k + 1) hrest

theorem Memory.wfFrom_write (m : Memory) (a : Nat) (v : Byte) (lo : Nat) (hla : lo ≤ a)
    (h : m.wfFrom lo = true) : (m.write a v).wfFrom lo = true := by
  induction m generalizing lo with
  | nil =>
    by_cases hv : v = unlistedByte <;> simp [Memory.write, hv, Memory.wfFrom, hla]
  | cons c rest ih =>
    obtain ⟨k, x⟩ := c
    have h0 := h
    simp only [Memory.wfFrom, Bool.and_eq_true, decide_eq_true_eq, bne_iff_ne] at h
    obtain ⟨⟨hlo, hx⟩, hrest⟩ := h
    have weaken : ∀ (r : Memory) (l l' : Nat), l' ≤ l → r.wfFrom l = true → r.wfFrom l' = true := by
      intro r
      cases r with
      | nil => intros; rfl
      | cons d r =>
        intro l l' hl hw
        simp only [Memory.wfFrom, Bool.and_eq_true, decide_eq_true_eq] at hw ⊢
        exact ⟨⟨by omega, hw.1.2⟩, hw.2⟩
    simp only [Memory.write]
    split
    · rename_i h1
      split
      · exact h0
      · rename_i hv
        simp only [Memory.wfFrom, Bool.and_eq_true, decide_eq_true_eq, bne_iff_ne]
        exact ⟨⟨hla, hv⟩, ⟨by omega, hx⟩, hrest⟩
    · rename_i h1
      split
      · rename_i h2
        subst h2
        split
        · exact weaken rest (a + 1) lo (by omega) hrest
        · rename_i hv
          simp only [Memory.wfFrom, Bool.and_eq_true, decide_eq_true_eq, bne_iff_ne]
          exact ⟨⟨hla, hv⟩, hrest⟩
      · rename_i h2
        simp only [Memory.wfFrom, Bool.and_eq_true, decide_eq_true_eq, bne_iff_ne]
        exact ⟨⟨hlo, hx⟩, ih (k + 1) (by omega) hrest⟩

/-- Every byte write keeps the canonical form. -/
theorem Memory.wf_write (m : Memory) (a : Nat) (v : Byte) (h : m.wf = true) :
    (m.write a v).wf = true :=
  Memory.wfFrom_write m a v 0 (Nat.zero_le a) h

theorem Memory.wf_writeWord (m : Memory) (r j : Nat) (v : Word) (h : m.wf = true) :
    (m.writeWord r j v).wf = true :=
  Memory.wf_write _ _ _ (Memory.wf_write _ _ _ h)

theorem Memory.wf_writeBit (m : Memory) (r b : Nat) (v : Bool) (h : m.wf = true) :
    (m.writeBit r b v).wf = true :=
  Memory.wf_write _ _ _ h

theorem storeWords_wf (ty : RegType) (r : Nat) :
    ∀ (off : Nat) (vs : List Word) (m : Memory), m.wf = true →
      (storeWords ty r off vs m).wf = true
  | _, [], _, h => h
  | off, _ :: vs, _, h => storeWords_wf ty r (off + 1) vs _ (Memory.wf_writeWord _ _ _ _ h)

theorem World.good_change (w : World) (c : CellChange) (h : w.good = true) :
    (w.change c).good = true := by
  simp only [World.good, Bool.and_eq_true] at h ⊢
  cases c with
  | byteCell r v => exact ⟨Memory.wf_write _ _ _ h.1, h.2⟩
  | wordCell r off v => exact ⟨h.1, Memory.wf_writeWord _ _ _ _ h.2⟩

/-- The host's storage changes keep the canonical form. -/
theorem World.good_changes (cs : List CellChange) (w : World) (h : w.good = true) :
    (w.changes cs).good = true := by
  induction cs generalizing w with
  | nil => exact h
  | cons c cs ih => exact ih (w.change c) (World.good_change w c h)

@[simp] theorem World.script_change (w : World) (c : CellChange) :
    (w.change c).script = w.script := by cases c <;> rfl

/-- The host's storage changes touch no answer of the script. -/
@[simp] theorem World.script_changes (cs : List CellChange) (w : World) :
    (w.changes cs).script = w.script := by
  induction cs generalizing w with
  | nil => rfl
  | cons c cs ih =>
    show ((w.change c).changes cs).script = w.script
    rw [ih, World.script_change]

theorem wordAddr_ne (r j r' j' : Nat) (hj : j < 0x10000) (hj' : j' < 0x10000)
    (h : r ≠ r' ∨ j ≠ j') :
    wordAddr r j ≠ wordAddr r' j' ∧ wordAddr r j + 1 ≠ wordAddr r' j' + 1
      ∧ wordAddr r j ≠ wordAddr r' j' + 1 ∧ wordAddr r j + 1 ≠ wordAddr r' j' := by
  unfold wordAddr
  omega

end Sys2Proof.Machine
end

