-- ==== Sys2Proof/Laws/Accessors.lean ====
section
/-! SUPPORT. What the accessors, the loops over them and the object-store handlers can do, said once:
whatever every host invocation and every storage write keeps, they keep; they raise no OK; and they fault
only where a scripted answer breaks the host's contract. -/

namespace Sys2Proof.Machine

variable {σ α β : Type}

/-- Every outcome keeps `P`, a raised status is not OK, and every stop is one of `F`. -/
def Res.Within (P : σ → Prop) (F : Stop → Prop) : Res σ α → Prop
  | .val _ s => P s
  | .raise e s => e ≠ .ok ∧ P s
  | .stop x => F x

theorem Res.Within.bind {P : σ → Prop} {F : Stop → Prop} {r : Res σ α} {k : α → σ → Res σ β}
    (hr : r.Within P F) (hk : ∀ a s, P s → (k a s).Within P F) : (r.bind k).Within P F := by
  cases r with
  | val a s => exact hk a s hr
  | raise e s => exact hr
  | stop x => exact hr

theorem Res.Within.map {P : σ → Prop} {F : Stop → Prop} {r : Res σ α} (f : α → β)
    (hr : r.Within P F) : (r.map f).Within P F :=
  hr.bind fun _ _ h => h

/-- What a property of the host's side must satisfy for every accessor to keep it: invocations keep it, the
two kinds of storage write keep it, and where it holds with answers left in the script, a contract fault
is admitted. -/
structure WorldLaw (P : World → Prop) (F : Stop → Prop) : Prop where
  invoke : ∀ c w, P w → P (invoke c w).2
  setBit : ∀ w r b v, P w → P { w with byteCells := w.byteCells.writeBit r b v }
  setWords : ∀ w ty r off vs, P w →
    P { w with wordCells := storeWords ty r off vs w.wordCells }
  contract : ∀ w x, P w → w.script ≠ [] → isContractStop x → F x

theorem invoke_script (c : HostCall) (w : World) :
    (w.script = [] ∧ (invoke c w).1 = none) ∨ (w.script ≠ [] ∧ ∃ a, (invoke c w).1 = some a) := by
  cases hs : w.script with
  | nil => left; simp [invoke, hs]
  | cons d rest => right; simp [invoke, hs]

theorem isContractStop_breach (a : HostAnswer) : isContractStop (breach a) := by
  cases a <;> simp [breach, isContractStop]

section
variable {P : World → Prop} {F : Stop → Prop} (L : WorldLaw P F)
include L

theorem askBool_within (c : HostCall) (w : World) (h : P w) : (askBool c w).Within P F := by
  have hi := L.invoke c w h
  rcases invoke_script c w with ⟨_, hn⟩ | ⟨hs, a, ha⟩
  · unfold askBool
    generalize invoke c w = p at *
    obtain ⟨o, w'⟩ := p
    simp only at hn
    subst hn
    exact hi
  · have hb := fun a => L.contract w (breach a) h hs (isContractStop_breach a)
    unfold askBool
    generalize invoke c w = p at *
    obtain ⟨o, w'⟩ := p
    simp only at ha
    subst ha
    cases a <;> first | exact hi | exact hb _

theorem askUnit_within (c : HostCall) (w : World) (h : P w) : (askUnit c w).Within P F := by
  have hi := L.invoke c w h
  rcases invoke_script c w with ⟨_, hn⟩ | ⟨hs, a, ha⟩
  · unfold askUnit
    generalize invoke c w = p at *
    obtain ⟨o, w'⟩ := p
    simp only at hn
    subst hn
    exact hi
  · have hb := fun a => L.contract w (breach a) h hs (isContractStop_breach a)
    unfold askUnit
    generalize invoke c w = p at *
    obtain ⟨o, w'⟩ := p
    simp only at ha
    subst ha
    cases a <;> first | exact hi | exact hb _

theorem askByte_within (c : HostCall) (w : World) (h : P w) : (askByte c w).Within P F := by
  have hi := L.invoke c w h
  rcases invoke_script c w with ⟨_, hn⟩ | ⟨hs, a, ha⟩
  · unfold askByte
    generalize invoke c w = p at *
    obtain ⟨o, w'⟩ := p
    simp only at hn
    subst hn
    exact hi
  · have hb := fun a => L.contract w (breach a) h hs (isContractStop_breach a)
    unfold askByte
    generalize invoke c w = p at *
    obtain ⟨o, w'⟩ := p
    simp only at ha
    subst ha
    cases a <;> first | exact hi | exact hb _

theorem askByteOrFail_within (c : HostCall) (w : World) (h : P w) :
    (askByteOrFail c w).Within P F := by
  have hi := L.invoke c w h
  rcases invoke_script c w with ⟨_, hn⟩ | ⟨hs, a, ha⟩
  · unfold askByteOrFail
    generalize invoke c w = p at *
    obtain ⟨o, w'⟩ := p
    simp only at hn
    subst hn
    exact hi
  · have hb := fun a => L.contract w (breach a) h hs (isContractStop_breach a)
    unfold askByteOrFail
    generalize invoke c w = p at *
    obtain ⟨o, w'⟩ := p
    simp only at ha
    subst ha
    cases a <;> first | exact hi | exact hb _

theorem askWord_within (c : HostCall) (w : World) (h : P w) : (askWord c w).Within P F := by
  have hi := L.invoke c w h
  rcases invoke_script c w with ⟨_, hn⟩ | ⟨hs, a, ha⟩
  · unfold askWord
    generalize invoke c w = p at *
    obtain ⟨o, w'⟩ := p
    simp only at hn
    subst hn
    exact hi
  · have hb := fun a => L.contract w (breach a) h hs (isContractStop_breach a)
    unfold askWord
    generalize invoke c w = p at *
    obtain ⟨o, w'⟩ := p
    simp only at ha
    subst ha
    cases a <;> first | exact hi | exact hb _

theorem askWordsOrFail_within (n : Nat) (c : HostCall) (w : World) (h : P w) :
    (askWordsOrFail n c w).Within P F := by
  have hi := L.invoke c w h
  rcases invoke_script c w with ⟨_, hn⟩ | ⟨hs, a, ha⟩
  · unfold askWordsOrFail
    generalize invoke c w = p at *
    obtain ⟨o, w'⟩ := p
    simp only at hn
    subst hn
    exact hi
  · have hb := fun a => L.contract w (breach a) h hs (isContractStop_breach a)
    have hc := L.contract w (.fault .callbackAnswerType) h hs (.inl rfl)
    unfold askWordsOrFail
    generalize invoke c w = p at *
    obtain ⟨o, w'⟩ := p
    simp only at ha
    subst ha
    cases a with
    | words ws => by_cases hl : ws.length = n <;> simp only [hl, if_true, if_false] <;>
        first | exact hi | exact hb _ | exact hc
    | _ => first | exact hi | exact hb _

theorem askStatus_within (c : HostCall) (w : World) (h : P w) : (askStatus c w).Within P F := by
  have hi := L.invoke c w h
  rcases invoke_script c w with ⟨_, hn⟩ | ⟨hs, a, ha⟩
  · unfold askStatus
    generalize invoke c w = p at *
    obtain ⟨o, w'⟩ := p
    simp only at hn
    subst hn
    exact hi
  · have hb := fun a => L.contract w (breach a) h hs (isContractStop_breach a)
    have hc := L.contract w (.fault .callbackAnswerType) h hs (.inl rfl)
    have hc' := L.contract w (.fault .halfWrittenDescriptor) h hs (.inr (.inl rfl))
    unfold askStatus
    generalize invoke c w = p at *
    obtain ⟨o, w'⟩ := p
    simp only at ha
    subst ha
    cases a with
    | status code => simp only; split <;> first | exact hi | exact hb _ | exact hc
    | _ => first | exact hi | exact hc | exact hc' | exact hb _

theorem askStatusBody_within (c : HostCall) (w : World) (h : P w) :
    (askStatusBody c w).Within P F := by
  have hi := L.invoke c w h
  rcases invoke_script c w with ⟨_, hn⟩ | ⟨hs, a, ha⟩
  · unfold askStatusBody
    generalize invoke c w = p at *
    obtain ⟨o, w'⟩ := p
    simp only at hn
    subst hn
    exact hi
  · have hb := fun a => L.contract w (breach a) h hs (isContractStop_breach a)
    have hc := L.contract w (.fault .callbackAnswerType) h hs (.inl rfl)
    have hc' := L.contract w (.fault .fallbackBodyTooLong) h hs (.inr (.inr (.inl rfl)))
    unfold askStatusBody
    generalize invoke c w = p at *
    obtain ⟨o, w'⟩ := p
    simp only at ha
    subst ha
    cases a with
    | statusBody code body =>
      simp only
      split
      · exact hc
      · split <;> first | exact hi | exact hc'
    | _ => first | exact hi | exact hb _

theorem notifyIf_within (b : Bool) (c : HostCall) (w : World) (h : P w) :
    (notifyIf b c w).Within P F := by
  unfold notifyIf; split
  · exact askUnit_within L c w h
  · exact h

theorem lockedIf_within (b : Bool) (c : HostCall) (w : World) (h : P w) :
    (lockedIf b c w).Within P F := by
  unfold lockedIf; split
  · exact askBool_within L c w h
  · exact h

theorem coilRead_within (d : CoilDesc) (w : World) (h : P w) : (coilRead d w).Within P F := by
  refine (lockedIf_within L _ _ w h).bind fun l w h => ?_
  split
  · exact h
  · unfold coilReadOpen
    split
    · exact h
    · exact h
    · exact h
    · exact (askByteOrFail_within L _ w h).map _

theorem coilWriteAllowed_within (d : CoilDesc) (w : World) (h : P w) :
    (coilWriteAllowed d w).Within P F :=
  (lockedIf_within L _ _ w h).map _

theorem coilWrite_within (d : CoilDesc) (v : Bool) (w : World) (h : P w) :
    (coilWrite d v w).Within P F := by
  refine Res.Within.bind (r := coilStore d v w) ?_ fun st w h => ?_
  · unfold coilStore
    split
    · exact h
    · split
      · exact h
      · exact L.setBit _ _ _ _ h
    · exact askStatus_within L _ w h
  · split
    · exact (notifyIf_within L _ _ w h).map _
    · exact h

theorem regReadDenied_within (d : RegDesc) (w : World) (h : P w) :
    (regReadDenied d w).Within P F :=
  (lockedIf_within L _ _ w h).map _

theorem regRead_within (d : RegDesc) (a rem : Nat) (w : World) (h : P w) :
    (regRead d a rem w).Within P F := by
  refine (regReadDenied_within L d w h).bind fun o w h => ?_
  split
  · exact h
  · unfold regEmit
    split
    · exact h
    · exact h
    · exact h
    · exact (askWordsOrFail_within L _ _ w h).map _

theorem regWriteAllowed_within (d : RegDesc) (a blk rem : Nat) (data : List Word) (w : World)
    (h : P w) : (regWriteAllowed d a blk rem data w).Within P F := by
  unfold regWriteAllowed
  split
  · exact h
  · exact h
  · exact (lockedIf_within L _ _ w h).map _

theorem regWrite_within (d : RegDesc) (a rem : Nat) (data : List Word) (w : World) (h : P w) :
    (regWrite d a rem data w).Within P F := by
  refine Res.Within.bind (r := regStore d _ _ data w) ?_ fun st w h => ?_
  · unfold regStore
    split
    · exact h
    · exact h
    · exact L.setWords _ _ _ _ _ h
    · exact askStatus_within L _ w h
  · split
    · exact (notifyIf_within L _ _ w h).map _
    · exact h

theorem readRegs_within (T : List RegDesc) :
    ∀ (fuel : Nat) (first : Bool) (a rem : Nat) (w : World), P w →
      (readRegs T fuel first a rem w).Within P F
  | 0, _, _, _, _, h => h
  | fuel + 1, first, a, rem, w, h => by
    unfold readRegs
    split
    · exact h
    · refine Res.Within.bind ?_ fun r w h => ?_
      · split
        · exact h
        · exact regRead_within L _ _ _ w h
      · split
        · exact (readRegs_within T fuel _ _ _ w h).map _
        · exact ⟨by decide, h⟩
        · split
          · exact ⟨by decide, h⟩
          · exact (readRegs_within T fuel _ _ _ w h).map _

theorem validateWrites_within (T : List RegDesc) (blk : Nat) :
    ∀ (fuel a rem : Nat) (data : List Word) (w : World), P w →
      (validateWrites T blk fuel a rem data w).Within P F
  | 0, _, _, _, _, h => h
  | fuel + 1, a, rem, data, w, h => by
    unfold validateWrites
    split
    · exact h
    · split
      · exact ⟨by decide, h⟩
      · refine (regWriteAllowed_within L _ _ _ _ _ w h).bind fun k w h => ?_
        split
        · exact ⟨by decide, h⟩
        · exact validateWrites_within T blk fuel _ _ _ w h

theorem applyWrites_within (T : List RegDesc) :
    ∀ (fuel a rem : Nat) (data : List Word) (w : World), P w →
      (applyWrites T fuel a rem data w).Within P F
  | 0, _, _, _, _, h => h
  | fuel + 1, a, rem, data, w, h => by
    unfold applyWrites
    split
    · exact h
    · split
      · exact ⟨by decide, h⟩
      · refine (regWrite_within L _ _ _ _ w h).bind fun sk w h => ?_
        split
        · exact applyWrites_within T fuel _ _ _ w h
        · rename_i hne
          exact ⟨hne, h⟩

theorem readBits_within (T : List CoilDesc) (addr : Nat) :
    ∀ (n i : Nat) (w : World), P w → (readBits T addr i n w).Within P F
  | 0, _, _, h => by unfold readBits; exact h
  | n + 1, i, w, h => by
    unfold readBits
    refine Res.Within.bind ?_ fun r w h => ?_
    · split
      · exact h
      · exact coilRead_within L _ w h
    · split
      · exact (readBits_within T addr n _ w h).map _
      · exact (readBits_within T addr n _ w h).map _
      · exact ⟨by decide, h⟩
      · split
        · exact ⟨by decide, h⟩
        · exact (readBits_within T addr n _ w h).map _

theorem validateCoils_within (T : List CoilDesc) :
    ∀ (n a : Nat) (w : World), P w → (validateCoils T a n w).Within P F
  | 0, _, _, h => by unfold validateCoils; exact h
  | n + 1, a, w, h => by
    unfold validateCoils
    split
    · exact ⟨by decide, h⟩
    · refine (coilWriteAllowed_within L _ w h).bind fun b w h => ?_
      split
      · exact validateCoils_within T n _ w h
      · exact ⟨by decide, h⟩

theorem writeCoils_within (T : List CoilDesc) (addr : Nat) (data : List Byte) :
    ∀ (n i : Nat) (w : World), P w → (writeCoils T addr data i n w).Within P F
  | 0, _, _, h => by unfold writeCoils; exact h
  | n + 1, i, w, h => by
    unfold writeCoils
    split
    · exact ⟨by decide, h⟩
    · refine (coilWrite_within L _ _ w h).bind fun st w h => ?_
      split
      · exact writeCoils_within T addr data n _ w h
      · rename_i hne
        exact ⟨hne, h⟩

theorem readBitsHandler_within (fc : Byte) (o : Form AddrQty) (T : List CoilDesc) (w : World)
    (h : P w) : (readBitsHandler fc o T w).Within P F := by
  unfold readBitsHandler
  split
  · exact ⟨by decide, h⟩
  · repeat' split
    · exact ⟨by decide, h⟩
    · exact ⟨by decide, h⟩
    · exact (readBits_within L T _ _ _ w h).map _

theorem writeCoilHandler_within (commit : Bool) (o : Form AddrValue) (T : List CoilDesc) (w : World)
    (h : P w) : (writeCoilHandler commit o T w).Within P F := by
  unfold writeCoilHandler
  split
  · exact ⟨by decide, h⟩
  · split
    · exact ⟨by decide, h⟩
    · split
      · exact ⟨by decide, h⟩
      · refine (coilWriteAllowed_within L _ w h).bind fun b w h => ?_
        split
        · refine (coilWrite_within L _ _ w h).bind fun st w h => ?_
          split
          · exact (notifyIf_within L _ _ w h).map _
          · rename_i hne
            exact ⟨hne, h⟩
        · exact ⟨by decide, h⟩

theorem writeCoilsHandler_within (commit : Bool) (o : Form MultiWrite) (T : List CoilDesc)
    (w : World) (h : P w) : (writeCoilsHandler commit o T w).Within P F := by
  unfold writeCoilsHandler
  split
  · exact ⟨by decide, h⟩
  · repeat' split
    · exact ⟨by decide, h⟩
    · exact ⟨by decide, h⟩
    · exact ⟨by decide, h⟩
    · exact (validateCoils_within L T _ _ w h).bind fun _ w h =>
        (writeCoils_within L T _ _ _ _ w h).bind fun _ w h => (notifyIf_within L _ _ w h).map _

theorem readRegsHandler_within (fc : Byte) (o : Form AddrQty) (T : List RegDesc) (w : World)
    (h : P w) : (readRegsHandler fc o T w).Within P F := by
  unfold readRegsHandler
  split
  · exact ⟨by decide, h⟩
  · repeat' split
    · exact ⟨by decide, h⟩
    · exact ⟨by decide, h⟩
    · exact (readRegs_within L T _ _ _ _ w h).map _

theorem writeRegHandler_within (commit : Bool) (o : Form AddrValue) (T : List RegDesc) (w : World)
    (h : P w) : (writeRegHandler commit o T w).Within P F := by
  unfold writeRegHandler
  split
  · exact ⟨by decide, h⟩
  · split
    · exact ⟨by decide, h⟩
    · refine (regWriteAllowed_within L _ _ _ _ _ w h).bind fun k w h => ?_
      split
      · exact ⟨by decide, h⟩
      · refine (regWrite_within L _ _ _ _ w h).bind fun sk w h => ?_
        split
        · exact (notifyIf_within L _ _ w h).map _
        · rename_i hne
          exact ⟨hne, h⟩

theorem writeRegs_within (commit : Bool) (T : List RegDesc) (addr qty : Nat) (data : List Word)
    (w : World) (h : P w) : (writeRegs commit T addr qty data w).Within P F :=
  (validateWrites_within L T _ _ _ _ _ w h).bind fun _ w h =>
    (applyWrites_within L T _ _ _ _ w h).bind fun _ w h => notifyIf_within L _ _ w h

theorem writeRegsHandler_within (commit : Bool) (o : Form MultiWrite) (T : List RegDesc) (w : World)
    (h : P w) : (writeRegsHandler commit o T w).Within P F := by
  unfold writeRegsHandler
  split
  · exact ⟨by decide, h⟩
  · repeat' split
    · exact ⟨by decide, h⟩
    · exact ⟨by decide, h⟩
    · exact ⟨by decide, h⟩
    · exact (writeRegs_within L _ T _ _ _ w h).map _

theorem maskWriteHandler_within (commit : Bool) (o : Form MaskWrite) (T : List RegDesc) (w : World)
    (h : P w) : (maskWriteHandler commit o T w).Within P F := by
  unfold maskWriteHandler
  split
  · exact ⟨by decide, h⟩
  · split
    · exact ⟨by decide, h⟩
    · refine (regWriteAllowed_within L _ _ _ _ _ w h).bind fun k w h => ?_
      split
      · exact ⟨by decide, h⟩
      · refine (regRead_within L _ _ _ w h).bind fun r w h => ?_
        split
        · refine (regWrite_within L _ _ _ _ w h).bind fun sk w h => ?_
          split
          · exact (notifyIf_within L _ _ w h).map _
          · rename_i hne
            exact ⟨hne, h⟩
        · exact ⟨by decide, h⟩
        · exact ⟨by decide, h⟩

theorem readWriteHandler_within (commit : Bool) (o : Form ReadWrite) (T : List RegDesc) (w : World)
    (h : P w) : (readWriteHandler commit o T w).Within P F := by
  unfold readWriteHandler
  split
  · exact ⟨by decide, h⟩
  · split
    · exact ⟨by decide, h⟩
    split
    · exact ⟨by decide, h⟩
    split
    · exact ⟨by decide, h⟩
    split
    · exact ⟨by decide, h⟩
    split
    · exact ⟨by decide, h⟩
    refine (regReadDenied_within L _ w h).bind fun o w h => ?_
    split
    · exact ⟨by decide, h⟩
    · exact (writeRegs_within L _ T _ _ _ w h).bind fun _ w h =>
        (readRegs_within L T _ _ _ _ w h).map _

theorem readSubs_within : ∀ (l : List (FileDesc × SubRequest)) (w : World), P w →
    (readSubs l w).Within P F
  | [], _, h => h
  | _ :: rest, w, h =>
    (readRegs_within L _ _ _ _ _ w h).bind fun _ w h => (readSubs_within rest w h).map _

omit L in
theorem checkSub_ne_ok {ext : Bool} {T : List FileDesc} {hd : SubRequest} {e : Status}
    (h : checkSub ext T hd = .error e) : e ≠ .ok := by
  unfold checkSub at h
  repeat' split at h
  all_goals first | (cases h; decide) | cases h

omit L in
theorem checkReads_ne_ok {ext : Bool} {T : List FileDesc} {e : Status} :
    ∀ {rbc : Nat} {l : List SubRequest}, checkReads ext T rbc l = .error e → e ≠ .ok
  | _, [], h => by cases h
  | rbc, hd :: l, h => by
    unfold checkReads at h
    split at h
    · rename_i hc
      cases h
      exact checkSub_ne_ok hc
    · split at h
      · cases h; decide
      · split at h
        · rename_i hr
          cases h
          exact checkReads_ne_ok hr
        · cases h

theorem readFileHandler_within (ext : Bool) (o : Form (List Byte)) (T : List FileDesc) (w : World)
    (h : P w) : (readFileHandler ext o T w).Within P F := by
  unfold readFileHandler
  split
  · exact ⟨by decide, h⟩
  · split
    · exact ⟨by decide, h⟩
    · split
      · rename_i hc
        exact ⟨checkReads_ne_ok hc, h⟩
      · exact (readSubs_within L _ w h).map _

theorem checkFileWrites_within (ext : Bool) (T : List FileDesc) :
    ∀ (fuel : Nat) (data : List Byte) (w : World), P w →
      (checkFileWrites ext T fuel data w).Within P F
  | 0, [], _, h => by unfold checkFileWrites; exact h
  | 0, _ :: _, _, h => by unfold checkFileWrites; exact ⟨by decide, h⟩
  | fuel + 1, [], _, h => by unfold checkFileWrites; exact h
  | fuel + 1, b :: data, w, h => by
    unfold checkFileWrites
    split
    · exact ⟨by decide, h⟩
    · split
      · exact ⟨by decide, h⟩
      · split
        · rename_i hc
          exact ⟨checkSub_ne_ok hc, h⟩
        · exact (validateWrites_within L _ _ _ _ _ _ w h).bind fun _ w h =>
            (checkFileWrites_within ext T fuel _ w h).map _

theorem applyFileWrites_within : ∀ (l : List FileWrite) (w : World), P w →
    (applyFileWrites l w).Within P F
  | [], _, h => h
  | _ :: rest, w, h =>
    (applyWrites_within L _ _ _ _ _ w h).bind fun _ w h => applyFileWrites_within rest w h

theorem writeFileHandler_within (ext commit : Bool) (o : Form (List Byte)) (T : List FileDesc)
    (w : World) (h : P w) : (writeFileHandler ext commit o T w).Within P F := by
  unfold writeFileHandler
  split
  · exact ⟨by decide, h⟩
  · split
    · exact ⟨by decide, h⟩
    · exact (checkFileWrites_within L _ T _ _ w h).bind fun _ w h =>
        (applyFileWrites_within L _ w h).bind fun _ w h => (notifyIf_within L _ _ w h).map _

theorem fallbackCall_within (req : List Byte) (w : World) (h : P w) :
    (fallbackCall req w).Within P F := by
  refine (askStatusBody_within L _ w h).bind fun sb w h => ?_
  split
  · exact h
  · rename_i hne
    exact ⟨hne, h⟩

end

/-- The canonical form of the storage is kept by every accessor; scripted answers may break the host's
contract. -/
theorem worldLaw_good : WorldLaw (fun w => w.good = true) isContractStop where
  invoke c w h := by
    unfold invoke
    split <;> exact World.good_changes _ _ h
  setBit w r b v h := by
    simp only [World.good, Bool.and_eq_true] at h ⊢
    exact ⟨Memory.wf_writeBit _ _ _ _ h.1, h.2⟩
  setWords w ty r off vs h := by
    simp only [World.good, Bool.and_eq_true] at h ⊢
    exact ⟨h.1, storeWords_wf ty r off vs _ h.2⟩
  contract w f _ _ hf := hf

/-- With no scripted answer left, no accessor faults, and none is left afterwards. -/
theorem worldLaw_free :
    WorldLaw (fun w => w.good = true ∧ w.script = []) (fun _ => False) where
  invoke c w h := by
    obtain ⟨hg, hs⟩ := h
    refine ⟨worldLaw_good.invoke c w hg, ?_⟩
    unfold invoke
    rw [hs]
    simp
  setBit w r b v h := ⟨worldLaw_good.setBit w r b v h.1, h.2⟩
  setWords w ty r off vs h := ⟨worldLaw_good.setWords w ty r off vs h.1, h.2⟩
  contract w f h hs _ := absurd h.2 hs

end Sys2Proof.Machine
end

