-- ==== Sys2Proof/Laws/Bytes.lean ====
section
/-! SUPPORT. A word and its two bytes, and words in byte strings. -/

namespace Sys2Proof

@[simp] theorem be16_hiByte_loByte (v : Word) : be16 (hiByte v) (loByte v) = v := by
  apply BitVec.eq_of_getLsbD_eq
  intro i hi
  simp only [be16, hiByte, loByte, BitVec.getLsbD_append, BitVec.getLsbD_extractLsb']
  by_cases h : i < 8
  · simp [h]
  · simp only [h, decide_false]
    have h8 : i - 8 < 8 := by omega
    have he : 8 + (i - 8) = i := by omega
    simp [h8, he]

@[simp] theorem hiByte_be16 (a b : Byte) : hiByte (be16 a b) = a := by
  apply BitVec.eq_of_getLsbD_eq
  intro i hi
  simp only [be16, hiByte, BitVec.getLsbD_extractLsb', BitVec.getLsbD_append, hi, decide_true,
    Bool.true_and]
  rw [if_neg (by omega), Nat.add_sub_cancel_left]

@[simp] theorem loByte_be16 (a b : Byte) : loByte (be16 a b) = b := by
  apply BitVec.eq_of_getLsbD_eq
  intro i hi
  simp only [be16, loByte, BitVec.getLsbD_extractLsb', BitVec.getLsbD_append, hi, decide_true,
    Bool.true_and, Nat.zero_add, if_true]

@[simp] theorem le16_loByte_hiByte (v : Word) : le16 (loByte v) (hiByte v) = v :=
  be16_hiByte_loByte v

@[simp] theorem length_be16Bytes (v : Word) : (be16Bytes v).length = 2 := rfl

@[simp] theorem length_le16Bytes (v : Word) : (le16Bytes v).length = 2 := rfl

@[simp] theorem length_bytesOfWords (ws : List Word) : (bytesOfWords ws).length = 2 * ws.length := by
  induction ws with
  | nil => rfl
  | cons w ws ih => simp only [bytesOfWords, List.length_cons, ih]; omega

@[simp] theorem wordsOfBytes_bytesOfWords (ws : List Word) :
    wordsOfBytes (bytesOfWords ws) = ws := by
  induction ws with
  | nil => rfl
  | cons w ws ih => simp [bytesOfWords, wordsOfBytes, ih]

theorem bytesOfWords_append (xs ys : List Word) :
    bytesOfWords (xs ++ ys) = bytesOfWords xs ++ bytesOfWords ys := by
  induction xs with
  | nil => rfl
  | cons w ws ih => simp [bytesOfWords, ih]

theorem length_wordsOfBytes (n : Nat) :
    ∀ (b : List Byte), b.length = 2 * n → (wordsOfBytes b).length = n := by
  induction n with
  | zero =>
    intro b h
    have : b = [] := List.eq_nil_of_length_eq_zero (by omega)
    simp [this, wordsOfBytes]
  | succ n ih =>
    intro b h
    match b with
    | [] => simp at h
    | [x] => simp at h; omega
    | x :: y :: rest =>
      simp only [wordsOfBytes, List.length_cons]
      rw [ih rest (by simp at h; omega)]

end Sys2Proof
end

