-- ==== Sys2Proof/Laws/Coils.lean ====
section
/-! SUPPORT. What the coil accessors and the loops over them do where no host software has a say (coils without
locks, callbacks and hooks), and how a lock or a failing write ends them; and what a notification does that the
host answers. -/

namespace Sys2Proof.Machine

/-- A notification the host answers changes the host's side only (R36, R111). -/
theorem notifyIf_listens {b : Bool} {c : HostCall} {w : World} (h : listens b w = true) :
    notifyIf b c w = .val () (notified b c w) := by
  unfold notifyIf notified
  cases b
  · rfl
  · unfold listens at h
    unfold askUnit invoke
    cases hs : w.script with
    | nil => simp
    | cons d rest =>
      rw [hs] at h
      simp only [Bool.not_true, Bool.false_or, beq_iff_eq] at h
      simp [h]

/-- What the script answers after a notification does not depend on the storage before it. -/
theorem listens_notified {b b' : Bool} {c c' : HostCall} {w w' : World} (hs : w.script = w'.script) :
    listens b (notified b' c w) = listens b (notified b' c' w') := by
  have h : (notified b' c w).script = (notified b' c' w').script := by
    unfold notified
    cases b'
    · exact hs
    · simp only [if_true, invoke, ← hs]
      cases w.script <;> simp
  unfold listens
  rw [h]

/-- A predicate answers what stands next in the script (R111). -/
theorem askBool_scripted {c : HostCall} {w : World} {b : Bool} {cells : List CellChange}
    {rest : List HostDraw} (h : w.script = ⟨.bool b, cells⟩ :: rest) :
    askBool c w = .val b (invoke c w).2 := by
  simp [askBool, invoke, h]

/-- A write callback answers the status that stands next in the script (R111). -/
theorem askStatus_scripted {c : HostCall} {w : World} {code : Byte} {e : Status}
    {cells : List CellChange} {rest : List HostDraw} (h : w.script = ⟨.status code, cells⟩ :: rest)
    (he : statusOfCode code = some e) : askStatus c w = .val e (invoke c w).2 := by
  simp [askStatus, invoke, h, he]

/-! ## Reads -/

/-- What R96 reads of a coil that asks no host software. -/
theorem coilRead_plain {d : CoilDesc} {w : World} (h : plainCoilRead d = true) :
    coilRead d w
      = .val (match coilValue w d with | some b => CoilRead.ofBool b | none => .noAccess) w := by
  simp only [plainCoilRead, Bool.and_eq_true, Bool.not_eq_true'] at h
  unfold coilRead lockedIf coilReadOpen coilValue
  rw [h.1]
  cases hm : d.rmode <;> simp_all [Res.bind]

theorem coilBits_succ (w : World) (T : List CoilDesc) (a n : Nat) :
    coilBits w T a (n + 1) = coilBit w T a :: coilBits w T (a + 1) n := by
  have hj : ∀ j, a + (j + 1) = a + 1 + j := fun j => by omega
  unfold coilBits
  rw [List.range_succ_eq_map, List.map_cons, List.map_map]
  exact congrArg _ (List.map_congr_left fun j _ => by rw [← hj]; rfl)

/-- The bits of `read_bits` up to a coil that asks the host (R300): the bit of every address before it. -/
theorem readBits_prefix (T : List CoilDesc) (addr : Nat) (w : World) : ∀ m n i : Nat, m ≤ n →
    plainCoilReadsOn T (addr + i) m = true → (i = 0 → 0 < m → coilReadable T addr = true) →
    readBits T addr i n w
      = (readBits T addr (i + m) (n - m) w).map fun bits => coilBits w T (addr + i) m ++ bits := by
  intro m
  induction m with
  | zero =>
    intro n i _ _ _
    simp only [Nat.add_zero, Nat.sub_zero]
    cases readBits T addr i n w <;> rfl
  | succ m ih =>
    intro n i h hp hr
    match n, h with
    | n + 1, h =>
    have hat : ∀ k, k < m + 1 → (findCoil T (addr + i + k)).all plainCoilRead = true := by
      simpa [plainCoilReadsOn] using hp
    have hpl := hat 0 (by omega)
    have ih' := ih n (i + 1) (by omega)
      (List.all_eq_true.mpr fun k hk => by
        have h1 := hat (k + 1) (by have := List.mem_range.mp hk; omega)
        have h2 : addr + (i + 1) + k = addr + i + (k + 1) := by omega
        rwa [h2])
      (by omega)
    have hidx : i + 1 + m = i + (m + 1) := by omega
    have hlen : n + 1 - (m + 1) = n - m := by omega
    rw [hidx] at ih'
    rw [coilBits_succ, hlen]
    conv => lhs; unfold readBits
    simp only [Nat.add_zero] at hpl
    have hfin : ∀ (b : Bool) (r : Res World (List Bool)),
        (r.map fun bits => coilBits w T (addr + (i + 1)) m ++ bits).map (fun bits => b :: bits)
          = r.map fun bits => (b :: coilBits w T (addr + i + 1) m) ++ bits := by
      intro b r
      cases r <;> rfl
    cases hf : findCoil T (addr + i) with
    | none =>
      have h0 : i ≠ 0 := by
        rintro rfl
        have hread := hr rfl (by omega)
        simp only [coilReadable] at hread
        simp only [Nat.add_zero] at hf
        rw [hf] at hread
        cases hread
      have hb : coilBit w T (addr + i) = false := by simp [coilBit, hf]
      simp only [Res.bind, h0, if_false, hb, ih', hfin]
    | some d =>
      rw [hf] at hpl
      simp only [Option.all_some] at hpl
      have hb : coilBit w T (addr + i) = (coilValue w d).getD false := by simp [coilBit, hf]
      simp only [coilRead_plain hpl, Res.bind]
      cases hv : coilValue w d with
      | none =>
        have h0 : i ≠ 0 := by
          rintro rfl
          have hread := hr rfl (by omega)
          simp only [coilReadable, Nat.add_zero] at hread hf
          rw [hf] at hread
          simp only [plainCoilRead, Bool.and_eq_true, Bool.not_eq_true'] at hpl
          unfold coilValue at hv
          cases hm : d.rmode <;> simp_all
          omega
        rw [hv] at hb
        simp only [h0, if_false, hb, Option.getD_none, ih', hfin]
      | some b =>
        rw [hv] at hb
        cases b <;> simp only [CoilRead.ofBool, hb, Option.getD_some, if_true, ih', hfin,
          Bool.false_eq_true, if_false]

theorem plainCoilReads_on {T : List CoilDesc} (h : plainCoilReads T = true) (a n : Nat) :
    plainCoilReadsOn T a n = true :=
  List.all_eq_true.mpr fun i _ => by
    cases hf : findCoil T (a + i) with
    | none => rfl
    | some d => exact List.all_eq_true.mp h d (List.mem_of_find?_eq_some hf)

/-- `read_bits` on coils that ask no host software (R300): the bit of every address. -/
theorem readBits_plain (T : List CoilDesc) (addr : Nat) (w : World) (n i : Nat)
    (hp : plainCoilReadsOn T (addr + i) n = true)
    (hr : i = 0 → 0 < n → coilReadable T addr = true) :
    readBits T addr i n w = .val (coilBits w T (addr + i) n) w := by
  rw [readBits_prefix T addr w n n i (Nat.le_refl _) hp hr, Nat.sub_self]
  simp [readBits, Res.map, Res.bind]

/-- A later locked coil reads as 0, and the coils after it as the host left them (R300). -/
theorem readBits_laterLocked {T : List CoilDesc} {addr i n : Nat} {w w' : World} {d : CoilDesc}
    (hi : 0 < i) (hin : i < n) (hf : findCoil T (addr + i) = some d) (hl : d.rlock = true)
    (hans : askBool (.coilRlock d) w = .val true w') (h1 : plainCoilReadsOn T addr i = true)
    (h2 : plainCoilReadsOn T (addr + i + 1) (n - i - 1) = true)
    (hr : coilReadable T addr = true) :
    readBits T addr 0 n w
      = .val (coilBits w T addr i ++ false :: coilBits w' T (addr + i + 1) (n - i - 1)) w' := by
  rw [readBits_prefix T addr w i n 0 (by omega) h1 fun _ _ => hr]
  have hn : n - i = n - i - 1 + 1 := by omega
  have hne : 0 + i ≠ 0 := by omega
  have hidx : addr + (0 + i) = addr + i := by omega
  rw [hn]
  unfold readBits
  simp only [hidx, hf, coilRead, lockedIf, hl, hans, Res.bind, if_true, hne, if_false]
  rw [readBits_plain T addr w' (n - i - 1) (0 + i + 1)
    (by have hx : addr + (0 + i + 1) = addr + i + 1 := by omega
        rw [hx]
        simpa using h2) (by omega)]
  simp [Res.map, Res.bind, Nat.add_assoc]

/-- A read lock that answers open leaves a coil without one (R96). -/
theorem coilRead_opens {d : CoilDesc} {w w' : World} (hl : d.rlock = true)
    (hans : askBool (.coilRlock d) w = .val false w') (hcb : d.rmode ≠ .cb) :
    coilRead d w = coilRead { d with rlock := false } w' := by
  simp only [coilRead, lockedIf, hl, hans, if_true, Res.bind, Bool.false_eq_true, if_false,
    coilReadOpen]
  cases hm : d.rmode <;> simp_all

/-- A coil whose read lock answers open is read, and the coils after it as the host left them (R300). -/
theorem readBits_opens {T : List CoilDesc} {addr i n : Nat} {w w' : World} {d : CoilDesc}
    (hin : i < n) (hf : findCoil T (addr + i) = some d) (hl : d.rlock = true)
    (hans : askBool (.coilRlock d) w = .val false w')
    (hd : plainCoilRead { d with rlock := false } = true) (h1 : plainCoilReadsOn T addr i = true)
    (h2 : plainCoilReadsOn T (addr + i + 1) (n - i - 1) = true)
    (hr : coilReadable T addr = true) :
    readBits T addr 0 n w = .val (coilBits w T addr i ++ coilBits w' T (addr + i) (n - i)) w' := by
  rw [readBits_prefix T addr w i n 0 (by omega) h1 fun _ _ => hr]
  have hn : n - i = n - i - 1 + 1 := by omega
  have hidx : addr + (0 + i) = addr + i := by omega
  have hcb : d.rmode ≠ .cb := by
    intro hm
    simp [plainCoilRead, hm] at hd
  have hval : coilValue w' { d with rlock := false } = coilValue w' d := rfl
  have hb : coilBit w' T (addr + i) = (coilValue w' d).getD false := by simp [coilBit, hf]
  rw [hn, coilBits_succ, hb]
  unfold readBits
  simp only [hidx, hf, coilRead_opens hl hans hcb, coilRead_plain hd, hval, Res.bind]
  have hrest := readBits_plain T addr w' (n - i - 1) (0 + i + 1)
    (by have hx : addr + (0 + i + 1) = addr + i + 1 := by omega
        rw [hx]
        simpa using h2) (by omega)
  have hx : addr + (0 + i + 1) = addr + i + 1 := by omega
  rw [hx] at hrest
  simp only [hrest, Res.map, Res.bind]
  cases hv : coilValue w' d with
  | some b =>
    cases b <;> simp only [CoilRead.ofBool, Option.getD_some, if_true, Bool.false_eq_true, if_false,
      Nat.add_zero]
  | none =>
    have hne : ¬ 0 + i = 0 := by
      intro h0
      obtain rfl : i = 0 := by omega
      simp only [Nat.add_zero] at hf
      simp only [coilReadable, hf, bne_iff_ne, ne_eq] at hr
      simp only [plainCoilRead, Bool.and_eq_true] at hd
      unfold coilValue at hv
      cases hm : d.rmode with
      | none => exact hr hm
      | cb => exact hcb hm
      | const c => simp [hm] at hv
      | cell r b => simp [hm] at hv hd; omega
    simp only [hne, if_false, Option.getD_none, Nat.add_zero]

/-! ## Writes -/

/-- A bit write changes that bit of that byte cell only (R91). -/
theorem Memory.writeBit_bits (m : Memory) (hm : m.wf = true) (r b : Nat) (hb : b ≤ 7) (v : Bool) :
    (∀ c, c ≠ r → (m.writeBit r b v).read c = m.read c)
    ∧ ∀ j, j < 8 → ((m.writeBit r b v).read r).getLsbD j
        = if j = b then v else (m.read r).getLsbD j := by
  unfold Memory.writeBit
  constructor
  · intro c hc
    rw [Memory.read_write m _ _ _ 0 hm, if_neg hc]
  · intro j hj
    rw [Memory.read_write m _ _ _ 0 hm, if_pos rfl]
    by_cases h : j = b
    · subst h
      cases v <;> simp [hj]
    · by_cases hlt : j < b
      · cases v <;> simp [h, hj, hlt]
      · have hne : ¬ (j - b = 0) := by omega
        cases v <;> simp [h, hj, hne]

/-- What a plain write target is. -/
theorem coilTarget_some {T : List CoilDesc} {a r b : Nat} (h : coilTarget T a = some (r, b)) :
    ∃ d, findCoil T a = some d ∧ d.wlock = false ∧ d.postWrite = false ∧ d.wmode = .cell r b
      ∧ b ≤ 7 := by
  unfold coilTarget at h
  cases hf : findCoil T a with
  | none => simp [hf] at h
  | some d =>
    simp only [hf] at h
    split at h
    · rename_i hh
      simp only [Bool.and_eq_true, Bool.not_eq_true'] at hh
      cases hm : d.wmode <;> simp only [hm] at h
      · cases h
      · split at h
        · simp only [Option.some.injEq, Prod.mk.injEq] at h
          obtain ⟨rfl, rfl⟩ := h
          exact ⟨d, rfl, hh.1, hh.2, hm, by assumption⟩
        · cases h
      · cases h
    · cases h

/-- The pre-validation loop of FC 0x0F passes coils without a write lock (R97, R315). -/
theorem validateCoils_prefix (T : List CoilDesc) (w : World) : ∀ m n a, m ≤ n →
    openCoils T a m = true → validateCoils T a n w = validateCoils T (a + m) (n - m) w := by
  intro m
  induction m with
  | zero => intro n a _ _; rfl
  | succ m ih =>
    intro n a h ho
    match n, h with
    | n + 1, h =>
    have hat : ∀ k, k < m + 1 → (findCoil T (a + k)).any (fun d => !d.wlock) = true := by
      simpa [openCoils] using ho
    have h0 := hat 0 (by omega)
    simp only [Nat.add_zero] at h0
    cases hf : findCoil T a with
    | none => rw [hf] at h0; cases h0
    | some d =>
      rw [hf] at h0
      simp only [Option.any_some, Bool.not_eq_true'] at h0
      have hidx : a + 1 + m = a + (m + 1) := by omega
      have hlen : n + 1 - (m + 1) = n - m := by omega
      conv => lhs; unfold validateCoils
      simp only [hf, coilWriteAllowed, lockedIf, h0, Res.map, Res.bind, Bool.not_false, if_true,
        Bool.false_eq_true, if_false]
      rw [ih n (a + 1) (by omega) (List.all_eq_true.mpr fun k hk => by
        have h1 := hat (k + 1) (by have := List.mem_range.mp hk; omega)
        have h2 : a + 1 + k = a + (k + 1) := by omega
        rwa [h2]), hidx, hlen]

theorem validateCoils_open {T : List CoilDesc} {a n : Nat} (w : World) (h : openCoils T a n = true) :
    validateCoils T a n w = .val () w := by
  rw [validateCoils_prefix T w n n a (Nat.le_refl _) h, Nat.sub_self]
  rfl

/-- A missing coil after coils without a write lock (R315). -/
theorem validateCoils_missing {T : List CoilDesc} {a n i : Nat} (w : World) (hi : i < n)
    (h : openCoils T a i = true) (hf : findCoil T (a + i) = none) :
    validateCoils T a n w = .raise .illegalDataAddr w := by
  have hn : n - i = n - i - 1 + 1 := by omega
  rw [validateCoils_prefix T w i n a (by omega) h, hn]
  unfold validateCoils
  rw [hf]

/-- A write-locked coil after coils without a write lock (R97, R315). -/
theorem validateCoils_locked {T : List CoilDesc} {a n i : Nat} {w w' : World} {d : CoilDesc}
    (hi : i < n) (h : openCoils T a i = true) (hf : findCoil T (a + i) = some d)
    (hl : d.wlock = true) (hans : askBool (.coilWlock d) w = .val true w') :
    validateCoils T a n w = .raise .illegalDataAddr w' := by
  have hn : n - i = n - i - 1 + 1 := by omega
  rw [validateCoils_prefix T w i n a (by omega) h, hn]
  unfold validateCoils
  simp [hf, coilWriteAllowed, lockedIf, hl, hans, Res.map, Res.bind]

/-- Plain targets have no write lock. -/
theorem plainCoilTargets_open {T : List CoilDesc} {a n : Nat} (h : plainCoilTargets T a n = true) :
    openCoils T a n = true :=
  List.all_eq_true.mpr fun i hi => by
    have ht := List.all_eq_true.mp h i hi
    obtain ⟨⟨r, b⟩, hx⟩ := Option.isSome_iff_exists.mp ht
    obtain ⟨d, h1, h2, -⟩ := coilTarget_some hx
    simp [h1, h2]

/-- The write loop of FC 0x0F stores the bits of plain targets (R315), up to one that is none. -/
theorem writeCoils_prefix (T : List CoilDesc) (addr : Nat) (data : List Byte) :
    ∀ m n i (w : World), m ≤ n → plainCoilTargets T (addr + i) m = true →
      writeCoils T addr data i n w
        = writeCoils T addr data (i + m) (n - m) { w with
            byteCells := storeCoils T (addr + i)
              ((List.range m).map fun k => packedBit data (i + k)) w.byteCells } := by
  intro m
  induction m with
  | zero => intro n i w _ _; rfl
  | succ m ih =>
    intro n i w h hp
    match n, h with
    | n + 1, h =>
    have hat : ∀ k, k < m + 1 → (coilTarget T (addr + i + k)).isSome = true := by
      simpa [plainCoilTargets] using hp
    have hi : ∀ k, addr + (i + 1) + k = addr + i + (k + 1) := fun k => by omega
    have hk : ∀ k, i + (k + 1) = i + 1 + k := fun k => by omega
    obtain ⟨⟨r, b⟩, hx⟩ := Option.isSome_iff_exists.mp (hat 0 (by omega))
    obtain ⟨d, h1, -, h3, h4, h5⟩ := coilTarget_some hx
    simp only [Nat.add_zero] at h1 hx
    have hnb : ¬ 7 < b := by omega
    have hlen : n + 1 - (m + 1) = n - m := by omega
    conv => lhs; unfold writeCoils
    simp only [h1, coilWrite, coilStore, h4, hnb, if_false, Res.bind, if_true, notifyIf, h3, Res.map,
      Bool.false_eq_true]
    rw [ih n (i + 1) _ (by omega) (List.all_eq_true.mpr fun k hlt => by
      have h1 := hat (k + 1) (by have := List.mem_range.mp hlt; omega)
      rwa [hi])]
    have hf : (fun k => packedBit data (i + k)) ∘ Nat.succ = fun k => packedBit data (i + 1 + k) :=
      funext fun k => congrArg (packedBit data) (hk k)
    rw [List.range_succ_eq_map, hk m, hlen]
    simp only [List.map_cons, List.map_map, storeCoils, storeCoil, hx, Nat.add_zero, hf]
    rfl

/-- The write loop of FC 0x0F stores every bit of plain targets (R315). -/
theorem writeCoils_plain {T : List CoilDesc} {addr n : Nat} (data : List Byte) (w : World)
    (h : plainCoilTargets T addr n = true) :
    writeCoils T addr data 0 n w
      = .val () { w with byteCells := storeCoils T addr (requestBits data n) w.byteCells } := by
  rw [writeCoils_prefix T addr data n n 0 w (Nat.le_refl _) (by simpa using h), Nat.sub_self]
  simp [writeCoils, requestBits]

/-- A write that fails after plain targets: they stay written, and the loop ends (R315, R585). -/
theorem writeCoils_aborts {T : List CoilDesc} {addr n i : Nat} {data : List Byte} {w w' : World}
    {d : CoilDesc} {e : Status} (hi : i < n) (h : plainCoilTargets T addr i = true)
    (hf : findCoil T (addr + i) = some d) (he : e ≠ .ok)
    (hst : coilStore d (packedBit data i)
      { w with byteCells := storeCoils T addr (requestBits data i) w.byteCells } = .val e w') :
    writeCoils T addr data 0 n w = .raise e w' := by
  have hn : n - i = n - i - 1 + 1 := by omega
  rw [writeCoils_prefix T addr data i n 0 w (by omega) (by simpa using h), hn]
  simp only [Nat.zero_add, Nat.add_zero]
  unfold writeCoils
  simp only [requestBits] at hst
  simp [hf, coilWrite, hst, Res.bind, he]

variable {T : List CoilDesc}

theorem storeCoil_wf {a : Nat} {v : Bool} {m : Memory} (h : m.wf = true) :
    (storeCoil T a v m).wf = true := by
  unfold storeCoil
  split
  · exact h
  · exact Memory.wf_writeBit _ _ _ _ h

theorem storeCoils_wf : ∀ (vs : List Bool) (a : Nat) (m : Memory), m.wf = true →
    (storeCoils T a vs m).wf = true
  | [], _, _, h => h
  | _ :: vs, a, _, h => storeCoils_wf vs (a + 1) _ (storeCoil_wf h)

/-- One coil store, bit by bit. -/
theorem storeCoil_bit {a : Nat} {v : Bool} {m : Memory} (h : m.wf = true) (r b : Nat) (hb : b < 8) :
    ((storeCoil T a v m).read r).getLsbD b
      = if coilTarget T a = some (r, b) then v else (m.read r).getLsbD b := by
  unfold storeCoil
  cases hc : coilTarget T a with
  | none => simp
  | some x =>
    obtain ⟨r', b'⟩ := x
    obtain ⟨d, -, -, -, -, h5⟩ := coilTarget_some hc
    have hw := Memory.writeBit_bits m h r' b' h5 v
    simp only
    by_cases hr : r = r'
    · subst hr
      rw [hw.2 b hb]
      by_cases hb' : b = b'
      · subst hb'; simp
      · have hne : ¬ b' = b := fun h => hb' h.symm
        simp [hb', hne]
    · rw [hw.1 r hr, if_neg (by rintro ⟨⟩; exact hr rfl)]

/-- A bit that no store of a block targets stays. -/
theorem storeCoils_bit : ∀ (vs : List Bool) (a : Nat) (m : Memory), m.wf = true → ∀ r b, b < 8 →
    (∀ k, k < vs.length → coilTarget T (a + k) ≠ some (r, b)) →
    ((storeCoils T a vs m).read r).getLsbD b = (m.read r).getLsbD b
  | [], _, _, _, _, _, _, _ => rfl
  | v :: vs, a, m, h, r, b, hb, hk => by
    have hi : ∀ k, a + 1 + k = a + (k + 1) := fun k => by omega
    have h0 := hk 0 (Nat.succ_pos _)
    rw [storeCoils, storeCoils_bit vs (a + 1) _ (storeCoil_wf h) r b hb fun k hlt => by
      rw [hi]; exact hk (k + 1) (Nat.succ_lt_succ hlt)]
    rw [storeCoil_bit h r b hb, if_neg (by simpa using h0)]

/-- A bit is as the last store of a block to it left it. -/
theorem storeCoils_last : ∀ (vs : List Bool) (a : Nat) (m : Memory), m.wf = true → ∀ i r b, b < 8 →
    i < vs.length → coilTarget T (a + i) = some (r, b) →
    (∀ k, i < k → k < vs.length → coilTarget T (a + k) ≠ some (r, b)) →
    ((storeCoils T a vs m).read r).getLsbD b = vs.getD i false
  | [], _, _, _, _, _, _, _, h, _, _ => absurd h (Nat.not_lt_zero _)
  | v :: vs, a, m, h, 0, r, b, hb, _, ht, hk => by
    have hi : ∀ k, a + 1 + k = a + (k + 1) := fun k => by omega
    rw [storeCoils, storeCoils_bit vs (a + 1) _ (storeCoil_wf h) r b hb fun k hlt => by
      rw [hi]; exact hk (k + 1) (Nat.succ_pos _) (Nat.succ_lt_succ hlt)]
    rw [storeCoil_bit h r b hb, if_pos (by simpa using ht)]
    rfl
  | v :: vs, a, m, h, i + 1, r, b, hb, hlt, ht, hk => by
    have hi : ∀ k, a + 1 + k = a + (k + 1) := fun k => by omega
    rw [storeCoils, storeCoils_last vs (a + 1) _ (storeCoil_wf h) i r b hb
      (Nat.lt_of_succ_lt_succ hlt) (by rw [hi]; exact ht) fun k h1 h2 => by
        rw [hi]; exact hk (k + 1) (Nat.succ_lt_succ h1) (Nat.succ_lt_succ h2)]
    rfl

/-- A byte cell that no store of a block targets stays. -/
theorem storeCoils_out : ∀ (vs : List Bool) (a : Nat) (m : Memory), m.wf = true →
    ∀ c, outsideCoils T a vs.length c → (storeCoils T a vs m).read c = m.read c
  | [], _, _, _, _, _ => rfl
  | v :: vs, a, m, h, c, ho => by
    have hi : ∀ k, a + 1 + k = a + (k + 1) := fun k => by omega
    rw [storeCoils, storeCoils_out vs (a + 1) _ (storeCoil_wf h) c fun k hlt x hx =>
      ho (k + 1) (Nat.succ_lt_succ hlt) x (by rw [← hi]; exact hx)]
    unfold storeCoil
    cases hc : coilTarget T a with
    | none => rfl
    | some x =>
      have h0 := ho 0 (Nat.succ_pos _) x (by simpa using hc)
      simp only [Memory.writeBit]
      rw [Memory.read_write _ _ _ _ 0 h, if_neg h0]

end Sys2Proof.Machine
end

