-- ==== Sys2Proof/Laws/State.lean ====
section
/-! SUPPORT. What each named update of the state leaves of each field. -/

namespace Sys2Proof.Machine

variable (s : State) (e : Byte) (f : Counters → Counters) (out : List Byte)

@[simp] theorem State.log_cfg : (s.log e).cfg = s.cfg := rfl
@[simp] theorem State.log_world : (s.log e).world = s.world := rfl
@[simp] theorem State.log_phase : (s.log e).phase = s.phase := rfl
@[simp] theorem State.log_busy : (s.log e).busy = s.busy := rfl
@[simp] theorem State.log_txn : (s.log e).txn = s.txn := rfl
@[simp] theorem State.log_pending : (s.log e).pending = s.pending := rfl
@[simp] theorem State.log_outputs : (s.log e).outputs = s.outputs := rfl
@[simp] theorem State.log_regs : (s.log e).regs = s.regs.log e := rfl

@[simp] theorem State.count_cfg : (s.count f).cfg = s.cfg := rfl
@[simp] theorem State.count_world : (s.count f).world = s.world := rfl
@[simp] theorem State.count_phase : (s.count f).phase = s.phase := rfl
@[simp] theorem State.count_busy : (s.count f).busy = s.busy := rfl
@[simp] theorem State.count_txn : (s.count f).txn = s.txn := rfl
@[simp] theorem State.count_pending : (s.count f).pending = s.pending := rfl
@[simp] theorem State.count_outputs : (s.count f).outputs = s.outputs := rfl
@[simp] theorem State.count_regs : (s.count f).regs = s.regs.count f := rfl

variable (r : Registers)

@[simp] theorem Registers.log_asciiDelimiter : (r.log e).asciiDelimiter = r.asciiDelimiter := rfl
@[simp] theorem Registers.log_isListenOnly : (r.log e).isListenOnly = r.isListenOnly := rfl
@[simp] theorem Registers.log_status : (r.log e).status = r.status := rfl
@[simp] theorem Registers.log_counters : (r.log e).counters = r.counters := rfl
@[simp] theorem Registers.log_ring : (r.log e).ring = r.ring.append e := rfl
@[simp] theorem Registers.count_asciiDelimiter : (r.count f).asciiDelimiter = r.asciiDelimiter := rfl
@[simp] theorem Registers.count_isListenOnly : (r.count f).isListenOnly = r.isListenOnly := rfl
@[simp] theorem Registers.count_status : (r.count f).status = r.status := rfl
@[simp] theorem Registers.count_counters : (r.count f).counters = f r.counters := rfl
@[simp] theorem Registers.count_ring : (r.count f).ring = r.ring := rfl
@[simp] theorem Registers.resetCounters_asciiDelimiter :
    r.resetCounters.asciiDelimiter = r.asciiDelimiter := rfl
@[simp] theorem Registers.resetCounters_isListenOnly :
    r.resetCounters.isListenOnly = r.isListenOnly := rfl
@[simp] theorem Registers.resetCounters_status : r.resetCounters.status = r.status := rfl
@[simp] theorem Registers.resetCounters_counters : r.resetCounters.counters = Counters.zero := rfl
@[simp] theorem Registers.resetCounters_ring : r.resetCounters.ring = r.ring := rfl

@[simp] theorem endCommand_cfg : (endCommand out s).cfg = s.cfg := rfl
@[simp] theorem endCommand_regs : (endCommand out s).regs = s.regs := rfl
@[simp] theorem endCommand_world : (endCommand out s).world = s.world := rfl
@[simp] theorem endCommand_phase : (endCommand out s).phase = .idle := rfl
@[simp] theorem endCommand_busy : (endCommand out s).busy = false := rfl
@[simp] theorem endCommand_txn : (endCommand out s).txn = none := rfl
@[simp] theorem endCommand_pending : (endCommand out s).pending = s.pending := rfl
@[simp] theorem endCommand_outputs : (endCommand out s).outputs = s.outputs ++ [out] := rfl

variable (st : Status) (res : Option (List Byte))

@[simp] theorem State.handlerReturns_cfg : (s.handlerReturns st res).cfg = s.cfg := rfl
@[simp] theorem State.handlerReturns_regs : (s.handlerReturns st res).regs = s.regs := rfl
@[simp] theorem State.handlerReturns_world : (s.handlerReturns st res).world = s.world := rfl
@[simp] theorem State.handlerReturns_phase : (s.handlerReturns st res).phase = .result := rfl
@[simp] theorem State.handlerReturns_busy : (s.handlerReturns st res).busy = s.busy := rfl
@[simp] theorem State.handlerReturns_pending : (s.handlerReturns st res).pending = s.pending := rfl
@[simp] theorem State.handlerReturns_outputs : (s.handlerReturns st res).outputs = s.outputs := rfl

variable (fc : Byte) (wl : Bool) (t : Txn)

@[simp] theorem closed_cfg : (closed t wl out s).cfg = s.cfg := rfl
@[simp] theorem closed_world : (closed t wl out s).world = s.world := rfl
@[simp] theorem closed_phase : (closed t wl out s).phase = .idle := rfl
@[simp] theorem closed_busy : (closed t wl out s).busy = false := rfl
@[simp] theorem closed_txn : (closed t wl out s).txn = none := rfl
@[simp] theorem closed_pending : (closed t wl out s).pending = s.pending := rfl

@[simp] theorem completed_cfg : (completed fc t wl out s).cfg = s.cfg := rfl
@[simp] theorem completed_world : (completed fc t wl out s).world = s.world := rfl
@[simp] theorem completed_phase : (completed fc t wl out s).phase = .idle := rfl
@[simp] theorem completed_busy : (completed fc t wl out s).busy = false := rfl
@[simp] theorem completed_txn : (completed fc t wl out s).txn = none := rfl
@[simp] theorem completed_pending : (completed fc t wl out s).pending = s.pending := rfl

@[simp] theorem failed_cfg : (failed fc t wl st s).cfg = s.cfg := rfl
@[simp] theorem failed_world : (failed fc t wl st s).world = s.world := rfl
@[simp] theorem failed_phase : (failed fc t wl st s).phase = .idle := rfl
@[simp] theorem failed_busy : (failed fc t wl st s).busy = false := rfl
@[simp] theorem failed_txn : (failed fc t wl st s).txn = none := rfl
@[simp] theorem failed_pending : (failed fc t wl st s).pending = s.pending := rfl

end Sys2Proof.Machine
end

