-- ==== Sys2Proof/Laws/Dispatcher.lean ====
section
/-! SUPPORT. What the dispatcher's phases after a handler can do: `runFunction` in one lemma per outcome of
the handler. -/

namespace Sys2Proof.Machine

variable {s s' : State} {t : Txn} {wl : Bool} {fc : Byte} {h : Handler}

/-- Phase TX ends the command with the framed response (R225, R236, R245, R271). -/
theorem transmit_reply {m : Nat} {res : List Byte} (hx : s.txn = some t) (hf : t.framerReady = true)
    (hm : t.m = some m) (hr : t.res = some res) :
    transmit s = .next
      (if isBroadcast t then endCommand [] (s.count Counters.incNoResp)
       else if m = 0 then endCommand [] s
       else endCommand ((framed t (res.take m)).getD []) s) := by
  obtain ⟨entry, adu, addr, delim, bin, req, res', wl', status, m', out⟩ := t
  simp only at hm hr
  subst hm hr
  simp only [Txn.framerReady] at hf
  unfold transmit
  rw [hx]
  cases m <;> cases entry <;> cases addr <;> cases delim <;> simp_all [isBroadcast, framed] <;>
    first | rfl | (split <;> rfl)

/-- The rest of phase RESULT once the response stands in `res` (R270). -/
theorem returnReply_eq {res : List Byte} (hx : s.txn = some t) (hf : t.framerReady = true)
    (hr : t.res = some res) (hn : res ≠ []) : returnReply wl s = .next (closed t wl res s) := by
  unfold returnReply
  rw [hx]
  simp only [hr]
  unfold dispatcherReturns
  have hm := transmit_reply (s := { s with phase := .tx, txn := some { t with
      m := some (replyLength wl s.regs.isListenOnly res) } })
    (t := { t with m := some (replyLength wl s.regs.isListenOnly res) })
    (m := replyLength wl s.regs.isListenOnly res) (res := res) rfl hf rfl hr
  rw [hm]
  have hlen : res.length ≠ 0 := by simpa using hn
  have hframed : ∀ p, framed { t with m := some (replyLength wl s.regs.isListenOnly res) } p
      = framed t p := fun p => rfl
  have hb : isBroadcast { t with m := some (replyLength wl s.regs.isListenOnly res) }
      = isBroadcast t := rfl
  rw [hb, hframed]
  cases hbc : isBroadcast t
  · cases hsil : (wl || s.regs.isListenOnly)
    · simp [replyLength, hsil, closed, hbc, replyOf, endCommand, hlen]
    · simp [replyLength, hsil, closed, hbc, replyOf, endCommand]
  · simp [closed, hbc, replyOf, endCommand, State.count]

/-- A handler that answers a response completes the request (R267 to R270). -/
theorem runFunction_val {res : List Byte} (hs : s.phase = .exec) (hh : h s = .val res s')
    (hx : s'.txn = some t) (hwl : t.wasListenOnly = some wl) (hf : t.framerReady = true)
    (hn : res ≠ []) : runFunction fc h s = .next (completed fc t wl res s') := by
  obtain ⟨entry, adu, addr, delim, bin, req, res', wl', status, m, out⟩ := t
  simp only at hwl
  subst hwl
  unfold runFunction
  rw [if_pos hs, hh]
  simp only [result, State.handlerReturns, hx, Option.map_some, applyStatus, if_true]
  rw [returnReply_eq
    (t := ⟨entry, adu, addr, delim, bin, req, some res, some wl, some .ok, m, out⟩) (res := res)
    (by unfold completeOk; split <;> rfl) hf rfl hn]
  have hb : isBroadcast ⟨entry, adu, addr, delim, bin, req, some res, some wl, some .ok, m, out⟩
      = isBroadcast ⟨entry, adu, addr, delim, bin, req, res', some wl, status, m, out⟩ := rfl
  have hr : ∀ b, replyOf ⟨entry, adu, addr, delim, bin, req, some res, some wl, some .ok, m, out⟩ b res
      = replyOf ⟨entry, adu, addr, delim, bin, req, res', some wl, status, m, out⟩ b res := fun b => rfl
  unfold completed closed
  rw [hb, hr]
  have hskip : skipsCommEvent fc = true ↔ fc = 0x08 ∨ fc = 0x0B ∨ fc = 0x0C := by
    simp [skipsCommEvent, or_assoc]
  unfold completeOk
  by_cases hc : skipsCommEvent fc = true
  · rw [if_pos hc, if_pos (hskip.mp hc)]
    cases wl <;> rfl
  · rw [if_neg hc, if_neg (fun h => hc (hskip.mpr h))]
    cases wl <;> rfl

/-- A handler that raises a status takes the exception (R266, R268, R270, R508). -/
theorem runFunction_raise {e : Status} (hs : s.phase = .exec) (hh : h s = .raise e s') (he : e ≠ .ok)
    (hx : s'.txn = some t) (hwl : t.wasListenOnly = some wl) (hf : t.framerReady = true) :
    runFunction fc h s = .next (failed fc t wl e s') := by
  obtain ⟨entry, adu, addr, delim, bin, req, res', wl', status, m, out⟩ := t
  simp only at hwl
  subst hwl
  unfold runFunction
  rw [if_pos hs, hh]
  simp only [result, State.handlerReturns, hx, Option.map_some, applyStatus, he, if_false]
  rw [returnReply_eq
    (t := ⟨entry, adu, addr, delim, bin, req, some (exceptionPdu fc e), some wl, some e, m, out⟩)
    (res := exceptionPdu fc e) rfl hf rfl (by simp [exceptionPdu])]
  cases wl <;> cases e <;> rfl

/-- A handler that stops ends the step. -/
theorem runFunction_stop {x : Stop} (hs : s.phase = .exec) (hh : h s = .stop x) :
    runFunction fc h s = x.answer := by
  unfold runFunction
  rw [if_pos hs, hh]

/-- Outside phase EXEC no handler runs (R60). -/
theorem runFunction_outside (hs : s.phase ≠ .exec) :
    runFunction fc h s = .fault .handlerOutsideExec := by
  unfold runFunction
  rw [if_neg hs]

/-- A handler on the storage and the host alone answers a response (R265). -/
theorem onWorld_val {α : Type} {g : World → Res World α} {a : α} {w : World}
    (hg : g s.world = .val a w) : onWorld g s = .val a { s with world := w } := by
  unfold onWorld; rw [hg]

theorem onWorld_raise {α : Type} {g : World → Res World α} {e : Status} {w : World}
    (hg : g s.world = .raise e w) : onWorld g s = .raise e { s with world := w } := by
  unfold onWorld; rw [hg]

theorem onWorld_stop {α : Type} {g : World → Res World α} {x : Stop}
    (hg : g s.world = .stop x) : onWorld g s = .stop x := by
  unfold onWorld; rw [hg]

/-- A function code whose table is present, when its handler answers a response. -/
theorem runFunction_table_val {α : Type} {table : Option (List α)} {T : List α} {req : List Byte}
    {g : List α → World → Res World (List Byte)} {res : List Byte} {w : World}
    (hs : AtHandler s t wl) (hT : table = some T) (hg : g T s.world = .val res w) (hn : res ≠ []) :
    runFunction fc (withTable table req g) s
      = .next (completed fc t wl res { s with world := w }) := by
  obtain ⟨hp, hx, hwl, hf⟩ := hs
  exact runFunction_val hp (by simp only [withTable, hT]; exact onWorld_val hg) hx hwl hf hn

/-- A function code whose table is present, when its handler raises a status. -/
theorem runFunction_table_raise {α : Type} {table : Option (List α)} {T : List α} {req : List Byte}
    {g : List α → World → Res World (List Byte)} {e : Status} {w : World}
    (hs : AtHandler s t wl) (hT : table = some T) (hg : g T s.world = .raise e w) (he : e ≠ .ok) :
    runFunction fc (withTable table req g) s = .next (failed fc t wl e { s with world := w }) := by
  obtain ⟨hp, hx, hwl, hf⟩ := hs
  exact runFunction_raise hp (by simp only [withTable, hT]; exact onWorld_raise hg) he hx hwl hf

/-- A handler on the whole state that answers a response, at the handler. -/
theorem runFunction_at_val {res : List Byte} (hs : AtHandler s t wl) (hh : h s = .val res s')
    (hx : s'.txn = s.txn) (hn : res ≠ []) :
    runFunction fc h s = .next (completed fc t wl res s') := by
  obtain ⟨hp, hx', hwl, hf⟩ := hs
  exact runFunction_val hp hh (hx.trans hx') hwl hf hn

/-- A handler on the whole state that raises a status, at the handler. -/
theorem runFunction_at_raise {e : Status} (hs : AtHandler s t wl) (hh : h s = .raise e s')
    (hx : s'.txn = s.txn) (he : e ≠ .ok) :
    runFunction fc h s = .next (failed fc t wl e s') := by
  obtain ⟨hp, hx', hwl, hf⟩ := hs
  exact runFunction_raise hp hh he (hx.trans hx') hwl hf

end Sys2Proof.Machine
end

