-- ==== Sys2Proof/Laws/Handlers.lean ====
section
/-! SUPPORT. What executing a function code can do, said once for all of them: it completes, with its
handler's one change of the instance registers, or it takes an exception, or it stops because the host broke
its contract. -/

namespace Sys2Proof.Machine

/-- A function-code instruction as its function code and its handler, none for a command. -/
def functionOf : Instr → Option (Byte × (State → Handler))
  | .rxRtu _ => none
  | .rxAscii _ => none
  | .rxTcp _ => none
  | .rxPdu _ => none
  | .setStatus _ => none
  | .readCoils o => some (0x01, fun s =>
      withTable s.cfg.coils (encodePdu (.readCoils o)) (readBitsHandler 0x01 o))
  | .readDiscreteInputs o => some (0x02, fun s =>
      withTable s.cfg.discrete (encodePdu (.readDiscreteInputs o)) (readBitsHandler 0x02 o))
  | .readHoldingRegisters o => some (0x03, fun s =>
      withTable s.cfg.holding (encodePdu (.readHoldingRegisters o)) (readRegsHandler 0x03 o))
  | .readInputRegisters o => some (0x04, fun s =>
      withTable s.cfg.input (encodePdu (.readInputRegisters o)) (readRegsHandler 0x04 o))
  | .writeSingleCoil o => some (0x05, fun s =>
      withTable s.cfg.coils (encodePdu (.writeSingleCoil o))
        (writeCoilHandler s.cfg.callbacks.commitCoilsWrite o))
  | .writeSingleRegister o => some (0x06, fun s =>
      withTable s.cfg.holding (encodePdu (.writeSingleRegister o))
        (writeRegHandler s.cfg.callbacks.commitRegsWrite o))
  | .readExceptionStatus o => some (0x07, fun _ => exceptionStatusHandler o)
  | .getCommEventCounter o => some (0x0B, fun _ => onFields o fun _ => eventCounterHandler)
  | .getCommEventLog o => some (0x0C, fun _ => onFields o fun _ => eventLogHandler)
  | .writeMultipleCoils o => some (0x0F, fun s =>
      withTable s.cfg.coils (encodePdu (.writeMultipleCoils o))
        (writeCoilsHandler s.cfg.callbacks.commitCoilsWrite o))
  | .writeMultipleRegisters o => some (0x10, fun s =>
      withTable s.cfg.holding (encodePdu (.writeMultipleRegisters o))
        (writeRegsHandler s.cfg.callbacks.commitRegsWrite o))
  | .readFileRecord o => some (0x14, fun s =>
      withTable s.cfg.files (encodePdu (.readFileRecord o)) (readFileHandler s.cfg.extFileRange o))
  | .writeFileRecord o => some (0x15, fun s =>
      withTable s.cfg.files (encodePdu (.writeFileRecord o))
        (writeFileHandler s.cfg.extFileRange s.cfg.callbacks.commitRegsWrite o))
  | .maskWriteRegister o => some (0x16, fun s =>
      withTable s.cfg.holding (encodePdu (.maskWriteRegister o))
        (maskWriteHandler s.cfg.callbacks.commitRegsWrite o))
  | .readWriteMultipleRegisters o => some (0x17, fun s =>
      withTable s.cfg.holding (encodePdu (.readWriteMultipleRegisters o))
        (readWriteHandler s.cfg.callbacks.commitRegsWrite o))
  | .diagReturnQueryData data => some (0x08, fun _ => queryDataHandler data)
  | .diagRestartCommunications o => some (0x08, fun _ => onFields o restartHandler)
  | .diagReturnDiagnosticRegister o => some (0x08, fun _ => onZeroData o diagnosticRegisterHandler)
  | .diagChangeAsciiDelimiter o => some (0x08, fun _ => onFields o delimiterHandler)
  | .diagForceListenOnly o => some (0x08, fun _ => onZeroData o listenOnlyHandler)
  | .diagClearCounters o => some (0x08, fun _ => onZeroData o clearCountersHandler)
  | .diagReturnBusMessageCount o => some (0x08, fun _ =>
      onZeroData o (counterHandler 0x000B Counters.busMsg))
  | .diagReturnBusCommErrorCount o => some (0x08, fun _ =>
      onZeroData o (counterHandler 0x000C Counters.busCommErr))
  | .diagReturnExceptionErrorCount o => some (0x08, fun _ =>
      onZeroData o (counterHandler 0x000D Counters.exception))
  | .diagReturnServerMessageCount o => some (0x08, fun _ =>
      onZeroData o (counterHandler 0x000E Counters.msg))
  | .diagReturnServerNoResponseCount o => some (0x08, fun _ =>
      onZeroData o (counterHandler 0x000F Counters.noResp))
  | .diagReturnNakCount o => some (0x08, fun _ =>
      onZeroData o (counterHandler 0x0010 Counters.nak))
  | .diagReturnBusyCount o => some (0x08, fun _ =>
      onZeroData o (counterHandler 0x0011 Counters.busy))
  | .diagReturnBusCharOverrunCount o => some (0x08, fun _ =>
      onZeroData o (counterHandler 0x0012 Counters.busCharOverrun))
  | .diagClearOverrun o => some (0x08, fun _ => onZeroData o clearOverrunHandler)
  | .diagUnimplementedSub o => some (0x08, fun _ => unimplementedSubHandler o)
  | .reportSlaveId body => some (0x11, fun _ => fallbackHandler (0x11 :: body))
  | .fallback fc body => some (fc, fun _ => fallbackHandler (fc :: body))

/-- Executing a function code runs its handler (R264). -/
theorem exec_functionOf {i : Instr} {fc : Byte} {h : State → Handler} (hi : functionOf i = some (fc, h))
    (s : State) : exec i s = runFunction fc (h s) s := by
  cases i <;> simp only [functionOf, Option.some.injEq, Prod.mk.injEq, reduceCtorEq] at hi <;>
    (obtain ⟨rfl, rfl⟩ := hi; rfl)

/-- Every instruction but the five commands has a function code. -/
theorem functionOf_cases (i : Instr) :
    (∃ fc h, functionOf i = some (fc, h) ∧ fcOf i = some fc)
      ∨ (functionOf i = none ∧ fcOf i = none) := by
  cases i <;> first
    | exact .inr ⟨rfl, rfl⟩
    | exact .inl ⟨_, _, rfl, rfl⟩
    | (rename_i o; cases o <;> exact .inl ⟨_, _, rfl, rfl⟩)

/-- What a handler that answers a response has done to the instance registers. -/
def handlerRegs : Instr → Registers → Registers
  | .diagRestartCommunications (.fields data), r =>
    if data = 0x0000 ∨ data = 0xFF00 then restartRegisters data r else r
  | .diagChangeAsciiDelimiter (.fields f), r =>
    if f.delim.toNat ≤ 127 ∧ f.zero = 0x00 then { r with asciiDelimiter := f.delim } else r
  | .diagForceListenOnly (.fields data), r =>
    if data = 0 then { r with isListenOnly := true }.log enteredListenOnly else r
  | .diagClearCounters (.fields data), r => if data = 0 then r.resetCounters else r
  | .diagClearOverrun (.fields data), r => if data = 0 then r.count Counters.clearOverrun else r
  | _, r => r

/-- The outcomes of a handler at a state: a response with the registers changed to `r`, a status other than
OK with the registers as they were, or a stop; the host's side keeps `P`. -/
def Res.Ends (r : Registers) (P : World → Prop) (F : Stop → Prop) (s : State) :
    Res State (List Byte) → Prop
  | .val _ s' => ∃ w, P w ∧ s' = { s with world := w, regs := r }
  | .raise e s' => e ≠ .ok ∧ ∃ w, P w ∧ s' = { s with world := w }
  | .stop x => F x

section
variable {P : World → Prop} {F : Stop → Prop} {s : State}

theorem onWorld_ends {g : World → Res World (List Byte)} (h : (g s.world).Within P F) :
    (onWorld g s).Ends s.regs P F s := by
  unfold onWorld
  split <;> rename_i hg <;> rw [hg] at h
  · exact ⟨_, h, rfl⟩
  · exact ⟨h.1, _, h.2, rfl⟩
  · exact h

theorem fallbackHandler_ends (L : WorldLaw P F) (req : List Byte) (hP : P s.world) :
    (fallbackHandler req s).Ends s.regs P F s := by
  unfold fallbackHandler
  split
  · exact onWorld_ends (fallbackCall_within L req s.world hP)
  · exact ⟨by decide, s.world, hP, rfl⟩

theorem withTable_ends {α : Type} (L : WorldLaw P F) {table : Option (List α)} {req : List Byte}
    {h : List α → World → Res World (List Byte)} (hP : P s.world)
    (hh : ∀ T, (h T s.world).Within P F) : (withTable table req h s).Ends s.regs P F s := by
  unfold withTable
  split
  · exact fallbackHandler_ends L req hP
  · exact onWorld_ends (hh _)

theorem onFields_ends {α : Type} {r : Registers} {o : Form α} {h : α → Handler} (hP : P s.world)
    (hh : ∀ a, o = .fields a → (h a s).Ends r P F s) : (onFields o h s).Ends r P F s := by
  unfold onFields
  split
  · exact ⟨by decide, s.world, hP, rfl⟩
  · exact hh _ rfl

theorem onZeroData_ends {r : Registers} {o : Form Word} {h : Handler} (hP : P s.world)
    (hh : o = .fields 0 → (h s).Ends r P F s) : (onZeroData o h s).Ends r P F s := by
  refine onFields_ends hP fun data ho => ?_
  split
  · rename_i hd
    exact hh (hd ▸ ho)
  · exact ⟨by decide, s.world, hP, rfl⟩

/-- Every handler ends as `Res.Ends` says. -/
theorem handler_ends (L : WorldLaw P F) {i : Instr} {fc : Byte} {h : State → Handler}
    (hi : functionOf i = some (fc, h)) (hP : P s.world) :
    (h s s).Ends (handlerRegs i s.regs) P F s := by
  cases i <;> simp only [functionOf, Option.some.injEq, Prod.mk.injEq, reduceCtorEq] at hi <;>
    (obtain ⟨rfl, rfl⟩ := hi)
  case readCoils o =>
    exact withTable_ends L hP fun T => readBitsHandler_within L _ o T _ hP
  case readDiscreteInputs o =>
    exact withTable_ends L hP fun T => readBitsHandler_within L _ o T _ hP
  case readHoldingRegisters o =>
    exact withTable_ends L hP fun T => readRegsHandler_within L _ o T _ hP
  case readInputRegisters o =>
    exact withTable_ends L hP fun T => readRegsHandler_within L _ o T _ hP
  case writeSingleCoil o =>
    exact withTable_ends L hP fun T => writeCoilHandler_within L _ o T _ hP
  case writeSingleRegister o =>
    exact withTable_ends L hP fun T => writeRegHandler_within L _ o T _ hP
  case readExceptionStatus o =>
    show (exceptionStatusHandler o s).Ends s.regs P F s
    unfold exceptionStatusHandler
    split
    · exact onFields_ends hP fun _ _ =>
        onWorld_ends ((askByte_within L _ _ hP).map _)
    · exact fallbackHandler_ends L _ hP
  case getCommEventCounter o => exact onFields_ends hP fun _ _ => ⟨_, hP, rfl⟩
  case getCommEventLog o => exact onFields_ends hP fun _ _ => ⟨_, hP, rfl⟩
  case writeMultipleCoils o =>
    exact withTable_ends L hP fun T => writeCoilsHandler_within L _ o T _ hP
  case writeMultipleRegisters o =>
    exact withTable_ends L hP fun T => writeRegsHandler_within L _ o T _ hP
  case readFileRecord o =>
    exact withTable_ends L hP fun T => readFileHandler_within L _ o T _ hP
  case writeFileRecord o =>
    exact withTable_ends L hP fun T => writeFileHandler_within L _ _ o T _ hP
  case maskWriteRegister o =>
    exact withTable_ends L hP fun T => maskWriteHandler_within L _ o T _ hP
  case readWriteMultipleRegisters o =>
    exact withTable_ends L hP fun T => readWriteHandler_within L _ o T _ hP
  case diagReturnQueryData data => exact ⟨_, hP, rfl⟩
  case diagRestartCommunications o =>
    cases o with
    | badLength body => exact ⟨by decide, _, hP, rfl⟩
    | fields data =>
      show (restartHandler data s).Ends (if data = 0x0000 ∨ data = 0xFF00 then _ else _) P F s
      unfold restartHandler
      by_cases hd : data = 0x0000 ∨ data = 0xFF00
      case neg =>
        rw [if_neg hd, if_pos ⟨fun h => hd (.inl h), fun h => hd (.inr h)⟩]
        exact ⟨by decide, _, hP, rfl⟩
      case pos =>
        rw [if_pos hd, if_neg (by rintro ⟨h1, h2⟩; rcases hd with hd | hd; exacts [h1 hd, h2 hd])]
        have h := notifyIf_within L s.cfg.callbacks.requestRestart .requestRestart s.world hP
        unfold onWorld
        split <;> rename_i hg <;> rw [hg] at h
        · exact ⟨_, h, rfl⟩
        · exact ⟨h.1, _, h.2, rfl⟩
        · exact h
  case diagReturnDiagnosticRegister o =>
    refine onZeroData_ends hP fun ho => ?_
    have h : (readDiagnosticRegister s.cfg.callbacks.readDiagnostics s.world).Within P F := by
      unfold readDiagnosticRegister
      split
      · exact askWord_within L _ _ hP
      · exact hP
    show ((onWorld (readDiagnosticRegister _) s).map _).Ends s.regs P F s
    unfold onWorld
    split <;> rename_i hg <;> rw [hg] at h
    · exact ⟨_, h, rfl⟩
    · exact ⟨h.1, _, h.2, rfl⟩
    · exact h
  case diagChangeAsciiDelimiter o =>
    cases o with
    | badLength body => exact ⟨by decide, _, hP, rfl⟩
    | fields f =>
      show (delimiterHandler f s).Ends (if _ then _ else _) P F s
      unfold delimiterHandler
      by_cases hd : f.delim.toNat ≤ 127 ∧ f.zero = 0x00
      case neg =>
        rw [if_neg hd, if_pos (by
          by_contra hn
          simp only [not_or, Nat.not_lt, not_not] at hn
          exact hd hn)]
        exact ⟨by decide, _, hP, rfl⟩
      case pos =>
        rw [if_pos hd, if_neg (by
          rintro (h | h)
          · omega
          · exact h hd.2)]
        exact ⟨_, hP, rfl⟩
  case diagForceListenOnly o =>
    exact onZeroData_ends hP fun ho => by subst ho; exact ⟨_, hP, rfl⟩
  case diagClearCounters o =>
    refine onZeroData_ends hP fun ho => ?_
    subst ho
    have h := notifyIf_within L s.cfg.callbacks.resetDiagnostics .resetDiagnostics s.world hP
    show ((onWorld (notifyIf _ _) { s with regs := s.regs.resetCounters }).map _).Ends _ P F s
    unfold onWorld
    split <;> rename_i hg <;> simp only at hg <;> rw [hg] at h
    · exact ⟨_, h, rfl⟩
    · rename_i e w
      have := h.1
      exfalso
      revert hg
      unfold notifyIf askUnit
      split
      · split <;> simp
      · simp
    · exact h
  case diagClearOverrun o =>
    exact onZeroData_ends hP fun ho => by subst ho; exact ⟨_, hP, rfl⟩
  case diagUnimplementedSub o => cases o <;> exact ⟨by decide, _, hP, rfl⟩
  case reportSlaveId body => exact fallbackHandler_ends L _ hP
  case fallback fc body => exact fallbackHandler_ends L _ hP
  all_goals exact onZeroData_ends hP fun _ => ⟨_, hP, rfl⟩

end

end Sys2Proof.Machine
end

