-- ==== Sys2Proof/Laws/Lengths.lean ====
section
/-! SUPPORT. The response every handler answers is at least 1 byte and at most 253 (R275). -/

namespace Sys2Proof.Machine

variable {σ α β : Type}

/-- Every value meets `Q`. -/
def Res.Gives (Q : α → Prop) : Res σ α → Prop
  | .val a _ => Q a
  | .raise _ _ => True
  | .stop _ => True

theorem Res.Gives.bind {Q : α → Prop} {R : β → Prop} {r : Res σ α} {k : α → σ → Res σ β}
    (hr : r.Gives Q) (hk : ∀ a s, Q a → (k a s).Gives R) : (r.bind k).Gives R := by
  cases r with
  | val a s => exact hk a s hr
  | raise e s => trivial
  | stop x => trivial

theorem Res.Gives.map {Q : α → Prop} {R : β → Prop} {r : Res σ α} {f : α → β}
    (hr : r.Gives Q) (hf : ∀ a, Q a → R (f a)) : (r.map f).Gives R :=
  hr.bind fun a _ h => hf a h

theorem Res.Gives.mono {Q R : α → Prop} {r : Res σ α} (hr : r.Gives Q) (h : ∀ a, Q a → R a) :
    r.Gives R := by
  cases r with
  | val a s => exact h a hr
  | _ => trivial

theorem Res.gives_true (r : Res σ α) : r.Gives fun _ => True := by cases r <;> trivial

theorem Res.gives_bind {R : β → Prop} {r : Res σ α} {k : α → σ → Res σ β}
    (hk : ∀ a s, (k a s).Gives R) : (r.bind k).Gives R :=
  r.gives_true.bind fun a s _ => hk a s

theorem Res.gives_map {R : β → Prop} {r : Res σ α} {f : α → β} (hf : ∀ a, R (f a)) :
    (r.map f).Gives R :=
  Res.gives_bind fun a _ => hf a

theorem length_packBits (bc : Nat) (bits : List Bool) : (packBits bc bits).length = bc := by
  induction bc generalizing bits with
  | zero => rfl
  | succ n ih => simp [packBits, ih]

theorem covers_of_cover {T : List RegDesc} {a : Nat} {d : RegDesc} (h : cover T a = some d) :
    d.key.toNat ≤ a ∧ a < d.key.toNat + nwords d := by
  have := List.find?_some h
  simpa [covers] using this

/-- A register read emits the words left in the descriptor or the words wanted, the smaller number. -/
theorem regRead_gives (d : RegDesc) (a rem : Nat) (w : World) :
    (regRead d a rem w).Gives fun r =>
      ∀ ws, r = .words ws → ws.length = min (nwords d - offset d a) rem := by
  unfold regRead
  refine Res.Gives.bind (Q := fun o => ∀ r, o = some r → ∀ ws, r ≠ .words ws) ?_ fun o w ho => ?_
  · unfold regReadDenied
    refine Res.gives_map fun l => ?_
    intro r hr ws hw
    subst hw
    split at hr
    · cases hr
    · split at hr <;> cases hr
  · split
    · rename_i r
      intro ws hw
      exact absurd hw (ho r rfl ws)
    · unfold regEmit
      split
      · intro ws h; cases h
      · intro ws h; cases h; simp
      · intro ws h; cases h; simp
      · refine Res.gives_map fun x => ?_
        intro ws h
        split at h
        · cases h
        · cases h; simp

/-- `read_regs` gives as many words as were asked for. -/
theorem readRegs_gives (T : List RegDesc) :
    ∀ (fuel : Nat) (first : Bool) (a rem : Nat) (w : World), rem ≤ fuel →
      (readRegs T fuel first a rem w).Gives fun ws => ws.length = rem
  | 0, _, _, rem, _, h => by
    have : rem = 0 := by omega
    subst this
    exact rfl
  | fuel + 1, first, a, rem, w, h => by
    unfold readRegs
    split
    · rename_i h0; subst h0; exact rfl
    · rename_i h0
      refine Res.Gives.bind
        (Q := fun r => ∀ ws, r = .words ws → 1 ≤ ws.length ∧ ws.length ≤ rem) ?_ fun r w hr => ?_
      · split
        · intro ws h; cases h
        · rename_i d hc
          have hcov := covers_of_cover hc
          have := regRead_gives d a rem w
          revert this
          cases regRead d a rem w with
          | val r w' =>
            intro hg ws hw
            have := hg ws hw
            unfold offset at this
            omega
          | _ => intro _; trivial
      · split
        · rename_i ws
          have hl := hr ws rfl
          refine (readRegs_gives T fuel _ _ _ w (by omega)).map fun rest hrest => ?_
          simp [hrest]; omega
        · trivial
        · split
          · trivial
          · refine (readRegs_gives T fuel _ _ _ w (by omega)).map fun rest hrest => ?_
            simp [hrest]; omega

/-- The bounds of a response PDU. -/
def fitsPdu (res : List Byte) : Prop := 1 ≤ res.length ∧ res.length ≤ 253

theorem readBitsHandler_gives (fc : Byte) (o : Form AddrQty) (T : List CoilDesc) (w : World) :
    (readBitsHandler fc o T w).Gives fitsPdu := by
  unfold readBitsHandler
  split
  · trivial
  · split
    · trivial
    split
    · trivial
    rename_i hq _
    simp only [qtyOutside, Bool.or_eq_true, decide_eq_true_eq, not_or, Nat.not_lt] at hq
    refine Res.gives_map fun bits => ?_
    simp only [fitsPdu, List.length_cons, length_packBits, ceilDiv8]
    omega

theorem writeCoilHandler_gives (c : Bool) (o : Form AddrValue) (T : List CoilDesc) (w : World) :
    (writeCoilHandler c o T w).Gives fitsPdu := by
  unfold writeCoilHandler
  split
  · trivial
  split
  · trivial
  split
  · trivial
  refine Res.gives_bind fun b w => ?_
  split
  · refine Res.gives_bind fun st w => ?_
    split
    · exact Res.gives_map fun _ => by simp [fitsPdu, encodeAddrValue]
    · trivial
  · trivial

theorem writeCoilsHandler_gives (c : Bool) (o : Form MultiWrite) (T : List CoilDesc) (w : World) :
    (writeCoilsHandler c o T w).Gives fitsPdu := by
  unfold writeCoilsHandler
  split
  · trivial
  · repeat' split
    · trivial
    · trivial
    · trivial
    · exact Res.gives_bind fun _ _ => Res.gives_bind fun _ _ => Res.gives_map fun _ => by
        simp [fitsPdu]

theorem wordsResponse_fits {fc : Byte} {qty : Nat} {ws : List Word} (h : ws.length = qty)
    (hq : qty ≤ 125) : fitsPdu (wordsResponse fc qty ws) := by
  simp only [fitsPdu, wordsResponse, List.length_cons, length_bytesOfWords]
  omega

theorem readRegsHandler_gives (fc : Byte) (o : Form AddrQty) (T : List RegDesc) (w : World) :
    (readRegsHandler fc o T w).Gives fitsPdu := by
  unfold readRegsHandler
  split
  · trivial
  · split
    · trivial
    split
    · trivial
    rename_i hq _
    simp only [qtyOutside, Bool.or_eq_true, decide_eq_true_eq, not_or, Nat.not_lt] at hq
    exact (readRegs_gives T _ _ _ _ w (Nat.le_refl _)).map fun ws h => wordsResponse_fits h hq.2

theorem writeRegHandler_gives (c : Bool) (o : Form AddrValue) (T : List RegDesc) (w : World) :
    (writeRegHandler c o T w).Gives fitsPdu := by
  unfold writeRegHandler
  split
  · trivial
  split
  · trivial
  refine Res.gives_bind fun k w => ?_
  split
  · trivial
  · refine Res.gives_bind fun sk w => ?_
    split
    · exact Res.gives_map fun _ => by simp [fitsPdu, encodeAddrValue]
    · trivial

theorem writeRegsHandler_gives (c : Bool) (o : Form MultiWrite) (T : List RegDesc) (w : World) :
    (writeRegsHandler c o T w).Gives fitsPdu := by
  unfold writeRegsHandler
  split
  · trivial
  · repeat' split
    · trivial
    · trivial
    · trivial
    · exact Res.gives_map fun _ => by simp [fitsPdu]

theorem maskWriteHandler_gives (c : Bool) (o : Form MaskWrite) (T : List RegDesc) (w : World) :
    (maskWriteHandler c o T w).Gives fitsPdu := by
  unfold maskWriteHandler
  split
  · trivial
  split
  · trivial
  refine Res.gives_bind fun k w => ?_
  split
  · trivial
  · refine Res.gives_bind fun r w => ?_
    split
    · refine Res.gives_bind fun sk w => ?_
      split
      · exact Res.gives_map fun _ => by simp [fitsPdu, encodeMaskWrite]
      · trivial
    · trivial
    · trivial

theorem readWriteHandler_gives (c : Bool) (o : Form ReadWrite) (T : List RegDesc) (w : World) :
    (readWriteHandler c o T w).Gives fitsPdu := by
  unfold readWriteHandler
  split
  · trivial
  · split
    · trivial
    rename_i hq
    simp only [qtyOutside, Bool.or_eq_true, decide_eq_true_eq, not_or, Nat.not_lt] at hq
    split
    · trivial
    split
    · trivial
    split
    · trivial
    split
    · trivial
    refine Res.gives_bind fun o w => ?_
    split
    · trivial
    · refine Res.gives_bind fun _ w => ?_
      exact (readRegs_gives T _ _ _ _ w (Nat.le_refl _)).map fun ws h => wordsResponse_fits h hq.2

/-- The length FC 0x14 sums up in pass 1 is that of the answers of pass 2. -/
theorem checkReads_ok {ext : Bool} {T : List FileDesc} :
    ∀ {hs : List SubRequest} {rbc : Nat} {subs : List (FileDesc × SubRequest)} {total : Nat},
      checkReads ext T rbc hs = .ok (subs, total) →
      total = rbc + (subs.map fun x => 2 + 2 * x.2.recLen.toNat).sum ∧ (rbc ≤ 245 → total ≤ 245)
  | [], rbc, subs, total, h => by
    simp only [checkReads, Except.ok.injEq, Prod.mk.injEq] at h
    obtain ⟨rfl, rfl⟩ := h
    simp
  | hd :: hs, rbc, subs, total, h => by
    unfold checkReads at h
    split at h
    · cases h
    · split at h
      · cases h
      · rename_i hle
        split at h
        · cases h
        · rename_i rest total' hr
          cases h
          have ih := checkReads_ok hr
          simp only [List.map_cons, List.sum_cons]
          omega

theorem readSubs_gives : ∀ (subs : List (FileDesc × SubRequest)) (w : World),
    (readSubs subs w).Gives fun body =>
      body.length = (subs.map fun x => 2 + 2 * x.2.recLen.toNat).sum
  | [], _ => rfl
  | (Fd, h) :: rest, w => by
    refine (readRegs_gives Fd.records h.recLen.toNat true h.recNo.toNat h.recLen.toNat w
      (Nat.le_refl _)).bind fun ws w hws => ?_
    refine (readSubs_gives rest w).map fun more hm => ?_
    simp [hws, hm]
    omega

theorem readFileHandler_gives (ext : Bool) (o : Form (List Byte)) (T : List FileDesc) (w : World) :
    (readFileHandler ext o T w).Gives fitsPdu := by
  unfold readFileHandler
  split
  · trivial
  split
  · trivial
  split
  · trivial
  · rename_i subs rbc hc
    have h := checkReads_ok hc
    refine (readSubs_gives subs w).map fun body hb => ?_
    simp only [fitsPdu, List.length_cons, hb]
    have := h.2 (by omega)
    omega

theorem writeFileHandler_gives (ext c : Bool) (o : Form (List Byte)) (T : List FileDesc) (w : World) :
    (writeFileHandler ext c o T w).Gives fun res =>
      res ≠ [] ∧ (wfFileBytes o = true → res.length ≤ 253) := by
  unfold writeFileHandler
  split
  · trivial
  · split
    · trivial
    · refine Res.gives_bind fun fs w => Res.gives_bind fun _ w => Res.gives_map fun _ => ?_
      simp only [wfFileBytes, fitsBody, decide_eq_true_eq, encodeFileBytes, List.length_cons]
      exact ⟨by simp, fun h => by omega⟩

theorem fallbackCall_gives (fc : Byte) (body : List Byte) (w : World) :
    (fallbackCall (fc :: body) w).Gives fitsPdu := by
  unfold fallbackCall
  refine Res.Gives.bind (Q := fun sb => sb.2.length ≤ 252) ?_ fun sb w h => ?_
  · unfold askStatusBody
    split
    · show List.length (List.take _ _) ≤ _
      simp
    · split
      · trivial
      · split
        · trivial
        · rename_i hb
          exact Nat.le_of_not_lt hb
    · trivial
  · split
    · have : sb.2.length ≤ 252 := h
      show 1 ≤ (_ :: sb.2).length ∧ (_ :: sb.2).length ≤ 253
      simp only [List.length_cons]
      omega
    · trivial

theorem length_newestFirst (g : EventRing) : g.newestFirst.length = g.count.val := by
  simp [EventRing.newestFirst]

theorem onWorld_gives {Q : α → Prop} {g : World → Res World α} {s : State}
    (h : (g s.world).Gives Q) : (onWorld g s).Gives Q := by
  unfold onWorld
  split <;> rename_i hg <;> rw [hg] at h
  · exact h
  · trivial
  · trivial

theorem fallbackHandler_gives (fc : Byte) (body : List Byte) (s : State) :
    (fallbackHandler (fc :: body) s).Gives fitsPdu := by
  unfold fallbackHandler
  split
  · exact onWorld_gives (fallbackCall_gives fc body s.world)
  · trivial

theorem withTable_gives {table : Option (List α)} {Q : List Byte → Prop} {fc : Byte}
    {body : List Byte} {h : List α → World → Res World (List Byte)} {s : State}
    (hQ : ∀ r, fitsPdu r → Q r) (hh : ∀ T, (h T s.world).Gives Q) :
    (withTable table (fc :: body) h s).Gives Q := by
  unfold withTable
  split
  · exact (fallbackHandler_gives fc body s).mono hQ
  · exact onWorld_gives (hh _)

theorem onFields_gives {Q : List Byte → Prop} {o : Form α} {h : α → Handler} {s : State}
    (hh : ∀ a, o = .fields a → (h a s).Gives Q) : (onFields o h s).Gives Q := by
  unfold onFields
  split
  · trivial
  · exact hh _ rfl

theorem onZeroData_gives {Q : List Byte → Prop} {o : Form Word} {h : Handler} {s : State}
    (hh : (h s).Gives Q) : (onZeroData o h s).Gives Q := by
  refine onFields_gives fun data _ => ?_
  split
  · exact hh
  · trivial

theorem fitsPdu_weaken {p : Prop} {r : List Byte} (h : fitsPdu r) :
    r ≠ [] ∧ (p → r.length ≤ 253) := by
  obtain ⟨h1, h2⟩ := h
  exact ⟨fun hn => by simp [hn] at h1, fun _ => h2⟩

theorem diagResponse_fits (sub data : Word) : fitsPdu (diagResponse sub data) := by
  simp [fitsPdu, diagResponse, encodeDiag]

/-- Every handler's response has at least a byte, and a well-formed request's at most 253 (R275). -/
theorem handler_gives {i : Instr} {fc : Byte} {h : State → Handler}
    (hi : functionOf i = some (fc, h)) (s : State) :
    (h s s).Gives fun res => res ≠ [] ∧ (i.wf = true → res.length ≤ 253) := by
  have weak : ∀ r, fitsPdu r → r ≠ [] ∧ (i.wf = true → r.length ≤ 253) := fun _ => fitsPdu_weaken
  cases i <;> simp only [functionOf, Option.some.injEq, Prod.mk.injEq, reduceCtorEq] at hi <;>
    (obtain ⟨rfl, rfl⟩ := hi)
  case readCoils o => exact withTable_gives weak fun T => (readBitsHandler_gives _ o T _).mono weak
  case readDiscreteInputs o =>
    exact withTable_gives weak fun T => (readBitsHandler_gives _ o T _).mono weak
  case readHoldingRegisters o =>
    exact withTable_gives weak fun T => (readRegsHandler_gives _ o T _).mono weak
  case readInputRegisters o =>
    exact withTable_gives weak fun T => (readRegsHandler_gives _ o T _).mono weak
  case writeSingleCoil o =>
    exact withTable_gives weak fun T => (writeCoilHandler_gives _ o T _).mono weak
  case writeSingleRegister o =>
    exact withTable_gives weak fun T => (writeRegHandler_gives _ o T _).mono weak
  case readExceptionStatus o =>
    show (exceptionStatusHandler o s).Gives _
    unfold exceptionStatusHandler
    split
    · exact onFields_gives fun _ _ => onWorld_gives (Res.gives_map fun _ => weak _ (by simp [fitsPdu]))
    · exact (fallbackHandler_gives _ _ s).mono weak
  case getCommEventCounter o => exact onFields_gives fun _ _ => weak _ (by simp [fitsPdu])
  case getCommEventLog o =>
    refine onFields_gives fun _ _ => weak _ ?_
    have := s.regs.ring.count.isLt
    simp only [fitsPdu, eventLogResponse, List.length_cons, List.length_append, length_be16Bytes,
      length_newestFirst]
    omega
  case writeMultipleCoils o =>
    exact withTable_gives weak fun T => (writeCoilsHandler_gives _ o T _).mono weak
  case writeMultipleRegisters o =>
    exact withTable_gives weak fun T => (writeRegsHandler_gives _ o T _).mono weak
  case readFileRecord o =>
    exact withTable_gives weak fun T => (readFileHandler_gives _ o T _).mono weak
  case writeFileRecord o =>
    exact withTable_gives weak fun T => writeFileHandler_gives _ _ o T _
  case maskWriteRegister o =>
    exact withTable_gives weak fun T => (maskWriteHandler_gives _ o T _).mono weak
  case readWriteMultipleRegisters o =>
    exact withTable_gives weak fun T => (readWriteHandler_gives _ o T _).mono weak
  case diagReturnQueryData data =>
    refine ⟨by simp [encodeDiag], fun h => ?_⟩
    simp only [Instr.wf, fitsBody, decide_eq_true_eq] at h
    simp only [encodeDiag, List.length_cons, List.length_append, length_be16Bytes]
    omega
  case diagRestartCommunications o =>
    refine onFields_gives fun data _ => ?_
    unfold restartHandler
    split
    · trivial
    · exact Res.gives_bind fun _ _ => weak _ (diagResponse_fits _ _)
  case diagReturnDiagnosticRegister o =>
    exact onZeroData_gives (Res.gives_map fun _ => weak _ (diagResponse_fits _ _))
  case diagChangeAsciiDelimiter o =>
    refine onFields_gives fun f _ => ?_
    unfold delimiterHandler
    split
    · trivial
    · exact weak _ (by simp [fitsPdu, encodeDiag, encodeDelim])
  case diagClearCounters o =>
    exact onZeroData_gives (Res.gives_map fun _ => weak _ (diagResponse_fits _ _))
  case diagUnimplementedSub o => cases o <;> trivial
  case reportSlaveId body => exact (fallbackHandler_gives _ _ s).mono weak
  case fallback fc body => exact (fallbackHandler_gives _ _ s).mono weak
  all_goals exact onZeroData_gives (weak _ (diagResponse_fits _ _))

end Sys2Proof.Machine
end

