-- ==== Sys2Proof/Laws/Registers.lean ====
section
/-! SUPPORT. What the register accessors and the loops over them do where no host software has a say (registers
without locks, callbacks and hooks), and how a lock or a failing write ends them. -/

namespace Sys2Proof.Machine

variable {T : List RegDesc}

/-! ## Lookup -/

theorem regTableValidFrom_le {e : RegDesc} : ∀ (T : List RegDesc) (lo : Nat),
    regTableValidFrom lo T = true → e ∈ T → lo ≤ e.key.toNat
  | [], _, _, he => by cases he
  | d :: T, lo, h, he => by
    simp only [regTableValidFrom, Bool.and_eq_true, decide_eq_true_eq] at h
    rcases List.mem_cons.mp he with rfl | he
    · exact h.1.1
    · have := regTableValidFrom_le T _ h.2 he
      omega

theorem cover_iff_from {a : Nat} {d : RegDesc} : ∀ (T : List RegDesc) (lo : Nat),
    regTableValidFrom lo T = true →
    (cover T a = some d ↔ d ∈ T ∧ d.key.toNat ≤ a ∧ a < d.key.toNat + nwords d)
  | [], _, _ => by simp [cover]
  | e :: T, lo, h => by
    simp only [regTableValidFrom, Bool.and_eq_true, decide_eq_true_eq] at h
    have ih := cover_iff_from (d := d) (a := a) T _ h.2
    unfold cover at ih ⊢
    rw [List.find?_cons]
    by_cases hc : covers e a = true
    · simp only [hc]
      simp only [covers, Bool.and_eq_true, decide_eq_true_eq] at hc
      constructor
      · rintro ⟨⟩
        exact ⟨List.mem_cons_self, hc⟩
      · rintro ⟨hm, h1, -⟩
        rcases List.mem_cons.mp hm with rfl | hm
        · rfl
        · have := regTableValidFrom_le T _ h.2 hm
          omega
    · simp only [Bool.not_eq_true] at hc
      simp only [hc]
      rw [ih]
      simp only [covers, Bool.and_eq_false_iff, decide_eq_false_iff_not] at hc
      constructor
      · rintro ⟨h1, h2⟩
        exact ⟨List.mem_cons_of_mem _ h1, h2⟩
      · rintro ⟨h1, h2, h3⟩
        rcases List.mem_cons.mp h1 with rfl | h1
        · omega
        · exact ⟨h1, h2, h3⟩

/-- In a valid table the descriptor that covers an address is the one found (R85, R88). -/
theorem cover_iff (hv : regTableValid T = true) {a : Nat} {d : RegDesc} :
    cover T a = some d ↔ d ∈ T ∧ d.key.toNat ≤ a ∧ a < d.key.toNat + nwords d :=
  cover_iff_from T 0 hv

/-! ## Word images -/

/-- The bytes of a byte block's image: its bytes, and a zero byte after an odd number of them (R92). -/
theorem bytesOfWords_pairBytes : ∀ e : List Byte,
    bytesOfWords (pairBytes e) = if e.length % 2 = 1 then e ++ [0x00] else e
  | [] => rfl
  | [b] => by simp [pairBytes, bytesOfWords]
  | b :: c :: rest => by
    have ih := bytesOfWords_pairBytes rest
    simp only [pairBytes, bytesOfWords, ih, hiByte_be16, loByte_be16, List.length_cons]
    split <;> rename_i h
    · rw [if_pos (by omega)]
      rfl
    · rw [if_neg (by omega)]

theorem length_pairBytes : ∀ e : List Byte, (pairBytes e).length = (e.length + 1) / 2
  | [] => rfl
  | [b] => by simp [pairBytes]
  | b :: c :: rest => by
    simp only [pairBytes, List.length_cons, length_pairBytes rest]
    omega

/-! ## Reads -/

/-- What R99 reads of a register that asks no host software: its words, up to its end. -/
theorem regRead_plain {a rem : Nat} {d : RegDesc} {w : World} (hl : d.rlock = false)
    (hcb : d.rmode ≠ .cb) (hc : cover T a = some d)
    (hi : ∀ a', a ≤ a' → a' < d.key.toNat + nwords d → cover T a' = some d) :
    regRead d a rem w
      = .val
        (if d.rmode = .none then .noAccess
         else .words ((List.range (min (nwords d - offset d a) rem)).map fun j =>
            regWord w T (a + j))) w := by
  unfold regRead regReadDenied lockedIf
  simp only [hl, Res.map, Res.bind]
  have hcov := covers_of_cover hc
  by_cases hm : d.rmode = .none
  · simp [hm]
  · simp only [hm, if_false]
    have hj : ∀ j, j < nwords d - offset d a → j < rem →
        cover T (a + j) = some d ∧ offset d (a + j) = offset d a + j := by
      intro j h1 h2
      simp only [offset] at *
      exact ⟨hi _ (by omega) (by omega), by omega⟩
    unfold regEmit
    cases hmm : d.rmode <;> simp_all
    · intro j h1 h2
      simp [regWord, hj j h1 h2, hmm]
    · intro j h1 h2
      simp [regWord, hj j h1 h2, hmm]

theorem regWords_add (w : World) (T : List RegDesc) (a k n : Nat) :
    regWords w T a (k + n) = regWords w T a k ++ regWords w T (a + k) n := by
  simp [regWords, List.range_add, Function.comp_def, Nat.add_assoc]

/-- The words of `read_regs` up to a register that asks the host (R340, R104): the word of every address
before it, the addresses counted from one where a register begins. -/
theorem readRegs_prefix (w : World) (hv : regTableValid T = true) : ∀ fuel rem a m first,
    rem ≤ fuel → m ≤ rem → plainRegReadsOn T a m = true →
    (m < rem → ∀ d, cover T (a + m) = some d → m = 0 ∨ d.key.toNat = a + m) →
    (first = true → 0 < m → regReadable T a = true) →
    ∃ fuel', rem - m ≤ fuel' ∧ readRegs T fuel first a rem w
      = (readRegs T fuel' (first && m = 0) (a + m) (rem - m) w).map
          fun ws => regWords w T a m ++ ws := by
  intro fuel
  induction fuel with
  | zero =>
    intro rem a m first h hm _ _ _
    obtain rfl : rem = 0 := by omega
    obtain rfl : m = 0 := by omega
    exact ⟨0, Nat.le_refl _, rfl⟩
  | succ fuel ih =>
    intro rem a m first h hm hp hk hf
    cases m with
    | zero =>
      refine ⟨fuel + 1, by omega, ?_⟩
      simp only [Nat.add_zero, Nat.sub_zero, decide_true, Bool.and_true]
      cases readRegs T (fuel + 1) first a rem w <;> rfl
    | succ m =>
      have hat : ∀ j, j < m + 1 → (cover T (a + j)).all plainRegRead = true := by
        simpa [plainRegReadsOn] using hp
      have hpl := hat 0 (by omega)
      simp only [Nat.add_zero] at hpl
      have hmz : (first && decide (m + 1 = 0)) = false := by simp
      have hfin : ∀ (k : Nat), 0 < k → k ≤ m + 1 → ∃ fuel', rem - (m + 1) ≤ fuel' ∧
          (readRegs T fuel false (a + k) (rem - k) w).map (fun ws => regWords w T a k ++ ws)
            = (readRegs T fuel' false (a + (m + 1)) (rem - (m + 1)) w).map
                fun ws => regWords w T a (m + 1) ++ ws := by
        intro k hk0 hkm
        obtain ⟨f', h1, h2⟩ := ih (rem - k) (a + k) (m + 1 - k) false (by omega) (by omega)
          (List.all_eq_true.mpr fun j hj => by
            have hj' := List.mem_range.mp hj
            have hx : a + k + j = a + (k + j) := by omega
            rw [hx]
            exact hat (k + j) (by omega))
          (fun hlt d hd => by
            have hx : a + k + (m + 1 - k) = a + (m + 1) := by omega
            rw [hx] at hd ⊢
            rcases hk (by omega) d hd with h0 | h0
            · omega
            · exact .inr h0) (by simp)
        have hx : a + k + (m + 1 - k) = a + (m + 1) := by omega
        have hy : rem - k - (m + 1 - k) = rem - (m + 1) := by omega
        have hz : k + (m + 1 - k) = m + 1 := by omega
        rw [hx, hy] at h2
        rw [hy] at h1
        refine ⟨f', h1, ?_⟩
        rw [h2]
        have hsplit : regWords w T a (m + 1)
            = regWords w T a k ++ regWords w T (a + k) (m + 1 - k) := by rw [← regWords_add, hz]
        rw [hsplit]
        simp only [Bool.false_and]
        cases readRegs T f' false (a + (m + 1)) (rem - (m + 1)) w <;>
          simp [Res.map, Res.bind]
      rw [hmz]
      have h1 : regWords w T a 1 = [regWord w T a] := rfl
      conv =>
        congr
        ext f
        rhs
        lhs
        unfold readRegs
      rw [if_neg (by omega)]
      cases hc : cover T a with
      | none =>
        obtain rfl : first = false := by
          cases first
          · rfl
          · simpa [regReadable, hc] using hf rfl (by omega)
        have hz : regWord w T a = 0 := by simp [regWord, hc]
        have h := hfin 1 (by omega) (by omega)
        rw [h1, hz] at h
        simpa [Res.bind] using h
      | some d =>
        have hcov := (cover_iff hv).mp hc
        rw [hc] at hpl
        simp only [Option.all_some, plainRegRead, Bool.and_eq_true, Bool.not_eq_true', bne_iff_ne,
          ne_eq] at hpl
        have hi : ∀ a', a ≤ a' → a' < d.key.toNat + nwords d → cover T a' = some d :=
          fun a' h1 h2 => (cover_iff hv).mpr ⟨hcov.1, by omega, h2⟩
        simp only [regRead_plain (rem := rem) hpl.1 hpl.2 hc hi, Res.bind]
        by_cases hmode : d.rmode = .none
        · obtain rfl : first = false := by
            cases first
            · rfl
            · simpa [regReadable, hc, hmode] using hf rfl (by omega)
          have hz : regWord w T a = 0 := by simp [regWord, hc, hmode]
          have h := hfin 1 (by omega) (by omega)
          rw [h1, hz] at h
          simpa [hmode] using h
        · have hoff : offset d a = a - d.key.toNat := rfl
          have hend : min (nwords d - offset d a) rem ≤ m + 1 := by
            by_contra hlt
            have hd := hi (a + (m + 1)) (by omega) (by omega)
            rcases hk (by omega) d hd with h0 | h0 <;> omega
          simp only [hmode, if_false, List.length_map, List.length_range]
          exact hfin _ (by omega) hend

theorem plainRegReads_on (h : plainRegReads T = true) (a n : Nat) :
    plainRegReadsOn T a n = true :=
  List.all_eq_true.mpr fun i _ => by
    cases hf : cover T (a + i) with
    | none => rfl
    | some d => exact List.all_eq_true.mp h d (List.mem_of_find?_eq_some hf)

/-- `read_regs` on registers that ask no host software (R340, R104): the word of every address. -/
theorem readRegs_plain (w : World) (hv : regTableValid T = true) {fuel a n : Nat} {first : Bool}
    (hle : n ≤ fuel) (hp : plainRegReadsOn T a n = true)
    (hf : first = true → 0 < n → regReadable T a = true) :
    readRegs T fuel first a n w = .val (regWords w T a n) w := by
  obtain ⟨f', -, h⟩ := readRegs_prefix w hv fuel n a n first hle (Nat.le_refl _) hp
    (fun h => absurd h (Nat.lt_irrefl _)) hf
  rw [h, Nat.sub_self]
  cases f' <;> simp [readRegs, Res.map, Res.bind]

/-- A later locked register reads as 0, and the addresses after it as the host left them (R340). -/
theorem readRegs_laterLocked {a i n : Nat} {w w' : World} {d : RegDesc} (hv : regTableValid T = true)
    (hi : 0 < i) (hin : i < n) (hc : cover T (a + i) = some d) (hkey : d.key.toNat = a + i)
    (hl : d.rlock = true) (hans : askBool (.regRlock d) w = .val true w')
    (h1 : plainRegReadsOn T a i = true) (h2 : plainRegReadsOn T (a + i + 1) (n - i - 1) = true)
    (hr : regReadable T a = true) :
    readRegs T n true a n w
      = .val (regWords w T a i ++ 0 :: regWords w' T (a + i + 1) (n - i - 1)) w' := by
  obtain ⟨f', hf', h⟩ := readRegs_prefix w hv n n a i true (Nat.le_refl _) (by omega) h1
    (fun _ e he => by rw [hc] at he; cases he; exact .inr hkey) fun _ _ => hr
  rw [h]
  match f', hf' with
  | 0, hf' => omega
  | f' + 1, hf' =>
    have hne : decide (i = 0) = false := by simp; omega
    unfold readRegs
    rw [if_neg (by omega)]
    simp only [hc, regRead, regReadDenied, lockedIf, hl, hans, Res.map, Res.bind, if_true, hne,
      Bool.and_false, Bool.false_eq_true, if_false]
    rw [readRegs_plain w' hv (by omega) h2 (by simp)]

/-- The words of a register whose read lock answers open, at an address of its span (R99). -/
theorem regRead_openWords (hv : regTableValid T = true) {a rem : Nat} {d : RegDesc} {w w' : World}
    (hc : cover T a = some d) (hl : d.rlock = true)
    (hans : askBool (.regRlock d) w = .val false w') (hcb : d.rmode ≠ .cb) (hn : d.rmode ≠ .none) :
    regRead d a rem w = .val (.words (regWords w' T a (min (nwords d - offset d a) rem))) w' := by
  have hcov := (cover_iff hv).mp hc
  have hat : ∀ j, j < nwords d - offset d a →
      cover T (a + j) = some d ∧ offset d (a + j) = offset d a + j := by
    intro j hj
    simp only [offset] at hj ⊢
    exact ⟨(cover_iff hv).mpr ⟨hcov.1, by omega, by omega⟩, by omega⟩
  simp only [regRead, regReadDenied, lockedIf, hl, hans, if_true, Res.map, Res.bind,
    Bool.false_eq_true, if_false, hn, regWords, regEmit]
  cases hm : d.rmode with
  | none => exact absurd hm hn
  | cb => exact absurd hm hcb
  | const v =>
    simp only [Res.val.injEq, RegRead.words.injEq, and_true]
    refine List.map_congr_left fun j hj => ?_
    obtain ⟨h1, h2⟩ := hat j (by have := List.mem_range.mp hj; omega)
    simp only [regWord, h1, hm, h2]
  | ptr r =>
    simp only [Res.val.injEq, RegRead.words.injEq, and_true]
    refine List.map_congr_left fun j hj => ?_
    obtain ⟨h1, h2⟩ := hat j (by have := List.mem_range.mp hj; omega)
    simp only [regWord, h1, hm, h2]

/-- A register whose read lock answers open is read, and the addresses after it as the host left them (R340). -/
theorem readRegs_opens {a i n : Nat} {w w' : World} {d : RegDesc} (hv : regTableValid T = true)
    (hin : i < n) (hc : cover T (a + i) = some d) (hkey : i = 0 ∨ d.key.toNat = a + i)
    (hl : d.rlock = true) (hans : askBool (.regRlock d) w = .val false w')
    (hcb : d.rmode ≠ .cb) (hn : d.rmode ≠ .none) (h1 : plainRegReadsOn T a i = true)
    (h2 : plainRegReadsOn T (d.key.toNat + nwords d) (a + n - (d.key.toNat + nwords d)) = true)
    (hr : regReadable T a = true) :
    readRegs T n true a n w
      = .val (regWords w T a i ++ regWords w' T (a + i) (n - i)) w' := by
  have hcov := (cover_iff hv).mp hc
  obtain ⟨f', hf', h⟩ := readRegs_prefix w hv n n a i true (Nat.le_refl _) (by omega) h1
    (fun _ e he => by rw [hc] at he; cases he; exact hkey) fun _ _ => hr
  rw [h]
  match f', hf' with
  | 0, hf' => omega
  | f' + 1, hf' =>
    unfold readRegs
    rw [if_neg (by omega), hc]
    simp only [regRead_openWords hv hc hl hans hcb hn, Res.bind]
    have hlen : (regWords w' T (a + i) (min (nwords d - offset d (a + i)) (n - i))).length
        = min (nwords d - offset d (a + i)) (n - i) := by simp [regWords]
    have hpos : 0 < min (nwords d - offset d (a + i)) (n - i) := by simp only [offset]; omega
    rw [hlen]
    generalize hm : min (nwords d - offset d (a + i)) (n - i) = m at hpos ⊢
    have hsplit : n - i = m + (n - i - m) := by omega
    rw [readRegs_plain w' hv (by omega) (by
      by_cases hend : m = n - i
      · rw [hend, Nat.sub_self]
        rfl
      · simp only [offset] at hm
        have e1 : a + i + m = d.key.toNat + nwords d := by omega
        have e2 : n - i - m = a + n - (d.key.toNat + nwords d) := by omega
        rw [e1, e2]
        exact h2) (by simp), hsplit, regWords_add]
    simp [Res.map, Res.bind]

/-- A first address without a readable register (R340, R104). -/
theorem readRegs_unreadable {a n : Nat} (w : World) (hn : 0 < n)
    (h : cover T a = none ∨ ∃ d, cover T a = some d ∧ d.rlock = false ∧ d.rmode = .none) :
    readRegs T n true a n w = .raise .illegalDataAddr w := by
  obtain ⟨n, rfl⟩ : ∃ k, n = k + 1 := ⟨n - 1, by omega⟩
  unfold readRegs
  rcases h with h | ⟨d, h, h1, h2⟩ <;>
    simp_all [regRead, regReadDenied, lockedIf, Res.map, Res.bind]

/-- A first address with a locked register (R121, R340, R104). -/
theorem readRegs_firstLocked {a n : Nat} {w w' : World} {d : RegDesc} (hn : 0 < n)
    (hc : cover T a = some d) (hl : d.rlock = true)
    (hans : askBool (.regRlock d) w = .val true w') :
    readRegs T n true a n w = .raise .illegalDataAddr w' := by
  obtain ⟨n, rfl⟩ : ∃ k, n = k + 1 := ⟨n - 1, by omega⟩
  unfold readRegs
  simp [hc, hl, hans, regRead, regReadDenied, lockedIf, Res.map, Res.bind]

/-! ## Writes -/

/-- What a plain write target is. -/
theorem regTarget_some {a r off : Nat} {ty : RegType} (h : regTarget T a = some (r, off, ty)) :
    ∃ d, cover T a = some d ∧ d.wlock = false ∧ d.postWrite = false ∧ d.wmode = .ptr r
      ∧ off = offset d a ∧ ty = d.type := by
  unfold regTarget at h
  cases hf : cover T a with
  | none => simp [hf] at h
  | some d =>
    simp only [hf] at h
    split at h
    · rename_i hh
      simp only [Bool.and_eq_true, Bool.not_eq_true'] at hh
      cases hm : d.wmode <;> simp only [hm] at h <;> cases h
      exact ⟨d, rfl, hh.1, hh.2, hm, rfl, rfl⟩
    · cases h

/-- The words R100 admits of a register that asks no write lock, at the first address of it that the block of
`n` addresses from `a0` on holds. -/
theorem regWriteAllowed_unlocked {d : RegDesc} {a0 n a blk rem : Nat} {data : List Word} {w : World}
    (hl : asksWriteLock d = false) (hs : a + rem = a0 + n) (ha : a0 ≤ a) (hk : d.key.toNat ≤ a)
    (hentry : a = a0 ∨ d.key.toNat = a) (h0 : rem ≠ 0) :
    regWriteAllowed d a blk rem data w
      = .val (if refusesWrite d a0 n then 0 else min (nwords d - offset d a) rem) w := by
  unfold regWriteAllowed refusesWrite
  have hoff : offset d a = a - d.key.toNat := rfl
  cases hm : d.wmode with
  | none => rfl
  | const v => rfl
  | ptr r =>
    have hl : d.wlock = false := by simpa [asksWriteLock, hm] using hl
    simp only [lockedIf, hl, Res.map, Res.bind, Bool.false_eq_true, if_false, Res.val.injEq, and_true]
    cases d.allowPartialWrite
    · simp only [Bool.not_false, Bool.and_true, Bool.true_and, Bool.or_eq_true, decide_eq_true_eq]
      split <;> rename_i h1
      · rw [if_pos (by omega)]
      · split <;> rename_i h2
        · rw [if_pos (by omega)]
        · rw [if_neg (by omega)]
    · simp
  | cb =>
    have hl : d.wlock = false := by simpa [asksWriteLock, hm] using hl
    simp only [lockedIf, hl, Res.map, Res.bind, Bool.false_eq_true, if_false, Res.val.injEq, and_true]
    cases d.allowPartialWrite
    · simp only [Bool.not_false, Bool.and_true, Bool.true_and, Bool.false_and, decide_eq_true_eq,
        Bool.false_eq_true, if_false]
      split <;> rename_i h1
      · rw [if_pos (by omega)]
      · rw [if_neg (by omega)]
    · simp

/-- A register whose write lock is closed admits no word (R100). -/
theorem regWriteAllowed_locked {d : RegDesc} {a blk rem : Nat} {data : List Word} {w w' : World}
    (hl : asksWriteLock d = true) (hans : askBool (.regWlock d a blk data) w = .val true w') :
    regWriteAllowed d a blk rem data w = .val 0 w' := by
  simp only [asksWriteLock, Bool.and_eq_true] at hl
  unfold regWriteAllowed
  cases hm : d.wmode <;> simp_all [lockedIf, Res.map, Res.bind]

/-- `validate_writes` passes the addresses of a block that may be written with no lock to ask (R348, R105),
up to one where a register begins. -/
theorem validateWrites_prefix (hv : regTableValid T = true) (blk a0 n m : Nat) (w : World)
    (hm : m ≤ n) (ho : openWrites T a0 n m = true)
    (hend : m < n → ∀ d, cover T (a0 + m) = some d → m = 0 ∨ d.key.toNat = a0 + m) :
    ∀ fuel rem a data, rem ≤ fuel → a + rem = a0 + n → a0 ≤ a → a ≤ a0 + m →
      (a < a0 + m → a = a0 ∨ ∀ d, cover T a = some d → d.key.toNat = a) →
      ∃ fuel', n - m ≤ fuel' ∧ validateWrites T blk fuel a rem data w
        = validateWrites T blk fuel' (a0 + m) (n - m) (data.drop (a0 + m - a)) w := by
  simp only [openWrites, unlockedWrites, Bool.and_eq_true] at ho
  have hopen : ∀ b, a0 ≤ b → b < a0 + m →
      ∃ d, cover T b = some d ∧ asksWriteLock d = false ∧ refusesWrite d a0 n = false := by
    intro b h1 h2
    have hb : a0 + (b - a0) = b := by omega
    have hl := List.all_eq_true.mp ho.1 (b - a0) (List.mem_range.mpr (by omega))
    have hu := List.all_eq_true.mp ho.2 (b - a0) (List.mem_range.mpr (by omega))
    rw [hb] at hl hu
    unfold unwritable at hu
    cases hc : cover T b with
    | none => rw [hc] at hu; cases hu
    | some d =>
      rw [hc] at hl hu
      exact ⟨d, rfl, by simpa using hl, by simpa using hu⟩
  intro fuel
  induction fuel with
  | zero =>
    intro rem a data h hs h1 h2 _
    refine ⟨0, by omega, ?_⟩
    obtain rfl : a = a0 + m := by omega
    obtain rfl : rem = n - m := by omega
    simp
  | succ fuel ih =>
    intro rem a data h hs h1 h2 hk
    by_cases hlt : a = a0 + m
    · subst hlt
      obtain rfl : rem = n - m := by omega
      exact ⟨fuel + 1, by omega, by simp⟩
    obtain ⟨d, hc, hl, hu⟩ := hopen a h1 (by omega)
    have hcov := (cover_iff hv).mp hc
    have hoff : offset d a = a - d.key.toNat := rfl
    have hentry : a = a0 ∨ d.key.toNat = a := (hk (by omega)).imp id fun h => h d hc
    have hbound : min (nwords d - offset d a) rem ≤ a0 + m - a := by
      by_contra hlt'
      have hd : cover T (a0 + m) = some d := (cover_iff hv).mpr ⟨hcov.1, by omega, by omega⟩
      rcases hend (by omega) d hd with h0 | h0 <;> omega
    have hnext : a + min (nwords d - offset d a) rem < a0 + m →
        ∀ e, cover T (a + min (nwords d - offset d a) rem) = some e →
          e.key.toNat = a + min (nwords d - offset d a) rem := by
      intro hlt' e he
      have hmin : min (nwords d - offset d a) rem = nwords d - offset d a := by omega
      rw [hmin] at he ⊢
      have he' := (cover_iff hv).mp he
      by_contra hkey
      have hce : cover T (a + (nwords d - offset d a) - 1) = some e :=
        (cover_iff hv).mpr ⟨he'.1, by omega, by omega⟩
      have hcd : cover T (a + (nwords d - offset d a) - 1) = some d :=
        (cover_iff hv).mpr ⟨hcov.1, by omega, by omega⟩
      rw [hce] at hcd
      cases hcd
      omega
    conv =>
      congr
      ext f
      rhs
      lhs
      unfold validateWrites
    rw [if_neg (by omega)]
    simp only [hc]
    rw [regWriteAllowed_unlocked (a0 := a0) (n := n) hl hs h1 hcov.2.1 hentry (by omega), hu]
    simp only [Bool.false_eq_true, if_false, Res.bind]
    generalize hkk : min (nwords d - offset d a) rem = k at hbound hnext
    rw [if_neg (by omega)]
    obtain ⟨f', h3, h4⟩ := ih (rem - k) (a + k) (data.drop k) (by omega) (by omega) (by omega)
      (by omega) fun hlt' => .inr (hnext hlt')
    refine ⟨f', h3, ?_⟩
    have hdrop : k + (a0 + m - (a + k)) = a0 + m - a := by omega
    rw [h4, List.drop_drop, hdrop]

/-- The same from the first address of the block on, for the handlers. -/
theorem validateWrites_start (hv : regTableValid T = true) {blk a n m : Nat} (data : List Word)
    (w : World) (hm : m ≤ n) (ho : openWrites T a n m = true)
    (hend : m < n → ∀ d, cover T (a + m) = some d → m = 0 ∨ d.key.toNat = a + m) :
    ∃ fuel', n - m ≤ fuel' ∧ validateWrites T blk n a n data w
      = validateWrites T blk fuel' (a + m) (n - m) (data.drop m) w := by
  obtain ⟨f', h1, h2⟩ := validateWrites_prefix hv blk a n m w hm ho hend n n a data (Nat.le_refl _) rfl
    (Nat.le_refl _) (by omega) fun _ => .inl rfl
  have hdrop : a + m - a = m := by omega
  rw [hdrop] at h2
  exact ⟨f', h1, h2⟩

/-- `validate_writes` accepts a block that may be written with no lock to ask (R348, R105). -/
theorem validateWrites_open (hv : regTableValid T = true) {blk a n : Nat} (data : List Word)
    (w : World) (ho : openWrites T a n n = true) :
    validateWrites T blk n a n data w = .val () w := by
  obtain ⟨f', -, h⟩ := validateWrites_start hv (blk := blk) data w (Nat.le_refl _) ho
    fun h => absurd h (Nat.lt_irrefl _)
  rw [h, Nat.sub_self]
  cases f' <;> simp [validateWrites]

theorem openWrites_le {a n m i : Nat} (h : openWrites T a n m = true) (hi : i ≤ m) :
    openWrites T a n i = true := by
  simp only [openWrites, unlockedWrites, Bool.and_eq_true, List.all_eq_true, List.mem_range] at h ⊢
  exact ⟨fun k hk => h.1 k (by omega), fun k hk => h.2 k (by omega)⟩

/-- An address that cannot be written stops a block with no lock to ask (R348, R105). -/
theorem validateWrites_unwritable (hv : regTableValid T = true) {blk a n i : Nat} (data : List Word)
    (w : World) (hi : i < n) (hl : unlockedWrites T a (i + 1) = true)
    (hu : unwritable T a n (a + i) = true) :
    validateWrites T blk n a n data w = .raise .illegalDataAddr w := by
  -- the first such address
  induction i using Nat.strongRecOn with
  | _ i ih =>
    by_cases hfirst : ∃ j, j < i ∧ unwritable T a n (a + j) = true
    · obtain ⟨j, hj, huj⟩ := hfirst
      refine ih j hj (by omega) ?_ huj
      simp only [unlockedWrites, List.all_eq_true, List.mem_range] at hl ⊢
      exact fun k hk => hl k (by omega)
    have hw : ∀ j, j < i → unwritable T a n (a + j) = false := fun j hj => by
      cases h : unwritable T a n (a + j)
      · rfl
      · exact absurd ⟨j, hj, h⟩ hfirst
    have ho : openWrites T a n i = true := by
      simp only [openWrites, unlockedWrites, Bool.and_eq_true, List.all_eq_true, List.mem_range]
        at hl ⊢
      exact ⟨fun k hk => hl k (by omega), fun k hk => by simp [hw k hk]⟩
    have hbegin : ∀ d, cover T (a + i) = some d → i = 0 ∨ d.key.toNat = a + i := by
      intro d hd
      rcases Nat.eq_zero_or_pos i with h0 | h0
      · exact .inl h0
      refine .inr ?_
      have hcov := (cover_iff hv).mp hd
      by_contra hne
      have hprev : cover T (a + (i - 1)) = some d :=
        (cover_iff hv).mpr ⟨hcov.1, by omega, by omega⟩
      have h1 := hw (i - 1) (by omega)
      simp only [unwritable, hd, hprev] at hu h1
      rw [hu] at h1
      cases h1
    obtain ⟨f', h1, h2⟩ := validateWrites_start hv (blk := blk) data w (by omega) ho
      fun _ => hbegin
    rw [h2]
    match f', h1 with
    | 0, h1 => omega
    | f' + 1, h1 =>
      unfold validateWrites
      rw [if_neg (by omega)]
      cases hc : cover T (a + i) with
      | none => rfl
      | some d =>
        have hcov := (cover_iff hv).mp hc
        have hld : asksWriteLock d = false := by
          have := List.all_eq_true.mp hl i (List.mem_range.mpr (by omega))
          rw [hc] at this
          simpa using this
        simp only [unwritable, hc] at hu
        simp only
        rw [regWriteAllowed_unlocked (a0 := a) (n := n) hld (by omega) (by omega) hcov.2.1
          ((hbegin d hc).imp (fun h => by omega) id) (by omega), hu]
        simp [Res.bind]

/-- A locked address stops a block: the lock is asked once, about the words from there on (R100, R348). -/
theorem validateWrites_locked (hv : regTableValid T = true) {blk a n i : Nat} {data : List Word}
    {w w' : World} {d : RegDesc} (hi : i < n) (ho : openWrites T a n i = true)
    (hc : cover T (a + i) = some d) (hl : asksWriteLock d = true)
    (hans : askBool (.regWlock d (a + i) blk (data.drop i)) w = .val true w') :
    validateWrites T blk n a n data w = .raise .illegalDataAddr w' := by
  have hcov := (cover_iff hv).mp hc
  obtain ⟨f', h1, h2⟩ := validateWrites_start hv (blk := blk) data w (by omega) ho fun _ e he => by
    rw [hc] at he
    cases he
    rcases Nat.eq_zero_or_pos i with h0 | h0
    · exact .inl h0
    refine .inr ?_
    by_contra hne
    have hprev : cover T (a + (i - 1)) = some d :=
      (cover_iff hv).mpr ⟨hcov.1, by omega, by omega⟩
    simp only [openWrites, unlockedWrites, Bool.and_eq_true] at ho
    have := List.all_eq_true.mp ho.1 (i - 1) (List.mem_range.mpr (by omega))
    rw [hprev] at this
    simp [hl] at this
  rw [h2]
  match f', h1 with
  | 0, h1 => omega
  | f' + 1, h1 =>
    unfold validateWrites
    rw [if_neg (by omega)]
    simp only [hc]
    rw [regWriteAllowed_locked hl hans]
    rfl

/-- Plain targets of a block that cuts no register may be written with no lock to ask. -/
theorem plainRegTargets_open {a n : Nat} (ht : plainRegTargets T a n = true)
    (hw : wholeWrites T a n = true) : openWrites T a n n = true := by
  simp only [openWrites, unlockedWrites, Bool.and_eq_true, List.all_eq_true, List.mem_range]
  have key : ∀ i, i < n → ∃ d r, cover T (a + i) = some d ∧ d.wlock = false ∧ d.wmode = .ptr r
      ∧ (d.allowPartialWrite = true
        ∨ a ≤ d.key.toNat ∧ d.key.toNat + nwords d ≤ a + n) := by
    intro i hi
    obtain ⟨⟨r, off, ty⟩, hx⟩ := Option.isSome_iff_exists.mp
      (List.all_eq_true.mp ht i (List.mem_range.mpr hi))
    obtain ⟨d, h1, h2, -, h4, -, -⟩ := regTarget_some hx
    refine ⟨d, r, h1, h2, h4, ?_⟩
    have := List.all_eq_true.mp hw i (List.mem_range.mpr hi)
    rw [h1] at this
    simpa using this
  refine ⟨fun i hi => ?_, fun i hi => ?_⟩
  · obtain ⟨d, r, h1, h2, -⟩ := key i hi
    simp [h1, asksWriteLock, h2]
  · obtain ⟨d, r, h1, -, h3, h4⟩ := key i hi
    simp only [unwritable, h1, refusesWrite, h3]
    rcases h4 with h4 | h4
    · simp [h4]
    · simp
      omega

theorem storeRegs_append : ∀ (xs ys : List Word) (a : Nat) (m : Memory),
    storeRegs T a (xs ++ ys) m = storeRegs T (a + xs.length) ys (storeRegs T a xs m)
  | [], _, _, _ => rfl
  | x :: xs, ys, a, m => by
    have hl : a + 1 + xs.length = a + (xs.length + 1) := by omega
    simp only [List.cons_append, storeRegs, List.length_cons, storeRegs_append xs ys (a + 1), hl]

/-- The words of one descriptor, stored address by address (R101). -/
theorem storeWords_regs {d : RegDesc} {r : Nat} (hl : d.wlock = false) (hp : d.postWrite = false)
    (hm : d.wmode = .ptr r) : ∀ (xs : List Word) (a : Nat) (m : Memory),
    (∀ i < xs.length, cover T (a + i) = some d) → d.key.toNat ≤ a →
    storeWords d.type r (offset d a) xs m = storeRegs T a xs m
  | [], _, _, _, _ => rfl
  | x :: xs, a, m, hc, ha => by
    have hi : ∀ i, a + 1 + i = a + (i + 1) := fun i => by omega
    have h0 : cover T a = some d := hc 0 (Nat.succ_pos _)
    have ht : regTarget T a = some (r, offset d a, d.type) := by simp [regTarget, h0, hl, hp, hm]
    have hoff : offset d (a + 1) = offset d a + 1 := by
      simp only [offset]
      omega
    simp only [storeWords, storeRegs, storeReg, ht]
    rw [← storeWords_regs hl hp hm xs (a + 1) _ (fun i hlt => by
      rw [hi]; exact hc (i + 1) (Nat.succ_lt_succ hlt)) (by omega), hoff]

/-- `apply_writes` stores the words of plain targets (R349, R106), up to one that is none. -/
theorem applyWrites_prefix (hv : regTableValid T = true) :
    ∀ fuel rem a m data (w : World), rem ≤ fuel → m ≤ rem → data.length = rem →
      plainRegTargets T a m = true →
      (m < rem → ∀ d, cover T (a + m) = some d → m = 0 ∨ d.key.toNat = a + m) →
      ∃ fuel', rem - m ≤ fuel' ∧ applyWrites T fuel a rem data w
        = applyWrites T fuel' (a + m) (rem - m) (data.drop m)
            { w with wordCells := storeRegs T a (data.take m) w.wordCells } := by
  intro fuel
  induction fuel with
  | zero =>
    intro rem a m data w h hm _ _ _
    obtain rfl : rem = 0 := by omega
    obtain rfl : m = 0 := by omega
    exact ⟨0, Nat.le_refl _, rfl⟩
  | succ fuel ih =>
    intro rem a m data w h hm hl ht hk
    rcases Nat.eq_zero_or_pos m with rfl | h0
    · exact ⟨fuel + 1, by omega, by simp [storeRegs]⟩
    have ht' : ∀ i, i < m → (regTarget T (a + i)).isSome = true := by
      simpa [plainRegTargets] using ht
    obtain ⟨⟨r, off, ty⟩, hx⟩ := Option.isSome_iff_exists.mp (ht' 0 h0)
    simp only [Nat.add_zero] at hx
    obtain ⟨d, h1, h2, h3, h4, -, -⟩ := regTarget_some hx
    have hc := (cover_iff hv).mp h1
    have hoff : offset d a = a - d.key.toNat := rfl
    have hle : min (nwords d - offset d a) rem ≤ m := by
      by_contra hlt
      have hd : cover T (a + m) = some d := (cover_iff hv).mpr ⟨hc.1, by omega, by omega⟩
      rcases hk (by omega) d hd with h0 | h0 <;> omega
    have hw : ∀ k, k = min (nwords d - offset d a) rem → regWrite d a rem data w
        = .val (.ok, k) { w with wordCells := storeRegs T a (data.take k) w.wordCells } := by
      rintro k hk
      unfold regWrite
      simp only [← hk, regStore, h4, Res.bind, if_true, notifyIf, h3, Bool.false_eq_true, if_false,
        Res.map]
      rw [storeWords_regs h2 h3 h4 (data.take k) a _ (fun i hi => (cover_iff hv).mpr
        ⟨hc.1, by omega, by rw [List.length_take] at hi; omega⟩) hc.2.1]
    have hpos : 0 < min (nwords d - offset d a) rem := by omega
    conv =>
      congr
      ext f
      rhs
      lhs
      unfold applyWrites
    rw [if_neg (by omega)]
    simp only [h1]
    rw [hw _ rfl]
    generalize min (nwords d - offset d a) rem = k at hpos hle
    have hi : ∀ i, a + k + i = a + (k + i) := fun i => by omega
    simp only [Res.bind, if_true]
    obtain ⟨f', h5, h6⟩ := ih (rem - k) (a + k) (m - k) (data.drop k)
      { w with wordCells := storeRegs T a (data.take k) w.wordCells } (by omega) (by omega)
      (by rw [List.length_drop]; omega)
      (List.all_eq_true.mpr fun i hlt => by
        rw [hi]
        exact ht' (k + i) (by have := List.mem_range.mp hlt; omega))
      (fun hlt e he => by
        have hx : a + k + (m - k) = a + m := by omega
        rw [hx] at he ⊢
        rcases hk (by omega) e he with h7 | h7
        · omega
        · exact .inr h7)
    have hx : a + k + (m - k) = a + m := by omega
    have hy : rem - k - (m - k) = rem - m := by omega
    have hz : k + (m - k) = m := by omega
    rw [hy] at h5
    refine ⟨f', h5, ?_⟩
    have htake : data.take m = data.take k ++ (data.drop k).take (m - k) := by
      conv => lhs; rw [← hz, List.take_add]
    have hlen : (data.take k).length = k := by
      rw [List.length_take]
      omega
    rw [h6, hx, hy, List.drop_drop, hz, htake, storeRegs_append, hlen]

/-- `apply_writes` stores every word of plain targets (R349, R106). -/
theorem applyWrites_plain (hv : regTableValid T = true) {a n : Nat} {data : List Word} (w : World)
    (hl : data.length = n) (ht : plainRegTargets T a n = true) :
    applyWrites T n a n data w
      = .val () { w with wordCells := storeRegs T a data w.wordCells } := by
  obtain ⟨f', -, h⟩ := applyWrites_prefix hv n n a n data w (Nat.le_refl _) (Nat.le_refl _) hl ht
    fun h => absurd h (Nat.lt_irrefl _)
  rw [h, Nat.sub_self, ← hl, List.take_length]
  cases f' <;> simp [applyWrites]

/-- A write callback that fails after plain targets: they stay written, and the loop ends (R349, R106,
R585). -/
theorem applyWrites_aborts (hv : regTableValid T = true) {a n i : Nat} {data : List Word}
    {w w' : World} {d : RegDesc} {e : Status} (hl : data.length = n) (hi : i < n)
    (ht : plainRegTargets T a i = true) (hc : cover T (a + i) = some d) (hm : d.wmode = .cb)
    (he : e ≠ .ok)
    (hans : askStatus (.regWrite d (offset d (a + i)) (min (nwords d - offset d (a + i)) (n - i))
        ((data.drop i).take (min (nwords d - offset d (a + i)) (n - i))))
      { w with wordCells := storeRegs T a (data.take i) w.wordCells } = .val e w') :
    applyWrites T n a n data w = .raise e w' := by
  have hcov := (cover_iff hv).mp hc
  obtain ⟨f', h1, h2⟩ := applyWrites_prefix hv n n a i data w (Nat.le_refl _) (by omega) hl ht
    fun _ x hx => by
      rw [hc] at hx
      cases hx
      rcases Nat.eq_zero_or_pos i with h0 | h0
      · exact .inl h0
      refine .inr ?_
      by_contra hne
      have hprev : cover T (a + (i - 1)) = some d :=
        (cover_iff hv).mpr ⟨hcov.1, by omega, by omega⟩
      obtain ⟨⟨r, off, ty⟩, hx⟩ := Option.isSome_iff_exists.mp
        (List.all_eq_true.mp ht (i - 1) (List.mem_range.mpr (by omega)))
      obtain ⟨d', h3, -, -, h4, -⟩ := regTarget_some hx
      rw [hprev] at h3
      cases h3
      rw [hm] at h4
      cases h4
  rw [h2]
  match f', h1 with
  | 0, h1 => omega
  | f' + 1, h1 =>
    unfold applyWrites
    rw [if_neg (by omega)]
    simp only [hc, regWrite, regStore, hm, hans, Res.bind, he, if_false]

/-- `validate_writes`, `apply_writes` and the commit on plain targets (R348, R349). -/
theorem writeRegs_plain (hv : regTableValid T = true) {c : Bool} {a n : Nat} {data : List Word}
    {w : World} (hl : data.length = n) (ht : plainRegTargets T a n = true)
    (hw : wholeWrites T a n = true) (hh : listens c w = true) :
    writeRegs c T a n data w
      = .val () (notified c .commitRegsWrite
          { w with wordCells := storeRegs T a data w.wordCells }) := by
  unfold writeRegs
  rw [validateWrites_open hv data w (plainRegTargets_open ht hw)]
  simp only [Res.bind]
  rw [applyWrites_plain hv w hl ht]
  exact notifyIf_listens hh

theorem storeReg_wf {a : Nat} {v : Word} {m : Memory} (h : m.wf = true) :
    (storeReg T a v m).wf = true := by
  unfold storeReg
  split
  · exact h
  · exact Memory.wf_writeWord _ _ _ _ h

theorem storeRegs_wf : ∀ (vs : List Word) (a : Nat) (m : Memory), m.wf = true →
    (storeRegs T a vs m).wf = true
  | [], _, _, h => h
  | _ :: vs, a, _, h => storeRegs_wf vs (a + 1) _ (storeReg_wf h)

/-- A word write, byte by byte (R91). -/
theorem Memory.read_writeWord {m : Memory} (h : m.wf = true) (r off b : Nat) (v : Word) :
    (m.writeWord r off v).read b
      = if b = wordAddr r off + 1 then loByte v
        else if b = wordAddr r off then hiByte v else m.read b := by
  unfold Memory.writeWord
  rw [Memory.read_write _ _ _ _ 0 (Memory.wf_write _ _ _ h), Memory.read_write _ _ _ _ 0 h]

/-- A word write, word by word (R91). -/
theorem Memory.readWord_writeWord {m : Memory} (h : m.wf = true) {j j' : Nat} (r r' : Nat) (v : Word)
    (hj : j < 0x10000) (hj' : j' < 0x10000) :
    (m.writeWord r j v).readWord r' j' = if r' = r ∧ j' = j then v else m.readWord r' j' := by
  unfold Memory.readWord
  rw [Memory.read_writeWord h, Memory.read_writeWord h]
  by_cases hh : r' = r ∧ j' = j
  · obtain ⟨rfl, rfl⟩ := hh
    simp
  · have hne := wordAddr_ne r' j' r j hj' hj (by omega)
    rw [if_neg hne.2.2.1, if_neg hne.1, if_neg hne.2.1, if_neg hne.2.2.2, if_neg hh]

theorem regTarget_offset_lt {a r off : Nat} {ty : RegType} (h : regTarget T a = some (r, off, ty))
    (ha : a < 0x10000) : off < 0x10000 := by
  obtain ⟨d, -, -, -, -, rfl, -⟩ := regTarget_some h
  simp only [offset]
  omega

/-- A byte that no store of a block targets stays. -/
theorem storeRegs_out : ∀ (vs : List Word) (a : Nat) (m : Memory), m.wf = true →
    ∀ b, outsideRegs T a vs.length b → (storeRegs T a vs m).read b = m.read b
  | [], _, _, _, _, _ => rfl
  | v :: vs, a, m, h, b, ho => by
    have hi : ∀ k, a + 1 + k = a + (k + 1) := fun k => by omega
    rw [storeRegs, storeRegs_out vs (a + 1) _ (storeReg_wf h) b fun k hlt x hx =>
      ho (k + 1) (Nat.succ_lt_succ hlt) x (by rw [← hi]; exact hx)]
    unfold storeReg
    cases hc : regTarget T a with
    | none => rfl
    | some x =>
      have h0 := ho 0 (Nat.succ_pos _) _ (by simpa using hc)
      simp only
      rw [Memory.read_writeWord h, if_neg h0.2, if_neg h0.1]

/-- A word that no store of a block targets stays. -/
theorem storeRegs_keep : ∀ (vs : List Word) (a : Nat) (m : Memory), m.wf = true →
    a + vs.length ≤ 0x10000 → ∀ r off, off < 0x10000 →
    (∀ k x, k < vs.length → regTarget T (a + k) = some x → (x.1, x.2.1) ≠ (r, off)) →
    (storeRegs T a vs m).readWord r off = m.readWord r off
  | [], _, _, _, _, _, _, _, _ => rfl
  | v :: vs, a, m, h, hle, r, off, ho, hk => by
    rw [List.length_cons] at hle
    have hi : ∀ k, a + 1 + k = a + (k + 1) := fun k => by omega
    rw [storeRegs, storeRegs_keep vs (a + 1) _ (storeReg_wf h) (by omega) r off ho
      fun k x hlt hx => hk (k + 1) x (Nat.succ_lt_succ hlt) (by rw [← hi]; exact hx)]
    unfold storeReg
    cases hc : regTarget T a with
    | none => rfl
    | some x =>
      obtain ⟨r', off', ty⟩ := x
      have h0 := hk 0 _ (Nat.succ_pos _) (by simpa using hc)
      simp only
      rw [Memory.readWord_writeWord h _ _ _ (regTarget_offset_lt hc (by omega)) ho,
        if_neg (by rintro ⟨rfl, rfl⟩; exact h0 rfl)]

/-- A word is as the last store of a block to it left it. -/
theorem storeRegs_last : ∀ (vs : List Word) (a : Nat) (m : Memory), m.wf = true →
    a + vs.length ≤ 0x10000 → ∀ i r off ty, i < vs.length →
    regTarget T (a + i) = some (r, off, ty) →
    (∀ k x, i < k → k < vs.length → regTarget T (a + k) = some x → (x.1, x.2.1) ≠ (r, off)) →
    (storeRegs T a vs m).readWord r off = storedWord ty off (vs.getD i 0)
  | [], _, _, _, _, _, _, _, _, h, _, _ => absurd h (Nat.not_lt_zero _)
  | v :: vs, a, m, h, hle, 0, r, off, ty, _, ht, hk => by
    rw [List.length_cons] at hle
    have hi : ∀ k, a + 1 + k = a + (k + 1) := fun k => by omega
    simp only [Nat.add_zero] at ht
    have ho := regTarget_offset_lt ht (by omega)
    rw [storeRegs, storeRegs_keep vs (a + 1) _ (storeReg_wf h) (by omega) r off ho
      fun k x hlt hx => hk (k + 1) x (Nat.succ_pos _) (Nat.succ_lt_succ hlt)
        (by rw [← hi]; exact hx)]
    simp only [storeReg, ht]
    rw [Memory.readWord_writeWord h _ _ _ ho ho]
    simp
  | v :: vs, a, m, h, hle, i + 1, r, off, ty, hlt, ht, hk => by
    rw [List.length_cons] at hle
    have hi : ∀ k, a + 1 + k = a + (k + 1) := fun k => by omega
    rw [storeRegs, storeRegs_last vs (a + 1) _ (storeReg_wf h) (by omega) i r off ty
      (Nat.lt_of_succ_lt_succ hlt) (by rw [hi]; exact ht) fun k x h1 h2 hx =>
        hk (k + 1) x (Nat.succ_lt_succ h1) (Nat.succ_lt_succ h2) (by rw [← hi]; exact hx)]
    rfl

/-- Word `i` of a request's data (R152). -/
theorem wordsOfBytes_getD : ∀ (l : List Byte) (i : Nat), 2 * i + 1 < l.length →
    (wordsOfBytes l).getD i 0 = be16 (l.getD (2 * i) 0) (l.getD (2 * i + 1) 0)
  | [], _, h => absurd h (Nat.not_lt_zero _)
  | [_], _, h => by simp at h
  | _ :: _ :: _, 0, _ => rfl
  | a :: b :: l, i + 1, h => wordsOfBytes_getD l i (by
      simp only [List.length_cons] at h
      omega)

end Sys2Proof.Machine
end

