-- ==== Sys2Proof/Laws/Files.lean ====
section
/-! SUPPORT. What the passes of FC 0x14 and 0x15 over their sub-requests do, one lemma per pass and outcome
(spec/44_file_record.md R401, R405, R415). -/

namespace Sys2Proof.Machine

variable {ext : Bool} {T : List FileDesc}

/-! ## Headers -/

@[simp] theorem length_headerBytes (h : SubRequest) : (headerBytes h).length = 7 := by
  simp [headerBytes]

theorem takeHeader_bytes (h : SubRequest) (rest : List Byte) :
    takeHeader (headerBytes h ++ rest) = some (h, rest) := by
  simp [takeHeader, headerBytes, be16Bytes]

theorem takeHeader_short {data : List Byte} (h : data.length < 7) : takeHeader data = none := by
  unfold takeHeader
  split
  · simp only [List.length_cons] at h
    omega
  · rfl

theorem length_headers : ∀ subs : List SubRequest,
    (subs.flatMap headerBytes).length = 7 * subs.length
  | [] => rfl
  | h :: subs => by
    simp only [List.flatMap_cons, List.length_append, length_headers subs, length_headerBytes,
      List.length_cons]
    omega

theorem takeHeaders_bytes : ∀ subs : List SubRequest,
    takeHeaders subs.length (subs.flatMap headerBytes) = subs
  | [] => rfl
  | h :: subs => by
    simp only [List.length_cons, List.flatMap_cons, takeHeaders, takeHeader_bytes,
      takeHeaders_bytes subs]

/-- A header R401 accepts. -/
theorem checkSub_ok {h : SubRequest} (hv : headerValid ext T h = true) :
    ∃ F, findFile T h.fileNo = some F ∧ checkSub ext T h = .ok F := by
  simp only [headerValid, Bool.and_eq_true, decide_eq_true_eq, Bool.or_eq_true] at hv
  obtain ⟨⟨⟨⟨⟨h1, h2⟩, h3⟩, h4⟩, h5⟩, h6⟩ := hv
  obtain ⟨F, hF⟩ := Option.isSome_iff_exists.mp h6
  refine ⟨F, hF, ?_⟩
  have hne : h.fileNo ≠ 0 := by
    intro he
    rw [he] at h3
    simp at h3
  have ha : ¬ ((!ext && decide (9999 < h.fileNo.toNat)) = true) := by
    rcases h4 with h4 | h4 <;> simp [h4]
  have hb : ¬ ((!ext && decide (0x270F < h.recNo.toNat)) = true) := by
    rcases h4 with h4 | h4 <;> simp [h4]
  have hr : ¬ (rangeOverflows h.recNo.toNat h.recLen.toNat = true) := by
    simp [rangeOverflows]
    omega
  unfold checkSub
  rw [if_neg (by simp [h1]), if_neg (by omega), if_neg hne, if_neg ha, if_neg hb, if_neg hr, hF]

/-- A header R401 or R402 rejects. -/
theorem checkSub_raises {h : SubRequest} {e : Status} (he : HeaderRaises ext T h e) :
    checkSub ext T h = .error e := by
  have hlen : h.recLen.toNat < 1 ↔ h.recLen = 0x0000 := by
    rw [← BitVec.toNat_inj]
    simp
  have hr : rangeOverflows h.recNo.toNat h.recLen.toNat = true
      ↔ 0x10000 < h.recNo.toNat + h.recLen.toNat := by
    simp [rangeOverflows]
    omega
  unfold checkSub
  simp only [hlen, hr]
  rcases he with ⟨rfl, he⟩ | ⟨rfl, h1, h2, he⟩
  · by_cases h1 : h.refType = 0x06
    · simp [h1, he.resolve_left (fun hx => hx h1)]
    · rw [if_pos h1]
  · simp only [h1, h2, ne_eq, not_true_eq_false, if_false]
    rcases he with he | ⟨hx, he⟩ | he | he
    · simp [he]
    · rcases he with he | he <;> simp [hx, he]
    · simp [he]
    · simp only [he]
      repeat' split
      all_goals rfl

theorem headerRaises_ne_ok {h : SubRequest} {e : Status} (he : HeaderRaises ext T h e) :
    e ≠ .ok := by
  rcases he with ⟨rfl, _⟩ | ⟨rfl, _⟩ <;> decide

theorem recordsOf_eq {h : SubRequest} {F : FileDesc} (hF : findFile T h.fileNo = some F) :
    recordsOf T h = F.records := by
  simp [recordsOf, hF]

theorem records_valid (hv : fileTableValid T = true) {k : Word} {F : FileDesc}
    (hF : findFile T k = some F) : regTableValid F.records = true := by
  simp only [fileTableValid, Bool.and_eq_true] at hv
  exact List.all_eq_true.mp hv.2 F (List.mem_of_find?_eq_some hF)

/-! ## FC 0x14 -/

/-- Pass 1 of FC 0x14 passes valid headers whose answers fit, and goes on with their sum (R405). -/
theorem checkReads_prefix : ∀ (pre : List SubRequest) (rbc : Nat),
    (∀ h ∈ pre, headerValid ext T h = true) → rbc + answerSize pre ≤ 245 →
    ∃ l : List (FileDesc × SubRequest), l.map Prod.snd = pre
      ∧ (∀ x ∈ l, findFile T x.2.fileNo = some x.1)
      ∧ ∀ rest, checkReads ext T rbc (pre ++ rest)
        = (checkReads ext T (rbc + answerSize pre) rest).map fun p => (l ++ p.1, p.2)
  | [], rbc, _, _ => ⟨[], rfl, by simp, fun rest => by
      simp only [List.nil_append, answerSize, List.map_nil, List.sum_nil, Nat.add_zero]
      cases checkReads ext T rbc rest <;> rfl⟩
  | h :: pre, rbc, hv, hs => by
    have hsum : answerSize (h :: pre) = 2 + 2 * h.recLen.toNat + answerSize pre := rfl
    obtain ⟨F, hF, hc⟩ := checkSub_ok (hv h (by simp))
    obtain ⟨l, h1, h2, h3⟩ := checkReads_prefix pre (rbc + 2 + 2 * h.recLen.toNat)
      (fun x hx => hv x (by simp [hx])) (by omega)
    refine ⟨(F, h) :: l, by simp [h1], ?_, fun rest => ?_⟩
    · intro x hx
      rcases List.mem_cons.mp hx with rfl | hx
      · exact hF
      · exact h2 x hx
    · have hr : rbc + answerSize (h :: pre) = rbc + 2 + 2 * h.recLen.toNat + answerSize pre := by
        omega
      rw [List.cons_append, checkReads, hc]
      simp only
      rw [if_neg (by omega), h3 rest, hr]
      cases checkReads ext T (rbc + 2 + 2 * h.recLen.toNat + answerSize pre) rest <;> rfl

/-- A header that R401 rejects stops pass 1 (R405). -/
theorem checkReads_raises {pre post : List SubRequest} {h : SubRequest} {e : Status}
    (hv : ∀ h ∈ pre, headerValid ext T h = true) (hs : answerSize pre ≤ 245)
    (he : HeaderRaises ext T h e) : checkReads ext T 0 (pre ++ h :: post) = .error e := by
  obtain ⟨l, -, -, h3⟩ := checkReads_prefix pre 0 hv (by omega)
  rw [h3, checkReads, checkSub_raises he]
  rfl

/-- Answers that do not fit stop pass 1 (R405). -/
theorem checkReads_tooLong {pre post : List SubRequest} {h : SubRequest}
    (hv : ∀ h ∈ pre, headerValid ext T h = true) (hs : answerSize pre ≤ 245)
    (hh : headerValid ext T h = true) (hl : 245 < answerSize pre + (2 + 2 * h.recLen.toNat)) :
    checkReads ext T 0 (pre ++ h :: post) = .error .illegalDataVal := by
  obtain ⟨l, -, -, h3⟩ := checkReads_prefix pre 0 hv (by omega)
  obtain ⟨F, -, hc⟩ := checkSub_ok hh
  rw [h3, checkReads, hc]
  simp only
  rw [if_pos (by omega)]
  rfl

/-- Pass 1 accepts valid headers whose answers fit (R405). -/
theorem checkReads_plain {subs : List SubRequest} (hv : ∀ h ∈ subs, headerValid ext T h = true)
    (hs : answerSize subs ≤ 245) :
    ∃ l : List (FileDesc × SubRequest), checkReads ext T 0 subs = .ok (l, answerSize subs)
      ∧ l.map Prod.snd = subs ∧ ∀ x ∈ l, findFile T x.2.fileNo = some x.1 := by
  obtain ⟨l, h1, h2, h3⟩ := checkReads_prefix subs 0 hv (by omega)
  refine ⟨l, ?_, h1, h2⟩
  have := h3 []
  rw [List.append_nil] at this
  rw [this]
  simp [checkReads, Except.map]

/-- A sub-request that asks no host software, as pass 2 of FC 0x14 answers it (R405). -/
def subAnswer (w : World) (T : List FileDesc) (h : SubRequest) : List Byte :=
  countByte (1 + 2 * h.recLen.toNat) :: 0x06
    :: bytesOfWords (regWords w (recordsOf T h) h.recNo.toNat h.recLen.toNat)

/-- Pass 2 of FC 0x14 answers sub-requests that ask no host software, and goes on (R104, R405). -/
theorem readSubs_prefix (w : World) (hv : fileTableValid T = true)
    (rest : List (FileDesc × SubRequest)) : ∀ l : List (FileDesc × SubRequest),
    (∀ x ∈ l, findFile T x.2.fileNo = some x.1
      ∧ plainRegReadsOn (recordsOf T x.2) x.2.recNo.toNat x.2.recLen.toNat = true
      ∧ regReadable (recordsOf T x.2) x.2.recNo.toNat = true) →
    readSubs (l ++ rest) w
      = (readSubs rest w).map fun more => (l.map Prod.snd).flatMap (subAnswer w T) ++ more
  | [], _ => by
    simp only [List.nil_append, List.map_nil, List.flatMap_nil]
    cases readSubs rest w <;> rfl
  | (F, h) :: l, hl => by
    obtain ⟨hF, hp, hr⟩ := hl (F, h) (by simp)
    simp only at hF hp hr
    rw [recordsOf_eq hF] at hp hr
    rw [List.cons_append, readSubs, fileRead,
      readRegs_plain w (records_valid hv hF) (Nat.le_refl _) hp fun _ _ => hr]
    simp only [Res.bind]
    rw [readSubs_prefix w hv rest l fun x hx => hl x (by simp [hx])]
    cases readSubs rest w <;> simp [Res.map, Res.bind, subAnswer, recordsOf_eq hF]

/-! ## FC 0x15 -/

theorem length_fileWriteBytes_cons (x : SubRequest × List Word)
    (subs : List (SubRequest × List Word)) :
    (fileWriteBytes (x :: subs)).length = 7 + 2 * x.2.length + (fileWriteBytes subs).length := by
  simp only [fileWriteBytes, List.flatMap_cons, List.length_append, length_headerBytes,
    length_bytesOfWords]

/-- A sub-request of FC 0x15 has at least 9 bytes. -/
theorem length_fileWrite_ge {x : SubRequest × List Word} (h : openFileWrite ext T x = true) :
    9 ≤ (headerBytes x.1 ++ bytesOfWords x.2).length := by
  simp only [openFileWrite, headerValid, Bool.and_eq_true, decide_eq_true_eq] at h
  have h1 := h.1.1.1.1.1.1.2
  have h2 := h.1.2
  simp [length_bytesOfWords, h2]
  omega

/-- Pass 1 of FC 0x15 at a sub-request whose bytes fit (R415). -/
theorem checkFileWrites_next (h : SubRequest) (ws : List Word) (rest : List Byte) (fuel : Nat)
    (w : World) (hl : ws.length = h.recLen.toNat) :
    checkFileWrites ext T (fuel + 1) (headerBytes h ++ (bytesOfWords ws ++ rest)) w
      = match checkSub ext T h with
        | .error e => .raise e w
        | .ok F =>
          (fileWriteAllowed ⟨F, h, ws⟩ w).bind fun _ w =>
            (checkFileWrites ext T fuel rest w).map fun fs => ⟨F, h, ws⟩ :: fs := by
  have hb : (bytesOfWords ws).length = 2 * h.recLen.toNat := by rw [length_bytesOfWords, hl]
  have hth := takeHeader_bytes h (bytesOfWords ws ++ rest)
  obtain ⟨b, bs, hbs⟩ : ∃ b bs, headerBytes h ++ (bytesOfWords ws ++ rest) = b :: bs := ⟨_, _, rfl⟩
  rw [hbs] at hth ⊢
  conv => lhs; unfold checkFileWrites
  rw [hth]
  cases hc : checkSub ext T h <;> simp only
  all_goals
    rw [if_neg (by simp only [List.length_append, hb]; omega), List.take_left' hb,
      List.drop_left' hb, wordsOfBytes_bytesOfWords, hc]

/-- Pass 1 of FC 0x15 passes sub-requests it accepts with no lock to ask (R105, R415). -/
theorem checkFileWrites_prefix (w : World) (hv : fileTableValid T = true) :
    ∀ (pre : List (SubRequest × List Word)) (fuel : Nat) (rest : List Byte),
    (∀ x ∈ pre, openFileWrite ext T x = true) →
    (fileWriteBytes pre).length + rest.length ≤ fuel →
    ∃ fuel', ∃ l : List FileWrite, rest.length ≤ fuel' ∧ l.map (fun f => (f.head, f.data)) = pre
      ∧ (∀ f ∈ l, findFile T f.head.fileNo = some f.file)
      ∧ checkFileWrites ext T fuel (fileWriteBytes pre ++ rest) w
        = (checkFileWrites ext T fuel' rest w).map fun fs => l ++ fs
  | [], fuel, rest, _, hf => ⟨fuel, [], by simpa [fileWriteBytes] using hf, rfl, by simp, by
      simp only [fileWriteBytes, List.flatMap_nil, List.nil_append]
      cases checkFileWrites ext T fuel rest w <;> rfl⟩
  | (h, ws) :: pre, fuel, rest, ho, hf => by
    have hx := ho (h, ws) (by simp)
    rw [length_fileWriteBytes_cons] at hf
    match fuel, hf with
    | 0, hf => omega
    | fuel + 1, hf =>
    obtain ⟨f', l, h1, h2, h3, h4⟩ := checkFileWrites_prefix w hv pre fuel rest
      (fun x hx => ho x (by simp [hx])) (by omega)
    simp only [openFileWrite, Bool.and_eq_true, decide_eq_true_eq] at hx
    obtain ⟨⟨hh, hl⟩, hw⟩ := hx
    obtain ⟨F, hF, hc⟩ := checkSub_ok hh
    rw [recordsOf_eq hF] at hw
    refine ⟨f', ⟨F, h, ws⟩ :: l, h1, by simp [h2], ?_, ?_⟩
    · intro f hf
      rcases List.mem_cons.mp hf with rfl | hf
      · exact hF
      · exact h3 f hf
    · have hcons : fileWriteBytes ((h, ws) :: pre) ++ rest
          = headerBytes h ++ (bytesOfWords ws ++ (fileWriteBytes pre ++ rest)) := by
        simp [fileWriteBytes]
      rw [hcons, checkFileWrites_next _ _ _ _ _ hl, hc]
      simp only [fileWriteAllowed]
      rw [validateWrites_open (records_valid hv hF) ws w hw]
      simp only [Res.bind, h4]
      cases checkFileWrites ext T f' rest w <;> rfl

/-- Pass 1 of FC 0x15 accepts sub-requests with no lock to ask (R105, R415). -/
theorem checkFileWrites_open {subs : List (SubRequest × List Word)} (w : World)
    (hv : fileTableValid T = true) (ho : ∀ x ∈ subs, openFileWrite ext T x = true) :
    ∃ l : List FileWrite, l.map (fun f => (f.head, f.data)) = subs
      ∧ (∀ f ∈ l, findFile T f.head.fileNo = some f.file)
      ∧ checkFileWrites ext T (fileWriteBytes subs).length (fileWriteBytes subs) w = .val l w := by
  obtain ⟨f', l, -, h2, h3, h4⟩ := checkFileWrites_prefix w hv subs _ [] ho (Nat.le_refl _)
  refine ⟨l, h2, h3, ?_⟩
  rw [List.append_nil] at h4
  simp only [List.length_nil, Nat.add_zero] at h4
  rw [h4]
  cases f' <;> simp [checkFileWrites, Res.map, Res.bind]

/-- What stops pass 1 of FC 0x15 at a sub-request after ones it accepts (R415). -/
theorem checkFileWrites_raises {pre : List (SubRequest × List Word)} {rest : List Byte} {e : Status}
    {w w' : World} (hv : fileTableValid T = true) (ho : ∀ x ∈ pre, openFileWrite ext T x = true)
    (hne : rest ≠ [])
    (hr : ∀ fuel, checkFileWrites ext T (fuel + 1) rest w = .raise e w') :
    checkFileWrites ext T (fileWriteBytes pre ++ rest).length (fileWriteBytes pre ++ rest) w
      = .raise e w' := by
  obtain ⟨f', l, h1, -, -, h4⟩ := checkFileWrites_prefix w hv pre
    (fileWriteBytes pre ++ rest).length rest ho (by rw [List.length_append])
  have hpos : 0 < rest.length := List.length_pos_iff.mpr hne
  obtain ⟨n, rfl⟩ : ∃ n, f' = n + 1 := ⟨f' - 1, by omega⟩
  rw [h4, hr]
  rfl

/-- A header that does not fit (R415). -/
theorem checkFileWrites_shortHeader {rest : List Byte} {w : World} (hne : rest ≠ [])
    (hl : rest.length < 7) (fuel : Nat) :
    checkFileWrites ext T (fuel + 1) rest w = .raise .illegalDataVal w := by
  match rest, hne with
  | b :: bs, _ =>
    unfold checkFileWrites
    rw [takeHeader_short hl]

/-- Data that does not fit (R415). -/
theorem checkFileWrites_shortData {h : SubRequest} {rest : List Byte} {w : World}
    (hl : rest.length < 2 * h.recLen.toNat) (fuel : Nat) :
    checkFileWrites ext T (fuel + 1) (headerBytes h ++ rest) w = .raise .illegalDataVal w := by
  have hth := takeHeader_bytes h rest
  obtain ⟨b, bs, hbs⟩ : ∃ b bs, headerBytes h ++ rest = b :: bs := ⟨_, _, rfl⟩
  rw [hbs] at hth ⊢
  unfold checkFileWrites
  rw [hth]
  simp only
  rw [if_pos hl]

/-- A header that R401 rejects, with its data (R415). -/
theorem checkFileWrites_badHeader {h : SubRequest} {rest : List Byte} {w : World} {e : Status}
    (hl : 2 * h.recLen.toNat ≤ rest.length) (he : HeaderRaises ext T h e) (fuel : Nat) :
    checkFileWrites ext T (fuel + 1) (headerBytes h ++ rest) w = .raise e w := by
  have hth := takeHeader_bytes h rest
  obtain ⟨b, bs, hbs⟩ : ∃ b bs, headerBytes h ++ rest = b :: bs := ⟨_, _, rfl⟩
  rw [hbs] at hth ⊢
  unfold checkFileWrites
  rw [hth]
  simp only
  rw [if_neg (by omega), checkSub_raises he]

/-- A target of a sub-request that may not be written, or is locked (R105, R415): `hw` is the outcome of its
pre-validation. -/
theorem checkFileWrites_denied {h : SubRequest} {ws : List Word} {rest : List Byte} {w w' : World}
    {e : Status} (hh : headerValid ext T h = true) (hl : ws.length = h.recLen.toNat)
    (hw : validateWrites (recordsOf T h) h.recNo.toNat h.recLen.toNat h.recNo.toNat h.recLen.toNat
      ws w = .raise e w') (fuel : Nat) :
    checkFileWrites ext T (fuel + 1) (headerBytes h ++ (bytesOfWords ws ++ rest)) w
      = .raise e w' := by
  obtain ⟨F, hF, hc⟩ := checkSub_ok hh
  rw [recordsOf_eq hF] at hw
  rw [checkFileWrites_next _ _ _ _ _ hl, hc]
  simp only [fileWriteAllowed, hw, Res.bind]

/-- Pass 2 of FC 0x15 stores the words of plain targets, and goes on (R106, R415). -/
theorem applyFileWrites_prefix (hv : fileTableValid T = true) (rest : List FileWrite) :
    ∀ (l : List FileWrite) (w : World),
    (∀ f ∈ l, findFile T f.head.fileNo = some f.file ∧ f.data.length = f.head.recLen.toNat
      ∧ plainRegTargets (recordsOf T f.head) f.head.recNo.toNat f.head.recLen.toNat = true) →
    applyFileWrites (l ++ rest) w
      = applyFileWrites rest
          { w with wordCells := storeFiles T (l.map fun f => (f.head, f.data)) w.wordCells }
  | [], _, _ => rfl
  | f :: l, w, hl => by
    obtain ⟨hF, hd, ht⟩ := hl f (by simp)
    rw [recordsOf_eq hF] at ht
    rw [List.cons_append, applyFileWrites, fileWrite,
      applyWrites_plain (records_valid hv hF) w hd ht]
    simp only [Res.bind]
    rw [applyFileWrites_prefix hv rest l _ fun x hx => hl x (by simp [hx])]
    simp [storeFiles, recordsOf_eq hF]

theorem storeFiles_wf : ∀ (subs : List (SubRequest × List Word)) (m : Memory), m.wf = true →
    (storeFiles T subs m).wf = true
  | [], _, h => h
  | _ :: subs, _, h => storeFiles_wf subs _ (storeRegs_wf _ _ _ h)

/-- A byte that no sub-request of FC 0x15 stores to stays. -/
theorem storeFiles_out {b : Nat} : ∀ (subs : List (SubRequest × List Word)) (m : Memory),
    m.wf = true →
    (∀ x ∈ subs, x.2.length = x.1.recLen.toNat
      ∧ outsideRegs (recordsOf T x.1) x.1.recNo.toNat x.1.recLen.toNat b) →
    (storeFiles T subs m).read b = m.read b
  | [], _, _, _ => rfl
  | x :: subs, m, hm, hx => by
    have h0 := hx x (by simp)
    have hcons : storeFiles T (x :: subs) m
        = storeFiles T subs (storeRegs (recordsOf T x.1) x.1.recNo.toNat x.2 m) := rfl
    rw [hcons, storeFiles_out subs _ (storeRegs_wf _ _ _ hm) fun y hy => hx y (by simp [hy])]
    exact storeRegs_out _ _ _ hm b (by rw [h0.1]; exact h0.2)

end Sys2Proof.Machine
end

