-- ==== Sys2Proof/Laws/Framers.lean ====
section
/-! SUPPORT. The integrity codes and the envelopes undo each other, and what the receive pipeline does with a
frame, said once per phase. -/

namespace Sys2Proof.Machine

/-! ## Integrity codes -/

theorem rtuPasses_append (body trailer : List Byte) (h : trailer.length = 2) :
    rtuPasses (body ++ trailer)
      = decide (crc16 body = le16 (trailer.getD 0 0) (trailer.getD 1 0)) := by
  match trailer, h with
  | [x, y], _ =>
    have hl : (body ++ [x, y]).length - 2 = body.length := by simp
    have hl' : (body ++ [x, y]).length - 1 = body.length + 1 := by simp
    simp only [rtuPasses, hl, hl', List.take_left', List.getD_eq_getElem?_getD]
    simp

/-- The encoder's frame is accepted (R205). -/
theorem rtuPasses_rtuFrame (body : List Byte) : rtuPasses (rtuFrame body) = true := by
  unfold rtuFrame
  rw [rtuPasses_append _ _ rfl]
  simp [le16Bytes]

theorem lrcPasses_append (body : List Byte) (x : Byte) :
    lrcPasses (body ++ [x]) = decide (lrc body = x) := by
  simp [lrcPasses]

theorem lrcPasses_lrc (body : List Byte) : lrcPasses (body ++ [lrc body]) = true := by
  simp [lrcPasses_append]

theorem unhexPair_hexByte (b : Byte) :
    unhexPair (hexDigit (b >>> 4)) (hexDigit (b &&& 0x0F)) = some b := by
  revert b; decide +kernel

/-- Decoding an encoded string gives it back (R211, R212). -/
theorem unhexString_hexString (b : List Byte) : unhexString (hexString b) = some b := by
  induction b with
  | nil => rfl
  | cons x b ih =>
    simp only [hexString, hexByte, List.cons_append, List.nil_append, unhexString,
      unhexPair_hexByte, ih]

@[simp] theorem length_hexString (b : List Byte) : (hexString b).length = 2 * b.length := by
  induction b with
  | nil => rfl
  | cons x b ih => simp [hexString, hexByte, ih]; omega

/-! ## The dispatcher's entry -/

variable {s : State} {t : Txn} {p : List Byte}

/-- A request the gate lets in reaches phase EXEC (R263). -/
theorem enterDispatcher_open (hb : s.busy = true) (h1 : 1 ≤ p.length) (h2 : p.length ≤ 253)
    (hg : gateOpen s p = true) : enterDispatcher p t s = .next (dispatched t p s.regs s) := by
  unfold enterDispatcher gate
  simp only
  rw [if_neg (by simp only [Config.pduMax]; omega)]
  rw [if_neg (by
    simp only [gateOpen, Bool.or_eq_true, Bool.not_eq_true'] at hg
    rintro ⟨ha, hb⟩
    rcases hg with hg | hg
    · simp [hg] at ha
    · exact hb hg)]
  unfold enterExec dispatched State.count Registers.count Counters.incMsg
  simp only [hb]

theorem dispatcherReturns_zero (he : t.entry = .pdu ∨ t.addr.isSome = true) :
    dispatcherReturns 0 t s = .next
      (if isBroadcast t then endCommand [] (s.count Counters.incNoResp) else endCommand [] s) := by
  obtain ⟨entry, adu, addr, delim, bin, req, res, wl, status, m, out⟩ := t
  unfold dispatcherReturns transmit
  cases entry <;> cases addr <;> simp_all [isBroadcast] <;> first | rfl | (split <;> rfl)

/-- A request the gate keeps out is logged as 0x60 and not answered (R262). -/
theorem enterDispatcher_closed (h1 : 1 ≤ p.length) (h2 : p.length ≤ 253)
    (hg : gateOpen s p = false) (he : t.entry = .pdu ∨ t.addr.isSome = true) :
    enterDispatcher p t s = .next
      (if isBroadcast t then endCommand [] ((s.log 0x60).count Counters.incNoResp)
       else endCommand [] (s.log 0x60)) := by
  unfold enterDispatcher gate
  simp only
  rw [if_neg (by simp only [Config.pduMax]; omega)]
  rw [if_pos (by
    simp only [gateOpen, Bool.or_eq_false_iff, Bool.not_eq_false'] at hg
    exact ⟨hg.1, by simp [hg.2]⟩)]
  rw [dispatcherReturns_zero (t := { t with req := some p }) he]
  rfl

/-- A command on a state that takes it begins (R62). -/
theorem beginCommand_takes {k : State → Answer} (h : s.takesCommand = true) :
    beginCommand s k = k { s with busy := true } := by
  simp only [State.takesCommand, Bool.and_eq_true, Bool.not_eq_true'] at h
  unfold beginCommand
  rw [if_neg (by simp [h.1]), if_pos h.2]

/-- An accepted address enters the dispatcher behind its receive event; a foreign one is dropped behind it
(R215, R223, R224). -/
theorem filterAddress_eq (a : Byte) :
    filterAddress a p t s
      = if accept s.cfg a then
          enterDispatcher p { t with addr := some a }
            (s.log ((if s.regs.isListenOnly then 0xA0 else 0x80) ||| broadcastBit a))
        else drop (s.log (if s.regs.isListenOnly then 0xA0 else 0x80)) := by
  unfold filterAddress logReceive recvEvent broadcastBit recvBroadcast Config.broadcastAddr
  cases s.regs.isListenOnly <;> by_cases h : a = 0 <;> simp [h]

end Sys2Proof.Machine
end

