-- ==== Sys2Proof/Laws/Host.lean ====
section
/-! SUPPORT. The accessors and the loops over them follow what the host answers: one lemma per relation of
Safety.lean, from the relation to the operation it describes. -/

namespace Sys2Proof.Machine

/-- The result of an operation that answers a value or raises a status. -/
def Res.ofExcept {σ α : Type} (out : Except Status α) (s : σ) : Res σ α :=
  match out with
  | .ok a => .val a s
  | .error e => .raise e s

/-- The result of an operation that raises every status but OK. -/
def Res.ofStatus {σ : Type} (e : Status) (s : σ) : Res σ Unit :=
  if e = .ok then .val () s else .raise e s

theorem Res.ofExcept_map {σ α β : Type} (f : α → β) (out : Except Status α) (s : σ) :
    (Res.ofExcept out s).map f = Res.ofExcept (out.map f) s := by
  cases out <;> rfl

/-! ## Answers -/

theorem statusOfCode_wireCode (e : Status) : statusOfCode (wireCode e) = some e := by
  cases e <;> rfl

theorem askBool_says {c : HostCall} {w w' : World} {b : Bool} (h : SaysBool c w b w') :
    askBool c w = .val b w' := by
  unfold askBool
  rcases h with h | ⟨h, rfl⟩ <;> rw [h]

theorem askByteOrFail_says {c : HostCall} {w w' : World} {x : Option Byte} (h : SaysByte c w x w') :
    askByteOrFail c w = .val x w' := by
  unfold askByteOrFail
  rcases h with h | ⟨h, rfl⟩ <;> rw [h]
  cases x <;> rfl

theorem askWordsOrFail_says {n : Nat} {c : HostCall} {w w' : World} {x : Option (List Word)}
    (h : SaysWords n c w x w') : askWordsOrFail n c w = .val x w' := by
  unfold askWordsOrFail
  rcases h with ⟨h, hn⟩ | ⟨h, rfl⟩ <;> rw [h]
  cases x with
  | none => rfl
  | some ws => simp [hn ws rfl]

theorem askStatus_says {c : HostCall} {w w' : World} {e : Status} (h : SaysStatus c w e w') :
    askStatus c w = .val e w' := by
  unfold askStatus
  rcases h with h | ⟨h, rfl⟩ <;> rw [h]
  simp only [statusOfCode_wireCode]

theorem lockedIf_says {present locked : Bool} {c : HostCall} {w w' : World}
    (h : LockSays present c w locked w') : lockedIf present c w = .val locked w' := by
  unfold LockSays at h
  unfold lockedIf
  cases present
  · obtain ⟨rfl, rfl⟩ : locked = false ∧ w' = w := by simpa using h
    rfl
  · exact askBool_says (by simpa using h)

theorem notifyIf_told {present : Bool} {c : HostCall} {w w' : World} (h : Told present c w w') :
    notifyIf present c w = .val () w' := by
  unfold Told at h
  unfold notifyIf
  cases present
  · obtain rfl : w' = w := by simpa using h
    rfl
  · simp only [if_true] at h ⊢
    unfold askUnit
    rcases h with h | h <;> rw [h]

/-! ## Reads -/

theorem coilRead_says {d : CoilDesc} {w w' : World} {r : CoilRead} (h : CoilSays d w r w') :
    coilRead d w = .val r w' := by
  obtain ⟨locked, w1, hl, h⟩ := h
  simp only [coilRead, lockedIf_says hl, Res.bind]
  cases locked
  · simp only [Bool.false_eq_true, if_false] at h ⊢
    unfold coilReadOpen
    cases hm : d.rmode with
    | none => simp only [hm] at h; obtain ⟨rfl, rfl⟩ := h; rfl
    | const c =>
      simp only [hm] at h
      obtain ⟨rfl, rfl⟩ := h
      by_cases hc : c = 0 <;> simp [hc, CoilRead.ofBool]
    | cell p b =>
      simp only [hm] at h
      obtain ⟨rfl, rfl⟩ := h
      simp only [CoilRead.ofBool]
    | cb =>
      simp only [hm] at h
      obtain ⟨x, hx, rfl⟩ := h
      simp only [askByteOrFail_says hx, Res.map, Res.bind]
      cases x with
      | none => rfl
      | some v => by_cases hv : v = 0 <;> simp [hv, CoilRead.ofBool]
  · simp only [if_true] at h ⊢
    obtain ⟨rfl, rfl⟩ := h
    rfl

/-- The words of a list from an offset on, at most `n` of them. -/
theorem map_getD_range (ws : List Word) (off n : Nat) :
    ((List.range (min (ws.length - off) n)).map fun j => ws.getD (off + j) 0)
      = (ws.drop off).take n := by
  apply List.ext_getElem
  · simp [Nat.min_comm]
  · intro i h1 h2
    simp only [List.length_map, List.length_range] at h1
    have hlt : off + i < ws.length := by omega
    simp [List.getElem_take, List.getElem_drop, hlt]

theorem regRead_says {d : RegDesc} {a n : Nat} {w w' : World} {r : RegRead}
    (h : RegSays d a n w r w') : regRead d a n w = .val r w' := by
  obtain ⟨locked, w1, hl, h⟩ := h
  simp only [regRead, regReadDenied, lockedIf_says hl, Res.map, Res.bind, offset]
  cases locked
  · simp only [Bool.false_eq_true, if_false] at h ⊢
    unfold regEmit
    cases hm : d.rmode with
    | none => simp only [hm] at h; obtain ⟨rfl, rfl⟩ := h; rfl
    | const c =>
      simp only [hm] at h
      obtain ⟨rfl, rfl⟩ := h
      rfl
    | ptr p =>
      simp only [hm] at h
      obtain ⟨rfl, rfl⟩ := h
      rfl
    | cb =>
      simp only [hm] at h
      obtain ⟨x, hx, rfl⟩ := h
      simp only [askWordsOrFail_says hx, reduceCtorEq, if_false, Res.map, Res.bind]
      cases x with
      | none => rfl
      | some ws =>
        have hlen : ws.length = nwords d := by
          rcases hx with ⟨-, hx⟩ | ⟨-, hx⟩
          · exact hx ws rfl
          · split at hx
            · cases hx
            · rw [Option.some.inj hx]; simp
        simp only [← hlen, map_getD_range]
  · simp only [if_true] at h ⊢
    obtain ⟨rfl, rfl⟩ := h
    rfl

/-- `read_bits` follows the host's answers (R300). -/
theorem readBits_follows {T : List CoilDesc} {addr : Nat} {first : Bool} {a n : Nat} {w w' : World}
    {out : Except Status (List Bool)} (h : CoilsRead T first a n w out w') :
    ∀ i, a = addr + i → first = decide (i = 0) → readBits T addr i n w = .ofExcept out w' := by
  induction h with
  | done => intro i _ _; rfl
  | @bit first v a n d w w1 w' out hf hs _ ih =>
    rintro i rfl -
    unfold readBits
    rw [hf]
    simp only [coilRead_says hs, Res.bind]
    rw [← Res.ofExcept_map, ← ih (i + 1) rfl (by simp)]
    cases v <;> rfl
  | fails hf hs =>
    rintro i rfl -
    unfold readBits
    rw [hf]
    simp only [coilRead_says hs, Res.bind]
    rfl
  | denied hd =>
    rintro i rfl hi
    have h0 : i = 0 := by simpa using hi.symm
    unfold readBits
    rcases hd with ⟨hf, rfl⟩ | ⟨d, hf, hd | hd⟩ <;> rw [hf]
    · simp only [Res.bind, h0, if_true, Res.ofExcept]
    · simp only [coilRead_says hd, Res.bind, h0, if_true, Res.ofExcept]
    · simp only [coilRead_says hd, Res.bind, h0, if_true, Res.ofExcept]
  | zero hd _ ih =>
    rintro i rfl hi
    have h0 : i ≠ 0 := by simpa using hi.symm
    rw [← Res.ofExcept_map, ← ih (i + 1) rfl (by simp)]
    conv => lhs; unfold readBits
    rcases hd with ⟨hf, rfl⟩ | ⟨d, hf, hd | hd⟩ <;> rw [hf]
    · simp only [Res.bind, h0, if_false]
    · simp only [coilRead_says hd, Res.bind, h0, if_false]
    · simp only [coilRead_says hd, Res.bind, h0, if_false]

theorem cover_covers {T : List RegDesc} {a : Nat} {d : RegDesc} (h : cover T a = some d) :
    d.key.toNat ≤ a ∧ a < d.key.toNat + nwords d := by
  have := List.find?_some h
  simpa [covers] using this

/-- A register read gives at least one word (R95). -/
theorem regSays_words {d : RegDesc} {a n : Nat} {w w' : World} {ws : List Word}
    (h : RegSays d a n w (.words ws) w') : ws.length = min (nwords d - (a - d.key.toNat)) n := by
  obtain ⟨locked, w1, -, h⟩ := h
  cases locked
  · simp only [Bool.false_eq_true, if_false] at h
    cases hm : d.rmode with
    | none => simp [hm] at h
    | const c => simp only [hm, RegRead.words.injEq] at h; simp [h.1]
    | ptr p => simp only [hm, RegRead.words.injEq] at h; simp [h.1]
    | cb =>
      simp only [hm] at h
      obtain ⟨x, hx, h⟩ := h
      cases x with
      | none => cases h
      | some vs =>
        have hlen : vs.length = nwords d := by
          rcases hx with ⟨-, hx⟩ | ⟨-, hx⟩
          · exact hx vs rfl
          · split at hx
            · cases hx
            · rw [Option.some.inj hx]; simp
        simp only [RegRead.words.injEq] at h
        simp [h, hlen, Nat.min_comm]
  · simp at h

/-- `read_regs` and `file_read` follow the host's answers (R104, R340). -/
theorem readRegs_follows {T : List RegDesc} {first : Bool} {a n : Nat} {w w' : World}
    {out : Except Status (List Word)} (h : RegsRead T first a n w out w') :
    ∀ fuel, n ≤ fuel → readRegs T fuel first a n w = .ofExcept out w' := by
  induction h with
  | done => intro fuel _; cases fuel <;> simp [readRegs, Res.ofExcept]
  | words hn hf hs _ ih =>
    intro fuel hle
    obtain ⟨fuel, rfl⟩ : ∃ k, fuel = k + 1 := ⟨fuel - 1, by omega⟩
    have hlen := regSays_words hs
    have hcov := cover_covers hf
    unfold readRegs
    rw [if_neg (by omega), hf]
    simp only [regRead_says hs, Res.bind]
    rw [ih fuel (by omega), Res.ofExcept_map]
  | fails hn hf hs =>
    intro fuel hle
    obtain ⟨fuel, rfl⟩ : ∃ k, fuel = k + 1 := ⟨fuel - 1, by omega⟩
    unfold readRegs
    rw [if_neg (by omega), hf]
    simp only [regRead_says hs, Res.bind]
    rfl
  | denied hn hd =>
    intro fuel hle
    obtain ⟨fuel, rfl⟩ : ∃ k, fuel = k + 1 := ⟨fuel - 1, by omega⟩
    unfold readRegs
    rw [if_neg (by omega)]
    rcases hd with ⟨hf, rfl⟩ | ⟨d, hf, hd | hd⟩ <;> rw [hf]
    · simp only [Res.bind, if_true, Res.ofExcept]
    · simp only [regRead_says hd, Res.bind, if_true, Res.ofExcept]
    · simp only [regRead_says hd, Res.bind, if_true, Res.ofExcept]
  | zero hn hd _ ih =>
    intro fuel hle
    obtain ⟨fuel, rfl⟩ : ∃ k, fuel = k + 1 := ⟨fuel - 1, by omega⟩
    rw [← Res.ofExcept_map, ← ih fuel (by omega)]
    conv => lhs; unfold readRegs
    rw [if_neg (by omega)]
    rcases hd with ⟨hf, rfl⟩ | ⟨d, hf, hd | hd⟩ <;> rw [hf]
    · simp only [Res.bind, Bool.false_eq_true, if_false]
    · simp only [regRead_says hd, Res.bind, Bool.false_eq_true, if_false]
    · simp only [regRead_says hd, Res.bind, Bool.false_eq_true, if_false]

/-- Pass 2 of FC 0x14 follows the host's answers (R405). -/
theorem readSubs_follows {T : List FileDesc} {subs : List SubRequest} {w w' : World}
    {out : Except Status (List Byte)} (h : FilesRead T subs w out w') :
    ∀ l : List (FileDesc × SubRequest), l.map Prod.snd = subs →
      (∀ x ∈ l, findFile T x.2.fileNo = some x.1) → readSubs l w = .ofExcept out w' := by
  induction h with
  | done =>
    intro l hl _
    obtain rfl := List.map_eq_nil_iff.mp hl
    rfl
  | next hr _ ih =>
    intro l hl hF
    obtain ⟨⟨F, h'⟩, l, rfl, rfl, hm⟩ := List.map_eq_cons_iff.mp hl
    have hF0 := hF (F, h') (by simp)
    simp only at hF0 hr ⊢
    rw [recordsOf_eq hF0] at hr
    simp only [readSubs, fileRead, readRegs_follows hr _ (Nat.le_refl _), Res.ofExcept, Res.bind]
    rw [ih l hm fun x hx => hF x (by simp [hx]), Res.ofExcept_map]
    rfl
  | fails hr =>
    intro l hl hF
    obtain ⟨⟨F, h'⟩, l, rfl, rfl, hm⟩ := List.map_eq_cons_iff.mp hl
    have hF0 := hF (F, h') (by simp)
    simp only at hF0 hr ⊢
    rw [recordsOf_eq hF0] at hr
    simp only [readSubs, fileRead, readRegs_follows hr _ (Nat.le_refl _), Res.ofExcept, Res.bind]

/-! ## Writes -/

/-- Whether a pre-validation passes. -/
def Res.ofAdmitted {σ : Type} (ok : Bool) (s : σ) : Res σ Unit :=
  if ok then .val () s else .raise .illegalDataAddr s

theorem validateCoils_follows {T : List CoilDesc} {a n : Nat} {w w' : World} {ok : Bool}
    (h : CoilsAdmitted T a n w ok w') : validateCoils T a n w = .ofAdmitted ok w' := by
  induction h with
  | done => rfl
  | missing hf => unfold validateCoils; rw [hf]; rfl
  | locked hf hl =>
    unfold validateCoils
    simp [hf, coilWriteAllowed, lockedIf_says hl, Res.map, Res.bind, Res.ofAdmitted]
  | next hf hl _ ih =>
    unfold validateCoils
    simp [hf, coilWriteAllowed, lockedIf_says hl, Res.map, Res.bind, ih]

theorem coilWrite_says {d : CoilDesc} {v : Bool} {w w' : World} {e : Status}
    (h : CoilWrites d v w e w') : coilWrite d v w = .val e w' := by
  unfold CoilWrites at h
  unfold coilWrite coilStore
  cases hm : d.wmode with
  | none => simp only [hm] at h; obtain ⟨rfl, rfl⟩ := h; rfl
  | cell p b =>
    simp only [hm] at h ⊢
    by_cases hb : 7 < b
    · simp only [hb, if_true] at h ⊢
      obtain ⟨rfl, rfl⟩ := h
      rfl
    · simp only [hb, if_false] at h ⊢
      obtain ⟨rfl, h⟩ := h
      simp [Res.bind, Res.map, notifyIf_told h]
  | cb =>
    simp only [hm] at h ⊢
    obtain ⟨w1, hs, h⟩ := h
    simp only [askStatus_says hs, Res.bind]
    by_cases he : e = .ok
    · simp only [he, if_true] at h ⊢
      simp [Res.bind, Res.map, notifyIf_told h]
    · simp only [he, if_false] at h ⊢
      rw [h]

theorem writeCoils_follows {T : List CoilDesc} {addr : Nat} {data : List Byte} {a : Nat}
    {bits : List Bool} {w w' : World} {e : Status} (h : CoilsWritten T a bits w e w') :
    ∀ i n, a = addr + i → bits = (List.range n).map (fun k => packedBit data (i + k)) →
      writeCoils T addr data i n w = .ofStatus e w' := by
  have hcons : ∀ {v : Bool} {vs : List Bool} {i n : Nat},
      v :: vs = (List.range n).map (fun k => packedBit data (i + k)) →
      ∃ m, n = m + 1 ∧ v = packedBit data i
        ∧ vs = (List.range m).map (fun k => packedBit data (i + 1 + k)) := by
    intro v vs i n hb
    match n, hb with
    | 0, hb => cases hb
    | m + 1, hb =>
      rw [List.range_succ_eq_map, List.map_cons, List.map_map] at hb
      obtain ⟨h1, h2⟩ := List.cons.inj hb
      refine ⟨m, rfl, h1, h2.trans (List.map_congr_left fun k _ => ?_)⟩
      have hk : i + (k + 1) = i + 1 + k := by omega
      exact congrArg _ hk
  induction h with
  | done =>
    rintro i n rfl hb
    have : n = 0 := by simpa using congrArg List.length hb.symm
    subst this
    rfl
  | fails hf hw he =>
    rintro i n rfl hb
    obtain ⟨m, rfl, rfl, -⟩ := hcons hb
    unfold writeCoils
    simp [hf, coilWrite_says hw, Res.bind, he, Res.ofStatus]
  | next hf hw _ ih =>
    rintro i n rfl hb
    obtain ⟨m, rfl, rfl, hv⟩ := hcons hb
    unfold writeCoils
    simp only [hf, coilWrite_says hw, Res.bind, if_true]
    exact ih (i + 1) m (by omega) hv

theorem regWriteAllowed_says {d : RegDesc} {a blk rem k : Nat} {data : List Word} {w w' : World}
    (h : RegAdmits d a blk rem data w k w') : regWriteAllowed d a blk rem data w = .val k w' := by
  unfold RegAdmits at h
  unfold regWriteAllowed
  have key : ∀ (locked typed : Bool) (k : Nat),
      k = (if locked = true ∨ d.allowPartialWrite = false
            ∧ (d.key.toNat < a ∨ typed = true ∧ rem < nwords d - (a - d.key.toNat)) then 0
          else min (nwords d - (a - d.key.toNat)) rem) →
      (if locked = true then 0
        else if (decide (0 < offset d a) && !d.allowPartialWrite) = true then 0
        else if (typed && decide (min (nwords d - offset d a) rem < nwords d - offset d a)
          && !d.allowPartialWrite) = true then 0
        else min (nwords d - offset d a) rem) = k := by
    rintro locked typed k rfl
    simp only [offset]
    have h1 : 0 < a - d.key.toNat ↔ d.key.toNat < a := by omega
    have h2 : min (nwords d - (a - d.key.toNat)) rem < nwords d - (a - d.key.toNat)
        ↔ rem < nwords d - (a - d.key.toNat) := by omega
    simp only [h1, h2]
    cases locked <;> cases typed <;> cases d.allowPartialWrite <;> simp
    by_cases h3 : d.key.toNat < a <;> simp [h3]
  cases hm : d.wmode with
  | none => simp only [hm] at h; obtain ⟨rfl, rfl⟩ := h; rfl
  | const c => simp only [hm] at h; obtain ⟨rfl, rfl⟩ := h; rfl
  | ptr p =>
    simp only [hm] at h ⊢
    obtain ⟨locked, hl, h⟩ := h
    simp only [lockedIf_says hl, Res.map, Res.bind]
    congr 1
    exact key locked true k (by simpa using h)
  | cb =>
    simp only [hm] at h ⊢
    obtain ⟨locked, hl, h⟩ := h
    simp only [lockedIf_says hl, Res.map, Res.bind]
    congr 1
    exact key locked false k (by simpa using h)

theorem validateWrites_follows {T : List RegDesc} {blk a : Nat} {data : List Word} {w w' : World}
    {ok : Bool} (h : RegsAdmitted T blk a data w ok w') :
    ∀ fuel n, n = data.length → n ≤ fuel →
      validateWrites T blk fuel a n data w = .ofAdmitted ok w' := by
  have hpos : ∀ {l : List Word}, l ≠ [] → 0 < l.length := fun h => List.length_pos_iff.mpr h
  induction h with
  | done =>
    rintro fuel n rfl -
    cases fuel <;> simp [validateWrites, Res.ofAdmitted]
  | missing hne hf =>
    rintro fuel n rfl hle
    have := hpos hne
    obtain ⟨fuel, rfl⟩ : ∃ k, fuel = k + 1 := ⟨fuel - 1, by omega⟩
    unfold validateWrites
    rw [if_neg (by omega), hf]
    rfl
  | denied hne hf hd =>
    rintro fuel n rfl hle
    have := hpos hne
    obtain ⟨fuel, rfl⟩ : ∃ k, fuel = k + 1 := ⟨fuel - 1, by omega⟩
    unfold validateWrites
    rw [if_neg (by omega), hf]
    simp only [regWriteAllowed_says hd, Res.bind]
    rfl
  | next hne hf hd hk _ ih =>
    rintro fuel n rfl hle
    have := hpos hne
    obtain ⟨fuel, rfl⟩ : ∃ k, fuel = k + 1 := ⟨fuel - 1, by omega⟩
    unfold validateWrites
    rw [if_neg (by omega), hf]
    simp only [regWriteAllowed_says hd, Res.bind]
    rw [if_neg (by omega)]
    exact ih fuel _ (by simp) (by omega)

theorem regStore_says {d : RegDesc} {a rem : Nat} {data : List Word} {w w' : World} {e : Status}
    (hr : min (nwords d - (a - d.key.toNat)) rem ≤ data.length)
    (h : RegWrites d (a - d.key.toNat) (data.take (min (nwords d - (a - d.key.toNat)) rem)) w e w') :
    regWrite d a rem data w = .val (e, min (nwords d - (a - d.key.toNat)) rem) w' := by
  unfold RegWrites at h
  unfold regWrite regStore
  simp only [offset]
  cases hm : d.wmode with
  | none => simp [hm] at h
  | const c => simp [hm] at h
  | ptr p =>
    simp only [hm] at h ⊢
    obtain ⟨rfl, h⟩ := h
    simp [Res.bind, Res.map, notifyIf_told h]
  | cb =>
    simp only [hm] at h ⊢
    obtain ⟨w1, hs, h⟩ := h
    rw [List.length_take, Nat.min_eq_left hr] at hs
    simp only [askStatus_says hs, Res.bind]
    by_cases he : e = .ok
    · simp only [he, if_true] at h ⊢
      simp [Res.bind, Res.map, notifyIf_told h]
    · simp only [he, if_false] at h ⊢
      rw [h]

theorem applyWrites_follows {T : List RegDesc} {a : Nat} {data : List Word} {w w' : World}
    {e : Status} (h : RegsWritten T a data w e w') :
    ∀ fuel n, n = data.length → n ≤ fuel → applyWrites T fuel a n data w = .ofStatus e w' := by
  have hpos : ∀ {l : List Word}, l ≠ [] → 0 < l.length := fun h => List.length_pos_iff.mpr h
  induction h with
  | done =>
    rintro fuel n rfl -
    cases fuel <;> simp [applyWrites, Res.ofStatus]
  | fails hne hf hk hw he =>
    rintro fuel n rfl hle
    have := hpos hne
    obtain ⟨fuel, rfl⟩ : ∃ k, fuel = k + 1 := ⟨fuel - 1, by omega⟩
    subst hk
    unfold applyWrites
    rw [if_neg (by omega), hf]
    simp only [regStore_says (Nat.min_le_right _ _) hw, Res.bind, he, if_false, Res.ofStatus]
  | next hne hf hk hw _ ih =>
    rintro fuel n rfl hle
    have := hpos hne
    have hcov := cover_covers hf
    obtain ⟨fuel, rfl⟩ : ∃ k, fuel = k + 1 := ⟨fuel - 1, by omega⟩
    subst hk
    unfold applyWrites
    rw [if_neg (by omega), hf]
    simp only [regStore_says (Nat.min_le_right _ _) hw, Res.bind, if_true]
    exact ih fuel _ (by simp) (by omega)

/-- `validate_writes`, `apply_writes` and the commit (R348, R349). -/
theorem writeRegs_follows {commit : Bool} {T : List RegDesc} {a n : Nat} {data : List Word}
    {w w' : World} {e : Status} (hn : n = data.length) (h : RegsEnd commit T a data w e w') :
    writeRegs commit T a n data w = .ofStatus e w' := by
  unfold writeRegs
  rcases h with ⟨rfl, h⟩ | ⟨w1, w2, h1, h2, h3⟩
  · rw [validateWrites_follows h n n hn (Nat.le_refl _)]
    rfl
  · rw [validateWrites_follows h1 n n hn (Nat.le_refl _)]
    simp only [Res.ofAdmitted, if_true, Res.bind]
    rw [applyWrites_follows h2 n n hn (Nat.le_refl _)]
    unfold Res.ofStatus
    by_cases he : e = .ok
    · simp only [he, if_true] at h3 ⊢
      exact notifyIf_told h3
    · simp only [he, if_false] at h3 ⊢
      rw [h3]

/-- FC 0x06 is a write of one word with its pre-validation and its commit (R348, R349, R350). -/
theorem writeRegHandler_eq (commit : Bool) (f : AddrValue) (T : List RegDesc) (w : World) :
    writeRegHandler commit (.fields f) T w
      = (writeRegs commit T f.addr.toNat 1 [f.value] w).map fun _ => 0x06 :: encodeAddrValue f := by
  unfold writeRegHandler writeRegs
  simp only [validateWrites, applyWrites, Nat.one_ne_zero, if_false]
  cases cover T f.addr.toNat with
  | none => rfl
  | some d =>
    simp only
    cases regWriteAllowed d f.addr.toNat f.addr.toNat 1 [f.value] w with
    | raise e w => rfl
    | stop x => rfl
    | val k w =>
      simp only [Res.bind]
      by_cases hk : k = 0
      · simp [hk, Res.map, Res.bind]
      · simp only [hk, if_false]
        cases regWrite d f.addr.toNat 1 [f.value] w with
        | raise e w => rfl
        | stop x => rfl
        | val sk w => by_cases hs : sk.1 = .ok <;> simp [hs, Res.map, Res.bind]

/-- Pass 1 of FC 0x15 follows the host's answers (R415). -/
theorem checkFileWrites_follows {ext : Bool} {T : List FileDesc}
    {subs : List (SubRequest × List Word)} {w w' : World} {ok : Bool}
    (h : FilesAdmitted T subs w ok w') :
    (∀ x ∈ subs, headerValid ext T x.1 = true ∧ x.2.length = x.1.recLen.toNat) →
    ∀ fuel, (fileWriteBytes subs).length ≤ fuel →
      ∃ l : List FileWrite, l.map (fun f => (f.head, f.data)) = subs
        ∧ (∀ f ∈ l, findFile T f.head.fileNo = some f.file)
        ∧ checkFileWrites ext T fuel (fileWriteBytes subs) w
          = (Res.ofAdmitted ok w').map fun _ => l := by
  have hcons : ∀ (h : SubRequest) (ws : List Word) subs, fileWriteBytes ((h, ws) :: subs)
      = headerBytes h ++ (bytesOfWords ws ++ fileWriteBytes subs) := by
    intro h ws subs
    simp [fileWriteBytes]
  have hall : ∀ subs : List (SubRequest × List Word),
      (∀ x ∈ subs, headerValid ext T x.1 = true ∧ x.2.length = x.1.recLen.toNat) →
      ∃ l : List FileWrite, l.map (fun f => (f.head, f.data)) = subs
        ∧ ∀ f ∈ l, findFile T f.head.fileNo = some f.file := by
    intro subs
    induction subs with
    | nil => intro _; exact ⟨[], rfl, by simp⟩
    | cons x subs ih =>
      intro hv
      obtain ⟨l, h1, h2⟩ := ih fun y hy => hv y (by simp [hy])
      obtain ⟨F, hF, -⟩ := checkSub_ok (hv x (by simp)).1
      exact ⟨⟨F, x.1, x.2⟩ :: l, by simp [h1], by simpa [hF] using h2⟩
  induction h with
  | done =>
    intro _ fuel _
    refine ⟨[], rfl, by simp, ?_⟩
    cases fuel <;> rfl
  | @denied x subs w w' hd =>
    intro hv fuel hle
    obtain ⟨l, h1, h2⟩ := hall (x :: subs) hv
    refine ⟨l, h1, h2, ?_⟩
    obtain ⟨h, ws⟩ := x
    obtain ⟨hh, hl⟩ := hv (h, ws) (by simp)
    rw [length_fileWriteBytes_cons] at hle
    obtain ⟨fuel, rfl⟩ : ∃ k, fuel = k + 1 := ⟨fuel - 1, by omega⟩
    rw [hcons, checkFileWrites_denied hh hl (w' := w') (e := .illegalDataAddr)
      (validateWrites_follows hd _ _ hl.symm (Nat.le_refl _))]
    rfl
  | @next x subs ok w w1 w' hd _ ih =>
    intro hv fuel hle
    obtain ⟨h, ws⟩ := x
    obtain ⟨hh, hl⟩ := hv (h, ws) (by simp)
    rw [length_fileWriteBytes_cons] at hle
    obtain ⟨fuel, rfl⟩ : ∃ k, fuel = k + 1 := ⟨fuel - 1, by omega⟩
    obtain ⟨l, h1, h2, h3⟩ := ih (fun y hy => hv y (by simp [hy])) fuel (by omega)
    obtain ⟨F, hF, hc⟩ := checkSub_ok hh
    simp only at hd hl
    rw [recordsOf_eq hF] at hd
    refine ⟨⟨F, h, ws⟩ :: l, by simp [h1], by simpa [hF] using h2, ?_⟩
    rw [hcons, checkFileWrites_next _ _ _ _ _ hl, hc]
    simp only [fileWriteAllowed, validateWrites_follows hd _ _ hl.symm (Nat.le_refl _),
      Res.ofAdmitted, if_true, Res.bind, h3]
    cases ok <;> rfl

/-- Pass 2 of FC 0x15 follows the host's answers (R415). -/
theorem applyFileWrites_follows {T : List FileDesc} {subs : List (SubRequest × List Word)}
    {w w' : World} {e : Status} (h : FilesWritten T subs w e w') :
    (∀ x ∈ subs, x.2.length = x.1.recLen.toNat) →
    ∀ l : List FileWrite, l.map (fun f => (f.head, f.data)) = subs →
      (∀ f ∈ l, findFile T f.head.fileNo = some f.file) →
      applyFileWrites l w = .ofStatus e w' := by
  induction h with
  | done =>
    intro _ l hl _
    obtain rfl := List.map_eq_nil_iff.mp hl
    rfl
  | fails hw he =>
    intro hlen l hl hF
    obtain ⟨f, l, rfl, rfl, hm⟩ := List.map_eq_cons_iff.mp hl
    have hl0 := hlen (f.head, f.data) (by simp)
    simp only at hl0 hw
    rw [recordsOf_eq (hF f (by simp))] at hw
    simp only [applyFileWrites, fileWrite,
      applyWrites_follows hw _ _ hl0.symm (Nat.le_refl _), Res.ofStatus, he, if_false, Res.bind]
  | next hw _ ih =>
    intro hlen l hl hF
    obtain ⟨f, l, rfl, rfl, hm⟩ := List.map_eq_cons_iff.mp hl
    have hl0 := hlen (f.head, f.data) (by simp)
    simp only at hl0 hw
    rw [recordsOf_eq (hF f (by simp))] at hw
    simp only [applyFileWrites, fileWrite,
      applyWrites_follows hw _ _ hl0.symm (Nat.le_refl _), Res.ofStatus, if_true, Res.bind]
    exact ih (fun x hx => hlen x (by simp [hx])) l hm fun x hx => hF x (by simp [hx])

/-! ## Requests -/

/-- A function code whose table is present, when its handler reads. -/
theorem runFunction_table_answered {α β : Type} {s : State} {t : Txn} {wl : Bool} {fc : Byte}
    {table : Option (List β)} {T : List β} {req : List Byte}
    {g : List β → World → Res World (List Byte)} {res : List α → List Byte}
    {out : Except Status (List α)} {w : World} (hs : AtHandler s t wl) (hT : table = some T)
    (hg : g T s.world = (Res.ofExcept out w).map res) (hn : ∀ xs, res xs ≠ [])
    (he : out ≠ .error .ok) :
    runFunction fc (withTable table req g) s
      = .next (answered fc t wl res out { s with world := w }) := by
  cases out with
  | ok xs => exact runFunction_table_val hs hT hg (hn xs)
  | error e => exact runFunction_table_raise hs hT hg fun h => he (by rw [h])

/-- A function code whose table is present, when a status decides its handler. -/
theorem runFunction_table_ended {β : Type} {s : State} {t : Txn} {wl : Bool} {fc : Byte}
    {table : Option (List β)} {T : List β} {req : List Byte}
    {g : List β → World → Res World (List Byte)} {res : List Byte} {e : Status} {w : World}
    (hs : AtHandler s t wl) (hT : table = some T)
    (hg : g T s.world = (Res.ofStatus e w).map fun _ => res) (hn : res ≠ []) :
    runFunction fc (withTable table req g) s
      = .next (ended fc t wl res e { s with world := w }) := by
  unfold ended
  unfold Res.ofStatus at hg
  split at hg
  · rename_i he
    rw [if_pos he]
    exact runFunction_table_val hs hT hg hn
  · rename_i he
    rw [if_neg he]
    exact runFunction_table_raise hs hT hg he

theorem coilsRead_ne_ok {T : List CoilDesc} {first : Bool} {a n : Nat} {w w' : World}
    {out : Except Status (List Bool)} (h : CoilsRead T first a n w out w') : out ≠ .error .ok := by
  induction h with
  | done => simp
  | @bit _ _ _ _ _ _ _ _ out _ _ _ ih => cases out <;> simp_all [Except.map]
  | fails => simp
  | denied => simp
  | @zero _ _ _ _ _ out _ _ ih => cases out <;> simp_all [Except.map]

theorem regsRead_ne_ok {T : List RegDesc} {first : Bool} {a n : Nat} {w w' : World}
    {out : Except Status (List Word)} (h : RegsRead T first a n w out w') : out ≠ .error .ok := by
  induction h with
  | done => simp
  | @words _ _ _ _ _ _ _ _ out _ _ _ _ ih => cases out <;> simp_all [Except.map]
  | fails => simp
  | denied => simp
  | @zero _ _ _ _ _ out _ _ _ ih => cases out <;> simp_all [Except.map]

theorem filesRead_ne_ok {T : List FileDesc} {subs : List SubRequest} {w w' : World}
    {out : Except Status (List Byte)} (h : FilesRead T subs w out w') : out ≠ .error .ok := by
  induction h with
  | done => simp
  | @next _ _ _ _ _ _ out _ _ ih => cases out <;> simp_all [Except.map]
  | fails hr => intro he; exact regsRead_ne_ok hr (by simpa using he)

end Sys2Proof.Machine
end

