-- ==== Sys2Proof/Laws/PerInstr.lean ====
section
/-! SUPPORT. Facts about every instruction as syntax, one lemma per constructor. -/

namespace Sys2Proof.Laws

/-- The request of a well-formed instruction is a PDU's length at most (R140). -/
def EncodedLength.Statement (i : Instr) : Prop :=
  i.wf = true → (encodePdu i).length ≤ Config.pduMax

/-- A form of a fixed length of `k` bytes after the opcode, behind `lead` more opcode bytes, is short. -/
theorem length_encodeWith {α : Type} {k lead : Nat} {f : α → List Byte} (o : Form α)
    (hf : ∀ a, (f a).length = k) (hk : lead + k ≤ 252) (h : o.wfFixed k lead = true) :
    lead + (o.encodeWith f).length ≤ 252 := by
  cases o with
  | fields a => simpa [Form.encodeWith, hf] using hk
  | badLength body =>
    simp only [Form.wfFixed, fitsBody, Bool.and_eq_true, decide_eq_true_eq] at h
    exact h.1

theorem EncodedLength.ofBody {i : Instr} {fc : Byte} {body : List Byte}
    (he : encode i = .pdu (fc :: body)) (h : i.wf = true → body.length ≤ 252) :
    EncodedLength.Statement i := by
  intro hw
  have := h hw
  simp only [encodePdu, he, List.length_cons, Config.pduMax]
  omega

theorem EncodedLength.ofCommand {i : Instr} {c : Command} (he : encode i = .command c) :
    EncodedLength.Statement i := by
  intro _
  simp [encodePdu, he]

theorem length_encodeMultiWrite (o : Form MultiWrite) (h : wfMultiWrite o = true) :
    (o.encodeWith encodeMultiWrite).length ≤ 252 := by
  cases o with
  | fields m =>
    simp only [wfMultiWrite, fitsBody, decide_eq_true_eq] at h
    simp only [Form.encodeWith, encodeMultiWrite, be16Bytes, List.length_append, List.length_cons,
      List.length_nil]
    omega
  | badLength body =>
    simp only [wfMultiWrite, wfBadCount, fitsBody, Bool.and_eq_true, decide_eq_true_eq] at h
    exact h.1

theorem length_encodeFileBytes (o : Form (List Byte)) (h : wfFileBytes o = true) :
    (o.encodeWith encodeFileBytes).length ≤ 252 := by
  cases o with
  | fields d =>
    simp only [wfFileBytes, fitsBody, decide_eq_true_eq] at h
    simp only [Form.encodeWith, encodeFileBytes, List.length_cons]
    omega
  | badLength body =>
    simp only [wfFileBytes, wfBadCount, fitsBody, Bool.and_eq_true, decide_eq_true_eq] at h
    exact h.1

theorem length_encodeReadWrite (o : Form ReadWrite) (h : wfReadWrite o = true) :
    (o.encodeWith encodeReadWrite).length ≤ 252 := by
  cases o with
  | fields m =>
    simp only [wfReadWrite, fitsBody, decide_eq_true_eq] at h
    simp only [Form.encodeWith, encodeReadWrite, be16Bytes, List.length_append, List.length_cons,
      List.length_nil]
    omega
  | badLength body =>
    simp only [wfReadWrite, wfBadCount, fitsBody, Bool.and_eq_true, decide_eq_true_eq] at h
    exact h.1

/-- A diagnostic request with a two-byte data field. -/
theorem EncodedLength.ofDiag {i : Instr} {α : Type} {sub : Word} {f : α → List Byte} (o : Form α)
    (he : encode i = .pdu (encodeDiag sub (o.encodeWith f))) (hw : i.wf = o.wfFixed 2 2)
    (hf : ∀ a, (f a).length = 2) : EncodedLength.Statement i :=
  EncodedLength.ofBody he fun h => by
    have := length_encodeWith o hf (by decide) (hw.symm.trans h)
    simp only [be16Bytes, List.length_append, List.length_cons, List.length_nil]
    omega

theorem EncodedLength.rxRtu (f : List Byte) : EncodedLength.Statement (.rxRtu f) :=
  EncodedLength.ofCommand rfl

theorem EncodedLength.rxAscii (a : List Byte) : EncodedLength.Statement (.rxAscii a) :=
  EncodedLength.ofCommand rfl

theorem EncodedLength.rxTcp (f : List Byte) : EncodedLength.Statement (.rxTcp f) :=
  EncodedLength.ofCommand rfl

theorem EncodedLength.rxPdu (p : List Byte) : EncodedLength.Statement (.rxPdu p) :=
  EncodedLength.ofCommand rfl

theorem EncodedLength.setStatus (v : Word) : EncodedLength.Statement (.setStatus v) :=
  EncodedLength.ofCommand rfl

theorem EncodedLength.readCoils (o : Form AddrQty) :
    EncodedLength.Statement (.readCoils o) :=
  EncodedLength.ofBody rfl fun h => by
    simpa using length_encodeWith (k := 4) (lead := 0) o (fun _ => rfl) (by decide) h

theorem EncodedLength.readDiscreteInputs (o : Form AddrQty) :
    EncodedLength.Statement (.readDiscreteInputs o) :=
  EncodedLength.ofBody rfl fun h => by
    simpa using length_encodeWith (k := 4) (lead := 0) o (fun _ => rfl) (by decide) h

theorem EncodedLength.readHoldingRegisters (o : Form AddrQty) :
    EncodedLength.Statement (.readHoldingRegisters o) :=
  EncodedLength.ofBody rfl fun h => by
    simpa using length_encodeWith (k := 4) (lead := 0) o (fun _ => rfl) (by decide) h

theorem EncodedLength.readInputRegisters (o : Form AddrQty) :
    EncodedLength.Statement (.readInputRegisters o) :=
  EncodedLength.ofBody rfl fun h => by
    simpa using length_encodeWith (k := 4) (lead := 0) o (fun _ => rfl) (by decide) h

theorem EncodedLength.writeSingleCoil (o : Form AddrValue) :
    EncodedLength.Statement (.writeSingleCoil o) :=
  EncodedLength.ofBody rfl fun h => by
    simpa using length_encodeWith (k := 4) (lead := 0) o (fun _ => rfl) (by decide) h

theorem EncodedLength.writeSingleRegister (o : Form AddrValue) :
    EncodedLength.Statement (.writeSingleRegister o) :=
  EncodedLength.ofBody rfl fun h => by
    simpa using length_encodeWith (k := 4) (lead := 0) o (fun _ => rfl) (by decide) h

theorem EncodedLength.readExceptionStatus (o : Form Unit) :
    EncodedLength.Statement (.readExceptionStatus o) :=
  EncodedLength.ofBody rfl fun h => by
    simpa using length_encodeWith (k := 0) (lead := 0) o (fun _ => rfl) (by decide) h

theorem EncodedLength.getCommEventCounter (o : Form Unit) :
    EncodedLength.Statement (.getCommEventCounter o) :=
  EncodedLength.ofBody rfl fun h => by
    simpa using length_encodeWith (k := 0) (lead := 0) o (fun _ => rfl) (by decide) h

theorem EncodedLength.getCommEventLog (o : Form Unit) :
    EncodedLength.Statement (.getCommEventLog o) :=
  EncodedLength.ofBody rfl fun h => by
    simpa using length_encodeWith (k := 0) (lead := 0) o (fun _ => rfl) (by decide) h

theorem EncodedLength.writeMultipleCoils (o : Form MultiWrite) :
    EncodedLength.Statement (.writeMultipleCoils o) :=
  EncodedLength.ofBody rfl (length_encodeMultiWrite o)

theorem EncodedLength.writeMultipleRegisters (o : Form MultiWrite) :
    EncodedLength.Statement (.writeMultipleRegisters o) :=
  EncodedLength.ofBody rfl (length_encodeMultiWrite o)

theorem EncodedLength.readFileRecord (o : Form (List Byte)) :
    EncodedLength.Statement (.readFileRecord o) :=
  EncodedLength.ofBody rfl (length_encodeFileBytes o)

theorem EncodedLength.writeFileRecord (o : Form (List Byte)) :
    EncodedLength.Statement (.writeFileRecord o) :=
  EncodedLength.ofBody rfl (length_encodeFileBytes o)

theorem EncodedLength.maskWriteRegister (o : Form MaskWrite) :
    EncodedLength.Statement (.maskWriteRegister o) :=
  EncodedLength.ofBody rfl fun h => by
    simpa using length_encodeWith (k := 6) (lead := 0) o (fun _ => rfl) (by decide) h

theorem EncodedLength.readWriteMultipleRegisters (o : Form ReadWrite) :
    EncodedLength.Statement (.readWriteMultipleRegisters o) :=
  EncodedLength.ofBody rfl (length_encodeReadWrite o)

theorem EncodedLength.diagReturnQueryData (data : List Byte) :
    EncodedLength.Statement (.diagReturnQueryData data) :=
  EncodedLength.ofBody rfl fun h => by
    simp only [Instr.wf, fitsBody, decide_eq_true_eq] at h
    simp only [be16Bytes, List.length_append, List.length_cons, List.length_nil]
    omega

theorem EncodedLength.diagRestartCommunications (o : Form Word) :
    EncodedLength.Statement (.diagRestartCommunications o) :=
  EncodedLength.ofDiag o rfl rfl fun _ => rfl

theorem EncodedLength.diagReturnDiagnosticRegister (o : Form Word) :
    EncodedLength.Statement (.diagReturnDiagnosticRegister o) :=
  EncodedLength.ofDiag o rfl rfl fun _ => rfl

theorem EncodedLength.diagChangeAsciiDelimiter (o : Form DelimField) :
    EncodedLength.Statement (.diagChangeAsciiDelimiter o) :=
  EncodedLength.ofDiag o rfl rfl fun _ => rfl

theorem EncodedLength.diagForceListenOnly (o : Form Word) :
    EncodedLength.Statement (.diagForceListenOnly o) :=
  EncodedLength.ofDiag o rfl rfl fun _ => rfl

theorem EncodedLength.diagClearCounters (o : Form Word) :
    EncodedLength.Statement (.diagClearCounters o) :=
  EncodedLength.ofDiag o rfl rfl fun _ => rfl

theorem EncodedLength.diagReturnBusMessageCount (o : Form Word) :
    EncodedLength.Statement (.diagReturnBusMessageCount o) :=
  EncodedLength.ofDiag o rfl rfl fun _ => rfl

theorem EncodedLength.diagReturnBusCommErrorCount (o : Form Word) :
    EncodedLength.Statement (.diagReturnBusCommErrorCount o) :=
  EncodedLength.ofDiag o rfl rfl fun _ => rfl

theorem EncodedLength.diagReturnExceptionErrorCount (o : Form Word) :
    EncodedLength.Statement (.diagReturnExceptionErrorCount o) :=
  EncodedLength.ofDiag o rfl rfl fun _ => rfl

theorem EncodedLength.diagReturnServerMessageCount (o : Form Word) :
    EncodedLength.Statement (.diagReturnServerMessageCount o) :=
  EncodedLength.ofDiag o rfl rfl fun _ => rfl

theorem EncodedLength.diagReturnServerNoResponseCount (o : Form Word) :
    EncodedLength.Statement (.diagReturnServerNoResponseCount o) :=
  EncodedLength.ofDiag o rfl rfl fun _ => rfl

theorem EncodedLength.diagReturnNakCount (o : Form Word) :
    EncodedLength.Statement (.diagReturnNakCount o) :=
  EncodedLength.ofDiag o rfl rfl fun _ => rfl

theorem EncodedLength.diagReturnBusyCount (o : Form Word) :
    EncodedLength.Statement (.diagReturnBusyCount o) :=
  EncodedLength.ofDiag o rfl rfl fun _ => rfl

theorem EncodedLength.diagReturnBusCharOverrunCount (o : Form Word) :
    EncodedLength.Statement (.diagReturnBusCharOverrunCount o) :=
  EncodedLength.ofDiag o rfl rfl fun _ => rfl

theorem EncodedLength.diagClearOverrun (o : Form Word) :
    EncodedLength.Statement (.diagClearOverrun o) :=
  EncodedLength.ofDiag o rfl rfl fun _ => rfl

theorem EncodedLength.diagUnimplementedSub (o : SubForm) :
    EncodedLength.Statement (.diagUnimplementedSub o) := by
  cases o with
  | truncated body =>
    refine EncodedLength.ofBody rfl fun h => ?_
    simp only [Instr.wf, SubForm.wf, decide_eq_true_eq] at h
    omega
  | unknown sub data =>
    refine EncodedLength.ofBody rfl fun h => ?_
    simp only [Instr.wf, SubForm.wf, fitsBody, Bool.and_eq_true, decide_eq_true_eq] at h
    simp only [be16Bytes, List.length_append, List.length_cons, List.length_nil]
    omega

theorem EncodedLength.reportSlaveId (body : List Byte) :
    EncodedLength.Statement (.reportSlaveId body) :=
  EncodedLength.ofBody rfl fun h => by simpa [Instr.wf, fitsBody] using h

theorem EncodedLength.fallback (fc : Byte) (body : List Byte) :
    EncodedLength.Statement (.fallback fc body) :=
  EncodedLength.ofBody rfl fun h => by
    simp only [Instr.wf, fitsBody, Bool.and_eq_true, decide_eq_true_eq] at h
    exact h.2

end Sys2Proof.Laws
end

