-- ==== Sys2Proof/Laws/Step.lean ====
section
/-! SUPPORT. What one step can do, said once: what executing a function code can do in phase EXEC, and what
executing a command can do in phase IDLE. -/

namespace Sys2Proof.Machine

variable {P : World → Prop} {F : Stop → Prop} {s : State} {t : Txn} {wl : Bool} {fc : Byte}

/-- Executing a function code in phase EXEC: its handler answers a response and the request completes, or
raises a status and the exception is taken, or the host broke its contract. -/
theorem exec_function_cases (L : WorldLaw P F) {i : Instr} (hi : fcOf i = some fc)
    (hs : AtHandler s t wl) (hP : P s.world) :
    (∃ res w, P w ∧ res ≠ [] ∧ (i.wf = true → res.length ≤ 253)
      ∧ exec i s = .next
        (completed fc t wl res { s with world := w, regs := handlerRegs i s.regs }))
    ∨ (∃ e w, P w ∧ e ≠ .ok ∧ exec i s = .next (failed fc t wl e { s with world := w }))
    ∨ ∃ x, F x ∧ exec i s = x.answer := by
  rcases functionOf_cases i with ⟨fc', h, hf, hfc⟩ | ⟨_, hn⟩
  · rw [hi] at hfc
    cases hfc
    have he := handler_ends L hf hP
    have hg := handler_gives hf s
    rw [exec_functionOf hf]
    cases hh : h s s with
    | val res s' =>
      rw [hh] at he hg
      obtain ⟨w, hw, rfl⟩ := he
      exact .inl ⟨res, w, hw, hg.1, hg.2, runFunction_at_val hs hh rfl hg.1⟩
    | raise e s' =>
      rw [hh] at he
      obtain ⟨hne, w, hw, rfl⟩ := he
      exact .inr (.inl ⟨e, w, hw, hne, runFunction_at_raise hs hh rfl hne⟩)
    | stop x =>
      rw [hh] at he
      exact .inr (.inr ⟨x, he, runFunction_stop hs.1 hh⟩)
  · rw [hi] at hn
    cases hn

/-- A decoded request is a function code. -/
theorem fcOf_decodePdu {p : List Byte} {i : Instr} (h : decodePdu p = .ok i) :
    ∃ fc, fcOf i = some fc := by
  rcases functionOf_cases i with ⟨fc, _, _, hf⟩ | ⟨hn, _⟩
  · exact ⟨fc, hf⟩
  · exfalso
    unfold decodePdu at h
    split at h
    · cases h
    · split at h
      · simp only [Except.ok.injEq] at h
        unfold decodeFc at h
        split at h <;> first
          | (rw [← h] at hn; cases hn)
          | (unfold decodeDiag at h
             split at h
             · unfold decodeSub at h
               split at h <;> (rw [← h] at hn; cases hn)
             · rw [← h] at hn; cases hn)
      · cases h

/-- A PDU of 1..253 bytes decodes (R140). -/
theorem decodePdu_total {p : List Byte} (h1 : 1 ≤ p.length) (h2 : p.length ≤ 253) :
    ∃ i, decodePdu p = .ok i := by
  match p with
  | [] => simp at h1
  | fc :: body =>
    have hb : body.length < Config.pduMax := h2
    exact ⟨decodeFc fc body, if_pos hb⟩

/-! ## Commands -/

/-- What a framer and the gate may do to the instance registers: counters and events only. -/
def Registers.framed (r r' : Registers) : Prop :=
  r'.asciiDelimiter = r.asciiDelimiter ∧ r'.isListenOnly = r.isListenOnly ∧ r'.status = r.status
    ∧ r'.counters.busCharOverrun = r.counters.busCharOverrun ∧ (r.good = true → r'.good = true)

theorem EventRing.append_count_wpos (g : EventRing) (e : Byte) :
    (g.append e).count.val = min (g.count.val + 1) 64
      ∧ (g.append e).wpos.val = (g.wpos.val + 1) % 64 := ⟨rfl, rfl⟩

theorem Registers.good_log {r : Registers} (e : Byte) (h : r.good = true) :
    (r.log e).good = true := by
  simp only [Registers.good, Bool.and_eq_true, Bool.or_eq_true, decide_eq_true_eq,
    Registers.log_asciiDelimiter, Registers.log_ring, EventRing.append_count_wpos] at h ⊢
  have := r.ring.wpos.isLt
  have := r.ring.count.isLt
  refine ⟨decide_eq_true h.1, ?_⟩
  omega

theorem Registers.framed_refl (r : Registers) : r.framed r := ⟨rfl, rfl, rfl, rfl, id⟩

theorem Registers.framed_log {r r' : Registers} (e : Byte) (h : r.framed r') :
    r.framed (r'.log e) :=
  ⟨h.1, h.2.1, h.2.2.1, h.2.2.2.1, fun hg => Registers.good_log e (h.2.2.2.2 hg)⟩

theorem Registers.framed_count {r r' : Registers} {f : Counters → Counters}
    (hf : ∀ c, (f c).busCharOverrun = c.busCharOverrun) (h : r.framed r') :
    r.framed (r'.count f) :=
  ⟨h.1, h.2.1, h.2.2.1, (hf _).trans h.2.2.2.1, h.2.2.2.2⟩

/-- The two outcomes of a command that begins: it ends at once without an output, or its request waits in
phase EXEC. -/
def CommandLeaves (r : Registers) (s : State) (a : Answer) : Prop :=
  (∃ r', r.framed r' ∧ a = .next (dropped r' s))
  ∨ ∃ t p r', r.framed r' ∧ 1 ≤ p.length ∧ p.length ≤ 253 ∧ t.framerReady = true
      ∧ gateOpen s p = true ∧ a = .next (dispatched t p r' s)

variable {r : Registers} {p : List Byte}

theorem drop_leaves (h : r.framed s.regs) : CommandLeaves r s (drop s) :=
  .inl ⟨s.regs, h, rfl⟩

theorem integrityFailure_leaves (h : r.framed s.regs) : CommandLeaves r s (integrityFailure s) :=
  .inl ⟨_, Registers.framed_log _ (Registers.framed_count (f := Counters.incBusCommErr)
    (fun _ => rfl) h), rfl⟩

theorem framerReady_addr (h : t.framerReady = true) : t.entry = .pdu ∨ t.addr.isSome = true := by
  simp only [Txn.framerReady, Bool.and_eq_true, Bool.or_eq_true, beq_iff_eq] at h
  exact h.1

theorem enterDispatcher_leaves (h : r.framed s.regs) (hb : s.busy = true)
    (ht : t.framerReady = true) : CommandLeaves r s (enterDispatcher p t s) := by
  by_cases hl : 1 ≤ p.length ∧ p.length ≤ 253
  · cases hg : gateOpen s p with
    | true =>
      rw [enterDispatcher_open hb hl.1 hl.2 hg]
      exact .inr ⟨t, p, s.regs, h, hl.1, hl.2, ht, hg, rfl⟩
    | false =>
      rw [enterDispatcher_closed hl.1 hl.2 hg (framerReady_addr ht)]
      split
      · exact .inl ⟨_, Registers.framed_count (f := Counters.incNoResp) (fun _ => rfl)
          (Registers.framed_log 0x60 h), rfl⟩
      · exact .inl ⟨_, Registers.framed_log 0x60 h, rfl⟩
  · unfold enterDispatcher gate
    simp only
    rw [if_pos (by simp only [Config.pduMax]; omega),
      dispatcherReturns_zero (t := { t with req := some p }) (framerReady_addr ht)]
    split
    · exact .inl ⟨_, Registers.framed_count (f := Counters.incNoResp) (fun _ => rfl) h, rfl⟩
    · exact .inl ⟨_, h, rfl⟩

theorem filterAddress_leaves {a : Byte} (h : r.framed s.regs) (hb : s.busy = true)
    (ht : ({ t with addr := some a } : Txn).framerReady = true) :
    CommandLeaves r s (filterAddress a p t s) := by
  rw [filterAddress_eq]
  split
  · exact enterDispatcher_leaves (Registers.framed_log _ h) hb ht
  · exact drop_leaves (Registers.framed_log _ h)

/-- Every command that a state takes ends at once or brings its request to phase EXEC; SET_STATUS ends at
once, with the status word written. -/
theorem exec_command_cases (c : Command) (hs : s.takesCommand = true) :
    (∃ v, c = .setStatus v
      ∧ exec (decodeCommand c) s = .next (dropped { s.regs with status := v } s))
    ∨ CommandLeaves s.regs s (exec (decodeCommand c) s) := by
  have hr := Registers.framed_refl s.regs
  cases c with
  | setStatus v =>
    refine .inl ⟨v, rfl, ?_⟩
    show execSetStatus v s = _
    unfold execSetStatus
    rw [beginCommand_takes hs]
    rfl
  | rxPdu p =>
    right
    show CommandLeaves _ _ (execRxPdu p s)
    unfold execRxPdu
    rw [beginCommand_takes hs]
    exact enterDispatcher_leaves (s := { s with busy := true }) hr rfl rfl
  | rxRtu f =>
    right
    show CommandLeaves _ _ (execRxRtu f s)
    unfold execRxRtu beginReceive
    rw [beginCommand_takes hs]
    unfold rtuShape
    split
    · exact drop_leaves (s := { s with busy := true, phase := .rxShape, txn := _ }) hr
    · unfold rtuCheck
      split
      · exact filterAddress_leaves (s := { s.count Counters.incBusMsg with
          busy := true, phase := .rxFilter, txn := _ })
          (Registers.framed_count (fun _ => rfl) hr) rfl rfl
      · exact integrityFailure_leaves (s := { s.count Counters.incBusMsg with
          busy := true, phase := .rxCheck, txn := _ }) (Registers.framed_count (fun _ => rfl) hr)
  | rxTcp f =>
    right
    show CommandLeaves _ _ (execRxTcp f s)
    unfold execRxTcp beginReceive
    rw [beginCommand_takes hs]
    unfold tcpShape
    split
    · exact drop_leaves (s := { s with busy := true, phase := .rxShape, txn := _ }) hr
    · unfold tcpCheck
      split
      · exact filterAddress_leaves (s := { s.count Counters.incBusMsg with
          busy := true, phase := .rxFilter, txn := _ })
          (Registers.framed_count (fun _ => rfl) hr) rfl rfl
      · exact integrityFailure_leaves (s := { s.count Counters.incBusMsg with
          busy := true, phase := .rxCheck, txn := _ }) (Registers.framed_count (fun _ => rfl) hr)
  | rxAscii f =>
    right
    show CommandLeaves _ _ (execRxAscii f s)
    unfold execRxAscii beginReceive
    rw [beginCommand_takes hs]
    unfold asciiShape
    split
    · unfold asciiCheck
      split
      · exact integrityFailure_leaves (s := { s.count Counters.incBusMsg with
          busy := true, phase := .rxCheck, txn := _ }) (Registers.framed_count (fun _ => rfl) hr)
      · split
        · exact filterAddress_leaves (s := { s.count Counters.incBusMsg with
            busy := true, phase := .rxFilter, txn := _ })
            (Registers.framed_count (fun _ => rfl) hr) rfl rfl
        · exact integrityFailure_leaves (s := { s.count Counters.incBusMsg with
            busy := true, phase := .rxCheck, txn := _ }) (Registers.framed_count (fun _ => rfl) hr)
    · exact drop_leaves (s := { s with busy := true, phase := .rxShape, txn := _ }) hr

/-! ## The invariant -/

/-- A good state in phase EXEC holds a whole request. -/
theorem State.inv_exec (h : s.inv = true) (hp : s.phase = .exec) :
    ∃ t p, s.txn = some t ∧ t.req = some p ∧ 1 ≤ p.length ∧ p.length ≤ 253
      ∧ AtHandler s t s.regs.isListenOnly
      ∧ (s.regs.isListenOnly = true → isRestart p = true) := by
  simp only [State.inv, Bool.and_eq_true] at h
  obtain ⟨_, ha⟩ := h
  unfold State.atFetch at ha
  cases ht : s.txn with
  | none => simp [ht, hp] at ha
  | some t =>
    simp only [ht, Bool.and_eq_true] at ha
    obtain ⟨_, hrd⟩ := ha
    unfold Txn.ready at hrd
    cases hq : t.req with
    | none => simp [hq] at hrd
    | some p =>
      simp only [hq, Bool.and_eq_true, decide_eq_true_eq, beq_iff_eq, Bool.or_eq_true,
        Bool.not_eq_true'] at hrd
      obtain ⟨⟨⟨⟨⟨h1, h2⟩, h3⟩, _⟩, h5⟩, h6⟩ := hrd
      refine ⟨t, p, rfl, hq, h1, h2, ⟨hp, ht, h3, h5⟩, fun hl => ?_⟩
      rcases h6 with h6 | h6
      · simp [hl] at h6
      · exact h6

/-- A good state waits in IDLE without a transaction, or stands in EXEC. -/
theorem State.inv_phase (h : s.inv = true) :
    (s.phase = .idle ∧ s.busy = false ∧ s.txn = none) ∨ s.phase = .exec := by
  simp only [State.inv, Bool.and_eq_true] at h
  obtain ⟨_, ha⟩ := h
  unfold State.atFetch at ha
  cases ht : s.txn with
  | none =>
    simp only [ht, Bool.and_eq_true, beq_iff_eq, Bool.not_eq_true'] at ha
    exact .inl ⟨ha.1, ha.2, rfl⟩
  | some t =>
    simp only [ht, Bool.and_eq_true, beq_iff_eq] at ha
    exact .inr ha.1.1

/-- A good state waiting in IDLE. -/
theorem State.inv_idle (hc : configValid s.cfg = true) (hr : s.regs.good = true)
    (hw : s.world.good = true) (hp : s.phase = .idle) (hb : s.busy = false) (ht : s.txn = none) :
    s.inv = true := by
  simp [State.inv, hc, hr, hw, State.atFetch, hp, hb, ht]

theorem EventRing.append_good (g : EventRing) (e : Byte)
    (h : g.count.val = 64 ∨ g.wpos.val = g.count.val) :
    (g.append e).count.val = 64 ∨ (g.append e).wpos.val = (g.append e).count.val := by
  rw [(EventRing.append_count_wpos g e).1, (EventRing.append_count_wpos g e).2]
  have := g.wpos.isLt
  have := g.count.isLt
  omega

theorem Registers.good_iff (r : Registers) :
    r.good = true ↔ r.asciiDelimiter.toNat ≤ 127
      ∧ (r.ring.count.val = 64 ∨ r.ring.wpos.val = r.ring.count.val) := by
  simp [Registers.good]

theorem handlerRegs_good (i : Instr) (r : Registers) (h : r.good = true) :
    (handlerRegs i r).good = true := by
  unfold handlerRegs
  split
  · split
    · unfold restartRegisters
      simp only
      split
      · rw [Registers.good_iff] at h ⊢
        exact ⟨h.1, .inr rfl⟩
      · exact Registers.good_log _ h
    · exact h
  · split
    · rename_i hd
      rw [Registers.good_iff] at h ⊢
      exact ⟨hd.1, h.2⟩
    · exact h
  · split
    · exact Registers.good_log _ h
    · exact h
  · split <;> exact h
  · split <;> exact h
  · exact h

theorem closed_inv {out : List Byte} (hc : configValid s.cfg = true) (hr : s.regs.good = true)
    (hw : s.world.good = true) : (closed t wl out s).inv = true := by
  refine State.inv_idle hc ?_ hw rfl rfl rfl
  unfold closed
  simp only
  split
  · exact hr
  · exact hr

theorem completed_inv {out : List Byte} (hc : configValid s.cfg = true) (hr : s.regs.good = true)
    (hw : s.world.good = true) : (completed fc t wl out s).inv = true := by
  refine closed_inv hc ?_ hw
  rw [Registers.good_iff] at hr ⊢
  exact ⟨hr.1, EventRing.append_good _ _ hr.2⟩

theorem failed_inv {e : Status} (hc : configValid s.cfg = true) (hr : s.regs.good = true)
    (hw : s.world.good = true) : (failed fc t wl e s).inv = true := by
  refine closed_inv hc ?_ hw
  rw [Registers.good_iff] at hr ⊢
  exact ⟨hr.1, EventRing.append_good _ _ hr.2⟩

theorem dropped_inv {r' : Registers} (hc : configValid s.cfg = true) (hr : r'.good = true)
    (hw : s.world.good = true) : (dropped r' s).inv = true :=
  State.inv_idle hc hr hw rfl rfl rfl

theorem dispatched_inv {r' : Registers} (hc : configValid s.cfg = true) (hr : r'.good = true)
    (hl : r'.isListenOnly = s.regs.isListenOnly) (hw : s.world.good = true) (h1 : 1 ≤ p.length)
    (h2 : p.length ≤ 253) (hf : t.framerReady = true) (hg : gateOpen s p = true) :
    (dispatched t p r' s).inv = true := by
  have hf' : ({ t with
      req := some p, res := some [p.headD 0], wasListenOnly := some s.regs.isListenOnly }
      : Txn).framerReady = true := hf
  simp only [State.inv, dispatched, hc, hw, State.atFetch, Txn.ready, hf', hl, beq_self_eq_true,
    Bool.and_true, Bool.true_and, Bool.and_eq_true, h1, h2, Option.isSome_some, decide_true]
  exact ⟨hr, hg⟩

/-- One step of a good state: it goes on, good, with the host's side keeping its contract if it did, or the
host broke it. -/
theorem step_cases (L : WorldLaw P F) (hgood : ∀ w, P w → w.good = true)
    (hch : ∀ w cs, P w → P (w.changes cs)) (h : s.inv = true) (hP : P s.world) :
    (∃ s', step s = .next s' ∧ s'.inv = true ∧ P s'.world) ∨ ∃ x, F x ∧ step s = x.answer := by
  have h0 := h
  simp only [State.inv, Bool.and_eq_true] at h
  obtain ⟨⟨⟨hc, hr⟩, hw⟩, _⟩ := h
  rcases State.inv_phase h0 with ⟨hp, hb, ht⟩ | hp
  · cases hq : s.pending with
    | nil =>
      have : step s = .next s := by simp [step, fetch, hp, fetchCommand, hq]
      exact .inl ⟨s, this, h0, hP⟩
    | cons q rest =>
      have hst : step s = exec (decodeCommand q.command)
          { s with world := s.world.changes q.cells, pending := rest } := by
        simp [step, fetch, hp, fetchCommand, hq]
      rw [hst]
      have hw' := World.good_changes q.cells _ hw
      rcases exec_command_cases (s := { s with world := s.world.changes q.cells, pending := rest })
          q.command (by simp [State.takesCommand, hb, hc]) with
        ⟨v, _, he⟩ | ⟨r', hf, he⟩ | ⟨t, p, r', hf, h1, h2, hfr, hg, he⟩
      · exact .inl ⟨_, he, dropped_inv hc hr hw', hch _ _ hP⟩
      · exact .inl ⟨_, he, dropped_inv hc (hf.2.2.2.2 hr) hw', hch _ _ hP⟩
      · exact .inl ⟨_, he,
          dispatched_inv hc (hf.2.2.2.2 hr) hf.2.1 hw' h1 h2 hfr hg, hch _ _ hP⟩
  · obtain ⟨t, p, ht, hreq, h1, h2, hat, _⟩ := State.inv_exec h0 hp
    obtain ⟨i, hd⟩ := decodePdu_total h1 h2
    obtain ⟨fc, hfc⟩ := fcOf_decodePdu hd
    have hst : step s = exec i s := by simp [step, fetch, hp, fetchFunction, ht, hreq, hd]
    rw [hst]
    rcases exec_function_cases L hfc hat hP with
      ⟨res, w, hPw, _, _, he⟩ | ⟨e, w, hPw, _, he⟩ | ⟨x, hx, he⟩
    · exact .inl ⟨_, he, completed_inv hc (handlerRegs_good i _ hr) (hgood _ hPw), hPw⟩
    · exact .inl ⟨_, he, failed_inv hc hr (hgood _ hPw), hPw⟩
    · exact .inr ⟨x, hx, he⟩

end Sys2Proof.Machine
end

