-- ==== Sys2Proof/Tests/Slice0.lean ====
section
/-! SUPPORT. Tests on fixed values: ill-formed instructions, one decoding per constructor, single steps with
the results of spec/95_test_vectors.md, and for every statement with hypotheses a state that meets them. -/

namespace Sys2Proof.Tests

open Sys2Proof Sys2Proof.Machine

/-! ## States -/

/-- A coil in bit 0 of the byte cell of its own address, as spec/95_test_vectors.md lists them. -/
def coil (a : Word) : CoilDesc := ⟨a, .cell a.toNat 0, .cell a.toNat 0, false, false, false⟩

/-- A U16 register in the word array of its own address. -/
def reg (a : Word) : RegDesc := ⟨a, .u16, .ptr a.toNat, .ptr a.toNat, false, false, false, false⟩

/-- A block of `len` words in word array 9. -/
def block (a : Word) (len : Nat) : RegDesc :=
  ⟨a, .blkU16 len, .ptr 9, .ptr 9, false, false, true, false⟩

/-- A coil behind callbacks, and one behind locks. -/
def coilCb (a : Word) : CoilDesc := ⟨a, .cb, .cb, false, false, false⟩

@[inherit_doc coilCb]
def coilLocked (a : Word) : CoilDesc := ⟨a, .cell 0 0, .cell 0 0, true, true, false⟩

/-- A register behind callbacks, and one behind locks. -/
def regCb (a : Word) : RegDesc := ⟨a, .u16, .cb, .cb, false, false, false, false⟩

@[inherit_doc regCb]
def regLocked (a : Word) : RegDesc := ⟨a, .u16, .ptr 0, .ptr 0, true, true, false, false⟩

def withCoils (T : List CoilDesc) : InstanceConfig :=
  { InstanceConfig.testVectors with coils := some T }

def withDiscrete (T : List CoilDesc) : InstanceConfig :=
  { InstanceConfig.testVectors with discrete := some T }

def withHolding (T : List RegDesc) : InstanceConfig :=
  { InstanceConfig.testVectors with holding := some T }

def withInput (T : List RegDesc) : InstanceConfig :=
  { InstanceConfig.testVectors with input := some T }

def withFiles (T : List FileDesc) : InstanceConfig :=
  { InstanceConfig.testVectors with files := some T }

def withCallbacks (c : Callbacks) : InstanceConfig :=
  { InstanceConfig.testVectors with callbacks := c }

/-- Every callback present. -/
def allCallbacks : Callbacks := ⟨true, true, true, true, true, true, true⟩

/-- A host with these answers to give. -/
def answering (answers : List HostAnswer) : World :=
  { World.initial with script := answers.map fun a => ⟨a, []⟩ }

/-- Byte cells with these values, and word arrays with these values at word 0. -/
def cells (l : List (Nat × Byte)) : World :=
  { World.initial with byteCells := l.foldl (fun m x => m.write x.1 x.2) [] }

@[inherit_doc cells]
def words (l : List (Nat × Word)) : World :=
  { World.initial with wordCells := l.foldl (fun m x => m.writeWord x.1 0 x.2) [] }

/-- The state in which a request's function code is fetched, as `RX_PDU` leaves it. -/
def asked (cfg : InstanceConfig) (w : World) (p : List Byte) : State :=
  placeRequest p (State.created cfg w)

/-- The state in which a command is fetched. -/
def told (cfg : InstanceConfig) (w : World) (c : Command) : State :=
  { State.created cfg w with pending := [⟨[], c⟩] }

/-- The next state of a step. -/
def next (o : Answer) : Option State :=
  match o with
  | .next s => some s
  | _ => none

/-- What a request outputs, and a byte or a word of the storage after it. -/
def output (s : State) : Option (List (List Byte)) := (next (step s)).map State.outputs

@[inherit_doc output]
def cellAfter (r : Nat) (s : State) : Option Byte :=
  (next (step s)).map fun s => s.world.byteCells.read r

@[inherit_doc output]
def wordAfter (r : Nat) (s : State) : Option Word :=
  (next (step s)).map fun s => s.world.wordCells.readWord r 0

/-- The log after a step, newest first, and the phase. -/
def logAfter (s : State) : Option (List Byte × Phase) :=
  (next (step s)).map fun s => (s.regs.ring.newestFirst, s.phase)

/-! ## Ill-formed instructions -/

theorem test_wf_fixed_long : (Instr.readCoils (.badLength [0, 0, 0, 1])).wf = false := by decide
theorem test_wf_fixed_pdu : (Instr.readCoils (.badLength (List.replicate 253 0))).wf = false := by decide +kernel
theorem test_wf_unit : (Instr.getCommEventLog (.badLength [])).wf = false := by decide
theorem test_wf_data : (Instr.diagClearCounters (.badLength [0, 0])).wf = false := by decide
theorem test_wf_diag_pdu :
    (Instr.diagClearCounters (.badLength (List.replicate 251 0))).wf = false := by decide +kernel
theorem test_wf_multi_fields :
    (Instr.writeMultipleCoils (.fields ⟨0, 1, List.replicate 248 0⟩)).wf = false := by decide +kernel
theorem test_wf_multi_count :
    (Instr.writeMultipleRegisters (.badLength [0, 0, 0, 1, 2, 0, 7])).wf = false := by decide
theorem test_wf_file_fields :
    (Instr.readFileRecord (.fields (List.replicate 252 0))).wf = false := by decide +kernel
theorem test_wf_file_count : (Instr.writeFileRecord (.badLength [1, 6])).wf = false := by decide
theorem test_wf_mask : (Instr.maskWriteRegister (.badLength [0, 0, 0, 0, 0, 0])).wf = false := by
  decide
theorem test_wf_read_write_fields :
    (Instr.readWriteMultipleRegisters (.fields ⟨0, 1, 0, 1, List.replicate 244 0⟩)).wf = false := by
  decide +kernel
theorem test_wf_read_write_count :
    (Instr.readWriteMultipleRegisters (.badLength [0, 0, 0, 1, 0, 0, 0, 1, 0])).wf = false := by
  decide
theorem test_wf_echo : (Instr.diagReturnQueryData (List.replicate 251 0)).wf = false := by decide +kernel
theorem test_wf_truncated : (Instr.diagUnimplementedSub (.truncated [0, 0])).wf = false := by decide
theorem test_wf_sub : (Instr.diagUnimplementedSub (.unknown 0x0014 [0, 0])).wf = false := by decide
theorem test_wf_sub_pdu :
    (Instr.diagUnimplementedSub (.unknown 0x0013 (List.replicate 251 0))).wf = false := by decide +kernel
theorem test_wf_slave_id : (Instr.reportSlaveId (List.replicate 253 0)).wf = false := by decide +kernel
theorem test_wf_listed : (Instr.fallback 0x11 []).wf = false := by decide
theorem test_wf_fallback : (Instr.fallback 0x41 (List.replicate 253 0)).wf = false := by decide +kernel

/-! ## One decoding per constructor, the bytes from R146, R148 and R160 -/

theorem test_decode_readCoils :
    decodePdu [0x01, 0x00, 0x13, 0x00, 0x0A]
      = .ok (.readCoils (.fields ⟨0x0013, 0x000A⟩)) := rfl
theorem test_decode_readDiscreteInputs :
    decodePdu [0x02, 0x00, 0xC4, 0x07, 0xD1]
      = .ok (.readDiscreteInputs (.fields ⟨0x00C4, 0x07D1⟩)) := rfl
theorem test_decode_readHoldingRegisters :
    decodePdu [0x03, 0x01, 0x6B, 0x00, 0x03]
      = .ok (.readHoldingRegisters (.fields ⟨0x016B, 0x0003⟩)) := rfl
theorem test_decode_readInputRegisters :
    decodePdu [0x04, 0x00, 0x08, 0x00, 0x01]
      = .ok (.readInputRegisters (.fields ⟨0x0008, 0x0001⟩)) := rfl
theorem test_decode_writeSingleCoil :
    decodePdu [0x05, 0x00, 0xAC, 0xFF, 0x00]
      = .ok (.writeSingleCoil (.fields ⟨0x00AC, 0xFF00⟩)) := rfl
theorem test_decode_writeSingleRegister :
    decodePdu [0x06, 0x00, 0x01, 0x12, 0x34]
      = .ok (.writeSingleRegister (.fields ⟨0x0001, 0x1234⟩)) := rfl
theorem test_decode_writeSingleRegister_short :
    decodePdu [0x06, 0x00, 0x01, 0x00]
      = .ok (.writeSingleRegister (.badLength [0x00, 0x01, 0x00])) := rfl
theorem test_decode_readExceptionStatus :
    decodePdu [0x07]
      = .ok (.readExceptionStatus (.fields ())) := rfl
theorem test_decode_getCommEventCounter :
    decodePdu [0x0B]
      = .ok (.getCommEventCounter (.fields ())) := rfl
theorem test_decode_getCommEventLog_long :
    decodePdu [0x0C, 0x00]
      = .ok (.getCommEventLog (.badLength [0x00])) := rfl
theorem test_decode_getCommEventLog :
    decodePdu [0x0C]
      = .ok (.getCommEventLog (.fields ())) := rfl
theorem test_decode_writeMultipleCoils :
    decodePdu [0x0F, 0x00, 0x13, 0x00, 0x0A, 0x02, 0xCD, 0x01]
      = .ok (.writeMultipleCoils (.fields ⟨0x0013, 0x000A, [0xCD, 0x01]⟩)) := rfl
theorem test_decode_writeMultipleCoils_count :
    decodePdu [0x0F, 0x00, 0x13, 0x07, 0xB1, 0xF7, 0x00]
      = .ok (.writeMultipleCoils (.badLength [0x00, 0x13, 0x07, 0xB1, 0xF7, 0x00])) := rfl
theorem test_decode_writeMultipleRegisters :
    decodePdu [0x10, 0x00, 0x01, 0x00, 0x02, 0x04, 0x00, 0x0A, 0x01, 0x02]
      = .ok (.writeMultipleRegisters (.fields ⟨0x0001, 0x0002, [0x00, 0x0A, 0x01, 0x02]⟩)) := rfl
theorem test_decode_readFileRecord :
    decodePdu [0x14, 0x07, 0x06, 0x00, 0x04, 0x00, 0x01, 0x00, 0x03]
      = .ok (.readFileRecord (.fields [0x06, 0x00, 0x04, 0x00, 0x01, 0x00, 0x03])) := rfl
theorem test_decode_writeFileRecord :
    decodePdu [0x15, 0x01, 0x06]
      = .ok (.writeFileRecord (.fields [0x06])) := rfl
theorem test_decode_maskWriteRegister :
    decodePdu [0x16, 0x00, 0x04, 0x00, 0xF2, 0x00, 0x25]
      = .ok (.maskWriteRegister (.fields ⟨0x0004, 0x00F2, 0x0025⟩)) := rfl
theorem test_decode_readWriteMultipleRegisters :
    decodePdu [0x17, 0x00, 0x05, 0x00, 0x02, 0x00, 0x01, 0x00, 0x03, 0x02, 0xAB, 0xCD]
      = .ok (.readWriteMultipleRegisters
          (.fields ⟨0x0005, 0x0002, 0x0001, 0x0003, [0xAB, 0xCD]⟩)) := rfl
theorem test_decode_diagReturnQueryData :
    decodePdu [0x08, 0x00, 0x00, 0xA5, 0x37]
      = .ok (.diagReturnQueryData [0xA5, 0x37]) := rfl
theorem test_decode_diagRestartCommunications :
    decodePdu [0x08, 0x00, 0x01, 0xFF, 0x00]
      = .ok (.diagRestartCommunications (.fields 0xFF00)) := rfl
theorem test_decode_diagReturnDiagnosticRegister :
    decodePdu [0x08, 0x00, 0x02, 0x00, 0x01]
      = .ok (.diagReturnDiagnosticRegister (.fields 0x0001)) := rfl
theorem test_decode_diagChangeAsciiDelimiter :
    decodePdu [0x08, 0x00, 0x03, 0x3A, 0x00]
      = .ok (.diagChangeAsciiDelimiter (.fields ⟨0x3A, 0x00⟩)) := rfl
theorem test_decode_diagForceListenOnly :
    decodePdu [0x08, 0x00, 0x04, 0x00, 0x00]
      = .ok (.diagForceListenOnly (.fields 0x0000)) := rfl
theorem test_decode_diagClearCounters :
    decodePdu [0x08, 0x00, 0x0A, 0x00, 0x00]
      = .ok (.diagClearCounters (.fields 0x0000)) := rfl
theorem test_decode_diagReturnBusMessageCount :
    decodePdu [0x08, 0x00, 0x0B, 0x00, 0x00]
      = .ok (.diagReturnBusMessageCount (.fields 0x0000)) := rfl
theorem test_decode_diagReturnBusCommErrorCount :
    decodePdu [0x08, 0x00, 0x0C, 0x00, 0x00]
      = .ok (.diagReturnBusCommErrorCount (.fields 0x0000)) := rfl
theorem test_decode_diagReturnExceptionErrorCount :
    decodePdu [0x08, 0x00, 0x0D, 0x00, 0x00]
      = .ok (.diagReturnExceptionErrorCount (.fields 0x0000)) := rfl
theorem test_decode_diagReturnServerMessageCount :
    decodePdu [0x08, 0x00, 0x0E, 0x00, 0x00]
      = .ok (.diagReturnServerMessageCount (.fields 0x0000)) := rfl
theorem test_decode_diagReturnServerNoResponseCount :
    decodePdu [0x08, 0x00, 0x0F, 0x00, 0x00]
      = .ok (.diagReturnServerNoResponseCount (.fields 0x0000)) := rfl
theorem test_decode_diagReturnNakCount :
    decodePdu [0x08, 0x00, 0x10, 0x00, 0x00]
      = .ok (.diagReturnNakCount (.fields 0x0000)) := rfl
theorem test_decode_diagReturnBusyCount :
    decodePdu [0x08, 0x00, 0x11, 0x00, 0x00]
      = .ok (.diagReturnBusyCount (.fields 0x0000)) := rfl
theorem test_decode_diagReturnBusCharOverrunCount :
    decodePdu [0x08, 0x00, 0x12, 0x00, 0x00]
      = .ok (.diagReturnBusCharOverrunCount (.fields 0x0000)) := rfl
theorem test_decode_diagClearOverrun :
    decodePdu [0x08, 0x00, 0x14, 0x00, 0x00]
      = .ok (.diagClearOverrun (.fields 0x0000)) := rfl
theorem test_decode_diagUnimplementedSub :
    decodePdu [0x08, 0x01, 0x00, 0x00, 0x00]
      = .ok (.diagUnimplementedSub (.unknown 0x0100 [0x00, 0x00])) := rfl
theorem test_decode_diagUnimplementedSub_short :
    decodePdu [0x08, 0x00]
      = .ok (.diagUnimplementedSub (.truncated [0x00])) := rfl
theorem test_decode_reportSlaveId :
    decodePdu [0x11]
      = .ok (.reportSlaveId []) := rfl
theorem test_decode_fallback :
    decodePdu [0x80, 0x01]
      = .ok (.fallback 0x80 [0x01]) := rfl
theorem test_decode_rxRtu : decode (.command (.rxRtu [0x11])) = .ok (.rxRtu [0x11]) := rfl
theorem test_decode_rxAscii : decode (.command (.rxAscii [0x3A])) = .ok (.rxAscii [0x3A]) := rfl
theorem test_decode_rxTcp : decode (.command (.rxTcp [0x11])) = .ok (.rxTcp [0x11]) := rfl
theorem test_decode_rxPdu : decode (.command (.rxPdu [0x41])) = .ok (.rxPdu [0x41]) := rfl
theorem test_decode_setStatus : decode (.command (.setStatus 0xFFFF)) = .ok (.setStatus 0xFFFF) := rfl
theorem test_decode_empty : decodePdu [] = .error .emptyPdu := rfl
theorem test_decode_oversize : decodePdu (List.replicate 254 0x41) = .error .oversizePdu := by decide +kernel

/-! ## Words of the opcode table -/

theorem test_word_fc : decodeTableWord 8 0x16 = some (.maskWriteRegister (.fields ⟨0, 0, 0⟩)) := by decide
theorem test_word_sub : decodeTableWord 24 0x08000A = some (.diagClearCounters (.fields 0)) := by decide
theorem test_word_unimplemented :
    decodeTableWord 8 0x08 = some (.diagUnimplementedSub (.truncated [])) := by decide
theorem test_word_runs : output (State.reset.withFetchWord 24 0x08000B) = some [[8, 0, 0x0B, 0, 0]] := by
  decide

/-! ## Integrity codes (V-INT-1, V-INT-2, V-INT-3, V-INT-10) -/

theorem test_crc_frame : crc16 [0x11, 0x03, 0x00, 0x6B, 0x00, 0x03] = 0x8776 := by decide +kernel
theorem test_crc_check :
    crc16 [0x31, 0x32, 0x33, 0x34, 0x35, 0x36, 0x37, 0x38, 0x39] = 0x4B37 := by decide +kernel
theorem test_lrc : lrc [0x11, 0x03, 0x00, 0x6B, 0x00, 0x03] = 0x7E := by decide
theorem test_hex : hexString [0xAE] = [0x41, 0x45] := by decide
theorem test_unhex_lower : unhexString [0x61, 0x65] = none := by decide

/-! ## Images of the register types (R92) -/

theorem test_image_u32 : image .u32 (.scalar 0x12345678) = [0x1234, 0x5678] := by decide
theorem test_image_bytes : image (.blkU8 3) (.bytes [0xAA, 0xBB, 0xCC]) = [0xAABB, 0xCC00] := by decide
theorem test_stored_u8 : storedWord .u8 0 0x1234 = 0x0034 := by decide

/-! ## Single steps: the receive commands -/

/-- HOLDING of the framers' vectors. -/
def oneReg : InstanceConfig := withHolding [reg 1]

/-- V-RTU-2, first step: the receive event is logged, the request waits to be run. -/
theorem test_rtu_good :
    logAfter (told oneReg World.initial (.rxRtu [0x11, 0x03, 0x00, 0x01, 0x00, 0x01, 0xD7, 0x5A]))
      = some ([0x80], .exec) := by decide +kernel
/-- V-RTU-3. -/
theorem test_rtu_bad_crc :
    logAfter (told oneReg World.initial (.rxRtu [0x11, 0x03, 0x00, 0x01, 0x00, 0x01, 0xD5, 0xCB]))
      = some ([0x82], .idle) := by decide +kernel
/-- V-ASC-2, first step. -/
theorem test_ascii_good :
    logAfter (told oneReg World.initial
      (.rxAscii [0x3A, 0x31, 0x31, 0x30, 0x33, 0x30, 0x30, 0x30, 0x31, 0x30, 0x30, 0x30, 0x31, 0x45,
        0x41, 0x0D, 0x0A])) = some ([0x80], .exec) := by decide +kernel
/-- V-ASC-3: lower-case hex. -/
theorem test_ascii_lower :
    logAfter (told oneReg World.initial
      (.rxAscii [0x3A, 0x31, 0x31, 0x30, 0x33, 0x30, 0x30, 0x30, 0x31, 0x30, 0x30, 0x30, 0x31, 0x65,
        0x61, 0x0D, 0x0A])) = some ([0x82], .idle) := by decide +kernel
/-- V-TCP-6, first step: a broadcast. -/
theorem test_tcp_broadcast :
    logAfter (told oneReg World.initial (.rxTcp [0, 7, 0, 0, 0, 6, 0, 6, 0, 1, 0, 7]))
      = some ([0xC0], .exec) := by decide +kernel
/-- V-TCP-4: the length field. -/
theorem test_tcp_length :
    logAfter (told oneReg World.initial (.rxTcp [0, 7, 0, 0, 0, 7, 0x11, 3, 0, 1, 0, 1]))
      = some ([0x82], .idle) := by decide +kernel
/-- V-DSP-1. -/
theorem test_pdu_empty : logAfter (told oneReg World.initial (.rxPdu [])) = some ([], .idle) := by
  decide +kernel
/-- V-DSP-4: the gate. -/
theorem test_pdu_gated :
    logAfter
      { told oneReg World.initial (.rxPdu [3, 0, 1, 0, 1]) with
        regs := { Registers.reset with isListenOnly := true } } = some ([0x60], .idle) := by
  decide +kernel
/-- R41. -/
theorem test_set_status :
    (next (step (told oneReg World.initial (.setStatus 0xFFFF)))).map (·.regs.status)
      = some 0xFFFF := by decide

/-! ## Single steps: the function codes -/

/-- V-FC01-1. -/
theorem test_readCoils :
    (output (asked (withCoils [coil 0, coil 2]) (cells [(0, 1), (2, 1)]) [1, 0, 0, 0, 4]))
      = some [[1, 1, 5]] := by decide
/-- V-FC01-2. -/
theorem test_readCoils_first :
    (output (asked (withCoils [coil 0, coil 2]) (cells [(0, 1), (2, 1)]) [1, 0, 1, 0, 2]))
      = some [[0x81, 2]] := by decide
/-- V-FC02-1. -/
theorem test_readDiscreteInputs :
    (output (asked (withDiscrete [coil 0xC4, coil 0xC5, coil 0xC6, coil 0xC7, coil 0xC8, coil 0xC9])
      (cells [(0xC4, 1), (0xC6, 1), (0xC7, 1), (0xC9, 1)]) [2, 0, 0xC4, 0, 6]))
      = some [[2, 1, 0x2D]] := by decide
/-- V-FC03-2. -/
theorem test_readHoldingRegisters :
    (output (asked (withHolding [reg 0x6B, reg 0x6C, reg 0x6D])
      (words [(0x6B, 0xAE41), (0x6C, 0x5652), (0x6D, 0x4340)]) [3, 0, 0x6B, 0, 4]))
      = some [[3, 8, 0xAE, 0x41, 0x56, 0x52, 0x43, 0x40, 0, 0]] := by decide
/-- V-FC03-6. -/
theorem test_readHoldingRegisters_inside :
    (output (asked (withHolding [⟨0x10, .u32, .const (.scalar 0x12345678), .none, false, false, false, false⟩])
      World.initial [3, 0, 0x11, 0, 1]))
      = some [[3, 2, 0x56, 0x78]] := by decide
/-- V-FC04-1. -/
theorem test_readInputRegisters :
    (output (asked (withInput [reg 8]) (words [(8, 0x000A)]) [4, 0, 8, 0, 1]))
      = some [[4, 2, 0, 0x0A]] := by decide
/-- V-FC04-2. -/
theorem test_readInputRegisters_absent :
    (output (asked InstanceConfig.testVectors World.initial [4, 0, 8, 0, 1]))
      = some [[0x84, 1]] := by decide
/-- V-FC05-1. -/
theorem test_writeSingleCoil :
    (cellAfter 0xAC (asked (withCoils [coil 0xAC]) World.initial [5, 0, 0xAC, 0xFF, 0]))
      = some 1 := by decide
/-- V-FC05-2. -/
theorem test_writeSingleCoil_value :
    (output (asked (withCoils [coil 0xAC]) World.initial [5, 0, 0xAC, 0x12, 0x34]))
      = some [[0x85, 3]] := by decide
/-- V-FC06-1. -/
theorem test_writeSingleRegister :
    (wordAfter 1 (asked oneReg World.initial [6, 0, 1, 0, 3]))
      = some 3 := by decide
/-- V-FC06-2. -/
theorem test_writeSingleRegister_missing :
    (output (asked oneReg World.initial [6, 0, 2, 0, 3]))
      = some [[0x86, 2]] := by decide
/-- V-FC07-1. -/
theorem test_readExceptionStatus :
    (output (asked (withCallbacks allCallbacks) (answering [.byte 0x6D]) [7]))
      = some [[7, 0x6D]] := by decide
/-- V-FC07-3. -/
theorem test_readExceptionStatus_absent :
    (output (asked InstanceConfig.testVectors World.initial [7]))
      = some [[0x87, 1]] := by decide
/-- V-FC0B-3. -/
theorem test_getCommEventCounter :
    output
      { asked oneReg World.initial [0x0B] with regs := { Registers.reset with status := 0xFFFF } }
      = some [[0x0B, 0xFF, 0xFF, 0, 0]] := by decide
/-- V-FC0C-1. -/
theorem test_getCommEventLog :
    output
      { asked oneReg World.initial [0x0C] with
        regs :=
          { Registers.reset with
            counters := ⟨0, 0, 0, 2, 0, 0, 0, 0, 1⟩, ring := EventRing.empty.append 0x40 } }
      = some [[0x0C, 7, 0, 0, 0, 1, 0, 0, 0x40]] := by decide
/-- V-FC0F-1: the coils that are ON afterwards. -/
theorem test_writeMultipleCoils :
    ((next (step (asked (withCoils [coil 0x13, coil 0x14, coil 0x15, coil 0x16, coil 0x17,
      coil 0x18, coil 0x19, coil 0x1A, coil 0x1B, coil 0x1C])
      World.initial [0x0F, 0, 0x13, 0, 0x0A, 2, 0xCD, 1]))).map (·.world.byteCells))
      = some [(0x13, 1), (0x15, 1), (0x16, 1), (0x19, 1), (0x1A, 1), (0x1B, 1)] := by decide
/-- V-FC0F-3, cut short: nothing is written. -/
theorem test_writeMultipleCoils_missing :
    ((next (step (asked (withCoils [coil 0x13, coil 0x15])
      World.initial [0x0F, 0, 0x13, 0, 0x03, 1, 0xCD]))).map fun s => (s.outputs, s.world.byteCells))
      = some ([[0x8F, 2]], []) := by decide
/-- V-FC10-2. -/
theorem test_writeMultipleRegisters :
    (wordAfter 2 (asked (withHolding [reg 1, reg 2]) World.initial
      [0x10, 0, 1, 0, 2, 4, 0, 0x0A, 1, 2]))
      = some 0x0102 := by decide
/-- V-SCN-6. -/
theorem test_writeMultipleRegisters_missing :
    ((next (step (asked (withHolding [reg 1, reg 3]) (words [(1, 0x1111), (3, 0x3333)])
      [0x10, 0, 1, 0, 3, 6, 0, 0x0A, 1, 2, 0, 3]))).map fun s =>
        (s.outputs, s.world.wordCells.readWord 1 0))
      = some ([[0x90, 2]], 0x1111) := by decide
/-- V-SCN-4. -/
theorem test_readFileRecord :
    (output (asked (withFiles [⟨3, [reg 9, reg 10]⟩, ⟨4, [reg 1, reg 2]⟩])
      (words [(9, 0xDEAD), (10, 0xBEEF), (1, 0x1234), (2, 0xABCD)])
      [0x14, 0x0E, 6, 0, 4, 0, 1, 0, 2, 6, 0, 3, 0, 9, 0, 2]))
      = some [[0x14, 0x0C, 5, 6, 0x12, 0x34, 0xAB, 0xCD, 5, 6, 0xDE, 0xAD, 0xBE, 0xEF]] := by decide
/-- V-FC14-10. -/
theorem test_readFileRecord_too_long :
    (output (asked (withFiles [⟨4, [reg 1]⟩]) World.initial [0x14, 7, 6, 0, 4, 0, 1, 0, 0x7A]))
      = some [[0x94, 3]] := by decide
/-- V-FC15-5. -/
theorem test_writeFileRecord :
    (wordAfter 0 (asked (withFiles [⟨4, [reg 7, reg 8, reg 9]⟩, ⟨5, [reg 0]⟩]) World.initial
      [0x15, 0x12, 6, 0, 4, 0, 7, 0, 1, 0x11, 0x11, 6, 0, 5, 0, 0, 0, 1, 0x22, 0x22]))
      = some 0x2222 := by decide
/-- V-FC15-6. -/
theorem test_writeFileRecord_tail :
    ((next (step (asked (withFiles [⟨4, [reg 7, reg 8, reg 9]⟩, ⟨5, [reg 0]⟩]) World.initial
      [0x15, 0x15, 6, 0, 4, 0, 7, 0, 1, 0x11, 0x11, 6, 0, 5, 0, 0, 0, 1, 0x22, 0x22, 6, 0, 4]))).map
        fun s => (s.outputs, s.world.wordCells))
      = some ([[0x95, 3]], []) := by decide
/-- V-FC16-1. -/
theorem test_maskWriteRegister :
    (wordAfter 4 (asked (withHolding [reg 4]) (words [(4, 0x0012)]) [0x16, 0, 4, 0, 0xF2, 0, 0x25]))
      = some 0x0017 := by decide
/-- V-FC17-1. -/
theorem test_readWriteMultipleRegisters :
    (output (asked (withHolding [reg 0, reg 1]) World.initial
      [0x17, 0, 0, 0, 2, 0, 1, 0, 1, 2, 0xAB, 0xCD]))
      = some [[0x17, 4, 0, 0, 0xAB, 0xCD]] := by decide
/-- V-FC17-4. -/
theorem test_readWriteMultipleRegisters_missing :
    ((next (step (asked (withHolding [reg 0, reg 1]) World.initial
      [0x17, 0, 0, 0, 2, 0, 1, 0, 2, 4, 0, 1, 0, 2]))).map fun s => (s.outputs, s.world.wordCells))
      = some ([[0x97, 2]], []) := by decide
/-- D-1. -/
theorem test_diagReturnQueryData :
    (output (asked InstanceConfig.testVectors World.initial [8, 0, 0, 0xA5, 0x37]))
      = some [[8, 0, 0, 0xA5, 0x37]] := by decide
/-- D-15. -/
theorem test_diagRestartCommunications :
    (output (asked InstanceConfig.testVectors World.initial [8, 0, 1, 0x12, 0x34]))
      = some [[0x88, 3]] := by decide
/-- D-16: COMM_RESTART, then the send event. -/
theorem test_diagRestartCommunications_log :
    (logAfter (asked InstanceConfig.testVectors World.initial [8, 0, 1, 0, 0]))
      = some ([0x40, 0x00], .idle) := by decide
/-- D-7. -/
theorem test_diagReturnDiagnosticRegister :
    (output (asked InstanceConfig.testVectors World.initial [8, 0, 2, 0, 0]))
      = some [[8, 0, 2, 0, 0]] := by decide
/-- R445. -/
theorem test_diagReturnDiagnosticRegister_host :
    (output (asked (withCallbacks allCallbacks) (answering [.word 0x1234]) [8, 0, 2, 0, 0]))
      = some [[8, 0, 2, 0x12, 0x34]] := by decide
/-- D-9. -/
theorem test_diagChangeAsciiDelimiter :
    ((next (step (asked InstanceConfig.testVectors World.initial [8, 0, 3, 0x3A, 0]))).map (·.regs.asciiDelimiter))
      = some 0x3A := by decide
/-- D-10. -/
theorem test_diagChangeAsciiDelimiter_high :
    (output (asked InstanceConfig.testVectors World.initial [8, 0, 3, 0x80, 0]))
      = some [[0x88, 3]] := by decide
/-- The second diagnostic sequence, step 1. -/
theorem test_diagForceListenOnly :
    ((next (step (asked InstanceConfig.testVectors
      World.initial [8, 0, 4, 0, 0]))).map fun s => (s.outputs, s.regs.isListenOnly))
      = some ([[]], true) := by decide

/-- Registers whose nine counters all differ. -/
def counted : Registers := { Registers.reset with counters := ⟨1, 2, 3, 4, 5, 6, 7, 8, 9⟩ }

/-- R450. -/
theorem test_diagReturnBusMessageCount :
    (output { asked InstanceConfig.testVectors World.initial [8, 0, 0x0B, 0, 0] with regs := counted })
      = some [[8, 0, 0x0B, 0, 1]] := by decide
/-- R450. -/
theorem test_diagReturnBusCommErrorCount :
    (output { asked InstanceConfig.testVectors World.initial [8, 0, 0x0C, 0, 0] with regs := counted })
      = some [[8, 0, 0x0C, 0, 2]] := by decide
/-- R450. -/
theorem test_diagReturnExceptionErrorCount :
    (output { asked InstanceConfig.testVectors World.initial [8, 0, 0x0D, 0, 0] with regs := counted })
      = some [[8, 0, 0x0D, 0, 3]] := by decide
/-- R450. -/
theorem test_diagReturnServerMessageCount :
    (output { asked InstanceConfig.testVectors World.initial [8, 0, 0x0E, 0, 0] with regs := counted })
      = some [[8, 0, 0x0E, 0, 4]] := by decide
/-- R450. -/
theorem test_diagReturnServerNoResponseCount :
    (output { asked InstanceConfig.testVectors World.initial [8, 0, 0x0F, 0, 0] with regs := counted })
      = some [[8, 0, 0x0F, 0, 5]] := by decide
/-- R450. -/
theorem test_diagReturnNakCount :
    (output { asked InstanceConfig.testVectors World.initial [8, 0, 0x10, 0, 0] with regs := counted })
      = some [[8, 0, 0x10, 0, 6]] := by decide
/-- R450. -/
theorem test_diagReturnBusyCount :
    (output { asked InstanceConfig.testVectors World.initial [8, 0, 0x11, 0, 0] with regs := counted })
      = some [[8, 0, 0x11, 0, 7]] := by decide
/-- R450. -/
theorem test_diagReturnBusCharOverrunCount :
    (output { asked InstanceConfig.testVectors World.initial [8, 0, 0x12, 0, 0] with regs := counted })
      = some [[8, 0, 0x12, 0, 8]] := by decide
/-- R449. -/
theorem test_diagClearCounters :
    ((next (step { asked InstanceConfig.testVectors
      World.initial [8, 0, 0x0A, 0, 0] with regs := counted })).map (·.regs.counters))
      = some ⟨0, 0, 0, 0, 0, 0, 0, 0, 0⟩ := by decide
/-- R451. -/
theorem test_diagClearOverrun :
    ((next (step { asked InstanceConfig.testVectors
      World.initial [8, 0, 0x14, 0, 0] with regs := counted })).map (·.regs.counters))
      = some ⟨1, 2, 3, 4, 5, 6, 7, 0, 9⟩ := by decide
/-- D-4. -/
theorem test_diagUnimplementedSub :
    (output (asked InstanceConfig.testVectors World.initial [8, 0, 0x13, 0, 0]))
      = some [[0x88, 1]] := by decide
/-- D-3. -/
theorem test_diagUnimplementedSub_short :
    (output (asked InstanceConfig.testVectors World.initial [8, 0]))
      = some [[0x88, 3]] := by decide
/-- V-DSP-3. -/
theorem test_reportSlaveId :
    (output (asked (withCallbacks allCallbacks) (answering [.statusBody 0 [2, 1, 0xFF]]) [0x11]))
      = some [[0x11, 2, 1, 0xFF]] := by decide
/-- V-DSP-3: NEG_ACK. -/
theorem test_fallback :
    (output (asked (withCallbacks allCallbacks) (answering [.statusBody 7 []]) [0x41]))
      = some [[0xC1, 7]] := by decide
/-- V-DSP-2. -/
theorem test_fallback_absent :
    (logAfter (asked InstanceConfig.testVectors World.initial [0x41]))
      = some ([0x41], .idle) := by decide

/-! ## For every statement with hypotheses, a state and operands that meet them -/

/-- A step that completes has a next state. -/
theorem completes {o : Answer} (h : (next o).isSome = true) : ∃ s', o = .next s' := by
  cases o with
  | next s => exact ⟨s, rfl⟩
  | fault f => cases h
  | refused r => cases h

/-- The transaction of `asked`. -/
def asking (p : List Byte) : Txn := fetchedTxn p false

theorem asked_atHandler (cfg : InstanceConfig) (w : World) (p : List Byte) :
    AtHandler (asked cfg w p) (asking p) false := ⟨rfl, rfl, rfl, rfl⟩

/-- A machine that waits, with these callbacks and no tables. -/
def plain : State := State.reset

/-- A machine in listen-only mode. -/
def listening : State := { State.reset with regs := { Registers.reset with isListenOnly := true } }

/-- A machine in which one request is at its handler, over the configuration and the host given. -/
abbrev at1 (cfg : InstanceConfig) (w : World) : State := asked cfg w [0x41]

/-- A write single coil and a register with a commit callback that a scripted host answers. -/
def committing : InstanceConfig :=
  { InstanceConfig.testVectors with
    coils := some [coil 0, coil 0xFFFF]
    holding := some [reg 0, reg 0xFFFF]
    callbacks := allCallbacks }

theorem witness_DecodeOfEncodeIsTheInstruction :
    (Instr.writeFileRecord (.fields (List.replicate 251 0))).wf = true
      ∧ (Instr.diagUnimplementedSub (.truncated [0])).wf = true
      ∧ (Instr.readCoils (.badLength [])).wf = true := by decide +kernel

theorem witness_EveryPduDecodesToItsEncoding :
    (1 ≤ ([0x41] : List Byte).length ∧ ([0x41] : List Byte).length ≤ 253)
      ∧ (1 ≤ (List.replicate 253 (0x41 : Byte)).length
        ∧ (List.replicate 253 (0x41 : Byte)).length ≤ 253)
      ∧ ([] : List Byte).length = 0 ∧ 253 < (List.replicate 254 (0x41 : Byte)).length := by
  decide +kernel

theorem witness_StepRunsWhatItFetches_exec :
    (at1 oneReg World.initial).phase = .exec
      ∧ (at1 oneReg World.initial).txn = some (asking [0x41])
      ∧ (asking [0x41]).req = some [0x41] ∧ decodePdu [0x41] = .ok (.fallback 0x41 []) :=
  ⟨rfl, rfl, rfl, rfl⟩

theorem witness_StepRunsWhatItFetches_idle :
    (told oneReg World.initial (.rxPdu [0x41])).phase = .idle
      ∧ (told oneReg World.initial (.rxPdu [0x41])).pending = ⟨[], .rxPdu [0x41]⟩ :: []
      ∧ plain.phase = .idle ∧ plain.pending = [] := ⟨rfl, rfl, rfl, rfl⟩

theorem witness_CreationLeavesTheResetValues :
    configValid { InstanceConfig.testVectors with slaveAddr := 1 } = true
      ∧ configValid { InstanceConfig.testVectors with slaveAddr := 247 } = true
      ∧ configValid { InstanceConfig.testVectors with slaveAddr := 0 } = false
      ∧ configValid { InstanceConfig.testVectors with slaveAddr := 248 } = false := by decide

theorem witness_StepKeepsTheInvariant :
    (told oneReg World.initial (.rxPdu [0x41])).inv = true
      ∧ (∃ s', step (told oneReg World.initial (.rxPdu [0x41])) = .next s')
      ∧ (at1 oneReg World.initial).inv = true ∧ ∃ s', step (at1 oneReg World.initial) = .next s' :=
  ⟨by decide, completes (by decide), by decide, completes (by decide)⟩

theorem witness_StepStopsOnlyOnABrokenContract :
    (at1 oneReg World.initial).inv = true ∧ (at1 oneReg World.initial).hostFree = true
      ∧ (asked (withCallbacks allCallbacks) (answering [.unit]) [7]).inv = true
      ∧ step (asked (withCallbacks allCallbacks) (answering [.unit]) [7])
        = .fault .callbackAnswerType := ⟨by decide, by decide, by decide, rfl⟩

/-- With a host that keeps its contract, and with one whose next answer breaks it in the command's second
step. -/
theorem witness_EveryCommandReturnsOneOutput :
    (told oneReg World.initial (.rxPdu [0x41])).inv = true
      ∧ (told oneReg World.initial (.rxPdu [0x41])).hostFree = true
      ∧ (told oneReg World.initial (.rxPdu [0x41])).phase = .idle
      ∧ (told oneReg World.initial (.rxPdu [0x41])).pending = ⟨[], .rxPdu [0x41]⟩ :: []
      ∧ (told (withCallbacks allCallbacks) (answering [.unit]) (.rxPdu [7])).inv = true
      ∧ (next (step (told (withCallbacks allCallbacks) (answering [.unit]) (.rxPdu [7])))).map step
        = some (.fault .callbackAnswerType) :=
  ⟨by decide, by decide, by decide, by decide, by decide, rfl⟩

theorem witness_OutputsFitTheirBuffers :
    (at1 oneReg World.initial).inv = true ∧ (at1 oneReg World.initial).phase = .exec
      ∧ (at1 oneReg World.initial).txn = some (asking [0x41])
      ∧ ∃ s', step (at1 oneReg World.initial) = .next s' :=
  ⟨by decide, rfl, rfl, completes (by decide)⟩

theorem witness_ConfigurationIsNeverWritten :
    ∃ s', step (told oneReg World.initial (.setStatus 0x1234)) = .next s' := completes (by decide)

theorem witness_RegistersHaveTheirWritersOnly :
    (∃ s', exec (.diagForceListenOnly (.fields 0)) (at1 oneReg World.initial) = .next s')
      ∧ (∃ s', exec (.diagRestartCommunications (.fields 0xFF00)) (at1 oneReg World.initial)
        = .next s')
      ∧ (∃ s', exec (.diagChangeAsciiDelimiter (.fields ⟨127, 0⟩)) (at1 oneReg World.initial)
        = .next s')
      ∧ (∃ s', exec (.setStatus 0x1234) (told oneReg World.initial (.setStatus 0x1234)) = .next s')
      ∧ (∃ s', exec (.diagClearCounters (.fields 0)) (at1 oneReg World.initial) = .next s')
      ∧ ∃ s', exec (.diagClearOverrun (.fields 0)) (at1 oneReg World.initial) = .next s' :=
  ⟨completes (by decide), completes (by decide), completes (by decide), completes (by decide),
    completes (by decide), completes (by decide)⟩

theorem witness_CommandsOutOfContractAreRefused :
    (at1 oneReg World.initial).busy = true
      ∧ (State.created { InstanceConfig.testVectors with slaveAddr := 0 } World.initial).busy = false
      ∧ configValid
          (State.created { InstanceConfig.testVectors with slaveAddr := 0 } World.initial).cfg = false
      ∧ (answering [.reenters (.setStatus 1)]).script = ⟨.reenters (.setStatus 1), []⟩ :: [] := by
  decide

/-- Spans 0..1, 2 and 0xFFFF: both ends of each, and an address between them. -/
theorem witness_LookupFindsTheOneCover :
    regTableValid [block 0 2, reg 2, reg 0xFFFF] = true
      ∧ cover [block 0 2, reg 2, reg 0xFFFF] 0 = some (block 0 2)
      ∧ cover [block 0 2, reg 2, reg 0xFFFF] 1 = some (block 0 2)
      ∧ cover [block 0 2, reg 2, reg 0xFFFF] 2 = some (reg 2)
      ∧ cover [block 0 2, reg 2, reg 0xFFFF] 3 = none
      ∧ cover [block 0 2, reg 2, reg 0xFFFF] 0xFFFF = some (reg 0xFFFF)
      ∧ regTableValid [block 0 3, reg 2] = false ∧ regTableValid [block 0xFFFF 2] = false := by decide

theorem witness_CrcDetectsEverySubstitution :
    0 < ([0x11, 0x07] : List Byte).length ∧ (0x12 : Byte) ≠ ([0x11, 0x07] : List Byte).getD 0 0 := by
  decide

/-- "11EF" with its second character replaced by '2' still decodes. -/
theorem witness_AsciiDetectsEverySubstitution :
    1 < (hexString ([0x11] ++ [lrc [0x11]])).length
      ∧ (0x32 : Byte) ≠ (hexString ([0x11] ++ [lrc [0x11]])).getD 1 0
      ∧ unhexString ((hexString ([0x11] ++ [lrc [0x11]])).set 1 0x32) = some [0x12, 0xEF] := by decide

theorem witness_HexCodecIsExact :
    hexString [0x0F, 0xA9] = [0x30, 0x46, 0x41, 0x39] ∧ (0xA9 : Byte).toNat / 16 = 10
      ∧ (0xA9 : Byte).toNat % 16 = 9 := by decide

/-- The shortest and the longest request, each accepted address, and a restart in listen-only mode. -/
theorem witness_RtuFrameReachesItsHandler :
    plain.takesCommand = true ∧ accept plain.cfg 0x11 = true ∧ accept plain.cfg 0x00 = true
      ∧ accept { plain.cfg with defaultRespEn := true } 0xF8 = true
      ∧ 1 ≤ ([0x41] : List Byte).length ∧ ([0x41] : List Byte).length ≤ 253
      ∧ gateOpen plain [0x41] = true
      ∧ (List.replicate 253 (0x41 : Byte)).length ≤ 253
      ∧ gateOpen plain (List.replicate 253 0x41) = true
      ∧ listening.takesCommand = true ∧ gateOpen listening [8, 0, 1] = true := by decide +kernel

theorem witness_AsciiFrameReachesItsHandler :
    plain.takesCommand = true ∧ accept plain.cfg 0x11 = true ∧ 2 ≤ ([0x41, 0] : List Byte).length
      ∧ ([0x41, 0] : List Byte).length ≤ 253 ∧ gateOpen plain [0x41, 0] = true := by decide

theorem witness_TcpFrameReachesItsHandler :
    plain.takesCommand = true ∧ accept plain.cfg 0x00 = true ∧ 1 ≤ ([0x41] : List Byte).length
      ∧ ([0x41] : List Byte).length ≤ 253 ∧ gateOpen plain [0x41] = true := by decide

theorem witness_BarePduReachesItsHandler :
    listening.takesCommand = true ∧ 1 ≤ ([8, 0, 1] : List Byte).length
      ∧ ([8, 0, 1] : List Byte).length ≤ 253 ∧ gateOpen listening [8, 0, 1] = true := by decide

theorem witness_PduOutOfLengthChangesNothing :
    plain.takesCommand = true ∧ ([] : List Byte).length < 1
      ∧ 253 < (List.replicate 254 (0x41 : Byte)).length := by decide +kernel

theorem witness_GateDropsAllButTheRestart :
    listening.takesCommand = true ∧ 1 ≤ ([8, 0] : List Byte).length
      ∧ ([8, 0] : List Byte).length ≤ 253 ∧ gateOpen listening [8, 0] = false
      ∧ accept listening.cfg 0x00 = true ∧ accept listening.cfg 0x11 = true
      ∧ 2 ≤ ([8, 0] : List Byte).length := by decide

theorem witness_SetStatusWritesTheStatusWord :
    plain.takesCommand = true ∧ plain.phase = .idle ∧ plain.txn = none := by decide

/-- Each clause at the nearest length to its range, and each defect of an ASCII frame. -/
theorem witness_ShapelessFramesChangeNothing :
    plain.takesCommand = true ∧ ([0x11, 7, 0] : List Byte).length < 4
      ∧ 256 < (List.replicate 257 (0 : Byte)).length
      ∧ ([0, 7, 0, 0, 0, 1, 0x11] : List Byte).length < 8
      ∧ 260 < (List.replicate 261 (0 : Byte)).length
      ∧ (List.replicate 10 (0x3A : Byte)).length < 11
      ∧ 513 < (List.replicate 514 (0x3A : Byte)).length
      ∧ (List.replicate 12 (0x3A : Byte)).length % 2 = 0
      ∧ (List.replicate 11 (0x3B : Byte)).getD 0 0 ≠ 0x3A
      ∧ (List.replicate 11 (0x3A : Byte)).getD (11 - 2) 0 ≠ 0x0D
      ∧ (List.replicate 11 (0x3A : Byte)).getD (11 - 1) 0 ≠ plain.regs.asciiDelimiter := by
  decide +kernel

/-- The shortest frame of each transport, with a bad CRC, a bad protocol id, a bad length field, a bad LRC and
a character that is no digit. -/
theorem witness_CorruptFramesAreCountedAndDropped :
    plain.takesCommand = true
      ∧ (4 ≤ ([0x11, 7, 0, 0] : List Byte).length ∧ ([0x11, 7, 0, 0] : List Byte).length ≤ 256
        ∧ crc16 [0x11, 7] ≠ le16 0 0)
      ∧ (8 ≤ ([0, 7, 0, 1, 0, 2, 0x11, 7] : List Byte).length ∧ be16 0 1 ≠ 0x0000)
      ∧ (8 ≤ ([0, 7, 0, 0, 0, 3, 0x11, 7] : List Byte).length ∧ (be16 0 3).toNat ≠ 8 - 6)
      ∧ (unhexString [0x31, 0x31, 0x30, 0x37, 0x30, 0x30, 0x45, 0x39] = some [0x11, 0x07, 0x00, 0xE9]
        ∧ lrcPasses [0x11, 0x07, 0x00, 0xE9] = false)
      ∧ unhexString [0x31, 0x31, 0x30, 0x37, 0x30, 0x30, 0x45, 0x67] = none := by decide +kernel

theorem witness_CorruptFramesAreCountedAndDropped_ascii :
    ∀ f : List Byte,
      f = [0x3A, 0x31, 0x31, 0x30, 0x37, 0x30, 0x30, 0x45, 0x39, 0x0D, 0x0A] →
      11 ≤ f.length ∧ f.length ≤ 513 ∧ f.length % 2 = 1 ∧ f.getD 0 0 = 0x3A
        ∧ f.getD (f.length - 2) 0 = 0x0D ∧ f.getD (f.length - 1) 0 = plain.regs.asciiDelimiter
        ∧ unhexString ((f.take (f.length - 2)).drop 1) = some [0x11, 0x07, 0x00, 0xE9]
        ∧ lrcPasses [0x11, 0x07, 0x00, 0xE9] = false := by
  rintro _ rfl
  decide

theorem witness_ForeignFramesAreLoggedAndDropped :
    plain.takesCommand = true ∧ (0xF8 : Byte) ≠ plain.cfg.slaveAddr ∧ (0xF8 : Byte) ≠ 0x00
      ∧ plain.cfg.defaultRespEn = false ∧ 1 ≤ ([0x41] : List Byte).length
      ∧ ([0x41] : List Byte).length ≤ 253 ∧ 2 ≤ ([0x41, 0] : List Byte).length := by decide

theorem witness_LoopbackReturnsTheFrame :
    ∀ s : State, s = told oneReg World.initial (.rxRtu (rtuFrame [0x11, 8, 0, 0])) →
      s.takesCommand = true ∧ s.phase = .idle ∧ s.txn = none ∧ s.regs.isListenOnly = false
        ∧ accept s.cfg 0x11 = true ∧ (0x11 : Byte) ≠ 0x00 ∧ ([] : List Byte).length ≤ 250
        ∧ (List.replicate 250 (0x55 : Byte)).length ≤ 250
        ∧ s.pending = ⟨[], .rxRtu (rtuFrame [0x11, 8, 0, 0])⟩ :: [] := by
  rintro _ rfl
  decide +kernel

/-- A machine at a handler whose request came in a broadcast frame. -/
def broadcasting : State :=
  { at1 oneReg World.initial with
    txn := some { asking [0x41] with entry := .rtu, addr := some 0x00 } }

/-- A machine at a handler in listen-only mode: the restart. -/
def restarting : State :=
  { listening with
    phase := .exec, busy := true, txn := some (fetchedTxn [8, 0, 1, 0, 0] true) }

theorem witness_SilentRequestsGetNoReply_broadcast :
    fcOf (.fallback 0x41 []) = some 0x41
      ∧ AtHandler broadcasting { asking [0x41] with entry := .rtu, addr := some 0x00 } false
      ∧ (∃ s', exec (.fallback 0x41 []) broadcasting = .next s')
      ∧ (∃ s', exec (.diagRestartCommunications (.fields 0xFF00)) broadcasting = .next s')
      ∧ (∃ s', exec (.diagRestartCommunications (.fields 0xFF01)) broadcasting = .next s')
      ∧ (∃ s', exec (.diagClearCounters (.fields 0x0000)) broadcasting = .next s')
      ∧ isBroadcast { asking [0x41] with entry := .rtu, addr := some 0x00 } = true :=
  ⟨rfl, ⟨rfl, rfl, rfl, rfl⟩, completes (by decide), completes (by decide), completes (by decide),
    completes (by decide), by decide⟩

theorem witness_SilentRequestsGetNoReply_listening :
    fcOf (.diagRestartCommunications (.fields 0)) = some 0x08
      ∧ AtHandler restarting (fetchedTxn [8, 0, 1, 0, 0] true) true
      ∧ ∃ s', exec (.diagRestartCommunications (.fields 0)) restarting = .next s' :=
  ⟨rfl, ⟨rfl, rfl, rfl, rfl⟩, completes (by decide)⟩

theorem witness_PackedBitsAreLsbFirst : 0 < 1 ∧ 7 < 8 := by decide

/-! ### Bit access -/

/-- One address at each end of the quantity's range, at the top of the address space. -/
theorem witness_ReadBitsAnswersTheTable :
    AtHandler (at1 (withCoils [coil 0xF830, coil 0xFFFF]) World.initial) (asking [0x41]) false
      ∧ (1 ≤ (0xFFFF : Word).toNat ∧ (0xFFFF : Word).toNat + (1 : Word).toNat ≤ 0x10000
        ∧ coilReadable [coil 0xF830, coil 0xFFFF] (0xFFFF : Word).toNat = true)
      ∧ ((0x07D0 : Word).toNat ≤ 2000 ∧ (0xF830 : Word).toNat + (0x07D0 : Word).toNat ≤ 0x10000
        ∧ coilReadable [coil 0xF830, coil 0xFFFF] (0xF830 : Word).toNat = true)
      ∧ plainCoilReads [coil 0xF830, coil 0xFFFF] = true
      ∧ (withCoils [coil 0xF830, coil 0xFFFF]).coils = some [coil 0xF830, coil 0xFFFF]
      ∧ (withDiscrete [coil 0xF830, coil 0xFFFF]).discrete = some [coil 0xF830, coil 0xFFFF] :=
  ⟨asked_atHandler _ _ _, by decide⟩

/-- With a commit callback that a scripted host answers, in the top bit of a cell. -/
theorem witness_WriteSingleCoilSetsOneBit :
    AtHandler (at1 committing (answering [.unit])) (asking [0x41]) false
      ∧ (answering [.unit]).good = true
      ∧ findCoil [coil 0, coil 0xFFFF] (0xFFFF : Word).toNat = some (coil 0xFFFF)
      ∧ (coil 0xFFFF).wlock = false ∧ (coil 0xFFFF).wmode = .cell 0xFFFF 0 ∧ 0 ≤ 7
      ∧ ((0xFF00 : Word) = 0x0000 ∨ (0xFF00 : Word) = 0xFF00)
      ∧ listens (coil 0xFFFF).postWrite (answering [.unit]) = true
      ∧ listens committing.callbacks.commitCoilsWrite
          (notified (coil 0xFFFF).postWrite (.coilPostWrite (coil 0xFFFF)) (answering [.unit]))
        = true := ⟨asked_atHandler _ _ _, by decide⟩

theorem witness_SingleWritesCheckTheirTarget_coil :
    AtHandler (at1 (withCoils [⟨0, .none, .none, false, false, false⟩,
        ⟨1, .cell 0 8, .cell 0 8, false, false, false⟩]) World.initial) (asking [0x41]) false
      ∧ ((0x0001 : Word) ≠ 0x0000 ∧ (0x0001 : Word) ≠ 0xFF00)
      ∧ ((0xFF01 : Word) ≠ 0x0000 ∧ (0xFF01 : Word) ≠ 0xFF00)
      ∧ findCoil [⟨0, .none, .none, false, false, false⟩,
          ⟨1, .cell 0 8, .cell 0 8, false, false, false⟩] 2 = none
      ∧ findCoil [⟨0, .none, .none, false, false, false⟩,
          ⟨1, .cell 0 8, .cell 0 8, false, false, false⟩] 0
          = some ⟨0, .none, .none, false, false, false⟩
      ∧ findCoil [⟨0, .none, .none, false, false, false⟩,
          ⟨1, .cell 0 8, .cell 0 8, false, false, false⟩] 1
          = some ⟨1, .cell 0 8, .cell 0 8, false, false, false⟩
      ∧ 7 < 8 := ⟨asked_atHandler _ _ _, by decide⟩

/-- No register at 5; no write access at 0 and 1; a two-word register that forbids partial writes at 2,
entered at its start and inside. -/
theorem witness_SingleWritesCheckTheirTarget_register :
    ∀ T : List RegDesc, T = [⟨0, .u16, .ptr 0, .none, false, false, false, false⟩,
        ⟨1, .u16, .ptr 0, .const (.scalar 0), false, false, false, false⟩,
        ⟨2, .u32, .ptr 0, .ptr 0, false, false, false, false⟩] →
      AtHandler (at1 (withHolding T) World.initial) (asking [0x41]) false
      ∧ cover T 5 = none
      ∧ (cover T 0).map RegDesc.wmode = some .none
      ∧ (cover T 1).map RegDesc.wmode = some (.const (.scalar 0))
      ∧ (cover T 2).map nwords = some 2
      ∧ (cover T 3).map RegDesc.key = some 2
      ∧ T.all (fun d => !d.wlock && !d.allowPartialWrite) = true := by
  rintro _ rfl
  exact ⟨asked_atHandler _ _ _, by decide⟩

theorem witness_WriteMultipleCoilsStoresEveryBit :
    AtHandler (at1 committing (answering [.unit])) (asking [0x41]) false
      ∧ (answering [.unit]).good = true ∧ 1 ≤ (1 : Word).toNat ∧ (1 : Word).toNat ≤ 1968
      ∧ ([1] : List Byte).length = ((1 : Word).toNat + 7) / 8
      ∧ (0xFFFF : Word).toNat + (1 : Word).toNat ≤ 0x10000
      ∧ plainCoilTargets [coil 0, coil 0xFFFF] (0xFFFF : Word).toNat (1 : Word).toNat = true
      ∧ listens committing.callbacks.commitCoilsWrite (answering [.unit]) = true
      ∧ coilTarget [coil 0, coil 0xFFFF] (0xFFFF + 0) = some (0xFFFF, 0)
      ∧ coilTarget [coil 0, coil 0xFFFF] (0xFFFF + 0) ≠ some (0, 0) :=
  ⟨asked_atHandler _ _ _, by decide⟩

theorem witness_WriteMultipleCoilsStoresEveryBit_outside :
    outsideCoils [coil 0, coil 0xFFFF] 0xFFFF 1 0 := by
  intro i hi x hx
  obtain rfl : i = 0 := by omega
  have h : coilTarget [coil 0, coil 0xFFFF] (0xFFFF + 0) = some (0xFFFF, 0) := by decide
  rw [h] at hx
  cases hx
  decide

/-! ### Register access -/

/-- A block register of 125 words at the top of the address space, read whole and by its last word. -/
theorem witness_ReadRegistersAnswersTheImages :
    AtHandler (at1 (withHolding [block 0xFF83 125]) World.initial) (asking [0x41]) false
      ∧ regTableValid [block 0xFF83 125] = true
      ∧ (1 ≤ (0x7D : Word).toNat ∧ (0x7D : Word).toNat ≤ 125
        ∧ (0xFF83 : Word).toNat + (0x7D : Word).toNat ≤ 0x10000
        ∧ regReadable [block 0xFF83 125] (0xFF83 : Word).toNat = true)
      ∧ ((0xFFFF : Word).toNat + (1 : Word).toNat ≤ 0x10000
        ∧ regReadable [block 0xFF83 125] (0xFFFF : Word).toNat = true)
      ∧ plainRegReads [block 0xFF83 125] = true := ⟨asked_atHandler _ _ _, by decide⟩

/-- A constant of each width, and blocks of bytes of odd and even length, at the top of the address space. -/
theorem witness_ReadRegistersAnswersTheImages_constants :
    (∀ x ∈ ([(.u8, .scalar 0xFF12, 0xFFFF, 1), (.u16, .scalar 0x1234, 0xFFFF, 1),
        (.f32, .scalar 0x12345678, 0xFFFE, 2), (.i64, .scalar 0x123456789ABCDEF0, 0xFFFC, 4),
        (.blkU8 3, .bytes [1, 2, 3], 0xFFFE, 2), (.blkU8 2, .bytes [1, 2], 0xFFFF, 1),
        (.blkU16 2, .words [1, 2], 0xFFFE, 2)] : List (RegType × ConstValue × Word × Word)),
      ∀ d : RegDesc, d = ⟨x.2.2.1, x.1, .const x.2.1, .none, false, false, false, false⟩ →
      regTableValid [d] = true ∧ plainRegReads [d] = true ∧ regReadable [d] x.2.2.1.toNat = true
        ∧ cover [d] x.2.2.1.toNat = some d ∧ x.2.2.1.toNat + x.2.2.2.toNat ≤ 0x10000)
      ∧ (2 : Word).toNat = (([1, 2, 3] : List Byte).length + 1) / 2
      ∧ (1 : Word).toNat = (([1, 2] : List Byte).length + 1) / 2 := by
  refine ⟨fun x hx d hd => ?_, by decide, by decide⟩
  subst hd
  revert x
  decide

theorem witness_UnreadableFirstTargetRaisesAddress :
    AtHandler (at1 { withCoils [coilLocked 1, ⟨2, .none, .none, false, false, false⟩] with
        holding := some [regLocked 1, ⟨2, .u16, .none, .none, false, false, false, false⟩] }
        (answering [.bool true])) (asking [0x41]) false
      ∧ findCoil [coilLocked 1, ⟨2, .none, .none, false, false, false⟩] 0 = none
      ∧ findCoil [coilLocked 1, ⟨2, .none, .none, false, false, false⟩] 2
          = some ⟨2, .none, .none, false, false, false⟩
      ∧ findCoil [coilLocked 1, ⟨2, .none, .none, false, false, false⟩] 1 = some (coilLocked 1)
      ∧ (coilLocked 1).rlock = true
      ∧ cover [regLocked 1, ⟨2, .u16, .none, .none, false, false, false, false⟩] 0 = none
      ∧ cover [regLocked 1, ⟨2, .u16, .none, .none, false, false, false, false⟩] 2
          = some ⟨2, .u16, .none, .none, false, false, false, false⟩
      ∧ cover [regLocked 1, ⟨2, .u16, .none, .none, false, false, false, false⟩] 1
          = some (regLocked 1)
      ∧ (regLocked 1).rlock = true
      ∧ (answering [.bool true]).script = ⟨.bool true, []⟩ :: []
      ∧ 1 ≤ (1 : Word).toNat ∧ (2 : Word).toNat + (1 : Word).toNat ≤ 0x10000 :=
  ⟨asked_atHandler _ _ _, by decide⟩

/-- The locked target second of three, and last of two, at the top of the address space, for each of the four
tables; its lock answers closed, and open. -/
theorem witness_UnreadableFirstTargetRaisesAddress_later :
    ∀ (C : List CoilDesc) (T : List RegDesc), C = [coil 0xFFFD, coilLocked 0xFFFE, coil 0xFFFF] →
      T = [reg 0xFFFD, regLocked 0xFFFE, reg 0xFFFF] →
      AtHandler (at1 { withCoils C with discrete := some C, holding := some T, input := some T }
          (answering [.bool true])) (asking [0x41]) false
        ∧ (0xFFFD : Word).toNat + (3 : Word).toNat ≤ 0x10000 ∧ 0 < 1 ∧ 1 < (2 : Word).toNat
        ∧ findCoil C ((0xFFFD : Word).toNat + 1) = some (coilLocked 0xFFFE)
        ∧ (coilLocked 0xFFFE).rlock = true ∧ coilReadable C (0xFFFD : Word).toNat = true
        ∧ plainCoilReadsOn C (0xFFFD : Word).toNat 1 = true
        ∧ plainCoilReadsOn C ((0xFFFD : Word).toNat + 1 + 1) (3 - 1 - 1) = true
        ∧ plainCoilReadsOn C ((0xFFFD : Word).toNat + 1 + 1) (2 - 1 - 1) = true
        ∧ regTableValid T = true ∧ cover T ((0xFFFD : Word).toNat + 1) = some (regLocked 0xFFFE)
        ∧ (regLocked 0xFFFE).rlock = true ∧ regReadable T (0xFFFD : Word).toNat = true
        ∧ (regLocked 0xFFFE).key.toNat = (0xFFFD : Word).toNat + 1
        ∧ plainRegReadsOn T (0xFFFD : Word).toNat 1 = true
        ∧ plainRegReadsOn T ((0xFFFD : Word).toNat + 1 + 1) (3 - 1 - 1) = true
        ∧ plainRegReadsOn T ((0xFFFD : Word).toNat + 1 + 1) (2 - 1 - 1) = true
        ∧ (answering [.bool true]).script = ⟨.bool true, []⟩ :: []
        ∧ (answering [.bool false]).script = ⟨.bool false, []⟩ :: []
        ∧ plainCoilRead { coilLocked 0xFFFE with rlock := false } = true
        ∧ (regLocked 0xFFFE).rmode ≠ .none ∧ (regLocked 0xFFFE).rmode ≠ .cb
        ∧ plainRegReadsOn T ((regLocked 0xFFFE).key.toNat + nwords (regLocked 0xFFFE))
            ((0xFFFD : Word).toNat + 3
              - ((regLocked 0xFFFE).key.toNat + nwords (regLocked 0xFFFE))) = true
        ∧ findCoil C ((0xFFFE : Word).toNat + 0) = some (coilLocked 0xFFFE)
        ∧ coilReadable C (0xFFFE : Word).toNat = true := by
  rintro _ _ rfl rfl
  exact ⟨asked_atHandler _ _ _, by decide⟩

/-- Each quantity one below and one above its range, each byte count off by one, and each range past the top
by one. -/
theorem witness_QuantitiesAndRangesAreChecked :
    AtHandler (at1 { committing with discrete := some [], input := some [] } World.initial)
        (asking [0x41]) false
      ∧ (0 : Word).toNat < 1 ∧ 2000 < (0x07D1 : Word).toNat ∧ 125 < (0x7E : Word).toNat
      ∧ 1968 < (0x07B1 : Word).toNat ∧ 123 < (0x7C : Word).toNat ∧ 121 < (0x7A : Word).toNat
      ∧ ([1, 2] : List Byte).length ≠ ((8 : Word).toNat + 7) / 8
      ∧ ([1] : List Byte).length ≠ 2 * (1 : Word).toNat
      ∧ 0x10000 < (0xFFFF : Word).toNat + (2 : Word).toNat
      ∧ (1 ≤ (2 : Word).toNat ∧ (2 : Word).toNat ≤ 121)
      ∧ ([1, 2, 3, 4] : List Byte).length = 2 * (2 : Word).toNat
      ∧ ([1] : List Byte).length = ((2 : Word).toNat + 7) / 8
      ∧ committing.coils.isSome = true ∧ committing.holding.isSome = true :=
  ⟨asked_atHandler _ _ _, by decide⟩

/-- A register with a hook and a commit, at the top of the address space; a U8; the last word of a byte block of
odd length, and its first word. -/
theorem witness_WriteSingleRegisterStoresTheWord :
    AtHandler (at1 committing (answering [.unit, .unit])) (asking [0x41]) false
      ∧ (answering [.unit, .unit]).good = true
      ∧ cover [{ reg 0xFFFF with postWrite := true }] (0xFFFF : Word).toNat
          = some { reg 0xFFFF with postWrite := true }
      ∧ refusesWrite { reg 0xFFFF with postWrite := true } (0xFFFF : Word).toNat 1 = false
      ∧ listens true (answering [.unit, .unit]) = true
      ∧ listens committing.callbacks.commitRegsWrite
          (notified true (.regPostWrite { reg 0xFFFF with postWrite := true })
            (answering [.unit, .unit])) = true
      ∧ (∀ d : RegDesc, d = ⟨0xFFFE, .blkU8 3, .ptr 9, .ptr 9, false, false, true, false⟩ →
        cover [d] (0xFFFF : Word).toNat = some d ∧ refusesWrite d (0xFFFF : Word).toNat 1 = false
          ∧ 2 * ((0xFFFF : Word).toNat - d.key.toNat) + 1 = 3
          ∧ cover [d] (0xFFFE : Word).toNat = some d ∧ refusesWrite d (0xFFFE : Word).toNat 1 = false
          ∧ 2 * ((0xFFFE : Word).toNat - d.key.toNat) + 1 ≠ 3)
      ∧ ∀ d : RegDesc, d = ⟨0, .u8, .ptr 9, .ptr 9, false, false, false, false⟩ →
        cover [d] (0 : Word).toNat = some d ∧ refusesWrite d (0 : Word).toNat 1 = false := by
  refine ⟨asked_atHandler _ _ _, by decide, by decide, by decide, by decide, by decide, ?_, ?_⟩
  · rintro d rfl
    decide
  · rintro d rfl
    decide

/-- A whole block of 123 words at the top of the address space. -/
theorem witness_WriteMultipleRegistersStoresEveryWord :
    AtHandler (at1 (withHolding [block 0xFF85 123]) World.initial) (asking [0x41]) false
      ∧ World.initial.good = true ∧ regTableValid [block 0xFF85 123] = true
      ∧ 1 ≤ (0x7B : Word).toNat ∧ (0x7B : Word).toNat ≤ 123
      ∧ (List.replicate 246 (0x55 : Byte)).length = 2 * (0x7B : Word).toNat
      ∧ (0xFF85 : Word).toNat + (0x7B : Word).toNat ≤ 0x10000
      ∧ plainRegTargets [block 0xFF85 123] (0xFF85 : Word).toNat (0x7B : Word).toNat = true
      ∧ wholeWrites [block 0xFF85 123] (0xFF85 : Word).toNat (0x7B : Word).toNat = true
      ∧ listens (withHolding [block 0xFF85 123]).callbacks.commitRegsWrite World.initial = true
      ∧ regTarget [block 0xFF85 123] (0xFF85 + 122) = some (9, 122, .blkU16 123) :=
  ⟨asked_atHandler _ _ _, by decide +kernel⟩

theorem witness_WriteMultipleRegistersStoresEveryWord_outside :
    outsideRegs [reg 0, reg 1] 1 1 0x20002 := by
  intro i hi x hx
  obtain rfl : i = 0 := by omega
  have h : regTarget [reg 0, reg 1] (1 + 0) = some (1, 0, .u16) := by decide
  rw [h] at hx
  cases hx
  decide

/-- Coils 1 and 2, the second write-locked, none at 3. -/
theorem witness_MissingTargetStopsAWriteBeforeItBegins_coils :
    AtHandler (at1 (withCoils [coil 1, coilLocked 2]) (answering [.bool true])) (asking [0x41]) false
      ∧ 1 ≤ (2 : Word).toNat ∧ (2 : Word).toNat ≤ 1968
      ∧ ([3] : List Byte).length = ((2 : Word).toNat + 7) / 8
      ∧ (1 : Word).toNat + (2 : Word).toNat ≤ 0x10000 ∧ 1 < (2 : Word).toNat
      ∧ openCoils [coil 1, coilLocked 2] (1 : Word).toNat 1 = true
      ∧ findCoil [coil 1, coilLocked 2] ((1 : Word).toNat + 1) = some (coilLocked 2)
      ∧ (coilLocked 2).wlock = true ∧ openCoils [coil 1, coilLocked 2] (3 : Word).toNat 0 = true
      ∧ findCoil [coil 1, coilLocked 2] ((3 : Word).toNat + 0) = none
      ∧ (answering [.bool true]).script = ⟨.bool true, []⟩ :: [] :=
  ⟨asked_atHandler _ _ _, by decide⟩

/-- A plain register at 1, one that is read only at 2, a locked one at 3, a two-word one that forbids partial
writes at 4, a callback one of two words at 6, one that cannot be read at 8, none at 9. -/
def mixed : List RegDesc :=
  [reg 1, ⟨2, .u16, .ptr 0, .none, false, false, false, false⟩, regLocked 3,
    ⟨4, .u32, .ptr 0, .ptr 0, false, false, false, false⟩,
    ⟨6, .u32, .cb, .cb, false, false, false, false⟩,
    ⟨8, .u16, .none, .ptr 0, false, false, false, false⟩]

/-- Each way not to be writable, at the block's start, at its end and behind a writable register; and each
register beside them that is. -/
theorem witness_MissingTargetStopsAWriteBeforeItBegins_registers :
    AtHandler (at1 (withHolding mixed) (answering [.bool true])) (asking [0x41]) false
      ∧ regTableValid mixed = true ∧ ([0, 1, 0, 2] : List Byte).length = 2 * (2 : Word).toNat
      ∧ (1 : Word).toNat + (2 : Word).toNat ≤ 0x10000
      ∧ (unlockedWrites mixed 1 2 = true ∧ unwritable mixed 1 2 (1 + 1) = true)
      ∧ (unlockedWrites mixed 4 1 = true ∧ unwritable mixed 4 1 (4 + 0) = true
        ∧ unwritable mixed 4 2 (4 + 0) = false)
      ∧ (unlockedWrites mixed 5 1 = true ∧ unwritable mixed 5 1 (5 + 0) = true)
      ∧ (unwritable mixed 6 1 (6 + 0) = false ∧ unwritable mixed 7 1 (7 + 0) = true)
      ∧ (unlockedWrites mixed 8 2 = true ∧ unwritable mixed 8 2 (8 + 1) = true)
      ∧ (openWrites mixed 3 1 0 = true ∧ cover mixed (3 + 0) = some (regLocked 3)
        ∧ asksWriteLock (regLocked 3) = true)
      ∧ (openWrites [reg 1, regLocked 2] 1 2 1 = true
        ∧ cover [reg 1, regLocked 2] (1 + 1) = some (regLocked 2))
      ∧ (cover mixed 2).map (fun d => (asksWriteLock d, refusesWrite d 2 1)) = some (false, true)
      ∧ (cover mixed 8).map (fun d => (refusesWrite d 8 1, d.rlock, d.rmode))
        = some (false, false, .none)
      ∧ (cover mixed 1).map (fun d => (d.rlock, d.rmode)) = some (false, .ptr 1)
      ∧ refusesWrite ⟨1, .u16, .ptr 0, .ptr 0, true, false, false, false⟩ 1 1 = false
      ∧ cover mixed 9 = none ∧ (cover mixed 3).map RegDesc.rlock = some true
      ∧ (answering [.bool true]).script = ⟨.bool true, []⟩ :: [] :=
  ⟨asked_atHandler _ _ _, by decide⟩

/-- A file of the records `mixed`: behind one good sub-request, and as the first one. -/
theorem witness_MissingTargetStopsAWriteBeforeItBegins_files :
    AtHandler (at1 (withFiles [⟨1, mixed⟩]) (answering [.bool true])) (asking [0x41]) false
      ∧ fileTableValid [⟨1, mixed⟩] = true
      ∧ (∀ x ∈ ([(⟨6, 1, 1, 1⟩, [7])] : List (SubRequest × List Word)),
        openFileWrite false [⟨1, mixed⟩] x = true)
      ∧ headerValid false [⟨1, mixed⟩] ⟨6, 1, 8, 2⟩ = true
      ∧ ([1, 2] : List Word).length = (2 : Word).toNat ∧ 1 < (2 : Word).toNat
      ∧ unlockedWrites (recordsOf [⟨1, mixed⟩] ⟨6, 1, 8, 2⟩) 8 2 = true
      ∧ unwritable (recordsOf [⟨1, mixed⟩] ⟨6, 1, 8, 2⟩) 8 2 (8 + 1) = true
      ∧ headerValid false [⟨1, mixed⟩] ⟨6, 1, 3, 1⟩ = true
      ∧ openWrites (recordsOf [⟨1, mixed⟩] ⟨6, 1, 3, 1⟩) 3 1 0 = true
      ∧ cover (recordsOf [⟨1, mixed⟩] ⟨6, 1, 3, 1⟩) (3 + 0) = some (regLocked 3)
      ∧ asksWriteLock (regLocked 3) = true := ⟨asked_atHandler _ _ _, by decide⟩

theorem witness_MaskWriteFollowsTheMaskLaw :
    AtHandler (at1 committing (answering [.unit])) (asking [0x41]) false
      ∧ (answering [.unit]).good = true
      ∧ regTarget [reg 0, reg 0xFFFF] (0 : Word).toNat = some (0, 0, .u16)
      ∧ wholeWrites [reg 0, reg 0xFFFF] (0 : Word).toNat 1 = true
      ∧ plainRegReads [reg 0, reg 0xFFFF] = true
      ∧ regReadable [reg 0, reg 0xFFFF] (0 : Word).toNat = true
      ∧ listens committing.callbacks.commitRegsWrite (answering [.unit]) = true
      ∧ (cover [reg 0, reg 0xFFFF] (0 : Word).toNat).map RegDesc.rmode = some (.ptr 0) :=
  ⟨asked_atHandler _ _ _, by decide⟩

/-- 121 words written and 125 read of one block, at the top of the address space. -/
theorem witness_ReadWriteReadsWhatItWrote :
    AtHandler (at1 (withHolding [block 0xFF83 125]) World.initial) (asking [0x41]) false
      ∧ World.initial.good = true ∧ regTableValid [block 0xFF83 125] = true
      ∧ 1 ≤ (0x7D : Word).toNat ∧ (0x7D : Word).toNat ≤ 125
      ∧ 1 ≤ (0x79 : Word).toNat ∧ (0x79 : Word).toNat ≤ 121
      ∧ (List.replicate 242 (0x55 : Byte)).length = 2 * (0x79 : Word).toNat
      ∧ (0xFF83 : Word).toNat + (0x7D : Word).toNat ≤ 0x10000
      ∧ (0xFF87 : Word).toNat + (0x79 : Word).toNat ≤ 0x10000
      ∧ plainRegReads [block 0xFF83 125] = true
      ∧ regReadable [block 0xFF83 125] (0xFF83 : Word).toNat = true
      ∧ plainRegTargets [block 0xFF83 125] (0xFF87 : Word).toNat (0x79 : Word).toNat = true
      ∧ wholeWrites [block 0xFF83 125] (0xFF87 : Word).toNat (0x79 : Word).toNat = true
      ∧ listens (withHolding [block 0xFF83 125]).callbacks.commitRegsWrite World.initial = true :=
  ⟨asked_atHandler _ _ _, by decide +kernel⟩

/-! ### File records -/

/-- Two files, one of them with a block of records. -/
def twoFiles : List FileDesc := [⟨1, [reg 0, block 1 121]⟩, ⟨9999, [reg 0x270F]⟩]

/-- The longest answer of two sub-requests: 119 records and one. -/
theorem witness_ReadFileRecordAnswersEverySubrequest :
    AtHandler (at1 (withFiles twoFiles) World.initial) (asking [0x41]) false
      ∧ (withFiles twoFiles).files = some twoFiles ∧ fileTableValid twoFiles = true
      ∧ ([⟨6, 1, 0, 119⟩, ⟨6, 9999, 0x270F, 1⟩] : List SubRequest) ≠ []
      ∧ ([⟨6, 1, 0, 119⟩, ⟨6, 9999, 0x270F, 1⟩] : List SubRequest).length ≤ 35
      ∧ (∀ h ∈ ([⟨6, 1, 0, 119⟩, ⟨6, 9999, 0x270F, 1⟩] : List SubRequest),
        headerValid (withFiles twoFiles).extFileRange twoFiles h = true
          ∧ plainRegReads (recordsOf twoFiles h) = true
          ∧ regReadable (recordsOf twoFiles h) h.recNo.toNat = true)
      ∧ (([⟨6, 1, 0, 119⟩, ⟨6, 9999, 0x270F, 1⟩] : List SubRequest).map fun h =>
          2 + 2 * h.recLen.toNat).sum ≤ 245 := ⟨asked_atHandler _ _ _, by decide⟩

theorem witness_WriteFileRecordStoresEverySubrequest :
    AtHandler (at1 (withFiles twoFiles) World.initial) (asking [0x41]) false
      ∧ World.initial.good = true ∧ fileTableValid twoFiles = true
      ∧ (∀ x ∈ ([(⟨6, 1, 0, 3⟩, [1, 2, 3]), (⟨6, 9999, 0x270F, 1⟩, [4])]
          : List (SubRequest × List Word)),
        headerValid (withFiles twoFiles).extFileRange twoFiles x.1 = true
          ∧ x.2.length = x.1.recLen.toNat
          ∧ plainRegTargets (recordsOf twoFiles x.1) x.1.recNo.toNat x.1.recLen.toNat = true
          ∧ wholeWrites (recordsOf twoFiles x.1) x.1.recNo.toNat x.1.recLen.toNat = true)
      ∧ listens (withFiles twoFiles).callbacks.commitRegsWrite World.initial = true :=
  ⟨asked_atHandler _ _ _, by decide⟩

/-- Each defect of a header, at the nearest value to its range, each byte count beside its range, and answers
that fit by one byte and miss by one. -/
theorem witness_FileHeadersAreChecked :
    AtHandler (at1 (withFiles twoFiles) World.initial) (asking [0x41]) false
      ∧ (withFiles twoFiles).files = some twoFiles ∧ fileTableValid twoFiles = true
      ∧ (6 < 7 ∧ 8 % 7 ≠ 0 ∧ 245 < 252 ∧ 245 % 7 = 0)
      ∧ ((7 : Byte) ≠ 0x06 ∧ (0 : Word) = 0x0000)
      ∧ (withFiles twoFiles).extFileRange = false ∧ 9999 < (10000 : Word).toNat
      ∧ 0x270F < (0x2710 : Word).toNat
      ∧ 0x10000 < (0xFFFF : Word).toNat + (2 : Word).toNat
      ∧ findFile twoFiles 2 = none
      ∧ (∀ x ∈ ([⟨6, 1, 0, 119⟩] : List SubRequest), headerValid false twoFiles x = true
        ∧ plainRegReadsOn (recordsOf twoFiles x) x.recNo.toNat x.recLen.toNat = true
        ∧ regReadable (recordsOf twoFiles x) x.recNo.toNat = true)
      ∧ answerSize [⟨6, 1, 0, 119⟩] ≤ 245
      ∧ (headerValid false twoFiles ⟨6, 1, 0, 2⟩ = true
        ∧ 245 < answerSize [⟨6, 1, 0, 119⟩] + (2 + 2 * (2 : Word).toNat))
      ∧ (headerValid false twoFiles ⟨6, 1, 122, 1⟩ = true
        ∧ answerSize [⟨6, 1, 0, 119⟩, ⟨6, 1, 122, 1⟩] ≤ 245
        ∧ cover (recordsOf twoFiles ⟨6, 1, 122, 1⟩) (122 : Word).toNat = none)
      ∧ ((([⟨6, 1, 0, 119⟩] ++ ⟨6, 1, 122, 1⟩ :: [] : List SubRequest)).flatMap headerBytes).length
        ≤ 245 := ⟨asked_atHandler _ _ _, by decide⟩

theorem witness_FileHeadersAreChecked_locked :
    AtHandler (at1 (withFiles [⟨1, [regLocked 0]⟩]) (answering [.bool true])) (asking [0x41]) false
      ∧ cover (recordsOf [⟨1, [regLocked 0]⟩] ⟨6, 1, 0, 1⟩) (0 : Word).toNat = some (regLocked 0)
      ∧ (regLocked 0).rlock = true ∧ headerValid false [⟨1, [regLocked 0]⟩] ⟨6, 1, 0, 1⟩ = true
      ∧ (answering [.bool true]).script = ⟨.bool true, []⟩ :: [] := ⟨asked_atHandler _ _ _, by decide⟩

/-- FC 0x15 after one good sub-request: a header one byte short, data one byte short, and a bad header whose
data fits. -/
theorem witness_FileHeadersAreChecked_writes :
    AtHandler (at1 (withFiles twoFiles) World.initial) (asking [0x41]) false
      ∧ (headerBytes ⟨6, 1, 0, 0⟩).length < 9
      ∧ (∀ x ∈ ([(⟨6, 1, 0, 1⟩, [7])] : List (SubRequest × List Word)),
        openFileWrite false twoFiles x = true)
      ∧ (([6, 0, 1, 0, 0, 0] : List Byte) ≠ [] ∧ ([6, 0, 1, 0, 0, 0] : List Byte).length < 7)
      ∧ ([7] : List Byte).length < 2 * (1 : Word).toNat
      ∧ (2 * (1 : Word).toNat ≤ ([7, 7] : List Byte).length ∧ 2 ≤ ([7, 7] : List Byte).length) :=
  ⟨asked_atHandler _ _ _, by decide⟩

theorem witness_FileHeadersAreChecked_raises :
    HeaderRaises false twoFiles ⟨7, 1, 0, 1⟩ .illegalDataVal
      ∧ HeaderRaises false twoFiles ⟨6, 2, 0, 1⟩ .illegalDataAddr :=
  ⟨.inl ⟨rfl, .inl (by decide)⟩,
    .inr ⟨rfl, rfl, by decide, .inr (.inr (.inr (by decide)))⟩⟩

/-! ### The host's answers -/

/-- Callback and lock descriptors at the top of the address space, a two-word one among them. -/
def hostTables : InstanceConfig :=
  { InstanceConfig.testVectors with
    coils := some [coilCb 0, coilLocked 0xFFFF]
    holding := some [regCb 0, ⟨1, .u32, .cb, .cb, false, false, true, false⟩, regLocked 0xFFFF]
    callbacks := { Callbacks.absent with handleFn := true } }

theorem witness_ReadCallbacksDecideTheAnswer :
    AtHandler (at1 hostTables (answering [.byte 2])) (asking [0x41]) false
      ∧ findCoil [coilCb 0, coilLocked 0xFFFF] (0 : Word).toNat = some (coilCb 0)
      ∧ (coilCb 0).rlock = false ∧ (coilCb 0).rmode = .cb
      ∧ (answering [.byte 2]).script = ⟨.byte 2, []⟩ :: []
      ∧ (answering [.fail]).script = ⟨.fail, []⟩ :: []
      ∧ (answering [.words [1, 2]]).script = ⟨.words [1, 2], []⟩ :: []
      ∧ ∀ T d, hostTables.holding = some T → cover T (2 : Word).toNat = some d →
        d.rlock = false ∧ d.rmode = .cb ∧ ([1, 2] : List Word).length = nwords d
          ∧ (2 : Word).toNat + (1 : Word).toNat ≤ d.key.toNat + nwords d
          ∧ (2 : Word).toNat + (1 : Word).toNat ≤ 0x10000 := by
  refine ⟨asked_atHandler _ _ _, by decide, rfl, rfl, rfl, rfl, rfl, ?_⟩
  rintro _ d ⟨⟩ h
  have hc : cover [regCb 0, ⟨1, .u32, .cb, .cb, false, false, true, false⟩, regLocked 0xFFFF]
    (2 : Word).toNat = some ⟨1, .u32, .cb, .cb, false, false, true, false⟩ := by decide
  rw [hc] at h
  cases h
  decide

/-- The statuses at both ends of their range, on a coil, a register and the fallback. -/
theorem witness_CallbackStatusDecidesTheOutcome :
    AtHandler (at1 hostTables (answering [.status 8])) (asking [0x41]) false
      ∧ (8 : Byte) = wireCode .memParErr ∧ (0 : Byte) = wireCode .ok
      ∧ findCoil [coilCb 0, coilLocked 0xFFFF] (0 : Word).toNat = some (coilCb 0)
      ∧ (coilCb 0).wlock = false ∧ (coilCb 0).wmode = .cb ∧ (coilCb 0).postWrite = false
      ∧ hostTables.callbacks.commitCoilsWrite = false
      ∧ cover [regCb 0, ⟨1, .u32, .cb, .cb, false, false, true, false⟩, regLocked 0xFFFF]
          (0 : Word).toNat = some (regCb 0)
      ∧ (0 : Word) = (regCb 0).key ∧ (regCb 0).wlock = false ∧ (regCb 0).wmode = .cb
      ∧ (regCb 0).postWrite = false ∧ hostTables.callbacks.commitRegsWrite = false
      ∧ (answering [.status 8]).script = ⟨.status 8, []⟩ :: []
      ∧ hostTables.callbacks.handleFn = true ∧ (List.replicate 252 (0x55 : Byte)).length ≤ 252
      ∧ (answering [.statusBody 0 (List.replicate 252 0x55)]).script
          = ⟨.statusBody 0 (List.replicate 252 0x55), []⟩ :: [] :=
  ⟨asked_atHandler _ _ _, by decide +kernel⟩

/-- A listed function code whose table is ABSENT. -/
theorem witness_CallbackStatusDecidesTheOutcome_absent :
    AtHandler (at1 (withCallbacks allCallbacks) (answering [.statusBody 0 [1]])) (asking [0x41]) false
      ∧ encode (.readCoils (.fields ⟨0, 1⟩)) = .pdu (0x01 :: [0, 0, 0, 1])
      ∧ unimplemented (withCallbacks allCallbacks) (.readCoils (.fields ⟨0, 1⟩)) = true
      ∧ (withCallbacks allCallbacks).callbacks.handleFn = true
      ∧ (answering [.statusBody 0 [1]]).script = ⟨.statusBody 0 [1], []⟩ :: [] :=
  ⟨asked_atHandler _ _ _, by decide⟩

/-- The second of three coils fails: by its callback, without write mode, and with bit index 8. -/
theorem witness_CallbackStatusDecidesTheOutcome_coils :
    ∀ C : List CoilDesc, C = [coil 0xFFFD, coilCb 0xFFFE, coil 0xFFFF] →
      AtHandler (at1 (withCoils C) (answering [.status 8])) (asking [0x41]) false
        ∧ (8 : Byte) = wireCode .memParErr ∧ Status.memParErr ≠ .ok
        ∧ ([7] : List Byte).length = ((3 : Word).toNat + 7) / 8
        ∧ (0xFFFD : Word).toNat + (3 : Word).toNat ≤ 0x10000
        ∧ openCoils C (0xFFFD : Word).toNat (3 : Word).toNat = true ∧ 1 < (3 : Word).toNat
        ∧ plainCoilTargets C (0xFFFD : Word).toNat 1 = true
        ∧ findCoil C ((0xFFFD : Word).toNat + 1) = some (coilCb 0xFFFE)
        ∧ (coilCb 0xFFFE).wmode = .cb ∧ (answering [.status 8]).good = true
        ∧ openCoils [coil 0, ⟨1, .const 0, .none, false, false, false⟩] 0 2 = true
        ∧ openCoils [coil 0, ⟨1, .const 0, .cell 0 8, false, false, false⟩] 0 2 = true := by
  rintro _ rfl
  exact ⟨asked_atHandler _ _ _, by decide⟩

/-- The second of three registers fails, of a table and of a file, and after a good sub-request. -/
theorem witness_CallbackStatusDecidesTheOutcome_registers :
    ∀ T : List RegDesc, T = [reg 0xFFFD, regCb 0xFFFE, reg 0xFFFF] →
      AtHandler (at1 { withHolding T with files := some [⟨1, T⟩], extFileRange := true }
          (answering [.status 8])) (asking [0x41]) false
        ∧ regTableValid T = true ∧ (answering [.status 8]).script = ⟨.status 8, []⟩ :: []
        ∧ ([1, 2, 3] : List Word).length = 3 ∧ openWrites T 0xFFFD 3 3 = true ∧ 1 < 3
        ∧ plainRegTargets T 0xFFFD 1 = true ∧ cover T (0xFFFD + 1) = some (regCb 0xFFFE)
        ∧ (regCb 0xFFFE).wmode = .cb ∧ 3 ≤ 121 ∧ 0xFFFD + 3 ≤ 0x10000
        ∧ cover T (0xFFFD : Word).toNat = some (reg 0xFFFD) ∧ (reg 0xFFFD).rlock = false
        ∧ (reg 0xFFFD).rmode ≠ .none
        ∧ fileTableValid [⟨1, T⟩] = true
        ∧ (∀ x ∈ ([(⟨6, 1, 0xFFFF, 1⟩, [9])] ++ (⟨6, 1, 0xFFFD, 3⟩, [1, 2, 3]) :: []
            : List (SubRequest × List Word)), openFileWrite true [⟨1, T⟩] x = true)
        ∧ plainRegTargets (recordsOf [⟨1, T⟩] ⟨6, 1, 0xFFFF, 1⟩) (0xFFFF : Word).toNat
            (1 : Word).toNat = true
        ∧ plainRegTargets (recordsOf [⟨1, T⟩] ⟨6, 1, 0xFFFD, 3⟩) (0xFFFD : Word).toNat 1 = true := by
  rintro _ rfl
  exact ⟨asked_atHandler _ _ _, by decide⟩

/-- A lock that is absent, and a lock, a hook or a commit whose answer is scripted. -/
theorem lock_absent (c : HostCall) (w : World) : LockSays false c w false w := ⟨rfl, rfl⟩

@[inherit_doc lock_absent]
theorem lock_scripted {c : HostCall} {w : World} {b : Bool} {cs : List CellChange}
    {rest : List HostDraw} (h : w.script = ⟨.bool b, cs⟩ :: rest) :
    LockSays true c w b (invoke c w).2 := by simp [LockSays, SaysBool, invoke, h]

@[inherit_doc lock_absent]
theorem told_scripted {c : HostCall} {w : World} {cs : List CellChange} {rest : List HostDraw}
    (h : w.script = ⟨.unit, cs⟩ :: rest) : Told true c w (invoke c w).2 := by
  simp [Told, invoke, h]

/-- Up to the top of the address space: a coil with locks, callbacks and a hook, one with callbacks, and one with
bit index 8. -/
def askingCoils : List CoilDesc :=
  [⟨0xFFFD, .cb, .cb, true, true, true⟩, coilCb 0xFFFE,
    ⟨0xFFFF, .cell 0 8, .cell 0 8, false, false, false⟩]

/-- Up to the top of the address space: a two-word register with locks, callbacks and a hook, one with callbacks,
one with locks, one that asks nothing. -/
def askingRegs : List RegDesc :=
  [⟨0xFFFB, .u32, .cb, .cb, true, true, true, true⟩, regCb 0xFFFD, regLocked 0xFFFE, reg 0xFFFF]

/-- These tables in every place, and a commit callback. -/
def askingTables : InstanceConfig :=
  { InstanceConfig.testVectors with
    extFileRange := true
    coils := some askingCoils
    discrete := some askingCoils
    holding := some askingRegs
    input := some askingRegs
    files := some [⟨1, askingRegs⟩]
    callbacks := allCallbacks }

/-- Coils: an open lock, then callbacks; a closed lock first; a bit index above 7; FAIL. -/
theorem witness_ReadCallbacksDecideTheAnswer_coils :
    AtHandler (at1 askingTables (answering [.fail])) (asking [0x41]) false
      ∧ (∃ out w', CoilsRead askingCoils true (0xFFFD : Word).toNat (2 : Word).toNat
          (answering [.bool false, .byte 2, .byte 0]) out w' ∧ out = .ok [true, false])
      ∧ (∃ out w', CoilsRead askingCoils true (0xFFFD : Word).toNat (3 : Word).toNat
          (answering [.bool true]) out w' ∧ out = .error .illegalDataAddr)
      ∧ (∃ out w', CoilsRead askingCoils true (0xFFFE : Word).toNat (2 : Word).toNat
          (answering [.byte 1]) out w' ∧ out = .error .devFail)
      ∧ ∃ out w', CoilsRead askingCoils true (0xFFFE : Word).toNat (1 : Word).toNat
          (answering [.fail]) out w' ∧ out = .error .devFail :=
  ⟨asked_atHandler _ _ _,
    ⟨_, _, .bit (v := true) rfl ⟨false, _, lock_scripted rfl, some 2, .inl rfl, rfl⟩
      (.bit (v := false) rfl ⟨false, _, lock_absent _ _, some 0, .inl rfl, rfl⟩ .done), rfl⟩,
    ⟨_, _, .denied (.inr ⟨_, rfl, .inl ⟨true, _, lock_scripted rfl, rfl, rfl⟩⟩), rfl⟩,
    ⟨_, _, .bit (v := true) rfl ⟨false, _, lock_absent _ _, some 1, .inl rfl, rfl⟩
      (.fails rfl ⟨false, _, lock_absent _ _, rfl, rfl⟩), rfl⟩,
    ⟨_, _, .fails rfl ⟨false, _, lock_absent _ _, none, .inl rfl, rfl⟩, rfl⟩⟩

/-- Registers: a start inside a callback register with an open lock, then a callback, a closed lock and a plain
register; a closed lock first; FAIL, of a table and of the second sub-request of a file. -/
theorem witness_ReadCallbacksDecideTheAnswer_registers :
    (∃ out w', RegsRead askingRegs true (0xFFFC : Word).toNat (4 : Word).toNat
        (answering [.bool false, .words [1, 2], .words [3], .bool true]) out w'
        ∧ out = .ok [2, 3, 0, 0])
      ∧ (∃ out w', RegsRead askingRegs true (0xFFFE : Word).toNat (2 : Word).toNat
        (answering [.bool true]) out w' ∧ out = .error .illegalDataAddr)
      ∧ (∃ out w', RegsRead askingRegs true (0xFFFD : Word).toNat (1 : Word).toNat
        (answering [.fail]) out w' ∧ out = .error .devFail)
      ∧ (∀ h ∈ ([⟨6, 1, 0xFFFF, 1⟩, ⟨6, 1, 0xFFFD, 1⟩] : List SubRequest),
        headerValid true [⟨1, askingRegs⟩] h = true)
      ∧ answerSize [⟨6, 1, 0xFFFF, 1⟩, ⟨6, 1, 0xFFFD, 1⟩] ≤ 245
      ∧ (∃ out w', FilesRead [⟨1, askingRegs⟩] [⟨6, 1, 0xFFFF, 1⟩, ⟨6, 1, 0xFFFD, 1⟩]
        (answering [.fail]) out w' ∧ out = .error .devFail)
      ∧ ∃ out w', FilesRead [⟨1, askingRegs⟩] [⟨6, 1, 0xFFFF, 1⟩, ⟨6, 1, 0xFFFD, 1⟩]
        (answering [.words [7]]) out w' ∧ out = .ok [3, 6, 0, 0, 3, 6, 0, 7] := by
  have fail : RegsRead askingRegs true (0xFFFD : Word).toNat (1 : Word).toNat (answering [.fail])
      (.error .devFail) (invoke (.regRead (regCb 0xFFFD)) (answering [.fail])).2 :=
    .fails (by decide) rfl
      ⟨false, _, lock_absent _ _, none, .inl ⟨rfl, fun _ h => by cases h⟩, rfl⟩
  have top : ∀ w, w.wordCells = [] → RegsRead askingRegs true (0xFFFF : Word).toNat
      (1 : Word).toNat w (.ok [0]) w := fun w hw =>
    .words (d := reg 0xFFFF) (ws := [0]) (out := .ok []) (by decide) rfl
      ⟨false, _, lock_absent _ _, by simp [reg, hw]; rfl⟩ .done
  have seven : RegsRead askingRegs true (0xFFFD : Word).toNat (1 : Word).toNat
      (answering [.words [7]]) (.ok [7])
      (invoke (.regRead (regCb 0xFFFD)) (answering [.words [7]])).2 :=
    .words (ws := [7]) (out := .ok []) (by decide) rfl
      ⟨false, _, lock_absent _ _, some [7], .inl ⟨rfl, fun _ h => by cases h; rfl⟩, rfl⟩ .done
  refine ⟨⟨_, _, .words (by decide) rfl ⟨false, _, lock_scripted rfl, some [1, 2],
      .inl ⟨rfl, fun _ h => by cases h; rfl⟩, rfl⟩
      (.words (by decide) rfl ⟨false, _, lock_absent _ _, some [3],
        .inl ⟨rfl, fun _ h => by cases h; rfl⟩, rfl⟩
      (.zero (by decide) (.inr ⟨_, rfl, .inl ⟨true, _, lock_scripted rfl, rfl, rfl⟩⟩)
      (.words (by decide) rfl ⟨false, _, lock_absent _ _, rfl, rfl⟩ .done))), rfl⟩,
    ⟨_, _, .denied (by decide) (.inr ⟨_, rfl, .inl ⟨true, _, lock_scripted rfl, rfl, rfl⟩⟩), rfl⟩,
    ⟨_, _, fail, rfl⟩, by decide, by decide, ?_, ?_⟩
  · exact ⟨_, _, .next (top _ rfl) (.fails fail), rfl⟩
  · exact ⟨_, _, .next (top _ rfl) (.next seven .done), rfl⟩

/-- FC 0x16 between its write check and its read, and FC 0x17 after its writes, at a register with callbacks: FAIL,
and a closed lock. -/
theorem witness_ReadCallbacksDecideTheAnswer_writes :
    (∃ w0 w', RegAdmits (regCb 0xFFFD) (0xFFFD : Word).toNat (0xFFFD : Word).toNat 1 [1, 2]
        (answering [.fail]) 1 w0 ∧ RegSays (regCb 0xFFFD) (0xFFFD : Word).toNat 1 w0 .devFail w')
      ∧ (∃ w0 w', RegAdmits { regLocked 0xFFFE with wlock := false } (0xFFFE : Word).toNat
        (0xFFFE : Word).toNat 1 [1, 2] (answering [.bool true]) 1 w0
        ∧ RegSays { regLocked 0xFFFE with wlock := false } (0xFFFE : Word).toNat 1 w0 .locked w')
      ∧ (∃ w0, RegAdmits ⟨0, .u16, .none, .ptr 0, false, false, false, false⟩ 0 0 1 [1, 2]
        World.initial 1 w0
        ∧ RegSays ⟨0, .u16, .none, .ptr 0, false, false, false, false⟩ 0 1 w0 .noAccess w0)
      ∧ (∃ w0 w1 out w', LockSays true
          (.regRlock ⟨0xFFFB, .u32, .cb, .cb, true, true, true, true⟩)
          (answering [.bool false, .unit, .bool false, .fail]) false w0
        ∧ RegsEnd true askingRegs (0xFFFF : Word).toNat (wordsOfBytes [0, 9]) w0 .ok w1
        ∧ RegsRead askingRegs true (0xFFFC : Word).toNat (1 : Word).toNat w1 out w'
        ∧ out = .error .devFail)
      ∧ cover askingRegs (0xFFFC : Word).toNat
          = some ⟨0xFFFB, .u32, .cb, .cb, true, true, true, true⟩ := by
  refine ⟨⟨_, _, ⟨false, lock_absent _ _, by decide⟩,
      ⟨false, _, lock_absent _ _, none, .inl ⟨rfl, fun _ h => by cases h⟩, rfl⟩⟩,
    ⟨_, _, ⟨false, lock_absent _ _, by decide⟩, ⟨true, _, lock_scripted rfl, rfl, rfl⟩⟩,
    ⟨_, ⟨false, lock_absent _ _, by decide⟩, ⟨false, _, lock_absent _ _, rfl, rfl⟩⟩, ?_, by decide⟩
  exact ⟨_, _, _, _, lock_scripted rfl,
    .inr ⟨_, _, .next (d := reg 0xFFFF) (k := 1) (by decide) rfl ⟨false, lock_absent _ _, by decide⟩
        (by decide) .done,
      .next (d := reg 0xFFFF) (k := 1) (by decide) rfl (by decide) ⟨rfl, rfl⟩ .done,
      told_scripted rfl⟩,
    .fails (by decide) rfl
      ⟨false, _, lock_scripted rfl, none, .inl ⟨rfl, fun _ h => by cases h⟩, rfl⟩, rfl⟩

/-- Coils: an open lock, a callback that answers OK, its hook, a second callback that answers OK, the commit; the
second callback fails; a closed lock; a bit index above 7 after a write. -/
theorem witness_CallbackStatusDecidesTheOutcome_coilsEnd :
    (∃ w', CoilsEnd true askingCoils (0xFFFD : Word).toNat (requestBits [2] (2 : Word).toNat)
        (answering [.bool false, .status 0, .unit, .status 0, .unit]) .ok w')
      ∧ (∃ w', CoilsEnd true askingCoils (0xFFFD : Word).toNat (requestBits [2] (2 : Word).toNat)
        (answering [.bool false, .status 0, .unit, .status 8]) .memParErr w')
      ∧ (∃ w', CoilsEnd true askingCoils (0xFFFD : Word).toNat [true]
        (answering [.bool true]) .illegalDataAddr w')
      ∧ ∃ w', CoilsEnd true askingCoils (0xFFFE : Word).toNat (requestBits [3] (2 : Word).toNat)
        (answering [.status 0]) .devFail w' :=
  ⟨⟨_, .inr ⟨_, _, .next rfl (lock_scripted rfl) (.next rfl (lock_absent _ _) .done),
      .next rfl ⟨_, .inl rfl, told_scripted rfl⟩ (.next rfl ⟨_, .inl rfl, rfl⟩ .done),
      told_scripted rfl⟩⟩,
    ⟨_, .inr ⟨_, _, .next rfl (lock_scripted rfl) (.next rfl (lock_absent _ _) .done),
      .next rfl ⟨_, .inl rfl, told_scripted rfl⟩
        (.fails rfl ⟨_, .inl rfl, rfl⟩ (by decide)), rfl⟩⟩,
    ⟨_, .inl ⟨rfl, .locked rfl (lock_scripted rfl)⟩⟩,
    ⟨_, .inr ⟨_, _, .next rfl (lock_absent _ _) (.next rfl (lock_absent _ _) .done),
      .next rfl ⟨_, .inl rfl, rfl⟩ (.fails rfl ⟨rfl, rfl⟩ (by decide)), rfl⟩⟩⟩

/-- Registers: an open lock, a cut register's callback that answers OK, its hook, a second callback that answers
OK, the commit; the second callback fails; a closed lock. -/
theorem witness_CallbackStatusDecidesTheOutcome_regsEnd :
    (∃ w', RegsEnd true askingRegs (0xFFFC : Word).toNat [5, 6]
        (answering [.bool false, .status 0, .unit, .status 0, .unit]) .ok w')
      ∧ (∃ w', RegsEnd true askingRegs (0xFFFC : Word).toNat [5, 6]
        (answering [.bool false, .status 0, .unit, .status 5]) .ack w')
      ∧ ∃ w', RegsEnd true askingRegs (0xFFFE : Word).toNat [5]
        (answering [.bool true]) .illegalDataAddr w' := by
  refine ⟨⟨_, .inr ⟨_, _,
      .next (k := 1) (by decide) rfl ⟨false, lock_scripted rfl, by decide⟩ (by decide)
        (.next (k := 1) (by decide) rfl ⟨false, lock_absent _ _, by decide⟩ (by decide) .done),
      .next (k := 1) (by decide) rfl (by decide) ⟨_, .inl rfl, told_scripted rfl⟩
        (.next (k := 1) (by decide) rfl (by decide) ⟨_, .inl rfl, rfl⟩ .done),
      told_scripted rfl⟩⟩,
    ⟨_, .inr ⟨_, _,
      .next (k := 1) (by decide) rfl ⟨false, lock_scripted rfl, by decide⟩ (by decide)
        (.next (k := 1) (by decide) rfl ⟨false, lock_absent _ _, by decide⟩ (by decide) .done),
      .next (k := 1) (by decide) rfl (by decide) ⟨_, .inl rfl, told_scripted rfl⟩
        (.fails (k := 1) (by decide) rfl (by decide) ⟨_, .inl rfl, rfl⟩ (by decide)), rfl⟩⟩,
    ⟨_, .inl ⟨rfl, .denied (by decide) rfl ⟨true, lock_scripted rfl, by decide⟩⟩⟩⟩

/-- FC 0x16 with a write callback that answers OK or fails, after a plain read, and with a hook on a register in a
word array; FC 0x17 whose write fails. -/
theorem witness_CallbackStatusDecidesTheOutcome_mask :
    (∃ w1 w2 w3 w', RegAdmits ⟨0, .u16, .ptr 0, .cb, true, true, false, true⟩ 0 0 1 [1, 2]
        (answering [.bool false, .bool false, .status 0, .unit, .unit]) 1 w1
        ∧ RegSays ⟨0, .u16, .ptr 0, .cb, true, true, false, true⟩ 0 1 w1 (.words [0]) w2
        ∧ RegWrites ⟨0, .u16, .ptr 0, .cb, true, true, false, true⟩ 0 [2] w2 .ok w3
        ∧ Told true .commitRegsWrite w3 w')
      ∧ (∃ w3, RegWrites (regCb 0xFFFF) 0 [2] (answering [.status 8]) .memParErr w3)
      ∧ (∃ w3 w', RegWrites { reg 0 with postWrite := true } 0 [2] (answering [.unit, .unit]) .ok w3
        ∧ Told true .commitRegsWrite w3 w')
      ∧ (∃ w1, RegAdmits (regLocked 0xFFFE) 0xFFFE 0xFFFE 1 [1, 2] (answering [.bool true]) 0 w1)
      ∧ ∃ w0 w', LockSays false (.regRlock (reg 0xFFFF)) (answering [.status 4]) false w0
        ∧ RegsEnd true askingRegs (0xFFFD : Word).toNat (wordsOfBytes [0, 9]) w0 .devFail w' :=
  ⟨⟨_, _, _, _, ⟨false, lock_scripted rfl, by decide⟩, ⟨false, _, lock_scripted rfl, rfl, rfl⟩,
      ⟨_, .inl rfl, told_scripted rfl⟩, told_scripted rfl⟩,
    ⟨_, _, .inl rfl, rfl⟩, ⟨_, _, ⟨rfl, told_scripted rfl⟩, told_scripted rfl⟩,
    ⟨_, true, lock_scripted rfl, by decide⟩,
    ⟨_, _, lock_absent _ _, .inr ⟨_, _,
      .next (k := 1) (by decide) rfl ⟨false, lock_absent _ _, by decide⟩ (by decide) .done,
      .fails (k := 1) (by decide) rfl (by decide) ⟨_, .inl rfl, rfl⟩ (by decide), rfl⟩⟩⟩

/-- Two sub-requests of FC 0x15: both callbacks answer OK and the commit follows; the second fails; a closed
lock. -/
theorem witness_CallbackStatusDecidesTheOutcome_filesEnd :
    (∀ x ∈ ([(⟨6, 1, 0xFFFD, 1⟩, [7]), (⟨6, 1, 0xFFFD, 1⟩, [8])] : List (SubRequest × List Word)),
        headerValid true [⟨1, askingRegs⟩] x.1 = true ∧ x.2.length = x.1.recLen.toNat)
      ∧ (∃ w', FilesEnd true [⟨1, askingRegs⟩]
        [(⟨6, 1, 0xFFFD, 1⟩, [7]), (⟨6, 1, 0xFFFD, 1⟩, [8])]
        (answering [.status 0, .status 0, .unit]) .ok w')
      ∧ (∃ w', FilesEnd true [⟨1, askingRegs⟩]
        [(⟨6, 1, 0xFFFD, 1⟩, [7]), (⟨6, 1, 0xFFFD, 1⟩, [8])]
        (answering [.status 0, .status 7]) .negAck w')
      ∧ ∃ w', FilesEnd true [⟨1, askingRegs⟩]
        [(⟨6, 1, 0xFFFD, 1⟩, [7]), (⟨6, 1, 0xFFFE, 1⟩, [8])] (answering [.bool true])
        .illegalDataAddr w' := by
  have adm : ∀ (v : Word) (w : World), RegsAdmitted askingRegs 0xFFFD 0xFFFD [v] w true w :=
    fun v w => .next (k := 1) (by simp) rfl ⟨false, lock_absent _ _, rfl⟩ (by decide) .done
  refine ⟨by decide,
    ⟨_, .inr ⟨_, _, .next (adm _ _) (.next (adm _ _) .done),
      .next (.next (k := 1) (by decide) rfl (by decide) ⟨_, .inl rfl, rfl⟩ .done)
        (.next (.next (k := 1) (by decide) rfl (by decide) ⟨_, .inl rfl, rfl⟩ .done) .done),
      told_scripted rfl⟩⟩,
    ⟨_, .inr ⟨_, _, .next (adm _ _) (.next (adm _ _) .done),
      .next (.next (k := 1) (by decide) rfl (by decide) ⟨_, .inl rfl, rfl⟩ .done)
        (.fails (.fails (k := 1) (by decide) rfl (by decide) ⟨_, .inl rfl, rfl⟩ (by decide))
          (by decide)), rfl⟩⟩,
    ⟨_, .inl ⟨rfl, .next (adm _ _)
      (.denied (.denied (by decide) rfl ⟨true, lock_scripted rfl, by decide⟩))⟩⟩⟩

theorem witness_WriteLocksDecideTheWrite :
    AtHandler (at1 hostTables (answering [.bool true])) (asking [0x41]) false
      ∧ (answering [.bool true]).script = ⟨.bool true, []⟩ :: []
      ∧ findCoil [coilCb 0, coilLocked 0xFFFF] (0xFFFF : Word).toNat = some (coilLocked 0xFFFF)
      ∧ (coilLocked 0xFFFF).wlock = true ∧ (coilLocked 0xFFFF).wmode = .cell 0 0
      ∧ (coilLocked 0xFFFF).postWrite = false ∧ hostTables.callbacks.commitCoilsWrite = false
      ∧ cover [regCb 0, ⟨1, .u32, .cb, .cb, false, false, true, false⟩, regLocked 0xFFFF]
          (0xFFFF : Word).toNat = some (regLocked 0xFFFF)
      ∧ (regLocked 0xFFFF).type = .u16 ∧ (regLocked 0xFFFF).wlock = true
      ∧ (regLocked 0xFFFF).wmode = .ptr 0 ∧ (regLocked 0xFFFF).postWrite = false
      ∧ hostTables.callbacks.commitRegsWrite = false := ⟨asked_atHandler _ _ _, by decide⟩

theorem witness_HostValuesAreReturned :
    AtHandler (at1 (withCallbacks allCallbacks) World.initial) (asking [0x41]) false
      ∧ (withCallbacks allCallbacks).callbacks.readExceptionStatus = true
      ∧ (withCallbacks allCallbacks).callbacks.readDiagnostics = true
      ∧ (at1 (withCallbacks allCallbacks) World.initial).hostFree = true
      ∧ (answering [.byte 0xFF]).script = ⟨.byte 0xFF, []⟩ :: []
      ∧ (answering [.word 0xFFFF]).script = ⟨.word 0xFFFF, []⟩ :: []
      ∧ (0x0001 : Word) ≠ 0x0000
      ∧ InstanceConfig.testVectors.callbacks.readDiagnostics = false :=
  ⟨asked_atHandler _ _ _, by decide⟩

/-! ### Diagnostics and events -/

theorem witness_QueryDataIsEchoed :
    AtHandler (at1 oneReg World.initial) (asking [0x41]) false := asked_atHandler _ _ _

theorem witness_RestartReturnsToNormalMode :
    AtHandler (at1 (withCallbacks allCallbacks) (answering [.unit])) (asking [0x41]) false
      ∧ listens (withCallbacks allCallbacks).callbacks.requestRestart (answering [.unit]) = true
      ∧ listens (withCallbacks allCallbacks).callbacks.requestRestart World.initial = true
      ∧ ((0xFF00 : Word) = 0x0000 ∨ (0xFF00 : Word) = 0xFF00)
      ∧ ((0xFF01 : Word) ≠ 0x0000 ∧ (0xFF01 : Word) ≠ 0xFF00) := ⟨asked_atHandler _ _ _, by decide⟩

theorem witness_DelimiterIsStoredIfLegal :
    AtHandler (at1 oneReg World.initial) (asking [0x41]) false
      ∧ ((127 : Byte).toNat ≤ 127 ∧ (0 : Byte) = 0x00) ∧ 127 < (128 : Byte).toNat
      ∧ (1 : Byte) ≠ 0x00 := ⟨asked_atHandler _ _ _, by decide⟩

theorem witness_ForceListenOnlyEntersTheMode :
    AtHandler (at1 oneReg World.initial) (asking [0x41]) false ∧ (0x0001 : Word) ≠ 0x0000 :=
  ⟨asked_atHandler _ _ _, by decide⟩

theorem witness_ClearingSubfunctionsZeroTheirCounters :
    AtHandler (at1 (withCallbacks allCallbacks) (answering [.unit])) (asking [0x41]) false
      ∧ listens (withCallbacks allCallbacks).callbacks.resetDiagnostics (answering [.unit]) = true
      ∧ (0x8000 : Word) ≠ 0x0000 := ⟨asked_atHandler _ _ _, by decide⟩

theorem witness_CounterSubfunctionsAnswerTheirCounter :
    AtHandler { at1 oneReg World.initial with regs := counted } (asking [0x41]) false
      ∧ (Instr.diagReturnBusyCount (.fields 0) = .diagReturnBusyCount (.fields 0)
        ∧ (0x11 : Byte) = 0x11 ∧ (7 : Word) = counted.counters.busy) :=
  ⟨⟨rfl, rfl, rfl, rfl⟩, by decide⟩

theorem witness_EventRequestsAnswerTheRegisters :
    AtHandler { at1 oneReg World.initial with regs := counted } (asking [0x41]) false :=
  ⟨rfl, rfl, rfl, rfl⟩

theorem witness_UnimplementedCodesRaiseIllegalFunction :
    AtHandler (at1 oneReg World.initial) (asking [0x41]) false
      ∧ unimplemented oneReg (.readCoils (.fields ⟨0, 1⟩)) = true
      ∧ fcOf (.readCoils (.fields ⟨0, 1⟩)) = some 0x01
      ∧ unimplemented oneReg (.fallback 0x41 []) = true ∧ fcOf (.fallback 0x41 []) = some 0x41
      ∧ oneReg.callbacks.handleFn = false := ⟨asked_atHandler _ _ _, by decide⟩

/-- A read one byte short and one byte long, a byte count off by one, a diagnostic request of four bytes. -/
theorem witness_WrongLengthsRaiseValueErrors :
    AtHandler (at1 oneReg World.initial) (asking [0x41]) false
      ∧ (decodePdu [3, 0, 1, 0] = .ok (.readHoldingRegisters (.badLength [0, 1, 0]))
        ∧ unimplemented oneReg (.readHoldingRegisters (.badLength [0, 1, 0])) = false
        ∧ lengthRight [3, 0, 1, 0] = false)
      ∧ lengthRight [3, 0, 1, 0, 1, 0] = false ∧ lengthRight [3, 0, 1, 0, 1] = true
      ∧ (lengthRight [0x10, 0, 1, 0, 1, 2, 0] = false ∧ lengthRight [0x10, 0, 1, 0, 1, 2, 0, 7] = true)
      ∧ (lengthRight [8, 0] = false ∧ lengthRight [8, 0, 0] = true
        ∧ lengthRight [8, 0, 1, 0] = false) := ⟨asked_atHandler _ _ _, by decide⟩

/-- The first byte of one word, the last of the word before it. -/
theorem witness_StorageReadsWhatWasLastWritten :
    Memory.wf [(0x1FFFF, 1), (0x20000, 2)] = true ∧ (0xFFFF : Nat) < 0x10000
      ∧ wordAddr 0 0xFFFF + 1 = 0x1FFFF ∧ wordAddr 1 0 = 0x20000 := by decide

end Sys2Proof.Tests
end

section
/-! PROOFS of the state family: the step equations, the invariant and its consequences, the writers of the
block's registers and of the configuration, and the event ring. -/

namespace Sys2Proof.Machine

/-! ## What a step fetches (R60, R62, R160) -/

section
variable {s : State}

/-- Phase IDLE: the host's storage changes, then its next command. -/
theorem step_idle_cons {q : HostRequest} {rest : List HostRequest} (hp : s.phase = .idle)
    (hq : s.pending = q :: rest) :
    step s = exec (decodeCommand q.command)
      { s with world := s.world.changes q.cells, pending := rest } := by
  simp [step, fetch, hp, fetchCommand, hq]

/-- Phase IDLE without a command: the block waits. -/
theorem step_idle_nil (hp : s.phase = .idle) (hq : s.pending = []) : step s = .next s := by
  simp [step, fetch, hp, fetchCommand, hq]

/-- Phase EXEC: the function code the request decodes to, on the state as it stands. -/
theorem step_exec {t : Txn} {p : List Byte} {i : Instr} (hp : s.phase = .exec)
    (ht : s.txn = some t) (hr : t.req = some p) (hd : decodePdu p = .ok i) :
    step s = exec i s := by
  simp [step, fetch, hp, fetchFunction, ht, hr, hd]

/-- Settles O4: each clause is one of the step equations. -/
theorem stepRunsWhatItFetches : Obligations.StepRunsWhatItFetches :=
  ⟨fun _ _ _ _ hp ht hr hd => step_exec hp ht hr hd,
    fun _ hp => ⟨fun _ _ hq => step_idle_cons hp hq, step_idle_nil hp⟩⟩

end

/-! ## Commands that are refused (R9, R62, R575) -/

section
variable {s : State}

theorem beginCommand_busy (k : State → Answer) (hb : s.busy = true) :
    beginCommand s k = .refused .commandWhileBusy := by
  simp [beginCommand, hb]

theorem beginCommand_invalid (k : State → Answer) (hb : s.busy = false)
    (hc : configValid s.cfg = false) : beginCommand s k = .refused .invalidConfiguration := by
  simp [beginCommand, hb, hc]

/-- Every command begins by `beginCommand`. -/
theorem exec_command_begins (c : Command) (s : State) :
    ∃ k, exec (decodeCommand c) s = beginCommand s k := by
  cases c <;>
    simp only [decodeCommand, exec, execRxRtu, execRxAscii, execRxTcp, execRxPdu, execSetStatus,
      beginReceive] <;>
    exact ⟨_, rfl⟩

theorem exec_command_busy (c : Command) (hb : s.busy = true) :
    exec (decodeCommand c) s = .refused .commandWhileBusy := by
  obtain ⟨k, hk⟩ := exec_command_begins c s
  rw [hk, beginCommand_busy k hb]

theorem exec_command_invalid (c : Command) (hb : s.busy = false) (hc : configValid s.cfg = false) :
    exec (decodeCommand c) s = .refused .invalidConfiguration := by
  obtain ⟨k, hk⟩ := exec_command_begins c s
  rw [hk, beginCommand_invalid k hb hc]

/-- A command that does not end in a refusal was one the state takes. -/
theorem takesCommand_of_exec {c : Command} {s' : State}
    (he : exec (decodeCommand c) s = .next s') : s.takesCommand = true := by
  cases hb : s.busy with
  | true => rw [exec_command_busy c hb] at he; cases he
  | false =>
    cases hc : configValid s.cfg with
    | false => rw [exec_command_invalid c hb hc] at he; cases he
    | true => simp [State.takesCommand, hb, hc]

end

/-- An invocation that finds an answer in the script gives it. -/
theorem invoke_scripted {h : HostCall} {w : World} {d : HostDraw} {rest : List HostDraw}
    (hs : w.script = d :: rest) : ∃ w', invoke h w = (some d.answer, w') := by
  simp [invoke, hs]

/-- Settles O13: every command begins by `beginCommand`, and every asker ends in `breach` on an answer that
is a command of the callback. -/
theorem commandsOutOfContractAreRefused : Obligations.CommandsOutOfContractAreRefused := by
  refine ⟨fun c _ hb => exec_command_busy c hb, fun c _ hb hc => exec_command_invalid c hb hc, ?_⟩
  intro c cells rest w h n hs
  obtain ⟨w', hi⟩ := invoke_scripted (h := h) hs
  simp only [askBool, askUnit, askByte, askByteOrFail, askWord, askWordsOrFail, askStatus,
    askStatusBody, hi, breach, and_self]

/-- Settles O24: SET_STATUS ends at once (`beginCommand_takes`), in the state it found but for the status
word and the empty output. -/
theorem setStatusWritesTheStatusWord : Obligations.SetStatusWritesTheStatusWord := by
  intro s v hs hp ht
  have hb : s.busy = false := by
    simp only [State.takesCommand, Bool.and_eq_true, Bool.not_eq_true'] at hs
    exact hs.1
  calc exec (.setStatus v) s
      = .next (endCommand [] { s with busy := true, regs := { s.regs with status := v } }) := by
        show execSetStatus v s = _
        unfold execSetStatus
        rw [beginCommand_takes hs]
    _ = _ := by simp only [endCommand, hp, hb, ht]

/-! ## The invariant (R60, R61, R503) -/

/-- A stop is no next state. -/
theorem Stop.answer_ne_next (x : Stop) (s : State) : x.answer ≠ .next s := by
  cases x <;> nofun

section
variable {s s' : State}

theorem State.inv_parts (h : s.inv = true) :
    configValid s.cfg = true ∧ s.regs.good = true ∧ s.world.good = true := by
  simp only [State.inv, Bool.and_eq_true] at h
  obtain ⟨⟨⟨hc, hr⟩, hw⟩, _⟩ := h
  exact ⟨hc, hr, hw⟩

theorem State.hostFree_iff : s.hostFree = true ↔ s.world.script = [] := by
  simp [State.hostFree]

/-- The host's storage changes keep the storage canonical and leave no scripted answer. -/
theorem World.free_changes (w : World) (cs : List CellChange)
    (h : w.good = true ∧ w.script = []) : (w.changes cs).good = true ∧ (w.changes cs).script = [] :=
  ⟨World.good_changes cs w h.1, (World.script_changes cs w).trans h.2⟩

/-- A step of a good state leads to a good state, or the host broke its contract. -/
theorem step_of_inv (h : s.inv = true) :
    (∃ s', step s = .next s' ∧ s'.inv = true) ∨ ∃ x, isContractStop x ∧ step s = x.answer := by
  obtain ⟨_, _, hw⟩ := State.inv_parts h
  rcases step_cases worldLaw_good (fun _ hg => hg) (fun w cs hg => World.good_changes cs w hg) h hw
    with ⟨s', he, hi, _⟩ | hx
  · exact .inl ⟨s', he, hi⟩
  · exact .inr hx

/-- A step of a good state over a host that keeps its contract leads to another. -/
theorem step_of_inv_hostFree (h : s.inv = true) (hf : s.hostFree = true) :
    ∃ s', step s = .next s' ∧ s'.inv = true ∧ s'.hostFree = true := by
  obtain ⟨_, _, hw⟩ := State.inv_parts h
  rcases step_cases worldLaw_free (fun _ hg => hg.1) World.free_changes h
      ⟨hw, State.hostFree_iff.mp hf⟩ with ⟨s', he, hi, _, hs⟩ | ⟨_, hx, _⟩
  · exact ⟨s', he, hi, State.hostFree_iff.mpr hs⟩
  · exact hx.elim

end

/-- Settles O7: of the two outcomes of a step from a good state, only the good one is a next state. -/
theorem stepKeepsTheInvariant : Obligations.StepKeepsTheInvariant := by
  intro s s' h he
  rcases step_of_inv h with ⟨s'', he', hi⟩ | ⟨x, _, hx⟩
  · rw [he'] at he
    cases he
    exact hi
  · exact absurd (hx.symm.trans he) (Stop.answer_ne_next x s')

/-- Settles O8: the step's outcomes over any host, and over one with no answer left in its script. -/
theorem stepStopsOnlyOnABrokenContract : Obligations.StepStopsOnlyOnABrokenContract := by
  refine fun s h => ⟨?_, step_of_inv_hostFree h⟩
  rcases step_of_inv h with ⟨s', he, _⟩ | hx
  · exact .inl ⟨s', he⟩
  · exact .inr hx

/-! ## A command's one output (R60, R506) -/

/-- The command in progress in `s` has ended in `s'`: IDLE, no transaction, one more output. -/
def EndsCommand (s s' : State) : Prop :=
  ∃ out, s'.phase = .idle ∧ s'.busy = false ∧ s'.txn = none ∧ s'.pending = s.pending
    ∧ s'.outputs = s.outputs ++ [out]

section
variable {P : World → Prop} {F : Stop → Prop} {s s' : State}

theorem completed_endsCommand (fc : Byte) (t : Txn) (wl : Bool) (res : List Byte) (s : State) :
    EndsCommand s (completed fc t wl res s) :=
  ⟨_, rfl, rfl, rfl, rfl, rfl⟩

theorem failed_endsCommand (fc : Byte) (t : Txn) (wl : Bool) (e : Status) (s : State) :
    EndsCommand s (failed fc t wl e s) :=
  ⟨_, rfl, rfl, rfl, rfl, rfl⟩

theorem dropped_endsCommand (r : Registers) (s : State) : EndsCommand s (dropped r s) :=
  ⟨_, rfl, rfl, rfl, rfl, rfl⟩

/-- The step of a good state in phase EXEC ends the command, or stops. -/
theorem step_exec_endsCommand (L : WorldLaw P F) (h : s.inv = true) (hp : s.phase = .exec)
    (hP : P s.world) :
    (∃ s', step s = .next s' ∧ EndsCommand s s') ∨ ∃ x, F x ∧ step s = x.answer := by
  obtain ⟨t, p, ht, hreq, h1, h2, hat, _⟩ := State.inv_exec h hp
  obtain ⟨i, hd⟩ := decodePdu_total h1 h2
  obtain ⟨fc, hfc⟩ := fcOf_decodePdu hd
  rw [step_exec hp ht hreq hd]
  rcases exec_function_cases L hfc hat hP with
    ⟨res, w, _, _, _, he⟩ | ⟨e, w, _, _, he⟩ | hx
  · exact .inl ⟨_, he, completed_endsCommand _ _ _ _ _⟩
  · exact .inl ⟨_, he, failed_endsCommand _ _ _ _ _⟩
  · exact .inr hx

/-- A command of a good state ends in its first step, or reaches phase EXEC and ends in its second, unless
that one stops. -/
theorem command_returnsOneOutput (L : WorldLaw P F) (hch : ∀ w cs, P w → P (w.changes cs))
    {q : HostRequest} {rest : List HostRequest} (h : s.inv = true) (hp : s.phase = .idle)
    (hq : s.pending = q :: rest) (hP : P s.world) :
    ReturnsOneOutput s rest
      ∨ ∃ m x, step s = .next m ∧ m.phase = .exec ∧ m.outputs = s.outputs ∧ F x
        ∧ step m = x.answer := by
  obtain ⟨hc, hr, hw⟩ := State.inv_parts h
  have hst := step_idle_cons hp hq
  have hw' := World.good_changes q.cells _ hw
  have hidle : s.busy = false := by
    rcases State.inv_phase h with ⟨_, hb, _⟩ | hx
    · exact hb
    · rw [hp] at hx; cases hx
  have endsAtOnce : ∀ r, step s = .next (dropped r
      { s with world := s.world.changes q.cells, pending := rest }) → ReturnsOneOutput s rest := by
    intro r he
    obtain ⟨out, h1, h2, h3, h4, h5⟩ := dropped_endsCommand r
      { s with world := s.world.changes q.cells, pending := rest }
    exact ⟨_, out, h1, h2, h3, h4, h5, .inl he⟩
  rcases exec_command_cases (s := { s with world := s.world.changes q.cells, pending := rest })
      q.command (by simp [State.takesCommand, hidle, hc]) with
    ⟨v, _, he⟩ | ⟨r, _, he⟩ | ⟨t, p, r, hf, h1, h2, hfr, hg, he⟩
  · exact .inl (endsAtOnce _ (hst.trans he))
  · exact .inl (endsAtOnce _ (hst.trans he))
  · obtain ⟨_, hlisten, _, _, hgood⟩ := hf
    have hinv := dispatched_inv (s := { s with world := s.world.changes q.cells, pending := rest })
      hc (hgood hr) hlisten hw' h1 h2 hfr hg
    rcases step_exec_endsCommand L hinv rfl (hch _ _ hP) with
      ⟨s', he', out, e1, e2, e3, e4, e5⟩ | ⟨x, hx, he'⟩
    · exact .inl ⟨s', out, e1, e2, e3, e4, e5, .inr ⟨_, hst.trans he, rfl, rfl, he'⟩⟩
    · exact .inr ⟨_, x, hst.trans he, rfl, rfl, hx, he'⟩

end

/-- Settles O9: `command_returnsOneOutput` over any host, and over one that keeps its contract. -/
theorem everyCommandReturnsOneOutput : Obligations.EveryCommandReturnsOneOutput := by
  intro s q rest h hp hq
  obtain ⟨_, _, hw⟩ := State.inv_parts h
  refine ⟨command_returnsOneOutput worldLaw_good (fun w cs hg => World.good_changes cs w hg)
    h hp hq hw, fun hf => ?_⟩
  rcases command_returnsOneOutput worldLaw_free World.free_changes h hp hq
      ⟨hw, State.hostFree_iff.mp hf⟩ with hret | ⟨_, _, _, _, _, hx, _⟩
  · exact hret
  · exact hx.elim

/-! ## What a phase leaves of the configuration and the registers (R32 to R43, R128) -/

/-- The state has configuration `c`, and of the registers `r` only counters other than the overrun counter
and events have changed since. -/
def Framed (c : InstanceConfig) (r : Registers) (s : State) : Prop := s.cfg = c ∧ r.framed s.regs

/-- The next state, if there is one, is such a state. -/
def AnswersFramed (c : InstanceConfig) (r : Registers) : Answer → Prop
  | .next s => Framed c r s
  | .fault _ => True
  | .refused _ => True

section
variable {c : InstanceConfig} {r : Registers} {s s' : State}

theorem AnswersFramed.next {a : Answer} (h : AnswersFramed c r a) (ha : a = .next s') :
    Framed c r s' := by
  subst ha
  exact h

theorem Framed.refl (s : State) : Framed s.cfg s.regs s := ⟨rfl, Registers.framed_refl _⟩

theorem Framed.log (e : Byte) (h : Framed c r s) : Framed c r (s.log e) :=
  ⟨h.1, Registers.framed_log e h.2⟩

theorem Framed.count {f : Counters → Counters} (hf : ∀ x, (f x).busCharOverrun = x.busCharOverrun)
    (h : Framed c r s) : Framed c r (s.count f) :=
  ⟨h.1, Registers.framed_count hf h.2⟩

theorem transmit_framed (h : Framed c r s) : AnswersFramed c r (transmit s) := by
  unfold transmit
  split
  · trivial
  split
  · trivial
  split
  · exact h.count fun _ => rfl
  split
  · trivial
  · exact h
  · trivial
  split
  · trivial
  · exact h

theorem dispatcherReturns_framed (m : Nat) (t : Txn) (h : Framed c r s) :
    AnswersFramed c r (dispatcherReturns m t s) :=
  transmit_framed (s := { s with phase := .tx, txn := _ }) h

theorem returnReply_framed (wl : Bool) (h : Framed c r s) : AnswersFramed c r (returnReply wl s) := by
  unfold returnReply
  split
  · trivial
  split
  · trivial
  · exact dispatcherReturns_framed _ _ h

theorem applyStatus_framed (fc : Byte) (st : Status) (wl : Bool) (t : Txn) (h : Framed c r s) :
    Framed c r (applyStatus fc st wl t s) := by
  unfold applyStatus
  split
  · unfold completeOk
    split
    · exact h.log _
    · exact (h.count fun _ => rfl).log _
  · unfold takeException
    exact (Framed.count (s := { s with txn := _ }) (fun _ => rfl) h).log _

theorem result_framed (fc : Byte) (h : Framed c r s) : AnswersFramed c r (result fc s) := by
  unfold result
  split
  · trivial
  split
  · exact returnReply_framed _ (applyStatus_framed _ _ _ _ h)
  · trivial

theorem resultPhase_framed (h : Framed c r s) : AnswersFramed c r (resultPhase s) := by
  unfold resultPhase
  split
  · trivial
  split
  · trivial
  · exact result_framed _ h

theorem gate_framed (h : Framed c r s) : AnswersFramed c r (gate s) := by
  unfold gate
  split
  · trivial
  split
  · trivial
  split
  · exact dispatcherReturns_framed _ _ h
  split
  · exact dispatcherReturns_framed _ _ (h.log _)
  · exact h.count (f := Counters.incMsg) fun _ => rfl

theorem drop_framed (h : Framed c r s) : AnswersFramed c r (drop s) := h

theorem integrityFailure_framed (h : Framed c r s) : AnswersFramed c r (integrityFailure s) :=
  drop_framed ((h.count fun _ => rfl).log _)

theorem filterAddress_framed (a : Byte) (p : List Byte) (t : Txn) (h : Framed c r s) :
    AnswersFramed c r (filterAddress a p t s) := by
  rw [filterAddress_eq]
  split
  · exact gate_framed (h.log _)
  · exact drop_framed (h.log _)

theorem rtuFilter_framed (t : Txn) (h : Framed c r s) : AnswersFramed c r (rtuFilter t s) :=
  filterAddress_framed _ _ t h

theorem rtuCheck_framed (t : Txn) (h : Framed c r s) : AnswersFramed c r (rtuCheck t s) := by
  unfold rtuCheck
  split
  · exact rtuFilter_framed (s := { s with phase := _ }) t h
  · exact integrityFailure_framed h

theorem rtuShape_framed (t : Txn) (h : Framed c r s) : AnswersFramed c r (rtuShape t s) := by
  unfold rtuShape
  split
  · exact drop_framed h
  · exact rtuCheck_framed t (h.count (f := Counters.incBusMsg) fun _ => rfl)

theorem asciiFilter_framed (t : Txn) (h : Framed c r s) : AnswersFramed c r (asciiFilter t s) := by
  unfold asciiFilter
  split
  · trivial
  · exact filterAddress_framed _ _ t h

theorem asciiCheck_framed (t : Txn) (h : Framed c r s) : AnswersFramed c r (asciiCheck t s) := by
  unfold asciiCheck
  split
  · exact integrityFailure_framed h
  split
  · exact asciiFilter_framed (s := { s with phase := _, txn := _ }) _ h
  · exact integrityFailure_framed h

theorem asciiShape_framed (t : Txn) (h : Framed c r s) : AnswersFramed c r (asciiShape t s) := by
  unfold asciiShape
  split
  · exact asciiCheck_framed _ (h.count (f := Counters.incBusMsg) fun _ => rfl)
  · exact drop_framed h

theorem tcpFilter_framed (t : Txn) (h : Framed c r s) : AnswersFramed c r (tcpFilter t s) :=
  filterAddress_framed _ _ t h

theorem tcpCheck_framed (t : Txn) (h : Framed c r s) : AnswersFramed c r (tcpCheck t s) := by
  unfold tcpCheck
  split
  · exact tcpFilter_framed (s := { s with phase := _ }) t h
  · exact integrityFailure_framed h

theorem tcpShape_framed (t : Txn) (h : Framed c r s) : AnswersFramed c r (tcpShape t s) := by
  unfold tcpShape
  split
  · exact drop_framed h
  · exact tcpCheck_framed t (h.count (f := Counters.incBusMsg) fun _ => rfl)

/-- A receive phase runs its framer's part, or faults. -/
theorem receivePhase_framed {rtu ascii tcp : Txn → State → Answer}
    (hr : ∀ t, AnswersFramed c r (rtu t s)) (ha : ∀ t, AnswersFramed c r (ascii t s))
    (ht : ∀ t, AnswersFramed c r (tcp t s)) : AnswersFramed c r (receivePhase rtu ascii tcp s) := by
  unfold receivePhase
  split
  · trivial
  split
  · exact hr _
  · exact ha _
  · exact ht _
  · trivial

end

/-! ## The writers of the registers (R37 to R43, R515) -/

/-- What an instruction may have done to the four registers that have writers of their own, when it has
changed the registers `r` to `r'`. -/
def WrittenBy (i : Instr) (r r' : Registers) : Prop :=
  (r'.isListenOnly = r.isListenOnly
    ∨ (i = .diagForceListenOnly (.fields 0x0000) ∧ r'.isListenOnly = true)
    ∨ ((i = .diagRestartCommunications (.fields 0x0000)
        ∨ i = .diagRestartCommunications (.fields 0xFF00)) ∧ r'.isListenOnly = false))
  ∧ (r'.asciiDelimiter = r.asciiDelimiter
    ∨ ∃ d, i = .diagChangeAsciiDelimiter (.fields ⟨d, 0x00⟩) ∧ d.toNat ≤ 127
        ∧ r'.asciiDelimiter = d)
  ∧ (r'.status = r.status ∨ ∃ v, i = .setStatus v ∧ r'.status = v)
  ∧ (r'.counters.busCharOverrun = r.counters.busCharOverrun
    ∨ ((i = .diagRestartCommunications (.fields 0x0000)
        ∨ i = .diagRestartCommunications (.fields 0xFF00)
        ∨ i = .diagClearCounters (.fields 0x0000) ∨ i = .diagClearOverrun (.fields 0x0000))
      ∧ r'.counters.busCharOverrun = 0))

section
variable {i : Instr} {r r₁ r' : Registers} {s s' : State}

theorem WrittenBy.refl (i : Instr) (r : Registers) : WrittenBy i r r :=
  ⟨.inl rfl, .inl rfl, .inl rfl, .inl rfl⟩

/-- The phases after a handler and before it write none of the four. -/
theorem WrittenBy.framed (h : WrittenBy i r r₁) (hf : r₁.framed r') : WrittenBy i r r' := by
  obtain ⟨hd, hl, hs, ho, _⟩ := hf
  unfold WrittenBy
  rw [hd, hl, hs, ho]
  exact h

/-- A restart leaves listen-only mode and zeroes the counters, whatever its data (R444). -/
theorem restartRegisters_writes (data : Word) (r : Registers) :
    (restartRegisters data r).isListenOnly = false
      ∧ (restartRegisters data r).asciiDelimiter = r.asciiDelimiter
      ∧ (restartRegisters data r).status = r.status
      ∧ (restartRegisters data r).counters = Counters.zero := by
  unfold restartRegisters
  dsimp only
  split
  · exact ⟨rfl, rfl, rfl, rfl⟩
  · exact ⟨rfl, rfl, rfl, rfl⟩

/-- The handlers that write one of the four are the writers that R38, R42, R43 and R446 name. -/
theorem handlerRegs_writtenBy (i : Instr) (r : Registers) : WrittenBy i r (handlerRegs i r) := by
  unfold handlerRegs
  split
  next data =>
    split
    next hd =>
      obtain ⟨hl, ha, hs, hc⟩ := restartRegisters_writes data r
      have ho : (restartRegisters data r).counters.busCharOverrun = 0 := by rw [hc]; rfl
      rcases hd with rfl | rfl
      · exact ⟨.inr (.inr ⟨.inl rfl, hl⟩), .inl ha, .inl hs, .inr ⟨.inl rfl, ho⟩⟩
      · exact ⟨.inr (.inr ⟨.inr rfl, hl⟩), .inl ha, .inl hs, .inr ⟨.inr (.inl rfl), ho⟩⟩
    next => exact .refl _ r
  next f =>
    split
    next hd =>
      obtain ⟨d, z⟩ := f
      obtain ⟨hle, rfl⟩ := hd
      exact ⟨.inl rfl, .inr ⟨d, rfl, hle, rfl⟩, .inl rfl, .inl rfl⟩
    next => exact .refl _ r
  next data =>
    split
    next hd => subst hd; exact ⟨.inr (.inl ⟨rfl, rfl⟩), .inl rfl, .inl rfl, .inl rfl⟩
    next => exact .refl _ r
  next data =>
    split
    next hd =>
      subst hd
      exact ⟨.inl rfl, .inl rfl, .inl rfl, .inr ⟨.inr (.inr (.inl rfl)), rfl⟩⟩
    next => exact .refl _ r
  next data =>
    split
    next hd =>
      subst hd
      exact ⟨.inl rfl, .inl rfl, .inl rfl, .inr ⟨.inr (.inr (.inr rfl)), rfl⟩⟩
    next => exact .refl _ r
  next => exact .refl _ r

/-- Every host keeps the trivial law. -/
theorem worldLaw_any : WorldLaw (fun _ => True) (fun _ => True) where
  invoke _ _ _ := trivial
  setBit _ _ _ _ _ := trivial
  setWords _ _ _ _ _ _ := trivial
  contract _ _ _ _ _ := trivial

/-- A function code leaves the configuration, and of the registers what its handler left; after an exception
that is all of them. -/
theorem runFunction_framed {fc : Byte} {h : Handler} {P : World → Prop} {F : Stop → Prop}
    (hh : (h s).Ends r P F s) (he : runFunction fc h s = .next s') :
    Framed s.cfg r s' ∨ Framed s.cfg s.regs s' := by
  unfold runFunction at he
  split at he
  · cases hv : h s with
    | val res s₁ =>
      rw [hv] at hh he
      obtain ⟨w, _, rfl⟩ := hh
      refine .inl (AnswersFramed.next (result_framed fc ?_) he)
      exact ⟨rfl, Registers.framed_refl r⟩
    | raise e s₁ =>
      rw [hv] at hh he
      obtain ⟨_, w, _, rfl⟩ := hh
      refine .inr (AnswersFramed.next (result_framed fc ?_) he)
      exact ⟨rfl, Registers.framed_refl s.regs⟩
    | stop x =>
      rw [hv] at he
      exact absurd he (Stop.answer_ne_next x s')
  · cases he

/-- An instruction is a command or a function code. -/
theorem instr_cases (i : Instr) :
    (∃ c, i = decodeCommand c) ∨ ∃ fc h, functionOf i = some (fc, h) := by
  cases i
  case rxRtu f => exact .inl ⟨.rxRtu f, rfl⟩
  case rxAscii a => exact .inl ⟨.rxAscii a, rfl⟩
  case rxTcp f => exact .inl ⟨.rxTcp f, rfl⟩
  case rxPdu p => exact .inl ⟨.rxPdu p, rfl⟩
  case setStatus v => exact .inl ⟨.setStatus v, rfl⟩
  all_goals exact .inr ⟨_, _, rfl⟩

/-- A command leaves the configuration and writes the status word only. -/
theorem exec_command_writes {c : Command} (he : exec (decodeCommand c) s = .next s') :
    s'.cfg = s.cfg ∧ WrittenBy (decodeCommand c) s.regs s'.regs := by
  have hrefl := WrittenBy.refl (decodeCommand c) s.regs
  rcases exec_command_cases c (takesCommand_of_exec he) with
    ⟨v, rfl, hx⟩ | ⟨r, hf, hx⟩ | ⟨t, p, r, hf, _, _, _, _, hx⟩
  all_goals
    rw [hx] at he
    cases he
  · exact ⟨rfl, .inl rfl, .inl rfl, .inr ⟨v, rfl, rfl⟩, .inl rfl⟩
  · exact ⟨rfl, hrefl.framed hf⟩
  · exact ⟨rfl, hrefl.framed (Registers.framed_count (f := Counters.incMsg) (fun _ => rfl) hf)⟩

/-- An instruction leaves the configuration, and the four registers but for their writers. -/
theorem exec_writes (he : exec i s = .next s') : s'.cfg = s.cfg ∧ WrittenBy i s.regs s'.regs := by
  rcases instr_cases i with ⟨c, rfl⟩ | ⟨fc, h, hi⟩
  · exact exec_command_writes he
  · rw [exec_functionOf hi] at he
    rcases runFunction_framed (handler_ends worldLaw_any hi trivial) he with ⟨hc, hf⟩ | ⟨hc, hf⟩
    · exact ⟨hc, (handlerRegs_writtenBy i s.regs).framed hf⟩
    · exact ⟨hc, (WrittenBy.refl i s.regs).framed hf⟩

end

/-- Settles O12: every instruction writes the four registers as `WrittenBy` says. -/
theorem registersHaveTheirWritersOnly : Obligations.RegistersHaveTheirWritersOnly :=
  fun _ _ _ he => (exec_writes he).2

/-! ## The configuration (R32 to R36, R84, R128) -/

/-- What a step fetches runs on a state with the same configuration; what needs no instruction leaves it. -/
theorem fetch_cases (s : State) :
    (∃ i s₁, fetch s = .run i s₁ ∧ s₁.cfg = s.cfg)
      ∨ ∃ a, fetch s = .ends a ∧ AnswersFramed s.cfg s.regs a := by
  have h := Framed.refl s
  unfold fetch
  cases s.phase
  case idle =>
    dsimp only
    unfold fetchCommand
    split
    · exact .inr ⟨_, rfl, h⟩
    · exact .inl ⟨_, _, rfl, rfl⟩
  case rxShape =>
    exact .inr ⟨_, rfl, receivePhase_framed (fun t => rtuShape_framed t h)
      (fun t => asciiShape_framed t h) (fun t => tcpShape_framed t h)⟩
  case rxCheck =>
    exact .inr ⟨_, rfl, receivePhase_framed (fun t => rtuCheck_framed t h)
      (fun t => asciiCheck_framed t h) (fun t => tcpCheck_framed t h)⟩
  case rxFilter =>
    exact .inr ⟨_, rfl, receivePhase_framed (fun t => rtuFilter_framed t h)
      (fun t => asciiFilter_framed t h) (fun t => tcpFilter_framed t h)⟩
  case gate => exact .inr ⟨_, rfl, gate_framed h⟩
  case exec =>
    dsimp only
    unfold fetchFunction
    split
    · exact .inr ⟨_, rfl, trivial⟩
    split
    · exact .inr ⟨_, rfl, trivial⟩
    split
    · exact .inl ⟨_, _, rfl, rfl⟩
    · exact .inr ⟨_, rfl, trivial⟩
  case result => exact .inr ⟨_, rfl, resultPhase_framed h⟩
  case tx => exact .inr ⟨_, rfl, transmit_framed h⟩

/-- Settles O11: neither an instruction (`exec_writes`) nor a resumed phase (`AnswersFramed`) writes the
configuration. -/
theorem configurationIsNeverWritten : Obligations.ConfigurationIsNeverWritten := by
  intro s s' he
  unfold step at he
  rcases fetch_cases s with ⟨i, s₁, hf, hc⟩ | ⟨a, hf, ha⟩
  · rw [hf] at he
    exact (exec_writes he).1.trans hc
  · rw [hf] at he
    exact (ha.next he).1

/-! ## The event ring (R50, R52, R53) -/

theorem EventRing.getElem_newestFirst (g : EventRing) (k : Nat) (hk : k < g.newestFirst.length) :
    g.newestFirst[k] = g.ev[(g.wpos.val + 64 - 1 - k) % 64]'(Nat.mod_lt _ (by decide)) := by
  simp [EventRing.newestFirst]

/-- An append puts its event in front, and lets the 65th newest go. -/
theorem EventRing.newestFirst_append (g : EventRing) (e : Byte) :
    (g.append e).newestFirst = (e :: g.newestFirst).take 64 := by
  have hw := g.wpos.isLt
  obtain ⟨hcount, hwpos⟩ := EventRing.append_count_wpos g e
  apply List.ext_getElem
  · simp only [length_newestFirst, hcount, List.length_take, List.length_cons]
    omega
  · intro k hk _
    have hk64 : k < 64 := by
      rw [length_newestFirst, hcount] at hk
      omega
    rw [EventRing.getElem_newestFirst, List.getElem_take]
    simp only [hwpos]
    cases k with
    | zero =>
      have hnew : ((g.wpos.val + 1) % 64 + 64 - 1 - 0) % 64 = g.wpos.val := by omega
      simp only [hnew, EventRing.append, List.getElem_cons_zero]
      exact Vector.getElem_set_self _
    | succ k =>
      have hold : ((g.wpos.val + 1) % 64 + 64 - 1 - (k + 1)) % 64
          = (g.wpos.val + 64 - 1 - k) % 64 := by omega
      have hne : g.wpos.val ≠ (g.wpos.val + 64 - 1 - k) % 64 := by omega
      simp only [hold, List.getElem_cons_succ, EventRing.getElem_newestFirst, EventRing.append]
      exact Vector.getElem_set_ne _ _ hne

/-- Settles O30: by induction on the appends, `newestFirst_append` at each. -/
theorem ringHoldsTheNewestEvents : Obligations.RingHoldsTheNewestEvents := by
  intro g es
  induction es generalizing g with
  | nil =>
    have hlen := length_newestFirst g
    have := g.count.isLt
    show g.newestFirst = g.newestFirst.take 64
    rw [List.take_of_length_le (by omega)]
  | cons e es ih =>
    rw [List.foldl_cons, ih, EventRing.newestFirst_append, List.reverse_cons, List.append_assoc]
    simp only [List.take_append, List.take_take, List.singleton_append]
    congr 2
    omega

end Sys2Proof.Machine
end

section
/-! PROOFS of the memory family: storage and lookup, the lengths of outputs, and what the handlers of bit access,
register access and file records do to the object store and answer, with and without a say of the host. -/

namespace Sys2Proof.Machine

/-! ## Storage and lookup (R85, R88, R91) -/

theorem World.good_parts {w : World} (h : w.good = true) :
    w.byteCells.wf = true ∧ w.wordCells.wf = true := by
  simpa [World.good] using h

/-- Settles O60: the byte law and the word law of a write in canonical form. -/
theorem storageReadsWhatWasLastWritten : Obligations.StorageReadsWhatWasLastWritten :=
  fun m hm => ⟨fun a v => ⟨Memory.wf_write m a v hm, fun b => Memory.read_write m a b v 0 hm⟩,
    fun r _ r' _ v hj hj' => Memory.readWord_writeWord hm r r' v hj hj'⟩

/-- A table from address `lo` on is accepted iff its keys are, its descriptors are valid by themselves, and each
span ends before every later key. -/
theorem regTableValidFrom_iff : ∀ (T : List RegDesc) (lo : Nat),
    regTableValidFrom lo T = true ↔
      (∀ d ∈ T, lo ≤ d.key.toNat) ∧ (∀ d ∈ T, regDescValid d = true)
        ∧ T.Pairwise fun d e => d.key.toNat + nwords d ≤ e.key.toNat
  | [], _ => by simp [regTableValidFrom]
  | d :: T, lo => by
    simp only [regTableValidFrom, Bool.and_eq_true, decide_eq_true_eq, regTableValidFrom_iff T,
      List.forall_mem_cons, List.pairwise_cons]
    constructor
    · rintro ⟨⟨hlo, hd⟩, hafter, hvalid, hpair⟩
      exact ⟨⟨hlo, fun e he => by have := hafter e he; omega⟩, ⟨hd, hvalid⟩, hafter, hpair⟩
    · rintro ⟨⟨hlo, -⟩, ⟨hd, hvalid⟩, hafter, hpair⟩
      exact ⟨⟨hlo, hd⟩, hafter, hvalid, hpair⟩

/-- Settles O14: the table law from address 0 on, and `cover_iff`. -/
theorem lookupFindsTheOneCover : Obligations.LookupFindsTheOneCover := by
  refine fun T => ⟨?_, fun hv a d => cover_iff hv⟩
  rw [regTableValid, regTableValidFrom_iff]
  simp

/-! ## A decoded request is well formed (R140, R146, R148, R160) -/

/-- An undecoded body is well formed where it is short enough and has not the length of the fields. -/
theorem Form.badLength_wfFixed {α : Type} {k lead : Nat} {body : List Byte}
    (h : lead + body.length ≤ 252) (hne : body.length ≠ k) :
    (Form.badLength (α := α) body).wfFixed k lead = true := by
  simp [Form.wfFixed, fitsBody, h, hne]

theorem parseAddrQty_wf {body : List Byte} (h : body.length ≤ 252) :
    (parseAddrQty body).wfFixed 4 0 = true := by
  unfold parseAddrQty
  split
  · rfl
  · rename_i hne
    refine Form.badLength_wfFixed (by omega) fun hl => ?_
    match body, hl with
    | [a, b, c, d], _ => exact hne a b c d rfl

theorem parseAddrValue_wf {body : List Byte} (h : body.length ≤ 252) :
    (parseAddrValue body).wfFixed 4 0 = true := by
  unfold parseAddrValue
  split
  · rfl
  · rename_i hne
    refine Form.badLength_wfFixed (by omega) fun hl => ?_
    match body, hl with
    | [a, b, c, d], _ => exact hne a b c d rfl

theorem parseUnit_wf {body : List Byte} (h : body.length ≤ 252) :
    (parseUnit body).wfFixed 0 0 = true := by
  unfold parseUnit
  split
  · rfl
  · rename_i hne
    exact Form.badLength_wfFixed (by omega) fun hl => hne (List.length_eq_zero_iff.mp hl)

theorem parseMaskWrite_wf {body : List Byte} (h : body.length ≤ 252) :
    (parseMaskWrite body).wfFixed 6 0 = true := by
  unfold parseMaskWrite
  split
  · rfl
  · rename_i hne
    refine Form.badLength_wfFixed (by omega) fun hl => ?_
    match body, hl with
    | [a, b, c, d, e, f], _ => exact hne a b c d e f rfl

theorem parseData_wf {body : List Byte} (h : body.length ≤ 250) :
    (parseData body).wfFixed 2 2 = true := by
  unfold parseData
  split
  · rfl
  · rename_i hne
    refine Form.badLength_wfFixed (by omega) fun hl => ?_
    obtain ⟨a, b, rfl⟩ := List.length_eq_two.mp hl
    exact hne a b rfl

theorem parseDelim_wf {body : List Byte} (h : body.length ≤ 250) :
    (parseDelim body).wfFixed 2 2 = true := by
  unfold parseDelim
  split
  · rfl
  · rename_i hne
    refine Form.badLength_wfFixed (by omega) fun hl => ?_
    obtain ⟨a, b, rfl⟩ := List.length_eq_two.mp hl
    exact hne a b rfl

/-- An undecoded body is well formed where it is too short for its byte count. -/
theorem wfBadCount_short {at_ : Nat} {body : List Byte} (h : body.length ≤ 252)
    (hs : body.length ≤ at_) : wfBadCount at_ body = true := by
  simp [wfBadCount, fitsBody, h, hs]

theorem parseMultiWrite_wf {body : List Byte} (h : body.length ≤ 252) :
    wfMultiWrite (parseMultiWrite body) = true := by
  unfold parseMultiWrite
  split
  · simp only [List.length_cons] at h
    split
    · simp only [wfMultiWrite, fitsBody, decide_eq_true_eq]
      omega
    · simp [wfMultiWrite, wfBadCount, fitsBody]
      omega
  · rename_i hne
    refine wfBadCount_short h (Nat.le_of_not_lt fun hl => ?_)
    match body, hl with
    | a :: b :: c :: d :: e :: data, _ => exact hne a b c d e data rfl

theorem parseFileBytes_wf {body : List Byte} (h : body.length ≤ 252) :
    wfFileBytes (parseFileBytes body) = true := by
  unfold parseFileBytes
  split
  · simp only [List.length_cons] at h
    split
    · simp only [wfFileBytes, fitsBody, decide_eq_true_eq]
      omega
    · simp [wfFileBytes, wfBadCount, fitsBody]
      omega
  · rename_i hne
    refine wfBadCount_short h (Nat.le_of_not_lt fun hl => ?_)
    match body, hl with
    | a :: data, _ => exact hne a data rfl

theorem parseReadWrite_wf {body : List Byte} (h : body.length ≤ 252) :
    wfReadWrite (parseReadWrite body) = true := by
  unfold parseReadWrite
  split
  · simp only [List.length_cons] at h
    split
    · simp only [wfReadWrite, fitsBody, decide_eq_true_eq]
      omega
    · simp [wfReadWrite, wfBadCount, fitsBody]
      omega
  · rename_i hne
    refine wfBadCount_short h (Nat.le_of_not_lt fun hl => ?_)
    match body, hl with
    | a :: b :: c :: d :: e :: f :: g :: i :: j :: data, _ => exact hne a b c d e f g i j data rfl

theorem decodeSub_wf {sub : Word} {data : List Byte} (h : data.length ≤ 250) :
    (decodeSub sub data).wf = true := by
  unfold decodeSub
  split
  case h_1 =>
    simp only [Instr.wf, fitsBody, decide_eq_true_eq]
    omega
  case h_4 => exact parseDelim_wf h
  case h_16 =>
    simp only [Instr.wf, SubForm.wf, implementedSub, fitsBody, BitVec.le_def, Bool.and_eq_true,
      Bool.not_eq_true', Bool.or_eq_false_iff, Bool.and_eq_false_iff, decide_eq_true_eq,
      decide_eq_false_iff_not, ← BitVec.toNat_inj]
    simp at *
    omega
  all_goals exact parseData_wf h

theorem decodeDiag_wf {body : List Byte} (h : body.length ≤ 252) :
    (decodeDiag body).wf = true := by
  unfold decodeDiag
  split
  · exact decodeSub_wf (by simp only [List.length_cons] at h; omega)
  · rename_i hne
    simp only [Instr.wf, SubForm.wf, decide_eq_true_eq]
    refine Nat.lt_of_not_le fun hl => ?_
    match body, hl with
    | a :: b :: data, _ => exact hne a b data rfl

theorem decodeFc_wf {fc : Byte} {body : List Byte} (h : body.length ≤ 252) :
    (decodeFc fc body).wf = true := by
  unfold decodeFc
  split
  case h_1 => exact parseAddrQty_wf h
  case h_2 => exact parseAddrQty_wf h
  case h_3 => exact parseAddrQty_wf h
  case h_4 => exact parseAddrQty_wf h
  case h_5 => exact parseAddrValue_wf h
  case h_6 => exact parseAddrValue_wf h
  case h_7 => exact parseUnit_wf h
  case h_8 => exact decodeDiag_wf h
  case h_9 => exact parseUnit_wf h
  case h_10 => exact parseUnit_wf h
  case h_11 => exact parseMultiWrite_wf h
  case h_12 => exact parseMultiWrite_wf h
  case h_13 => simpa [Instr.wf, fitsBody] using h
  case h_14 => exact parseFileBytes_wf h
  case h_15 => exact parseFileBytes_wf h
  case h_16 => exact parseMaskWrite_wf h
  case h_17 => exact parseReadWrite_wf h
  case h_18 =>
    simp only [Instr.wf, listedFc, fitsBody, h, BitVec.le_def, Bool.and_eq_true,
      Bool.not_eq_true', Bool.or_eq_false_iff, Bool.and_eq_false_iff, decide_true,
      decide_eq_false_iff_not, ← BitVec.toNat_inj]
    simp at *
    omega

/-- What the decoder reads from a request PDU is well formed. -/
theorem decodePdu_wf {p : List Byte} {i : Instr} (h : decodePdu p = .ok i) : i.wf = true := by
  unfold decodePdu at h
  split at h
  · cases h
  · split at h
    · rename_i hl
      cases h
      exact decodeFc_wf (by simp only [Config.pduMax] at hl; omega)
    · cases h

/-! ## The lengths of outputs (R82, R275) -/

/-- The room of an output buffer: a bare PDU, an RTU frame, an ASCII frame, a TCP frame (R82). -/
def outputRoom : Entry → Nat
  | .pdu => 253
  | .rtu => 256
  | .ascii => 513
  | .tcp => 260

/-- A response of at most 253 bytes fits behind the envelope of its transport. -/
theorem length_framed {t : Txn} {res out : List Byte} (hl : res.length ≤ 253)
    (hf : framed t res = some out) : out.length ≤ outputRoom t.entry := by
  unfold framed at hf
  split at hf
  case h_1 he =>
    obtain rfl := Option.some.inj hf
    simpa [he, outputRoom] using hl
  case h_2 he =>
    obtain ⟨a, -, rfl⟩ := Option.map_eq_some_iff.mp hf
    simp only [rtuFrame, List.length_append, List.length_cons, length_le16Bytes, he, outputRoom]
    omega
  case h_3 he =>
    split at hf
    · obtain rfl := Option.some.inj hf
      simp only [asciiFrame, List.length_append, List.length_cons, List.length_nil, length_hexString,
        he, outputRoom]
      omega
    · cases hf
  case h_4 he =>
    obtain rfl := Option.some.inj hf
    simp only [tcpFrame, List.length_append, List.length_cons, List.length_take, length_be16Bytes,
      he, outputRoom]
    omega

theorem length_replyOf {t : Txn} {res : List Byte} (silent : Bool) (hl : res.length ≤ 253) :
    (replyOf t silent res).length ≤ outputRoom t.entry := by
  unfold replyOf
  split
  · exact Nat.zero_le _
  · cases hf : framed t res with
    | none => exact Nat.zero_le _
    | some out => exact length_framed hl hf

/-- Settles O10: a handler's response has at most 253 bytes (`exec_function_cases`, the request being well
formed), an exception 2, and either fits once framed. -/
theorem outputsFitTheirBuffers : Obligations.OutputsFitTheirBuffers := by
  intro s s' t h hp ht he
  show ∃ out, s'.outputs = s.outputs ++ [out] ∧ out.length ≤ outputRoom t.entry
  obtain ⟨t', p, ht', hreq, h1, h2, hat, -⟩ := State.inv_exec h hp
  obtain rfl : t = t' := Option.some.inj (ht.symm.trans ht')
  obtain ⟨i, hd⟩ := decodePdu_total h1 h2
  obtain ⟨fc, hfc⟩ := fcOf_decodePdu hd
  rw [step_exec hp ht hreq hd] at he
  rcases exec_function_cases worldLaw_any hfc hat trivial with
    ⟨res, w, -, -, hlen, hx⟩ | ⟨e, w, -, -, hx⟩ | ⟨x, -, hx⟩
  · rw [hx] at he
    cases he
    exact ⟨_, rfl, length_replyOf _ (hlen (decodePdu_wf hd))⟩
  · rw [hx] at he
    cases he
    exact ⟨_, rfl, length_replyOf _ (by simp)⟩
  · exact absurd (hx.symm.trans he) (Stop.answer_ne_next x s')

/-! ## The handlers past their checks (R276, R277)

What each handler of bit and register access does with a request whose quantities, byte count and ranges are right:
the loops it runs, and the response behind them. -/

theorem qtyOutside_eq_false {n max : Nat} (h1 : 1 ≤ n) (h2 : n ≤ max) : qtyOutside n max = false := by
  simp [qtyOutside]
  omega

theorem rangeOverflows_eq_false {a n : Nat} (h : a + n ≤ 0x10000) : rangeOverflows a n = false := by
  simp [rangeOverflows]
  omega

theorem readBitsHandler_inRange {fc : Byte} {f : AddrQty} {T : List CoilDesc} {w : World}
    (h1 : 1 ≤ f.qty.toNat) (h2 : f.qty.toNat ≤ 2000) (hr : f.addr.toNat + f.qty.toNat ≤ 0x10000) :
    readBitsHandler fc (.fields f) T w
      = (readBits T f.addr.toNat 0 f.qty.toNat w).map fun bits =>
        fc :: countByte ((f.qty.toNat + 7) / 8) :: packBits ((f.qty.toNat + 7) / 8) bits := by
  simp only [readBitsHandler, qtyOutside_eq_false h1 h2, rangeOverflows_eq_false hr,
    Bool.false_eq_true, if_false, ceilDiv8]

theorem readRegsHandler_inRange {fc : Byte} {f : AddrQty} {T : List RegDesc} {w : World}
    (h1 : 1 ≤ f.qty.toNat) (h2 : f.qty.toNat ≤ 125) (hr : f.addr.toNat + f.qty.toNat ≤ 0x10000) :
    readRegsHandler fc (.fields f) T w
      = (readRegs T f.qty.toNat true f.addr.toNat f.qty.toNat w).map
        (wordsResponse fc f.qty.toNat) := by
  simp only [readRegsHandler, qtyOutside_eq_false h1 h2, rangeOverflows_eq_false hr,
    Bool.false_eq_true, if_false]

/-- The two loops of FC 0x0F and the commit (R315). -/
def writeCoilBlock (commit : Bool) (T : List CoilDesc) (a n : Nat) (data : List Byte) (w : World) :
    Res World Unit :=
  (validateCoils T a n w).bind fun _ w =>
    (writeCoils T a data 0 n w).bind fun _ w => notifyIf commit .commitCoilsWrite w

theorem writeCoilsHandler_inRange {c : Bool} {f : MultiWrite} {T : List CoilDesc} {w : World}
    (h1 : 1 ≤ f.qty.toNat) (h2 : f.qty.toNat ≤ 1968) (hd : f.data.length = (f.qty.toNat + 7) / 8)
    (hr : f.addr.toNat + f.qty.toNat ≤ 0x10000) :
    writeCoilsHandler c (.fields f) T w
      = (writeCoilBlock c T f.addr.toNat f.qty.toNat f.data w).map fun _ =>
        0x0F :: (be16Bytes f.addr ++ be16Bytes f.qty) := by
  simp only [writeCoilsHandler, qtyOutside_eq_false h1 h2, rangeOverflows_eq_false hr, hd, ceilDiv8,
    ne_eq, not_true_eq_false, Bool.false_eq_true, if_false, writeCoilBlock]
  cases validateCoils T f.addr.toNat f.qty.toNat w with
  | raise e w => rfl
  | stop x => rfl
  | val u w =>
    simp only [Res.bind, Res.map]
    cases writeCoils T f.addr.toNat f.data 0 f.qty.toNat w <;> rfl

/-- The one bit FC 0x05 writes, as the packed data of FC 0x0F. -/
def coilValueByte (v : Word) : Byte := if v = 0xFF00 then 0x01 else 0x00

theorem packedBit_coilValueByte (v : Word) : packedBit [coilValueByte v] 0 = decide (v = 0xFF00) := by
  unfold coilValueByte packedBit
  split
  · rename_i h
    rw [h]
    decide
  · rename_i h
    rw [decide_eq_false h]
    decide

/-- FC 0x05 with a legal value is a write of one bit with its pre-validation and its commit (R310, R315). -/
theorem writeCoilHandler_eq {c : Bool} {f : AddrValue} {T : List CoilDesc} {w : World}
    (hv : f.value = 0x0000 ∨ f.value = 0xFF00) :
    writeCoilHandler c (.fields f) T w
      = (writeCoilBlock c T f.addr.toNat 1 [coilValueByte f.value] w).map fun _ =>
        0x05 :: encodeAddrValue f := by
  have hlegal : ¬ (f.value ≠ 0x0000 ∧ f.value ≠ 0xFF00) := by
    rintro ⟨h0, h1⟩
    exact hv.elim h0 h1
  simp only [writeCoilHandler, if_neg hlegal, writeCoilBlock, validateCoils, writeCoils, Nat.add_zero,
    packedBit_coilValueByte]
  cases findCoil T f.addr.toNat with
  | none => rfl
  | some d =>
    simp only
    cases coilWriteAllowed d w with
    | raise e w => rfl
    | stop x => rfl
    | val allowed w =>
      cases allowed with
      | false => rfl
      | true =>
        simp only [Res.bind, if_true]
        cases coilWrite d (f.value = 0xFF00) w with
        | raise e w => rfl
        | stop x => rfl
        | val st w => by_cases hst : st = .ok <;> simp [hst, Res.bind, Res.map]

theorem writeRegsHandler_inRange {c : Bool} {f : MultiWrite} {T : List RegDesc} {w : World}
    (h1 : 1 ≤ f.qty.toNat) (h2 : f.qty.toNat ≤ 123) (hd : f.data.length = 2 * f.qty.toNat)
    (hr : f.addr.toNat + f.qty.toNat ≤ 0x10000) :
    writeRegsHandler c (.fields f) T w
      = (writeRegs c T f.addr.toNat f.qty.toNat (wordsOfBytes f.data) w).map fun _ =>
        0x10 :: (be16Bytes f.addr ++ be16Bytes f.qty) := by
  simp only [writeRegsHandler, qtyOutside_eq_false h1 h2, rangeOverflows_eq_false hr, hd, ne_eq,
    not_true_eq_false, Bool.false_eq_true, if_false]

/-- The quantities, the byte count and the ranges of FC 0x17 are right (R365). -/
structure ReadWriteInRange (f : ReadWrite) : Prop where
  rq_pos : 1 ≤ f.rq.toNat
  rq_le : f.rq.toNat ≤ 125
  wq_pos : 1 ≤ f.wq.toNat
  wq_le : f.wq.toNat ≤ 121
  data_length : f.data.length = 2 * f.wq.toNat
  read_range : f.raddr.toNat + f.rq.toNat ≤ 0x10000
  write_range : f.waddr.toNat + f.wq.toNat ≤ 0x10000

/-- The read start of FC 0x17 is missing, or may not be read: nothing is written (R365). -/
theorem readWriteHandler_refused {c : Bool} {f : ReadWrite} {T : List RegDesc} {w w' : World}
    (h : ReadWriteInRange f)
    (hd : (cover T f.raddr.toNat = none ∧ w' = w)
      ∨ ∃ d r, cover T f.raddr.toNat = some d ∧ regReadDenied d w = .val (some r) w') :
    readWriteHandler c (.fields f) T w = .raise .illegalDataAddr w' := by
  rcases hd with ⟨hc, rfl⟩ | ⟨d, r, hc, hden⟩
  · simp only [readWriteHandler, qtyOutside_eq_false h.rq_pos h.rq_le,
      qtyOutside_eq_false h.wq_pos h.wq_le, h.data_length, rangeOverflows_eq_false h.read_range,
      rangeOverflows_eq_false h.write_range, ne_eq, not_true_eq_false, Bool.or_self,
      Bool.false_eq_true, if_false, hc]
  · simp only [readWriteHandler, qtyOutside_eq_false h.rq_pos h.rq_le,
      qtyOutside_eq_false h.wq_pos h.wq_le, h.data_length, rangeOverflows_eq_false h.read_range,
      rangeOverflows_eq_false h.write_range, ne_eq, not_true_eq_false, Bool.or_self,
      Bool.false_eq_true, if_false, hc, hden, Res.bind, Option.isSome_some, if_true]

/-- The read start of FC 0x17 may be read: the writes follow, and the reads behind them (R365). -/
theorem readWriteHandler_granted {c : Bool} {f : ReadWrite} {T : List RegDesc} {d : RegDesc}
    {w w' : World} (h : ReadWriteInRange f) (hc : cover T f.raddr.toNat = some d)
    (hden : regReadDenied d w = .val none w') :
    readWriteHandler c (.fields f) T w
      = (writeRegs c T f.waddr.toNat f.wq.toNat (wordsOfBytes f.data) w').bind fun _ w =>
        (readRegs T f.rq.toNat true f.raddr.toNat f.rq.toNat w).map
          (wordsResponse 0x17 f.rq.toNat) := by
  simp only [readWriteHandler, qtyOutside_eq_false h.rq_pos h.rq_le,
    qtyOutside_eq_false h.wq_pos h.wq_le, h.data_length, rangeOverflows_eq_false h.read_range,
    rangeOverflows_eq_false h.write_range, ne_eq, not_true_eq_false, Bool.or_self,
    Bool.false_eq_true, if_false, hc, hden, Res.bind, Option.isSome_none]

/-- The target of FC 0x16 is missing, or admits no word: nothing is written (R360). -/
theorem maskWriteHandler_refused {c : Bool} {f : MaskWrite} {T : List RegDesc} {w w' : World}
    (hd : (cover T f.addr.toNat = none ∧ w' = w)
      ∨ ∃ d, cover T f.addr.toNat = some d
        ∧ regWriteAllowed d f.addr.toNat f.addr.toNat 1 [f.andMask, f.orMask] w = .val 0 w') :
    maskWriteHandler c (.fields f) T w = .raise .illegalDataAddr w' := by
  rcases hd with ⟨hc, rfl⟩ | ⟨d, hc, ha⟩
  · simp only [maskWriteHandler, hc]
  · simp only [maskWriteHandler, hc, ha, Res.bind, if_true]

/-- The current word of FC 0x16's target is not to be had: DEV_FAIL of its callback is passed on, and every
other reason raises ILLEGAL_DATA_ADDR (R360). -/
theorem maskWriteHandler_unread {c : Bool} {f : MaskWrite} {T : List RegDesc} {d : RegDesc} {k : Nat}
    {r : RegRead} {w w0 w' : World} (hc : cover T f.addr.toNat = some d)
    (ha : regWriteAllowed d f.addr.toNat f.addr.toNat 1 [f.andMask, f.orMask] w = .val k w0)
    (hk : 0 < k) (hr : regRead d f.addr.toNat 1 w0 = .val r w') (hn : ∀ ws, r ≠ .words ws) :
    maskWriteHandler c (.fields f) T w
      = .raise (if r = .devFail then .devFail else .illegalDataAddr) w' := by
  simp only [maskWriteHandler, hc, ha, Res.bind, if_neg (Nat.ne_of_gt hk), hr]
  cases r with
  | words ws => exact absurd rfl (hn ws)
  | _ => rfl

/-- FC 0x16 writes the masked word (R360). -/
theorem maskWriteHandler_writes {c : Bool} {f : MaskWrite} {T : List RegDesc} {d : RegDesc} {k n : Nat}
    {v : Word} {e : Status} {w w1 w2 w3 : World} (hc : cover T f.addr.toNat = some d)
    (ha : regWriteAllowed d f.addr.toNat f.addr.toNat 1 [f.andMask, f.orMask] w = .val k w1)
    (hk : 0 < k) (hr : regRead d f.addr.toNat 1 w1 = .val (.words [v]) w2)
    (hw : regWrite d f.addr.toNat 1 [maskedWord v f.andMask f.orMask] w2 = .val (e, n) w3) :
    maskWriteHandler c (.fields f) T w
      = if e = .ok then
          (notifyIf c .commitRegsWrite w3).map fun _ => 0x16 :: encodeMaskWrite f
        else .raise e w3 := by
  simp only [maskWriteHandler, hc, ha, Res.bind, if_neg (Nat.ne_of_gt hk), hr, List.headD_cons, hw]

/-- The two loops of FC 0x0F and the commit follow the host's answers (R315). -/
theorem writeCoilBlock_follows {c : Bool} {T : List CoilDesc} {a n : Nat} {data : List Byte}
    {bits : List Bool} {w w' : World} {e : Status} (hb : bits = requestBits data n)
    (h : CoilsEnd c T a bits w e w') : writeCoilBlock c T a n data w = .ofStatus e w' := by
  have hlen : bits.length = n := by simp [hb, requestBits]
  unfold writeCoilBlock
  rcases h with ⟨rfl, h⟩ | ⟨w1, w2, h1, h2, h3⟩
  · rw [hlen] at h
    rw [validateCoils_follows h]
    rfl
  · rw [hlen] at h1
    rw [validateCoils_follows h1]
    simp only [Res.ofAdmitted, if_true, Res.bind]
    rw [writeCoils_follows h2 0 n rfl (by simpa [requestBits] using hb)]
    unfold Res.ofStatus
    by_cases he : e = .ok
    · simp only [he, if_true] at h3 ⊢
      exact notifyIf_told h3
    · simp only [he, if_false] at h3 ⊢
      rw [h3]

/-! ### File records -/

/-- FC 0x14 with 1 to 35 headers goes by its two passes (R405). -/
theorem readFileHandler_headers {ext : Bool} {T : List FileDesc} {subs : List SubRequest} {w : World}
    (hne : subs ≠ []) (hl : (subs.flatMap headerBytes).length ≤ 245) :
    readFileHandler ext (.fields (subs.flatMap headerBytes)) T w
      = match checkReads ext T 0 subs with
        | .error e => .raise e w
        | .ok p => (readSubs p.1 w).map fun body => 0x14 :: countByte p.2 :: body := by
  have hlen := length_headers subs
  have hpos := List.length_pos_iff.mpr hne
  have hdiv : 7 * subs.length / 7 = subs.length := Nat.mul_div_cancel_left _ (by decide)
  unfold readFileHandler
  simp only
  rw [if_neg (by omega), hlen, hdiv, takeHeaders_bytes]
  cases checkReads ext T 0 subs <;> rfl

/-- FC 0x15 whose first pass accepts the sub-requests goes on with the writes and the commit (R415). -/
theorem writeFileHandler_accepted {ext c : Bool} {T : List FileDesc} {data : List Byte}
    {l : List FileWrite} {e : Status} {w w1 w2 w' : World} (hl : 9 ≤ data.length)
    (hc : checkFileWrites ext T data.length data w = .val l w1)
    (ha : applyFileWrites l w1 = .ofStatus e w2)
    (hn : if e = .ok then notifyIf c .commitRegsWrite w2 = .val () w' else w' = w2) :
    writeFileHandler ext c (.fields data) T w
      = (Res.ofStatus e w').map fun _ => 0x15 :: encodeFileBytes data := by
  simp only [writeFileHandler, if_neg (Nat.not_lt.mpr hl), hc, ha, Res.bind]
  unfold Res.ofStatus
  by_cases he : e = .ok
  · simp only [he, if_true] at hn ⊢
    rw [hn]
  · simp only [he, if_false] at hn ⊢
    rw [hn]
    rfl

/-- FC 0x15 whose first pass raises ends in it (R415). -/
theorem writeFileHandler_rejected {ext c : Bool} {T : List FileDesc} {data : List Byte} {e : Status}
    {w w' : World} (hl : 9 ≤ data.length)
    (hc : checkFileWrites ext T data.length data w = .raise e w') :
    writeFileHandler ext c (.fields data) T w = .raise e w' := by
  simp only [writeFileHandler, if_neg (Nat.not_lt.mpr hl), hc, Res.bind]

/-! ## Requests at their handlers

One lemma per function code: how the command ends, from what the loops of its handler come to. -/

theorem ended_of_ne {e : Status} (he : e ≠ .ok) (fc : Byte) (t : Txn) (wl : Bool) (res : List Byte)
    (s : State) : ended fc t wl res e s = failed fc t wl e s := if_neg he

section
variable {s : State} {t : Txn} {wl : Bool} (hs : AtHandler s t wl)
include hs

/-- FC 0x01 and 0x02 answer what the bit loop reads (R301, R305). -/
theorem exec_readBits {T : List CoilDesc} {f : AddrQty} {fc : Byte} {i : Instr}
    {out : Except Status (List Bool)} {w' : World} (h1 : 1 ≤ f.qty.toNat) (h2 : f.qty.toNat ≤ 2000)
    (hr : f.addr.toNat + f.qty.toNat ≤ 0x10000)
    (hi : fc = 0x01 ∧ s.cfg.coils = some T ∧ i = .readCoils (.fields f)
      ∨ fc = 0x02 ∧ s.cfg.discrete = some T ∧ i = .readDiscreteInputs (.fields f))
    (h : readBits T f.addr.toNat 0 f.qty.toNat s.world = .ofExcept out w')
    (he : out ≠ .error .ok) :
    exec i s = .next
      (answered fc t wl
        (fun bits => fc :: countByte ((f.qty.toNat + 7) / 8) :: packBits ((f.qty.toNat + 7) / 8) bits)
        out { s with world := w' }) := by
  have hg : readBitsHandler fc (.fields f) T s.world = (Res.ofExcept out w').map fun bits =>
      fc :: countByte ((f.qty.toNat + 7) / 8) :: packBits ((f.qty.toNat + 7) / 8) bits := by
    rw [readBitsHandler_inRange h1 h2 hr, h]
  rcases hi with ⟨rfl, hT, rfl⟩ | ⟨rfl, hT, rfl⟩
  · exact runFunction_table_answered hs hT hg (fun _ => List.cons_ne_nil _ _) he
  · exact runFunction_table_answered hs hT hg (fun _ => List.cons_ne_nil _ _) he

/-- FC 0x03 and 0x04 answer what the register loop reads (R341, R345). -/
theorem exec_readRegs {T : List RegDesc} {f : AddrQty} {fc : Byte} {i : Instr}
    {out : Except Status (List Word)} {w' : World} (h1 : 1 ≤ f.qty.toNat) (h2 : f.qty.toNat ≤ 125)
    (hr : f.addr.toNat + f.qty.toNat ≤ 0x10000)
    (hi : fc = 0x03 ∧ s.cfg.holding = some T ∧ i = .readHoldingRegisters (.fields f)
      ∨ fc = 0x04 ∧ s.cfg.input = some T ∧ i = .readInputRegisters (.fields f))
    (h : readRegs T f.qty.toNat true f.addr.toNat f.qty.toNat s.world = .ofExcept out w')
    (he : out ≠ .error .ok) :
    exec i s = .next
      (answered fc t wl (fun ws => fc :: countByte (2 * f.qty.toNat) :: bytesOfWords ws) out
        { s with world := w' }) := by
  have hg : readRegsHandler fc (.fields f) T s.world = (Res.ofExcept out w').map fun ws =>
      fc :: countByte (2 * f.qty.toNat) :: bytesOfWords ws := by
    rw [readRegsHandler_inRange h1 h2 hr, h]
    rfl
  rcases hi with ⟨rfl, hT, rfl⟩ | ⟨rfl, hT, rfl⟩
  · exact runFunction_table_answered hs hT hg (fun _ => List.cons_ne_nil _ _) he
  · exact runFunction_table_answered hs hT hg (fun _ => List.cons_ne_nil _ _) he

/-- FC 0x05 with a legal value ends as its write does (R310). -/
theorem exec_writeSingleCoil {C : List CoilDesc} {f : AddrValue} {e : Status} {w' : World}
    (hT : s.cfg.coils = some C) (hv : f.value = 0x0000 ∨ f.value = 0xFF00)
    (h : writeCoilBlock s.cfg.callbacks.commitCoilsWrite C f.addr.toNat 1 [coilValueByte f.value]
      s.world = .ofStatus e w') :
    exec (.writeSingleCoil (.fields f)) s = .next
      (ended 0x05 t wl (0x05 :: (be16Bytes f.addr ++ be16Bytes f.value)) e
        { s with world := w' }) :=
  runFunction_table_ended hs hT (by rw [writeCoilHandler_eq hv, h]; rfl) (List.cons_ne_nil _ _)

/-- FC 0x0F ends as its writes do (R315). -/
theorem exec_writeMultipleCoils {C : List CoilDesc} {f : MultiWrite} {e : Status} {w' : World}
    (hT : s.cfg.coils = some C) (h1 : 1 ≤ f.qty.toNat) (h2 : f.qty.toNat ≤ 1968)
    (hd : f.data.length = (f.qty.toNat + 7) / 8) (hr : f.addr.toNat + f.qty.toNat ≤ 0x10000)
    (h : writeCoilBlock s.cfg.callbacks.commitCoilsWrite C f.addr.toNat f.qty.toNat f.data s.world
      = .ofStatus e w') :
    exec (.writeMultipleCoils (.fields f)) s = .next
      (ended 0x0F t wl (0x0F :: (be16Bytes f.addr ++ be16Bytes f.qty)) e { s with world := w' }) :=
  runFunction_table_ended hs hT (by rw [writeCoilsHandler_inRange h1 h2 hd hr, h])
    (List.cons_ne_nil _ _)

/-- FC 0x06 ends as its write does (R350). -/
theorem exec_writeSingleRegister {T : List RegDesc} {f : AddrValue} {e : Status} {w' : World}
    (hT : s.cfg.holding = some T)
    (h : writeRegs s.cfg.callbacks.commitRegsWrite T f.addr.toNat 1 [f.value] s.world
      = .ofStatus e w') :
    exec (.writeSingleRegister (.fields f)) s = .next
      (ended 0x06 t wl (0x06 :: (be16Bytes f.addr ++ be16Bytes f.value)) e
        { s with world := w' }) :=
  runFunction_table_ended hs hT (by rw [writeRegHandler_eq, h]; rfl) (List.cons_ne_nil _ _)

/-- FC 0x10 ends as its writes do (R355). -/
theorem exec_writeMultipleRegisters {T : List RegDesc} {f : MultiWrite} {e : Status} {w' : World}
    (hT : s.cfg.holding = some T) (h1 : 1 ≤ f.qty.toNat) (h2 : f.qty.toNat ≤ 123)
    (hd : f.data.length = 2 * f.qty.toNat) (hr : f.addr.toNat + f.qty.toNat ≤ 0x10000)
    (h : writeRegs s.cfg.callbacks.commitRegsWrite T f.addr.toNat f.qty.toNat (wordsOfBytes f.data)
      s.world = .ofStatus e w') :
    exec (.writeMultipleRegisters (.fields f)) s = .next
      (ended 0x10 t wl (0x10 :: (be16Bytes f.addr ++ be16Bytes f.qty)) e { s with world := w' }) :=
  runFunction_table_ended hs hT (by rw [writeRegsHandler_inRange h1 h2 hd hr, h])
    (List.cons_ne_nil _ _)

/-- FC 0x16 on a target that is missing, or admits no word (R360). -/
theorem exec_maskWriteRegister_refused {T : List RegDesc} {f : MaskWrite} {w' : World}
    (hT : s.cfg.holding = some T)
    (hd : (cover T f.addr.toNat = none ∧ w' = s.world)
      ∨ ∃ d, cover T f.addr.toNat = some d
        ∧ regWriteAllowed d f.addr.toNat f.addr.toNat 1 [f.andMask, f.orMask] s.world
          = .val 0 w') :
    exec (.maskWriteRegister (.fields f)) s
      = .next (failed 0x16 t wl .illegalDataAddr { s with world := w' }) :=
  runFunction_table_raise hs hT (maskWriteHandler_refused hd) (by decide)

/-- FC 0x16 on a target whose current word is not to be had (R360). -/
theorem exec_maskWriteRegister_unread {T : List RegDesc} {f : MaskWrite} {d : RegDesc} {k : Nat}
    {r : RegRead} {w0 w' : World} (hT : s.cfg.holding = some T)
    (hc : cover T f.addr.toNat = some d)
    (ha : regWriteAllowed d f.addr.toNat f.addr.toNat 1 [f.andMask, f.orMask] s.world = .val k w0)
    (hk : 0 < k) (hr : regRead d f.addr.toNat 1 w0 = .val r w') (hn : ∀ ws, r ≠ .words ws) :
    exec (.maskWriteRegister (.fields f)) s
      = .next (failed 0x16 t wl (if r = .devFail then .devFail else .illegalDataAddr)
          { s with world := w' }) :=
  runFunction_table_raise hs hT (maskWriteHandler_unread hc ha hk hr hn) (by split <;> decide)

/-- FC 0x17 whose read start is missing, or may not be read (R365). -/
theorem exec_readWriteMultipleRegisters_refused {T : List RegDesc} {f : ReadWrite} {w' : World}
    (hT : s.cfg.holding = some T) (hf : ReadWriteInRange f)
    (hd : (cover T f.raddr.toNat = none ∧ w' = s.world)
      ∨ ∃ d r, cover T f.raddr.toNat = some d ∧ regReadDenied d s.world = .val (some r) w') :
    exec (.readWriteMultipleRegisters (.fields f)) s
      = .next (failed 0x17 t wl .illegalDataAddr { s with world := w' }) :=
  runFunction_table_raise hs hT (readWriteHandler_refused hf hd) (by decide)

/-- FC 0x17 whose read start may be read and whose writes fail (R365). -/
theorem exec_readWriteMultipleRegisters_failedWrite {T : List RegDesc} {f : ReadWrite} {d : RegDesc}
    {e : Status} {w0 w' : World} (hT : s.cfg.holding = some T) (hf : ReadWriteInRange f)
    (hc : cover T f.raddr.toNat = some d) (hden : regReadDenied d s.world = .val none w0)
    (he : e ≠ .ok)
    (h : writeRegs s.cfg.callbacks.commitRegsWrite T f.waddr.toNat f.wq.toNat (wordsOfBytes f.data)
      w0 = .raise e w') :
    exec (.readWriteMultipleRegisters (.fields f)) s
      = .next (failed 0x17 t wl e { s with world := w' }) :=
  runFunction_table_raise hs hT (by rw [readWriteHandler_granted hf hc hden, h]; rfl) he

/-- FC 0x17 whose read start may be read and whose writes are done answers what it reads then (R365). -/
theorem exec_readWriteMultipleRegisters_reads {T : List RegDesc} {f : ReadWrite} {d : RegDesc}
    {out : Except Status (List Word)} {w0 w1 w' : World} (hT : s.cfg.holding = some T)
    (hf : ReadWriteInRange f) (hc : cover T f.raddr.toNat = some d)
    (hden : regReadDenied d s.world = .val none w0)
    (hw : writeRegs s.cfg.callbacks.commitRegsWrite T f.waddr.toNat f.wq.toNat
      (wordsOfBytes f.data) w0 = .val () w1)
    (hr : readRegs T f.rq.toNat true f.raddr.toNat f.rq.toNat w1 = .ofExcept out w')
    (he : out ≠ .error .ok) :
    exec (.readWriteMultipleRegisters (.fields f)) s = .next
      (answered 0x17 t wl (fun ws => 0x17 :: countByte (2 * f.rq.toNat) :: bytesOfWords ws) out
        { s with world := w' }) :=
  runFunction_table_answered hs hT
    (by rw [readWriteHandler_granted hf hc hden, hw]; simp only [Res.bind, hr]; rfl)
    (fun _ => List.cons_ne_nil _ _) he

/-- FC 0x14 raises what its handler raises (R405). -/
theorem exec_readFileRecord_raise {T : List FileDesc} {data : List Byte} {e : Status} {w' : World}
    (hT : s.cfg.files = some T) (he : e ≠ .ok)
    (h : readFileHandler s.cfg.extFileRange (.fields data) T s.world = .raise e w') :
    exec (.readFileRecord (.fields data)) s = .next (failed 0x14 t wl e { s with world := w' }) :=
  runFunction_table_raise hs hT h he

/-- FC 0x14 whose headers pass answers what its second pass reads (R405). -/
theorem exec_readFileRecord {T : List FileDesc} {subs : List SubRequest}
    {l : List (FileDesc × SubRequest)} {total : Nat} {out : Except Status (List Byte)} {w' : World}
    (hT : s.cfg.files = some T) (hne : subs ≠ []) (hl : (subs.flatMap headerBytes).length ≤ 245)
    (hc : checkReads s.cfg.extFileRange T 0 subs = .ok (l, total))
    (hr : readSubs l s.world = .ofExcept out w') (he : out ≠ .error .ok) :
    exec (.readFileRecord (.fields (subs.flatMap headerBytes))) s = .next
      (answered 0x14 t wl (fun body => 0x14 :: countByte total :: body) out
        { s with world := w' }) :=
  runFunction_table_answered hs hT
    (by rw [readFileHandler_headers hne hl, hc]; simp only [hr]) (fun _ => List.cons_ne_nil _ _) he

/-- FC 0x15 raises what its handler raises (R415). -/
theorem exec_writeFileRecord_raise {T : List FileDesc} {data : List Byte} {e : Status} {w' : World}
    (hT : s.cfg.files = some T) (he : e ≠ .ok)
    (h : writeFileHandler s.cfg.extFileRange s.cfg.callbacks.commitRegsWrite (.fields data) T s.world
      = .raise e w') :
    exec (.writeFileRecord (.fields data)) s = .next (failed 0x15 t wl e { s with world := w' }) :=
  runFunction_table_raise hs hT h he

/-- FC 0x15 whose sub-requests pass ends as their writes do (R415). -/
theorem exec_writeFileRecord {T : List FileDesc} {data : List Byte} {l : List FileWrite} {e : Status}
    {w1 w2 w' : World} (hT : s.cfg.files = some T) (hl : 9 ≤ data.length)
    (hc : checkFileWrites s.cfg.extFileRange T data.length data s.world = .val l w1)
    (ha : applyFileWrites l w1 = .ofStatus e w2)
    (hn : if e = .ok then notifyIf s.cfg.callbacks.commitRegsWrite .commitRegsWrite w2 = .val () w'
      else w' = w2) :
    exec (.writeFileRecord (.fields data)) s = .next
      (ended 0x15 t wl (0x15 :: countByte data.length :: data) e { s with world := w' }) :=
  runFunction_table_ended hs hT (writeFileHandler_accepted hl hc ha hn) (List.cons_ne_nil _ _)

end

/-! ## What the host says

The premises of the statements (a scripted answer, an absent predicate, a kept contract) as the relations of
Safety.lean. -/

section
variable {present : Bool} {c : HostCall} {w : World} {cells : List CellChange} {rest : List HostDraw}

theorem lockSays_absent (hp : present = false) : LockSays present c w false w := by
  subst hp
  exact ⟨rfl, rfl⟩

theorem saysBool_scripted {b : Bool} (hs : w.script = ⟨.bool b, cells⟩ :: rest) :
    SaysBool c w b (invoke c w).2 := by
  obtain ⟨w', hi⟩ := invoke_scripted (h := c) hs
  rw [hi]
  exact .inl hi

theorem lockSays_scripted {b : Bool} (hp : present = true)
    (hs : w.script = ⟨.bool b, cells⟩ :: rest) : LockSays present c w b (invoke c w).2 := by
  subst hp
  exact saysBool_scripted hs

theorem saysByte_scripted {v : Byte} (hs : w.script = ⟨.byte v, cells⟩ :: rest) :
    SaysByte c w (some v) (invoke c w).2 := by
  obtain ⟨w', hi⟩ := invoke_scripted (h := c) hs
  rw [hi]
  exact .inl hi

theorem saysByte_failed (hs : w.script = ⟨.fail, cells⟩ :: rest) :
    SaysByte c w none (invoke c w).2 := by
  obtain ⟨w', hi⟩ := invoke_scripted (h := c) hs
  rw [hi]
  exact .inl hi

theorem saysWords_scripted {n : Nat} {ws : List Word} (hs : w.script = ⟨.words ws, cells⟩ :: rest)
    (hl : ws.length = n) : SaysWords n c w (some ws) (invoke c w).2 := by
  obtain ⟨w', hi⟩ := invoke_scripted (h := c) hs
  rw [hi]
  exact .inl ⟨hi, fun vs hv => by cases hv; exact hl⟩

theorem saysWords_failed {n : Nat} (hs : w.script = ⟨.fail, cells⟩ :: rest) :
    SaysWords n c w none (invoke c w).2 := by
  obtain ⟨w', hi⟩ := invoke_scripted (h := c) hs
  rw [hi]
  exact .inl ⟨hi, fun _ hv => nomatch hv⟩

theorem saysStatus_scripted {e : Status} (hs : w.script = ⟨.status (wireCode e), cells⟩ :: rest) :
    SaysStatus c w e (invoke c w).2 := by
  obtain ⟨w', hi⟩ := invoke_scripted (h := c) hs
  rw [hi]
  exact .inl hi

theorem told_absent (hp : present = false) : Told present c w w := by
  subst hp
  rfl

/-- A hook or a commit over a host that keeps its contract. -/
theorem told_of_listens (h : listens present w = true) :
    Told present c w (notified present c w) := by
  unfold Told notified
  cases present with
  | false => rfl
  | true =>
    simp only [if_true]
    cases hs : w.script with
    | nil => exact .inr (by simp [invoke, hs])
    | cons d rest =>
      obtain ⟨w', hi⟩ := invoke_scripted (h := c) hs
      have hd : d.answer = .unit := by simpa [listens, hs] using h
      rw [hd] at hi
      exact .inl (by rw [hi])

end

/-! ## One write -/

section
variable {d : CoilDesc} {v : Bool} {w w1 w2 w' : World} {e : Status}

/-- A coil in a byte cell (R98). -/
theorem coilWrites_cell {r b : Nat} (hm : d.wmode = .cell r b) (hb : b ≤ 7)
    (ht : Told d.postWrite (.coilPostWrite d) { w with byteCells := w.byteCells.writeBit r b v } w') :
    CoilWrites d v w .ok w' := by
  simp only [CoilWrites, hm, if_neg (Nat.not_lt.mpr hb), true_and]
  exact ht

/-- A coil without write mode, or with a bit index above 7 (R98). -/
theorem coilWrites_unwritable (hm : d.wmode = .none ∨ ∃ r b, d.wmode = .cell r b ∧ 7 < b) :
    CoilWrites d v w .devFail w := by
  rcases hm with hm | ⟨r, b, hm, hb⟩
  · simp only [CoilWrites, hm, and_self]
  · simp only [CoilWrites, hm, if_pos hb, and_self]

/-- A coil behind a callback, without a hook (R98). -/
theorem coilWrites_callback (hm : d.wmode = .cb) (hp : d.postWrite = false)
    (hst : SaysStatus (.coilWrite d v) w e w') : CoilWrites d v w e w' := by
  simp only [CoilWrites, hm]
  refine ⟨w', hst, ?_⟩
  split
  · exact told_absent hp
  · rfl

variable {commit : Bool} {T : List CoilDesc} {a : Nat}

/-- A request that writes one coil, which is not locked. -/
theorem coilsEnd_open (hf : findCoil T a = some d)
    (hl : LockSays d.wlock (.coilWlock d) w false w1) (hw : CoilWrites d v w1 e w2)
    (hn : if e = .ok then Told commit .commitCoilsWrite w2 w' else w' = w2) :
    CoilsEnd commit T a [v] w e w' := by
  refine .inr ⟨w1, w2, .next hf hl .done, ?_, hn⟩
  by_cases he : e = .ok
  · subst he
    exact .next hf hw .done
  · exact .fails hf hw he

/-- A request that writes one coil, which is locked. -/
theorem coilsEnd_locked (hf : findCoil T a = some d)
    (hl : LockSays d.wlock (.coilWlock d) w true w') :
    CoilsEnd commit T a [v] w .illegalDataAddr w' := .inl ⟨rfl, .locked hf hl⟩

/-- A request that writes one coil, which is missing. -/
theorem coilsEnd_missing (hf : findCoil T a = none) :
    CoilsEnd commit T a [v] w .illegalDataAddr w := .inl ⟨rfl, .missing hf⟩

end

section
variable {d : RegDesc} {a blk n off k : Nat} {data : List Word} {v : Word} {w w1 w2 w' : World}
  {e : Status}

/-- A register in a word array (R101). -/
theorem regWrites_array {r : Nat} (hm : d.wmode = .ptr r)
    (ht : Told d.postWrite (.regPostWrite d)
      { w with wordCells := storeWords d.type r off data w.wordCells } w') :
    RegWrites d off data w .ok w' := by
  simp only [RegWrites, hm, true_and]
  exact ht

/-- A register behind a callback, without a hook (R101). -/
theorem regWrites_callback (hm : d.wmode = .cb) (hp : d.postWrite = false)
    (hst : SaysStatus (.regWrite d off data.length data) w e w') : RegWrites d off data w e w' := by
  simp only [RegWrites, hm]
  refine ⟨w', hst, ?_⟩
  split
  · exact told_absent hp
  · rfl

/-- A register that can be written and whose lock is open admits the one word (R100). -/
theorem regAdmits_open (hr : refusesWrite d a 1 = false) (h1 : d.key.toNat ≤ a)
    (h2 : a < d.key.toNat + nwords d)
    (hl : LockSays d.wlock (.regWlock d a blk data) w false w') : RegAdmits d a blk 1 data w 1 w' := by
  unfold RegAdmits
  cases hm : d.wmode with
  | none => simp [refusesWrite, hm] at hr
  | const v => simp [refusesWrite, hm] at hr
  | ptr r =>
    refine ⟨false, hl, ?_⟩
    simp only [refusesWrite, hm, Bool.and_eq_false_iff, Bool.not_eq_false', Bool.or_eq_false_iff,
      decide_eq_false_iff_not] at hr
    rw [if_neg, Nat.min_eq_right (by omega)]
    rintro (h | ⟨h, h'⟩)
    · cases h
    · rcases hr with hr | hr
      · simp [h] at hr
      · omega
  | cb =>
    refine ⟨false, hl, ?_⟩
    simp only [refusesWrite, hm, Bool.and_eq_false_iff, Bool.not_eq_false',
      decide_eq_false_iff_not] at hr
    rw [if_neg, Nat.min_eq_right (by omega)]
    rintro (h | ⟨h, h' | ⟨h', -⟩⟩)
    · cases h
    · rcases hr with hr | hr
      · simp [h] at hr
      · omega
    · exact h' rfl

variable {commit : Bool} {T : List RegDesc}

/-- A request that writes one word to a register that admits it. -/
theorem regsEnd_open (hc : cover T a = some d) (ha : RegAdmits d a a 1 [v] w 1 w1)
    (hw : RegWrites d (a - d.key.toNat) [v] w1 e w2)
    (hn : if e = .ok then Told commit .commitRegsWrite w2 w' else w' = w2) :
    RegsEnd commit T a [v] w e w' := by
  have hcov := covers_of_cover hc
  have hk : 1 = min (nwords d - (a - d.key.toNat)) [v].length := by
    simp only [List.length_singleton]
    omega
  refine .inr ⟨w1, w2, .next (List.cons_ne_nil _ _) hc ha Nat.one_pos .done, ?_, hn⟩
  by_cases he : e = .ok
  · subst he
    exact .next (List.cons_ne_nil _ _) hc hk hw .done
  · exact .fails (List.cons_ne_nil _ _) hc hk hw he

/-- A request that writes one word whose target is missing, or admits none. -/
theorem writeRegs_refused
    (h : (cover T a = none ∧ w' = w)
      ∨ ∃ d, cover T a = some d ∧ regWriteAllowed d a a 1 [v] w = .val 0 w') :
    writeRegs commit T a 1 [v] w = .raise .illegalDataAddr w' := by
  rcases h with ⟨hc, rfl⟩ | ⟨d, hc, ha⟩
  · simp [writeRegs, validateWrites, hc, Res.bind]
  · simp [writeRegs, validateWrites, hc, ha, Res.bind]

/-- What a single write asks of a register that has no lock to ask and refuses it (R100). -/
theorem regWriteAllowed_refused (hr : refusesWrite d a 1 = true) (hl : asksWriteLock d = false)
    (hc : cover T a = some d) : regWriteAllowed d a a 1 data w = .val 0 w := by
  rw [regWriteAllowed_unlocked hl rfl (Nat.le_refl a) (covers_of_cover hc).1 (.inl rfl)
    Nat.one_ne_zero, if_pos hr]

end

/-! ## Single writes (R310, R350) -/

section
variable {s : State} {t : Txn} {wl : Bool}

theorem requestBits_coilValueByte (v : Word) :
    [decide (v = 0xFF00)] = requestBits [coilValueByte v] 1 := by
  rw [← packedBit_coilValueByte]
  rfl

/-- FC 0x05 with a legal value ends as R310 says, whatever the host answers. -/
theorem exec_writeSingleCoil_follows (hs : AtHandler s t wl) {C : List CoilDesc} {f : AddrValue}
    {e : Status} {w' : World} (hT : s.cfg.coils = some C)
    (hv : f.value = 0x0000 ∨ f.value = 0xFF00)
    (h : CoilsEnd s.cfg.callbacks.commitCoilsWrite C f.addr.toNat [f.value = 0xFF00] s.world e w') :
    exec (.writeSingleCoil (.fields f)) s = .next
      (ended 0x05 t wl (0x05 :: (be16Bytes f.addr ++ be16Bytes f.value)) e
        { s with world := w' }) :=
  exec_writeSingleCoil hs hT hv (writeCoilBlock_follows (requestBits_coilValueByte f.value) h)

/-- FC 0x06 ends as R350 says, whatever the host answers. -/
theorem exec_writeSingleRegister_follows (hs : AtHandler s t wl) {T : List RegDesc} {f : AddrValue}
    {e : Status} {w' : World} (hT : s.cfg.holding = some T)
    (h : RegsEnd s.cfg.callbacks.commitRegsWrite T f.addr.toNat [f.value] s.world e w') :
    exec (.writeSingleRegister (.fields f)) s = .next
      (ended 0x06 t wl (0x06 :: (be16Bytes f.addr ++ be16Bytes f.value)) e
        { s with world := w' }) :=
  exec_writeSingleRegister hs hT (writeRegs_follows rfl h)

end

/-- Settles O33: the write of one open coil, with its hook and its commit, and `Memory.writeBit_bits`. -/
theorem writeSingleCoilSetsOneBit : Obligations.WriteSingleCoilSetsOneBit := by
  intro s t wl T d f r b hs hg hT hf hl hm hb hv hpost hcommit
  obtain ⟨hbytes, -⟩ := World.good_parts hg
  refine ⟨?_, Memory.writeBit_bits _ hbytes r b hb _⟩
  exact exec_writeSingleCoil_follows hs hT hv
    (coilsEnd_open hf (lockSays_absent hl) (coilWrites_cell hm hb (told_of_listens hpost))
      (told_of_listens ((listens_notified (by rfl)).trans hcommit)))

/-- Settles O34: for FC 0x05 the value check, a missing coil and a coil that cannot be written; for FC 0x06 a
missing register and one that refuses the word. -/
theorem singleWritesCheckTheirTarget : Obligations.SingleWritesCheckTheirTarget := by
  intro s t wl f hs
  refine ⟨fun C hC => ⟨fun h0 h1 => ?_, fun hv hf => ?_, fun d hv hf hl hm => ?_⟩, fun T hT h => ?_⟩
  · exact runFunction_table_raise hs hC (by simp only [writeCoilHandler, if_pos (And.intro h0 h1)])
      (by decide)
  · exact exec_writeSingleCoil_follows hs hC hv (coilsEnd_missing hf)
  · exact exec_writeSingleCoil_follows hs hC hv
      (coilsEnd_open hf (lockSays_absent hl) (coilWrites_unwritable hm) rfl)
  · refine exec_writeSingleRegister (e := .illegalDataAddr) hs hT (writeRegs_refused ?_)
    rcases h with hc | ⟨d, hc, hl, hd⟩
    · exact .inl ⟨hc, rfl⟩
    · have hcov := covers_of_cover hc
      have hask : asksWriteLock d = false := by simp [asksWriteLock, hl]
      refine .inr ⟨d, hc, regWriteAllowed_refused ?_ hask hc⟩
      unfold refusesWrite
      rcases hd with hm | ⟨v, hm⟩ | ⟨hp, hk⟩
      · rw [hm]
      · rw [hm]
      · rcases hk with hk | ⟨hn, r, hm⟩
        · cases d.wmode <;> simp [hp, hk]
        · simp only [hm, hp, Bool.not_false, Bool.true_and, Bool.or_eq_true, decide_eq_true_eq]
          omega

/-- A 16-bit register is one word, at its own address (R86). -/
theorem offset_u16 {T : List RegDesc} {d : RegDesc} {a : Nat} (hty : d.type = .u16)
    (hc : cover T a = some d) : nwords d = 1 ∧ a - d.key.toNat = 0 := by
  have hcov := covers_of_cover hc
  have hn : nwords d = 1 := by simp [nwords, nwordsOf, hty]
  omega

/-- Settles O49: the write of one coil or one 16-bit register whose lock answers. -/
theorem writeLocksDecideTheWrite : Obligations.WriteLocksDecideTheWrite := by
  intro s t wl locked cells rest f hs hscript
  refine ⟨?_, ?_⟩
  · rintro C d r b w' hC hf hl hm hb hp hcm hv rfl
    cases locked with
    | true =>
      exact exec_writeSingleCoil_follows hs hC hv (coilsEnd_locked hf (lockSays_scripted hl hscript))
    | false =>
      exact exec_writeSingleCoil_follows hs hC hv
        (coilsEnd_open hf (lockSays_scripted hl hscript) (coilWrites_cell hm hb (told_absent hp))
          (told_absent hcm))
  · rintro T d r w' hT hc hty hl hm hp hcm rfl
    obtain ⟨hn, hoff⟩ := offset_u16 hty hc
    have hcov := covers_of_cover hc
    cases locked with
    | true =>
      have hask : asksWriteLock d = true := by simp [asksWriteLock, hl, hm]
      exact exec_writeSingleRegister (e := .illegalDataAddr) hs hT
        (writeRegs_refused (.inr ⟨d, hc, regWriteAllowed_locked hask
          (askBool_says (saysBool_scripted hscript))⟩))
    | false =>
      have hr : refusesWrite d f.addr.toNat 1 = false := by
        simp only [refusesWrite, hm, Bool.and_eq_false_iff, Bool.or_eq_false_iff,
          decide_eq_false_iff_not]
        omega
      have hword : ∀ m : Memory, storeWords d.type r (f.addr.toNat - d.key.toNat) [f.value] m
          = m.writeWord r 0 f.value := by
        intro m
        rw [hoff, hty]
        rfl
      exact exec_writeSingleRegister_follows hs hT
        (regsEnd_open hc (regAdmits_open hr hcov.1 hcov.2 (lockSays_scripted hl hscript))
          (regWrites_array hm (hword _ ▸ told_absent hp)) (told_absent hcm))

/-! ## Values of the host (R440, R445) -/

section
variable {c : HostCall} {w : World} {cells : List CellChange} {rest : List HostDraw}

theorem askByte_scripted {v : Byte} (hs : w.script = ⟨.byte v, cells⟩ :: rest) :
    askByte c w = .val v (invoke c w).2 := by
  obtain ⟨w', hi⟩ := invoke_scripted (h := c) hs
  simp only [askByte, hi]

theorem askWord_scripted {v : Word} (hs : w.script = ⟨.word v, cells⟩ :: rest) :
    askWord c w = .val v (invoke c w).2 := by
  obtain ⟨w', hi⟩ := invoke_scripted (h := c) hs
  simp only [askWord, hi]

/-- Where the script is empty an invocation finds no answer in it. -/
theorem invoke_free (hs : w.script = []) : ∃ w', invoke c w = (none, w') := by
  simp [invoke, hs]

theorem askByte_free (hs : w.script = []) :
    askByte c w = .val (Config.hostByte w.draws) (invoke c w).2 := by
  obtain ⟨w', hi⟩ := invoke_free (c := c) hs
  simp only [askByte, hi]

theorem askWord_free (hs : w.script = []) :
    askWord c w = .val (Config.hostWord w.draws) (invoke c w).2 := by
  obtain ⟨w', hi⟩ := invoke_free (c := c) hs
  simp only [askWord, hi]

end

section
variable {s : State} {t : Txn} {wl : Bool} (hs : AtHandler s t wl)
include hs

/-- FC 0x07 answers the byte its callback answers (R440). -/
theorem exec_readExceptionStatus {v : Byte} {w' : World}
    (hp : s.cfg.callbacks.readExceptionStatus = true)
    (ha : askByte .readExceptionStatus s.world = .val v w') :
    exec (.readExceptionStatus (.fields ())) s = .next
      (completed 0x07 t wl [0x07, v] { s with world := w' }) := by
  refine runFunction_at_val hs (h := exceptionStatusHandler (.fields ())) ?_ rfl
    (List.cons_ne_nil _ _)
  simp only [exceptionStatusHandler, hp, if_true, onFields]
  exact onWorld_val (by rw [ha]; rfl)

/-- FC 0x08 sub 0x0002 answers the diagnostic register (R445). -/
theorem exec_diagReturnDiagnosticRegister {v : Word} {w' : World}
    (ha : readDiagnosticRegister s.cfg.callbacks.readDiagnostics s.world = .val v w') :
    exec (.diagReturnDiagnosticRegister (.fields 0x0000)) s = .next
      (completed 0x08 t wl (0x08 :: 0x00 :: 0x02 :: be16Bytes v) { s with world := w' }) := by
  refine runFunction_at_val hs
    (h := onZeroData (.fields 0x0000) diagnosticRegisterHandler) ?_ rfl (List.cons_ne_nil _ _)
  simp only [onZeroData, onFields, if_true, diagnosticRegisterHandler, onWorld_val ha]
  rfl

end

/-- Settles O50: the two requests by what their callback answers, and their value checks. -/
theorem hostValuesAreReturned : Obligations.HostValuesAreReturned := by
  intro s t wl hs
  refine ⟨fun hp => ⟨fun v cells rest hscript => ?_, fun hfree => ?_, fun body => ?_⟩,
    fun data hd => ?_, fun hp => ?_, fun hp => ⟨fun v cells rest hscript => ?_, fun hfree => ?_⟩⟩
  · exact exec_readExceptionStatus hs hp (askByte_scripted hscript)
  · exact exec_readExceptionStatus hs hp (askByte_free (State.hostFree_iff.mp hfree))
  · exact runFunction_at_raise hs (h := exceptionStatusHandler (.badLength body))
      (by simp only [exceptionStatusHandler, hp, if_true, onFields]) rfl (by decide)
  · exact runFunction_at_raise hs (h := onZeroData (.fields data) diagnosticRegisterHandler)
      (by simp only [onZeroData, onFields, if_neg hd]) rfl (by decide)
  · exact exec_diagReturnDiagnosticRegister hs (v := 0) (by rw [hp]; rfl)
  · exact exec_diagReturnDiagnosticRegister hs (by rw [hp]; exact askWord_scripted hscript)
  · exact exec_diagReturnDiagnosticRegister hs
      (by rw [hp]; exact askWord_free (State.hostFree_iff.mp hfree))

/-! ## Register reads: the bytes of constants (R86, R92) -/

/-- A constant answers its image over its whole span. -/
theorem regWords_const {T : List RegDesc} {d : RegDesc} {a n : Nat} {v : ConstValue} (w : World)
    (hv : regTableValid T = true) (hc : cover T a = some d) (hkey : d.key.toNat = a)
    (hm : d.rmode = .const v) (hn : nwords d = n) (hl : (image d.type v).length = n) :
    regWords w T a n = image d.type v := by
  have hmem := ((cover_iff hv).mp hc).1
  apply List.ext_getElem
  · simp [regWords, hl]
  · intro i h1 h2
    have hi : cover T (a + i) = some d := (cover_iff hv).mpr ⟨hmem, by omega, by omega⟩
    have hoff : offset d (a + i) = i := by simp only [offset]; omega
    simp [regWords, regWord, hi, hm, hoff, h2]

theorem hiByte_extract (p : BitVec 64) (k : Nat) :
    hiByte (p.extractLsb' k 16) = p.extractLsb' (k + 8) 8 := by
  apply BitVec.eq_of_getLsbD_eq
  intro i hi
  have h16 : 8 + i < 16 := by omega
  simp [hiByte, hi, h16, Nat.add_assoc]

theorem loByte_extract (p : BitVec 64) (k : Nat) :
    loByte (p.extractLsb' k 16) = p.extractLsb' k 8 := by
  apply BitVec.eq_of_getLsbD_eq
  intro i hi
  have h16 : i < 16 := by omega
  simp [loByte, hi, h16]

theorem hiByte_zeroExtend (b : Byte) : hiByte (b.zeroExtend 16) = 0x00 := by
  apply BitVec.eq_of_getLsbD_eq
  intro i hi
  simp [hiByte, BitVec.getLsbD_setWidth]

theorem loByte_zeroExtend (b : Byte) : loByte (b.zeroExtend 16) = b := by
  apply BitVec.eq_of_getLsbD_eq
  intro i hi
  have h16 : i < 16 := by omega
  simp [loByte, hi, h16]

theorem bytesOfWords_eq_flatMap : ∀ e : List Word,
    bytesOfWords e = e.flatMap fun v => [v.extractLsb' 8 8, v.extractLsb' 0 8]
  | [] => rfl
  | v :: e => by simp [bytesOfWords, bytesOfWords_eq_flatMap e, hiByte, loByte]

/-- The bytes a constant register answers, written out (R86, R92): a scalar by its type's width, a block by its
elements. -/
def ConstantBytes (d : RegDesc) (q : Word) (bytes : List Byte) : Prop :=
  (∃ p : BitVec 64, d.rmode = .const (.scalar p)
      ∧ (d.type = .u8 ∧ q = 0x0001 ∧ bytes = [0x00, p.extractLsb' 0 8]
        ∨ d.type = .u16 ∧ q = 0x0001 ∧ bytes = [p.extractLsb' 8 8, p.extractLsb' 0 8]
        ∨ (d.type = .u32 ∨ d.type = .i32 ∨ d.type = .f32) ∧ q = 0x0002
          ∧ bytes = [p.extractLsb' 24 8, p.extractLsb' 16 8, p.extractLsb' 8 8, p.extractLsb' 0 8]
        ∨ (d.type = .u64 ∨ d.type = .i64 ∨ d.type = .f64) ∧ q = 0x0004
          ∧ bytes = [p.extractLsb' 56 8, p.extractLsb' 48 8, p.extractLsb' 40 8, p.extractLsb' 32 8,
            p.extractLsb' 24 8, p.extractLsb' 16 8, p.extractLsb' 8 8, p.extractLsb' 0 8]))
    ∨ (∃ e : List Byte, d.rmode = .const (.bytes e) ∧ d.type = .blkU8 e.length
      ∧ q.toNat = (e.length + 1) / 2 ∧ bytes = if e.length % 2 = 1 then e ++ [0x00] else e)
    ∨ ∃ e : List Word, d.rmode = .const (.words e) ∧ d.type = .blkU16 e.length
      ∧ q.toNat = e.length ∧ bytes = e.flatMap fun v => [v.extractLsb' 8 8, v.extractLsb' 0 8]

/-- Those bytes are those of the constant's image, which fills its span. -/
theorem ConstantBytes.image_eq {d : RegDesc} {q : Word} {bytes : List Byte} (hq : 1 ≤ q.toNat)
    (h : ConstantBytes d q bytes) :
    ∃ v, d.rmode = .const v ∧ nwords d = q.toNat ∧ (image d.type v).length = q.toNat
      ∧ bytesOfWords (image d.type v) = bytes := by
  unfold nwords
  rcases h with ⟨p, hm, h⟩ | ⟨e, hm, hty, hn, rfl⟩ | ⟨e, hm, hty, hn, rfl⟩
  · refine ⟨_, hm, ?_⟩
    rcases h with ⟨hty, rfl, rfl⟩ | ⟨hty, rfl, rfl⟩ | ⟨hty | hty | hty, rfl, rfl⟩
      | ⟨hty | hty | hty, rfl, rfl⟩ <;>
      simp [hty, image, nwordsOf, bytesOfWords, hiByte_extract, loByte_extract, hiByte_zeroExtend,
        loByte_zeroExtend]
  · refine ⟨_, hm, ?_⟩
    rw [hty]
    refine ⟨?_, (length_pairBytes e).trans hn.symm, bytesOfWords_pairBytes e⟩
    simp only [nwordsOf]
    omega
  · refine ⟨_, hm, ?_⟩
    rw [hty]
    exact ⟨hn.symm, hn.symm, bytesOfWords_eq_flatMap e⟩

/-- Settles O36: the reads by `readRegs_plain`, the constants by their images. -/
theorem readRegistersAnswersTheImages : Obligations.ReadRegistersAnswersTheImages := by
  intro s t wl T f hs hv h1 h2 hr hp hread
  have hwords : readRegs T f.qty.toNat true f.addr.toNat f.qty.toNat s.world
      = .ofExcept (.ok (regWords s.world T f.addr.toNat f.qty.toNat)) s.world :=
    readRegs_plain s.world hv (Nat.le_refl _) (plainRegReads_on hp _ _) fun _ _ => hread
  refine ⟨fun hT => ?_, fun hT => ?_, fun d bytes hc hkey hbytes => ?_⟩
  · exact exec_readRegs hs h1 h2 hr (.inl ⟨rfl, hT, rfl⟩) hwords (by simp)
  · exact exec_readRegs hs h1 h2 hr (.inr ⟨rfl, hT, rfl⟩) hwords (by simp)
  · obtain ⟨v, hm, hn, hl, hb⟩ := ConstantBytes.image_eq h1 hbytes
    rw [regWords_const s.world hv hc (congrArg _ hkey) hm hn hl]
    exact ⟨hb, hn⟩

/-! ## Reads and locks (R96, R99, R121, R300, R340) -/

/-- A first target that is missing or gives no value (R300). -/
theorem readBits_denied {T : List CoilDesc} {a n : Nat} {w w' : World} (hn : 1 ≤ n)
    (hd : CoilDenied T a w w') :
    readBits T a 0 n w = .ofExcept (.error .illegalDataAddr) w' := by
  obtain ⟨m, rfl⟩ : ∃ m, n = m + 1 := ⟨n - 1, by omega⟩
  exact readBits_follows (.denied hd) 0 rfl rfl

/-- A first target that is missing or gives no value (R340). -/
theorem readRegs_denied {T : List RegDesc} {a n : Nat} {w w' : World} (hn : 1 ≤ n)
    (hd : RegDenied T a n w w') :
    readRegs T n true a n w = .ofExcept (.error .illegalDataAddr) w' :=
  readRegs_follows (.denied hn hd) n (Nat.le_refl n)

section
variable {w : World} {cells : List CellChange} {rest : List HostDraw} {locked : Bool}

theorem coilDenied_unreadable {T : List CoilDesc} {a : Nat}
    (h : findCoil T a = none ∨ ∃ d, findCoil T a = some d ∧ d.rlock = false ∧ d.rmode = .none) :
    CoilDenied T a w w := by
  rcases h with hf | ⟨d, hf, hl, hm⟩
  · exact .inl ⟨hf, rfl⟩
  · exact .inr ⟨d, hf, .inr ⟨false, w, lockSays_absent hl, by simp [hm]⟩⟩

/-- A coil that its lock closes, or that has no read access behind it. -/
theorem coilDenied_asked {T : List CoilDesc} {d : CoilDesc} {a : Nat} (hf : findCoil T a = some d)
    (hl : d.rlock = true) (hs : w.script = ⟨.bool locked, cells⟩ :: rest)
    (h : locked = true ∨ d.rmode = .none) :
    CoilDenied T a w (invoke (.coilRlock d) w).2 := by
  refine .inr ⟨d, hf, ?_⟩
  cases locked with
  | true => exact .inl ⟨true, _, lockSays_scripted hl hs, rfl, rfl⟩
  | false =>
    have hm : d.rmode = .none := h.resolve_left Bool.false_ne_true
    exact .inr ⟨false, _, lockSays_scripted hl hs, by simp [hm]⟩

theorem regDenied_unreadable {T : List RegDesc} {a n : Nat}
    (h : cover T a = none ∨ ∃ d, cover T a = some d ∧ d.rlock = false ∧ d.rmode = .none) :
    RegDenied T a n w w := by
  rcases h with hc | ⟨d, hc, hl, hm⟩
  · exact .inl ⟨hc, rfl⟩
  · exact .inr ⟨d, hc, .inr ⟨false, w, lockSays_absent hl, by simp [hm]⟩⟩

/-- A register that its lock closes, or that has no read access behind it. -/
theorem regDenied_asked {T : List RegDesc} {d : RegDesc} {a n : Nat} (hc : cover T a = some d)
    (hl : d.rlock = true) (hs : w.script = ⟨.bool locked, cells⟩ :: rest)
    (h : locked = true ∨ d.rmode = .none) :
    RegDenied T a n w (invoke (.regRlock d) w).2 := by
  refine .inr ⟨d, hc, ?_⟩
  cases locked with
  | true => exact .inl ⟨true, _, lockSays_scripted hl hs, rfl, rfl⟩
  | false =>
    have hm : d.rmode = .none := h.resolve_left Bool.false_ne_true
    exact .inr ⟨false, _, lockSays_scripted hl hs, by simp [hm]⟩

end

/-- Settles O37: the bit loop and the register loop at a first target that gives no value, at a later one that is
locked, and at one whose lock opens. -/
theorem unreadableFirstTargetRaisesAddress : Obligations.UnreadableFirstTargetRaisesAddress := by
  intro s t wl f fc i k locked cells rest w' hs h1 hr
  refine ⟨fun T h2 hi => ⟨fun h => ?_, fun d hf hl hscript hw => ?_⟩,
    fun T h2 hi => ⟨fun h => ?_, fun d hc hl hscript hw => ?_⟩⟩
  · exact exec_readBits hs h1 h2 hr hi (readBits_denied h1 (coilDenied_unreadable h)) (by simp)
  · subst hw
    refine ⟨?_, fun hk hread hbefore hafter => ⟨?_, ?_⟩⟩
    · rintro rfl h
      exact exec_readBits hs h1 h2 hr hi
        (readBits_denied h1 (coilDenied_asked hf hl hscript h)) (by simp)
    · rintro rfl hk0
      exact exec_readBits hs h1 h2 hr hi (out := .ok _)
        (readBits_laterLocked hk0 hk hf hl (askBool_scripted hscript) hbefore hafter hread) (by simp)
    · rintro rfl hplain
      exact exec_readBits hs h1 h2 hr hi (out := .ok _)
        (readBits_opens hk hf hl (askBool_scripted hscript) hplain hbefore hafter hread) (by simp)
  · exact exec_readRegs hs h1 h2 hr hi (readRegs_denied h1 (regDenied_unreadable h)) (by simp)
  · subst hw
    refine ⟨?_, fun hk hv hread hkey hbefore => ⟨?_, ?_⟩⟩
    · rintro rfl h
      exact exec_readRegs hs h1 h2 hr hi
        (readRegs_denied h1 (regDenied_asked hc hl hscript h)) (by simp)
    · rintro rfl hk0 hafter
      exact exec_readRegs hs h1 h2 hr hi (out := .ok _)
        (readRegs_laterLocked hv hk0 hk hc (hkey.resolve_left (Nat.ne_of_gt hk0)) hl
          (askBool_scripted hscript) hbefore hafter hread) (by simp)
    · rintro rfl hm hcb hafter
      exact exec_readRegs hs h1 h2 hr hi (out := .ok _)
        (readRegs_opens hv hk hc hkey hl (askBool_scripted hscript) hcb hm hbefore hafter hread)
        (by simp)

/-! ## Stored words (R92, R101) -/

theorem Memory.readWord_writeWord_same {m : Memory} (h : m.wf = true) (r off : Nat) (v : Word) :
    (m.writeWord r off v).readWord r off = v := by
  unfold Memory.readWord
  rw [Memory.read_writeWord h, Memory.read_writeWord h]
  simp

theorem byte_and_ones (b : Byte) : b &&& 255#8 = b :=
  BitVec.and_allOnes

/-- A U8 keeps its low byte. -/
theorem bytes_storedWord_u8 (off : Nat) (v : Word) :
    hiByte (storedWord .u8 off v) = 0x00 ∧ loByte (storedWord .u8 off v) = v.extractLsb' 0 8 := by
  constructor <;> simp [storedWord, hiByte, loByte, BitVec.extractLsb'_and, byte_and_ones]

/-- The last word of a byte block of odd length keeps its high byte. -/
theorem bytes_storedWord_oddBlock {len off : Nat} (hodd : len % 2 = 1) (hlast : 2 * off + 1 = len)
    (v : Word) :
    hiByte (storedWord (.blkU8 len) off v) = v.extractLsb' 8 8
      ∧ loByte (storedWord (.blkU8 len) off v) = 0x00 := by
  have hoff : off = len / 2 := by omega
  constructor <;>
    simp [storedWord, hodd, hoff, hiByte, loByte, BitVec.extractLsb'_and, byte_and_ones]

/-- Every other word is stored as it is. -/
theorem storedWord_eq {ty : RegType} {off : Nat} (v : Word) (h8 : ty ≠ .u8)
    (hb : ∀ len, ty = .blkU8 len → len % 2 = 0 ∨ 2 * off + 1 ≠ len) : storedWord ty off v = v := by
  unfold storedWord
  split
  · exact absurd rfl h8
  · rename_i len
    refine if_neg ?_
    rintro ⟨hodd, hoff⟩
    rcases hb len rfl with h | h <;> omega
  · rfl

/-- Settles O39: the write of one word, with its hook and its commit, and the bytes it stores. -/
theorem writeSingleRegisterStoresTheWord : Obligations.WriteSingleRegisterStoresTheWord := by
  rintro s t wl T d f r off hs hg hT hc hl hm hr rfl hpost hcommit m rfl
  have hcov := covers_of_cover hc
  obtain ⟨-, hwords⟩ := World.good_parts hg
  have hread := fun b => Memory.read_writeWord hwords r (f.addr.toNat - d.key.toNat) b
    (storedWord d.type (f.addr.toNat - d.key.toNat) f.value)
  have hsame := Memory.readWord_writeWord_same hwords r (f.addr.toNat - d.key.toNat)
    (storedWord d.type (f.addr.toNat - d.key.toNat) f.value)
  refine ⟨?_, fun b h0 h1 => by rw [hread, if_neg h1, if_neg h0], fun hty => ?_,
    fun len hty hodd hlast => ?_, fun h8 hb => hsame.trans (storedWord_eq _ h8 hb),
    fun hty hrm => ?_⟩
  · exact exec_writeSingleRegister_follows hs hT
      (regsEnd_open hc (regAdmits_open hr hcov.1 hcov.2 (lockSays_absent hl))
        (regWrites_array hm (told_of_listens hpost))
        (told_of_listens ((listens_notified (by rfl)).trans hcommit)))
  · have hbytes := bytes_storedWord_u8 (f.addr.toNat - d.key.toNat) f.value
    rw [hread, hread, hty]
    simpa using hbytes
  · have hbytes := bytes_storedWord_oddBlock hodd hlast f.value
    rw [hread, hread, hty]
    simpa using hbytes
  · simp only [regWord, hc, hrm, offset]
    exact hsame.trans (by rw [hty]; rfl)

/-- Settles O40: `writeRegs_plain`, and the storage after `storeRegs`. -/
theorem writeMultipleRegistersStoresEveryWord :
    Obligations.WriteMultipleRegistersStoresEveryWord := by
  rintro s t wl T f hs hg hT hv h1 h2 hd hr ht hw hcommit m rfl
  have hlen := length_wordsOfBytes f.qty.toNat f.data hd
  obtain ⟨-, hwords⟩ := World.good_parts hg
  refine ⟨?_, fun b hb => ?_, fun i r off ty hi htarget hlast => ?_⟩
  · exact exec_writeMultipleRegisters hs (e := .ok) hT h1 h2 hd hr
      (writeRegs_plain hv hlen ht hw hcommit)
  · exact storeRegs_out _ _ _ hwords b (by rw [hlen]; exact hb)
  · rw [storeRegs_last _ _ _ hwords (by rw [hlen]; exact hr) i r off ty (by rw [hlen]; exact hi) htarget
        fun k x h1 h2 hx => hlast k x h1 (by rw [← hlen]; exact h2) hx,
      wordsOfBytes_getD _ _ (by omega)]

/-! ## Writes that end before they begin (R97, R100, R105, R315, R348, R360, R365, R415) -/

theorem writeCoilBlock_rejected {c : Bool} {T : List CoilDesc} {a n : Nat} {data : List Byte}
    {e : Status} {w w' : World} (h : validateCoils T a n w = .raise e w') :
    writeCoilBlock c T a n data w = .raise e w' := by
  simp only [writeCoilBlock, h, Res.bind]

theorem writeRegs_rejected {c : Bool} {T : List RegDesc} {a n : Nat} {data : List Word}
    {e : Status} {w w' : World} (h : validateWrites T a n a n data w = .raise e w') :
    writeRegs c T a n data w = .raise e w' := by
  simp only [writeRegs, h, Res.bind]

section
variable {d : RegDesc} {w w' : World}

/-- The lock and access checks of a read (R99), as R365 makes them before the writes. -/
theorem regReadDenied_noAccess (hl : d.rlock = false) (hm : d.rmode = .none) :
    regReadDenied d w = .val (some .noAccess) w := by
  simp [regReadDenied, lockedIf_says (lockSays_absent hl), hm, Res.map, Res.bind]

theorem regReadDenied_locked (hl : LockSays d.rlock (.regRlock d) w true w') :
    regReadDenied d w = .val (some .locked) w' := by
  simp [regReadDenied, lockedIf_says hl, Res.map, Res.bind]

theorem regReadDenied_open (hl : LockSays d.rlock (.regRlock d) w false w') (hm : d.rmode ≠ .none) :
    regReadDenied d w = .val none w' := by
  simp [regReadDenied, lockedIf_says hl, hm, Res.map, Res.bind]

/-- What a single write asks of a register that has no lock to ask and can be written (R100). -/
theorem regWriteAllowed_granted {T : List RegDesc} {a : Nat} {data : List Word}
    (hr : refusesWrite d a 1 = false) (hl : asksWriteLock d = false) (hc : cover T a = some d) :
    regWriteAllowed d a a 1 data w = .val 1 w := by
  have hcov := covers_of_cover hc
  have hn : min (nwords d - offset d a) 1 = 1 := by
    simp only [offset]
    omega
  rw [regWriteAllowed_unlocked hl rfl (Nat.le_refl a) hcov.1 (.inl rfl) Nat.one_ne_zero, hr, hn]
  rfl

end

theorem recordsOf_valid {T : List FileDesc} (hv : fileTableValid T = true) (h : SubRequest) :
    regTableValid (recordsOf T h) = true := by
  unfold recordsOf
  cases hF : findFile T h.fileNo with
  | none => rfl
  | some F => exact records_valid hv hF

/-- What stops pass 1 of FC 0x15 after sub-requests it accepts ends the request (R415). -/
theorem exec_writeFileRecord_rejected {s : State} {t : Txn} {wl : Bool} (hs : AtHandler s t wl)
    {T : List FileDesc} {pre : List (SubRequest × List Word)} {more : List Byte} {e : Status}
    {w' : World} (hT : s.cfg.files = some T) (hv : fileTableValid T = true) (he : e ≠ .ok)
    (hpre : ∀ x ∈ pre, openFileWrite s.cfg.extFileRange T x = true) (hne : more ≠ [])
    (hlen : 9 ≤ (fileWriteBytes pre ++ more).length)
    (hr : ∀ fuel, checkFileWrites s.cfg.extFileRange T (fuel + 1) more s.world = .raise e w') :
    exec (.writeFileRecord (.fields (fileWriteBytes pre ++ more))) s
      = .next (failed 0x15 t wl e { s with world := w' }) :=
  exec_writeFileRecord_raise hs hT he
    (writeFileHandler_rejected hlen (checkFileWrites_raises hv hpre hne hr))

theorem headerValid_recLen {ext : Bool} {T : List FileDesc} {h : SubRequest}
    (hh : headerValid ext T h = true) : 1 ≤ h.recLen.toNat := by
  simp only [headerValid, Bool.and_eq_true, decide_eq_true_eq] at hh
  obtain ⟨⟨⟨⟨⟨-, hlen⟩, -⟩, -⟩, -⟩, -⟩ := hh
  exact hlen

/-- Settles O41: what stops the pre-validation of each multiple write, and the checks of FC 0x16 and of FC 0x17's
read start. -/
theorem missingTargetStopsAWriteBeforeItBegins :
    Obligations.MissingTargetStopsAWriteBeforeItBegins := by
  intro s t wl i cells rest hs
  refine ⟨fun T f hT h1 h2 hd hr hi ho => ⟨fun hf => ?_, fun d hf hl hscript => ?_⟩,
    fun T hT hv => ⟨fun f h1 h2 hd hr hi => ⟨fun hl hu => ?_, fun d ho hc hl hscript => ?_⟩, ?_, ?_⟩,
    ?_⟩
  · exact exec_writeMultipleCoils (e := .illegalDataAddr) hs hT h1 h2 hd hr
      (writeCoilBlock_rejected (validateCoils_missing s.world hi ho hf))
  · exact exec_writeMultipleCoils (e := .illegalDataAddr) hs hT h1 h2 hd hr
      (writeCoilBlock_rejected (validateCoils_locked hi ho hf hl (askBool_scripted hscript)))
  · exact exec_writeMultipleRegisters (e := .illegalDataAddr) hs hT h1 h2 hd hr
      (writeRegs_rejected (validateWrites_unwritable hv _ s.world hi hl hu))
  · exact exec_writeMultipleRegisters (e := .illegalDataAddr) hs hT h1 h2 hd hr
      (writeRegs_rejected (validateWrites_locked hv hi ho hc hl (askBool_scripted hscript)))
  · -- FC 0x16
    intro f
    refine ⟨fun hc => ?_, fun d hc => ⟨fun hl h => ?_, fun hscript => ⟨fun hl => ?_,
      fun hl hr hrl => ?_⟩⟩⟩
    · exact exec_maskWriteRegister_refused hs hT (.inl ⟨hc, rfl⟩)
    · cases hr : refusesWrite d f.addr.toNat 1 with
      | true =>
        exact exec_maskWriteRegister_refused hs hT
          (.inr ⟨d, hc, regWriteAllowed_refused hr hl hc⟩)
      | false =>
        obtain ⟨hrl, hm⟩ := h.resolve_left (by simp [hr])
        exact exec_maskWriteRegister_unread hs hT hc (regWriteAllowed_granted hr hl hc) Nat.one_pos
          (regRead_says ⟨false, _, lockSays_absent hrl, by simp [hm]⟩) (r := .noAccess) nofun
    · exact exec_maskWriteRegister_refused hs hT
        (.inr ⟨d, hc, regWriteAllowed_locked hl (askBool_scripted hscript)⟩)
    · exact exec_maskWriteRegister_unread hs hT hc (regWriteAllowed_granted hr hl hc) Nat.one_pos
        (regRead_says ⟨true, _, lockSays_scripted hrl hscript, rfl, rfl⟩) (r := .locked) nofun
  · -- FC 0x17
    intro f h1 h2 h3 h4 hd hr hr'
    have hf : ReadWriteInRange f := ⟨h1, h2, h3, h4, hd, hr, hr'⟩
    refine ⟨fun h => ?_, fun d hc => ⟨fun hl hscript => ?_, fun hl hm hi => ⟨fun hu hw => ?_,
      fun e ho he hle hscript => ?_⟩⟩⟩
    · refine exec_readWriteMultipleRegisters_refused hs hT hf ?_
      rcases h with hc | ⟨d, hc, hl, hm⟩
      · exact .inl ⟨hc, rfl⟩
      · exact .inr ⟨d, _, hc, regReadDenied_noAccess hl hm⟩
    · exact exec_readWriteMultipleRegisters_refused hs hT hf
        (.inr ⟨d, _, hc, regReadDenied_locked (lockSays_scripted hl hscript)⟩)
    · exact exec_readWriteMultipleRegisters_failedWrite hs hT hf hc
        (regReadDenied_open (lockSays_absent hl) hm) (by decide)
        (writeRegs_rejected (validateWrites_unwritable hv _ s.world hi hu hw))
    · exact exec_readWriteMultipleRegisters_failedWrite hs hT hf hc
        (regReadDenied_open (lockSays_absent hl) hm) (by decide)
        (writeRegs_rejected (validateWrites_locked hv hi ho he hle (askBool_scripted hscript)))
  · -- FC 0x15
    rintro T pre h ws more data hT hv hpre hh hlen hi rfl
    have hrec := recordsOf_valid hv h
    have h9 : 9 ≤ (fileWriteBytes pre ++ (headerBytes h ++ (bytesOfWords ws ++ more))).length := by
      simp only [List.length_append, length_headerBytes, length_bytesOfWords, hlen]
      omega
    have hne : headerBytes h ++ (bytesOfWords ws ++ more) ≠ [] := List.cons_ne_nil _ _
    refine ⟨fun hl hu => ?_, fun d ho hc hl hscript => ?_⟩
    · exact exec_writeFileRecord_rejected hs hT hv (by decide) hpre hne h9
        (checkFileWrites_denied hh hlen (validateWrites_unwritable hrec ws s.world hi hl hu))
    · exact exec_writeFileRecord_rejected hs hT hv (by decide) hpre hne h9
        (checkFileWrites_denied hh hlen
          (validateWrites_locked hrec hi ho hc hl (askBool_scripted hscript)))

/-! ## File records (R104 to R106, R400 to R415) -/

/-- Settles O44: pass 1 accepts the headers, and pass 2 answers every sub-request. -/
theorem readFileRecordAnswersEverySubrequest : Obligations.ReadFileRecordAnswersEverySubrequest := by
  intro s t wl T subs hs hT hv hne hl hall hsize
  obtain ⟨l, hc, hmap, hF⟩ := checkReads_plain (fun h hh => (hall h hh).1) hsize
  have hr := readSubs_prefix s.world hv [] l fun x hx => by
    have hx' : x.2 ∈ subs := hmap ▸ List.mem_map_of_mem hx
    obtain ⟨-, hp, hread⟩ := hall x.2 hx'
    exact ⟨hF x hx, plainRegReads_on hp _ _, hread⟩
  rw [List.append_nil, hmap] at hr
  refine exec_readFileRecord hs hT hne (by rw [length_headers]; omega) hc
    (out := .ok (subs.flatMap (subAnswer s.world T))) ?_ (by simp)
  rw [hr]
  simp [readSubs, Res.map, Res.bind, Res.ofExcept]

theorem length_fileWriteBytes_pos {ext : Bool} {T : List FileDesc}
    {subs : List (SubRequest × List Word)} (hne : subs ≠ [])
    (ho : ∀ x ∈ subs, headerValid ext T x.1 = true ∧ x.2.length = x.1.recLen.toNat) :
    9 ≤ (fileWriteBytes subs).length := by
  cases subs with
  | nil => exact absurd rfl hne
  | cons x subs =>
    obtain ⟨hh, hl⟩ := ho x (by simp)
    have := headerValid_recLen hh
    rw [length_fileWriteBytes_cons]
    omega

theorem openFileWrite_parts {ext : Bool} {T : List FileDesc} {x : SubRequest × List Word}
    (h : openFileWrite ext T x = true) :
    headerValid ext T x.1 = true ∧ x.2.length = x.1.recLen.toNat
      ∧ openWrites (recordsOf T x.1) x.1.recNo.toNat x.1.recLen.toNat x.1.recLen.toNat = true := by
  simp only [openFileWrite, Bool.and_eq_true, decide_eq_true_eq] at h
  obtain ⟨⟨hh, hl⟩, ho⟩ := h
  exact ⟨hh, hl, ho⟩

/-- Settles O45: pass 1 accepts the sub-requests, pass 2 stores their words, and the commit follows. -/
theorem writeFileRecordStoresEverySubrequest : Obligations.WriteFileRecordStoresEverySubrequest := by
  rintro s t wl T subs hs hg hT hv hne hall hcommit data m rfl rfl
  obtain ⟨-, hwords⟩ := World.good_parts hg
  refine ⟨?_, fun b hb => storeFiles_out subs _ hwords fun x hx => ⟨(hall x hx).2.1, hb x hx⟩⟩
  have ho : ∀ x ∈ subs, openFileWrite s.cfg.extFileRange T x = true := by
    intro x hx
    obtain ⟨hh, hl, ht, hw⟩ := hall x hx
    simp only [openFileWrite, hh, hl, plainRegTargets_open ht hw, decide_true, Bool.and_self]
  obtain ⟨l, hmap, hF, hc⟩ := checkFileWrites_open s.world hv ho
  have ha := applyFileWrites_prefix hv [] l s.world fun f hf => by
    have hx : (f.head, f.data) ∈ subs := hmap ▸ List.mem_map_of_mem hf
    obtain ⟨-, hl, ht, -⟩ := hall _ hx
    exact ⟨hF f hf, hl, ht⟩
  rw [List.append_nil, hmap] at ha
  exact exec_writeFileRecord hs hT (e := .ok)
    (length_fileWriteBytes_pos hne fun x hx => ⟨(hall x hx).1, (hall x hx).2.1⟩) hc ha
    (notifyIf_listens hcommit)

/-- FC 0x15 raises ILLEGAL_DATA_VAL for a byte count below 9 (R415). -/
theorem exec_writeFileRecord_short {s : State} {t : Txn} {wl : Bool} (hs : AtHandler s t wl)
    {T : List FileDesc} {data : List Byte} (hT : s.cfg.files = some T) (hl : data.length < 9) :
    exec (.writeFileRecord (.fields data)) s = .next (failed 0x15 t wl .illegalDataVal s) :=
  exec_writeFileRecord_raise hs hT (by decide) (by simp only [writeFileHandler, if_pos hl])

/-- A sub-request of FC 0x15 that does not fit its byte count is ILLEGAL_DATA_VAL (R415). -/
theorem exec_writeFileRecord_unfit {s : State} {t : Txn} {wl : Bool} (hs : AtHandler s t wl)
    {T : List FileDesc} {pre : List (SubRequest × List Word)} {more : List Byte}
    (hT : s.cfg.files = some T) (hv : fileTableValid T = true)
    (hpre : ∀ x ∈ pre, openFileWrite s.cfg.extFileRange T x = true) (hne : more ≠ [])
    (hr : ∀ fuel, checkFileWrites s.cfg.extFileRange T (fuel + 1) more s.world
      = .raise .illegalDataVal s.world) :
    exec (.writeFileRecord (.fields (fileWriteBytes pre ++ more))) s
      = .next (failed 0x15 t wl .illegalDataVal s) := by
  by_cases hlen : (fileWriteBytes pre ++ more).length < 9
  · exact exec_writeFileRecord_short hs hT hlen
  · exact exec_writeFileRecord_rejected hs hT hv (by decide) hpre hne (Nat.not_lt.mp hlen) hr

/-- Pass 2 of FC 0x14 raises what the first record of a sub-request raises, after sub-requests that ask no host
software (R405). -/
theorem readSubs_raises {T : List FileDesc} {pre post : List SubRequest} {h : SubRequest}
    {l : List (FileDesc × SubRequest)} {e : Status} {w w' : World} (hv : fileTableValid T = true)
    (hmap : l.map Prod.snd = pre ++ h :: post) (hF : ∀ x ∈ l, findFile T x.2.fileNo = some x.1)
    (hpre : ∀ x ∈ pre, plainRegReadsOn (recordsOf T x) x.recNo.toNat x.recLen.toNat = true
      ∧ regReadable (recordsOf T x) x.recNo.toNat = true)
    (hr : readRegs (recordsOf T h) h.recLen.toNat true h.recNo.toNat h.recLen.toNat w
      = .raise e w') : readSubs l w = .raise e w' := by
  obtain ⟨l1, l2, rfl, rfl, h2⟩ := List.map_eq_append_iff.mp hmap
  obtain ⟨⟨F, h'⟩, l3, rfl, rfl, -⟩ := List.map_eq_cons_iff.mp h2
  rw [recordsOf_eq (hF (F, h') (by simp))] at hr
  rw [readSubs_prefix w hv _ l1 fun x hx =>
    ⟨hF x (by simp [hx]), hpre x.2 (List.mem_map_of_mem hx)⟩]
  simp only [readSubs, fileRead, hr, Res.bind, Res.map]

/-- Settles O46: the length check, the headers and the first records of FC 0x14, and the length check and the
sub-requests of FC 0x15. -/
theorem fileHeadersAreChecked : Obligations.FileHeadersAreChecked := by
  intro s t wl T h e hs hT
  refine ⟨fun data hd => ?_, ?_, fun data hd => exec_writeFileRecord_short hs hT hd,
    fun pre more hv hpre => ⟨fun hne hl => ?_, fun hl => ?_, fun hl hne he => ?_⟩⟩
  · exact exec_readFileRecord_raise hs hT (by decide) (by simp only [readFileHandler, if_pos hd])
  · rintro pre post data rfl hlen hvalid
    have hne : pre ++ h :: post ≠ [] := by simp
    have hreject : ∀ e', e' ≠ .ok →
        checkReads s.cfg.extFileRange T 0 (pre ++ h :: post) = .error e' →
        exec (.readFileRecord (.fields ((pre ++ h :: post).flatMap headerBytes))) s
          = .next (failed 0x14 t wl e' s) := fun e' he' hc =>
      exec_readFileRecord_raise hs hT he' (by rw [readFileHandler_headers hne hlen, hc])
    refine ⟨fun hsize he => hreject e (headerRaises_ne_ok he) (checkReads_raises hvalid hsize he),
      fun hh hsize hlong => hreject _ (by decide) (checkReads_tooLong hvalid hsize hh hlong), ?_⟩
    intro hvalid' hsize hv hplain
    have hall : ∀ x ∈ pre ++ h :: post, headerValid s.cfg.extFileRange T x = true := fun x hx =>
      (List.mem_append.mp hx).elim (hvalid x) (hvalid' x)
    have hpos := headerValid_recLen (hvalid' h (by simp))
    obtain ⟨l, hc, hmap, hF⟩ := checkReads_plain hall hsize
    have hraise : ∀ w', RegDenied (recordsOf T h) h.recNo.toNat h.recLen.toNat s.world w' →
        exec (.readFileRecord (.fields ((pre ++ h :: post).flatMap headerBytes))) s
          = .next (failed 0x14 t wl .illegalDataAddr { s with world := w' }) := fun w' hd =>
      exec_readFileRecord hs hT hne hlen hc (out := .error .illegalDataAddr)
        (readSubs_raises hv hmap hF hplain (readRegs_denied hpos hd)) (by simp)
    exact ⟨fun hd => hraise _ (regDenied_unreadable hd), fun d cells rest hcov hl hscript =>
      hraise _ (regDenied_asked hcov hl hscript (.inl rfl))⟩
  · exact exec_writeFileRecord_unfit hs hT hv hpre hne (checkFileWrites_shortHeader hne hl)
  · exact exec_writeFileRecord_unfit hs hT hv hpre (List.cons_ne_nil _ _)
      (checkFileWrites_shortData hl)
  · refine exec_writeFileRecord_rejected hs hT hv (headerRaises_ne_ok he) hpre (List.cons_ne_nil _ _)
      ?_ (checkFileWrites_badHeader hl he)
    simp only [List.length_append, length_headerBytes]
    rcases hne with hne | hne
    · have := length_fileWriteBytes_pos hne fun x hx =>
        ⟨(openFileWrite_parts (hpre x hx)).1, (openFileWrite_parts (hpre x hx)).2.1⟩
      omega
    · omega

/-! ## Reads, whatever the host answers (R96, R99, R104, R111, R300, R340, R360, R365, R405) -/

theorem packBits_one (b : Bool) : packBits 1 [b] = [if b then 0x01 else 0x00] := by
  cases b <;> decide

section
variable {w w' : World}

/-- A coil without a lock behind a callback that answers a byte (R96). -/
theorem coilSays_callback {d : CoilDesc} {v : Byte} (hl : d.rlock = false) (hm : d.rmode = .cb)
    (hx : SaysByte (.coilRead d) w (some v) w') :
    CoilSays d w (if v = 0x00 then .off else .on) w' := by
  refine ⟨false, w, lockSays_absent hl, ?_⟩
  simp only [hm, Bool.false_eq_true, if_false]
  exact ⟨some v, hx, rfl⟩

theorem coilSays_callbackFails {d : CoilDesc} (hl : d.rlock = false) (hm : d.rmode = .cb)
    (hx : SaysByte (.coilRead d) w none w') : CoilSays d w .devFail w' := by
  refine ⟨false, w, lockSays_absent hl, ?_⟩
  simp only [hm, Bool.false_eq_true, if_false]
  exact ⟨none, hx, rfl⟩

/-- A register without a lock behind a callback that answers words (R99). -/
theorem regSays_callback {d : RegDesc} {a n : Nat} {ws : List Word} (hl : d.rlock = false)
    (hm : d.rmode = .cb) (hx : SaysWords (nwords d) (.regRead d) w (some ws) w') :
    RegSays d a n w (.words ((ws.drop (a - d.key.toNat)).take n)) w' := by
  refine ⟨false, w, lockSays_absent hl, ?_⟩
  simp only [hm, Bool.false_eq_true, if_false]
  exact ⟨some ws, hx, rfl⟩

theorem regSays_callbackFails {d : RegDesc} {a n : Nat} (hl : d.rlock = false) (hm : d.rmode = .cb)
    (hx : SaysWords (nwords d) (.regRead d) w none w') : RegSays d a n w .devFail w' := by
  refine ⟨false, w, lockSays_absent hl, ?_⟩
  simp only [hm, Bool.false_eq_true, if_false]
  exact ⟨none, hx, rfl⟩

/-- One coil behind a callback that answers a byte (R300). -/
theorem coilsRead_callback {T : List CoilDesc} {d : CoilDesc} {a : Nat} {v : Byte}
    (hf : findCoil T a = some d) (hl : d.rlock = false) (hm : d.rmode = .cb)
    (hx : SaysByte (.coilRead d) w (some v) w') :
    CoilsRead T true a 1 w (.ok [decide (v ≠ 0x00)]) w' := by
  refine .bit hf ?_ .done
  have hsays := coilSays_callback hl hm hx
  by_cases hv : v = 0x00 <;> simpa [hv] using hsays

/-- Words of one register behind a callback that answers its words (R340). -/
theorem regsRead_callback {T : List RegDesc} {d : RegDesc} {a n : Nat} {ws : List Word} (hn : 1 ≤ n)
    (hc : cover T a = some d) (hin : a + n ≤ d.key.toNat + nwords d) (hl : d.rlock = false)
    (hm : d.rmode = .cb) (hlen : ws.length = nwords d)
    (hx : SaysWords (nwords d) (.regRead d) w (some ws) w') :
    RegsRead T true a n w (.ok ((ws.drop (a - d.key.toNat)).take n)) w' := by
  have hcov := covers_of_cover hc
  have htaken : ((ws.drop (a - d.key.toNat)).take n).length = n := by
    rw [List.length_take, List.length_drop]
    omega
  have h := RegsRead.words (first := true) (out := .ok []) hn hc (regSays_callback hl hm hx)
    (by rw [htaken, Nat.sub_self]; exact .done)
  rwa [Except.map, List.append_nil] at h

end

/-- FC 0x16 after its write check, where the current word is not to be had (R360). -/
theorem exec_maskWriteRegister_says {s : State} {t : Txn} {wl : Bool} (hs : AtHandler s t wl)
    {T : List RegDesc} {f : MaskWrite} {d : RegDesc} {k : Nat} {r : RegRead} {w0 w' : World}
    (hT : s.cfg.holding = some T) (hc : cover T f.addr.toNat = some d)
    (ha : RegAdmits d f.addr.toNat f.addr.toNat 1 [f.andMask, f.orMask] s.world k w0) (hk : 0 < k)
    (hr : RegSays d f.addr.toNat 1 w0 r w') (hn : ∀ ws, r ≠ .words ws) :
    exec (.maskWriteRegister (.fields f)) s
      = .next (failed 0x16 t wl (if r = .devFail then .devFail else .illegalDataAddr)
          { s with world := w' }) :=
  exec_maskWriteRegister_unread hs hT hc (regWriteAllowed_says ha) hk (regRead_says hr) hn

/-- Settles O47: one read behind a callback by FC 0x01 and 0x03, and the loops of every reading function code
after what the host answers. -/
theorem readCallbacksDecideTheAnswer : Obligations.ReadCallbacksDecideTheAnswer := by
  intro s t wl cells rest f fc i w' hs
  refine ⟨fun C d v hC hq hf hl hm => ?_, fun T d ws hT h1 h2 hc hl hm hin hr => ?_,
    fun T out h1 h2 hr hi h => ?_, fun T out h1 h2 hr hi h => ?_,
    fun T subs out hT hne hlen hvalid hsize h => ?_, fun T d w0 w1 hT => ⟨?_, ?_⟩⟩
  · have hq1 : f.qty.toNat = 1 := congrArg BitVec.toNat hq
    have hr : f.addr.toNat + f.qty.toNat ≤ 0x10000 := by
      have := f.addr.isLt
      omega
    have hread := fun out w h => exec_readBits hs (out := out) (w' := w) (by omega) (by omega) hr
      (.inl ⟨rfl, hC, rfl⟩) (readBits_follows h 0 rfl rfl) (coilsRead_ne_ok h)
    rw [hq1] at hread
    refine ⟨fun hscript => ?_, fun hscript => ?_⟩
    · rw [hread _ _ (coilsRead_callback hf hl hm (saysByte_scripted hscript))]
      by_cases hv : v = 0x00 <;> simp [hv, answered, packBits_one, countByte]
    · exact hread (.error .devFail) _
        (.fails hf (coilSays_callbackFails hl hm (saysByte_failed hscript)))
  · refine ⟨fun hscript hlen => ?_, fun hscript => ?_⟩
    · exact exec_readRegs hs h1 h2 hr (.inl ⟨rfl, hT, rfl⟩) (out := .ok _)
        (readRegs_follows (regsRead_callback h1 hc hin hl hm hlen (saysWords_scripted hscript hlen))
          _ (Nat.le_refl _)) (by simp)
    · exact exec_readRegs hs h1 h2 hr (.inl ⟨rfl, hT, rfl⟩) (out := .error .devFail)
        (readRegs_follows (.fails h1 hc (regSays_callbackFails hl hm (saysWords_failed hscript))) _
          (Nat.le_refl _)) (by simp)
  · exact exec_readBits hs h1 h2 hr hi (readBits_follows h 0 rfl rfl) (coilsRead_ne_ok h)
  · exact exec_readRegs hs h1 h2 hr hi (readRegs_follows h _ (Nat.le_refl _)) (regsRead_ne_ok h)
  · obtain ⟨l, hc, hmap, hF⟩ := checkReads_plain hvalid hsize
    exact exec_readFileRecord hs hT hne (by rw [length_headers]; omega) hc
      (readSubs_follows h l hmap hF) (filesRead_ne_ok h)
  · intro x k hc ha hk
    refine ⟨fun hr => exec_maskWriteRegister_says hs hT hc ha hk hr nofun, fun hr => ?_⟩
    rcases hr with hr | hr
    · exact exec_maskWriteRegister_says hs hT hc ha hk hr nofun
    · exact exec_maskWriteRegister_says hs hT hc ha hk hr nofun
  · intro x out h1 h2 h3 h4 hd hr hr' hc hl hm hw h
    exact exec_readWriteMultipleRegisters_reads hs hT ⟨h1, h2, h3, h4, hd, hr, hr'⟩ hc
      (regReadDenied_open hl hm) (writeRegs_follows (length_wordsOfBytes _ _ hd).symm hw)
      (readRegs_follows h _ (Nat.le_refl _)) (regsRead_ne_ok h)

/-! ## Writes that fail at one target (R118, R315, R349, R415, R585) -/

/-- FC 0x0F after plain targets, at a coil whose store fails (R315). -/
theorem writeCoilBlock_aborts {c : Bool} {C : List CoilDesc} {a n i : Nat} {data : List Byte}
    {d : CoilDesc} {e : Status} {w w' : World} (ho : openCoils C a n = true) (hi : i < n)
    (ht : plainCoilTargets C a i = true) (hf : findCoil C (a + i) = some d) (he : e ≠ .ok)
    (hst : coilStore d (packedBit data i)
      { w with byteCells := storeCoils C a (requestBits data i) w.byteCells } = .val e w') :
    writeCoilBlock c C a n data w = .ofStatus e w' := by
  simp only [writeCoilBlock, validateCoils_open w ho, writeCoils_aborts hi ht hf he hst, Res.bind,
    Res.ofStatus, if_neg he]

/-- FC 0x10 after plain targets, at a register whose callback fails (R349). -/
theorem writeRegs_aborts {c : Bool} {T : List RegDesc} {a n i : Nat} {data : List Word} {d : RegDesc}
    {e : Status} {w w' : World} (hv : regTableValid T = true) (ho : openWrites T a n n = true)
    (hl : data.length = n) (hi : i < n) (ht : plainRegTargets T a i = true)
    (hc : cover T (a + i) = some d) (hm : d.wmode = .cb) (he : e ≠ .ok)
    (hans : askStatus (.regWrite d (offset d (a + i)) (min (nwords d - offset d (a + i)) (n - i))
        ((data.drop i).take (min (nwords d - offset d (a + i)) (n - i))))
      { w with wordCells := storeRegs T a (data.take i) w.wordCells } = .val e w') :
    writeRegs c T a n data w = .raise e w' := by
  simp only [writeRegs, validateWrites_open hv data w ho,
    applyWrites_aborts hv hl hi ht hc hm he hans, Res.bind]

/-- Pass 2 of FC 0x15 after sub-requests of plain targets, at one that fails (R415). -/
theorem applyFileWrites_aborts {T : List FileDesc} {pre post : List (SubRequest × List Word)}
    {h : SubRequest} {ws : List Word} {l : List FileWrite} {e : Status} {w w' : World}
    (hv : fileTableValid T = true)
    (hmap : l.map (fun f => (f.head, f.data)) = pre ++ (h, ws) :: post)
    (hF : ∀ f ∈ l, findFile T f.head.fileNo = some f.file)
    (hpre : ∀ x ∈ pre, x.2.length = x.1.recLen.toNat
      ∧ plainRegTargets (recordsOf T x.1) x.1.recNo.toNat x.1.recLen.toNat = true)
    (hw : applyWrites (recordsOf T h) h.recLen.toNat h.recNo.toNat h.recLen.toNat ws
      { w with wordCells := storeFiles T pre w.wordCells } = .raise e w') :
    applyFileWrites l w = .raise e w' := by
  obtain ⟨l1, l2, rfl, rfl, h2⟩ := List.map_eq_append_iff.mp hmap
  obtain ⟨f, l3, rfl, hf, -⟩ := List.map_eq_cons_iff.mp h2
  obtain ⟨rfl, rfl⟩ := Prod.mk.inj hf
  rw [recordsOf_eq (hF f (by simp))] at hw
  rw [applyFileWrites_prefix hv _ l1 w fun g hg =>
    ⟨hF g (by simp [hg]), hpre _ (List.mem_map_of_mem hg)⟩]
  simp only [applyFileWrites, fileWrite, hw, Res.bind]

/-! ## The fallback (R161, R264, R272) -/

/-- `handle_fn` answers a status and a body (R272). -/
theorem fallbackCall_scripted {req answer : List Byte} {e : Status} {cells : List CellChange}
    {rest : List HostDraw} {w : World}
    (hs : w.script = ⟨.statusBody (wireCode e) answer, cells⟩ :: rest) (hl : answer.length ≤ 252) :
    fallbackCall req w
      = if e = .ok then .val (req.headD 0 :: answer) (invoke (.handleFn req) w).2
        else .raise e (invoke (.handleFn req) w).2 := by
  obtain ⟨w', hi⟩ := invoke_scripted (h := .handleFn req) hs
  simp only [fallbackCall, askStatusBody, hi, statusOfCode_wireCode, if_neg (Nat.not_lt.mpr hl),
    Res.bind]

/-- A handler that takes the fallback, which is present, ends as the answered status says. -/
theorem runFunction_fallback {s : State} {t : Txn} {wl : Bool} (hs : AtHandler s t wl) {h : Handler}
    {fc : Byte} {body answer : List Byte} {e : Status} {cells : List CellChange}
    {rest : List HostDraw} (hh : h s = fallbackHandler (fc :: body) s)
    (hp : s.cfg.callbacks.handleFn = true) (hl : answer.length ≤ 252)
    (hscript : s.world.script = ⟨.statusBody (wireCode e) answer, cells⟩ :: rest) :
    runFunction fc h s = .next
      (ended fc t wl (fc :: answer) e
        { s with world := (invoke (.handleFn (fc :: body)) s.world).2 }) := by
  have hcall := fallbackCall_scripted (req := fc :: body) hscript hl
  simp only [fallbackHandler, hp, if_true] at hh
  by_cases he : e = .ok
  · rw [if_pos he] at hcall
    rw [he]
    exact runFunction_at_val hs (hh.trans (onWorld_val hcall)) rfl (List.cons_ne_nil _ _)
  · rw [if_neg he] at hcall
    rw [ended_of_ne he]
    exact runFunction_at_raise hs (hh.trans (onWorld_raise hcall)) rfl he

/-- A function code whose table or callback is ABSENT takes the fallback (R264). -/
theorem functionOf_unimplemented {i : Instr} {fc : Byte} {h : State → Handler} {s : State}
    (hi : functionOf i = some (fc, h)) (hu : unimplemented s.cfg i = true) :
    h s s = fallbackHandler (encodePdu i) s := by
  cases i <;> simp only [functionOf, Option.some.injEq, Prod.mk.injEq, reduceCtorEq] at hi <;>
    (obtain ⟨rfl, rfl⟩ := hi)
  case fallback => rfl
  case reportSlaveId => rfl
  case diagUnimplementedSub o =>
    cases o <;> simp [unimplemented, fcOf, encode, SubForm.encode, encodeDiag] at hu
  case readExceptionStatus o =>
    have hp : s.cfg.callbacks.readExceptionStatus = false := by
      simpa [unimplemented, fcOf, encode] using hu
    simp only [exceptionStatusHandler, hp, Bool.false_eq_true, if_false]
  all_goals
    simp [unimplemented, fcOf, encode, encodeDiag] at hu <;> simp only [withTable, hu]

/-- The instructions that take the fallback: a code that is not listed, FC 0x11, and a listed one whose table or
callback is ABSENT (R161, R264). -/
theorem exec_takesFallback {i : Instr} {fc : Byte} {body : List Byte} {s : State}
    (hi : i = .fallback fc body ∨ (fc = 0x11 ∧ i = .reportSlaveId body)
      ∨ encode i = .pdu (fc :: body) ∧ unimplemented s.cfg i = true) :
    ∃ h : Handler, exec i s = runFunction fc h s ∧ h s = fallbackHandler (fc :: body) s := by
  rcases hi with rfl | ⟨rfl, rfl⟩ | ⟨he, hu⟩
  · exact ⟨_, rfl, rfl⟩
  · exact ⟨_, rfl, rfl⟩
  · have hfc : fcOf i = some fc := by simp only [fcOf, he]
    have hreq : encodePdu i = fc :: body := by simp only [encodePdu, he]
    rcases functionOf_cases i with ⟨fc', h, hf, hfc'⟩ | ⟨-, hn⟩
    · obtain rfl : fc = fc' := Option.some.inj (hfc.symm.trans hfc')
      exact ⟨h s, exec_functionOf hf s, hreq ▸ functionOf_unimplemented hf hu⟩
    · cases hfc.symm.trans hn

/-- The send event of an exception, written out (R269, R501). -/
theorem eventByte_eq {e : Status} (he : e ≠ .ok) (wl : Bool) :
    (if wl then 0x60 else 0x40) ||| eventBits (wireCode e)
      = (if wl then 0x20 else 0x00)
        ||| (if (wireCode e).toNat ≤ 3 then 0x41 else if wireCode e = 0x04 then 0x42
          else if (wireCode e).toNat ≤ 6 then 0x44 else if wireCode e = 0x07 then 0x48 else 0x40) := by
  cases e with
  | ok => exact absurd rfl he
  | _ => cases wl <;> rfl

theorem failed_outputs (fc : Byte) (t : Txn) (wl : Bool) (e : Status) (s : State) :
    (failed fc t wl e s).outputs
      = s.outputs ++ [replyOf t (wl || s.regs.isListenOnly) [fc ||| 0x80, wireCode e]] := rfl

theorem failed_ring (fc : Byte) (t : Txn) (wl : Bool) (e : Status) (s : State) :
    (failed fc t wl e s).regs.ring
      = s.regs.ring.append ((if wl then 0x60 else 0x40) ||| eventBits (wireCode e)) := by
  unfold failed closed
  dsimp only
  split <;> rfl

/-! ## Writes, whatever the host answers (R97 to R101, R105, R106, R118, R266) -/

theorem ofStatus_raise {σ : Type} {e : Status} (he : e ≠ .ok) (s : σ) :
    Res.ofStatus e s = .raise e s := if_neg he

/-- FC 0x16 ends as R360 says, whatever the host answers. -/
theorem exec_maskWriteRegister_follows {s : State} {t : Txn} {wl : Bool} (hs : AtHandler s t wl)
    {T : List RegDesc} {f : MaskWrite} {d : RegDesc} {k : Nat} {v : Word} {e : Status}
    {w1 w2 w3 w' : World} (hT : s.cfg.holding = some T) (hc : cover T f.addr.toNat = some d)
    (ha : RegAdmits d f.addr.toNat f.addr.toNat 1 [f.andMask, f.orMask] s.world k w1) (hk : 0 < k)
    (hr : RegSays d f.addr.toNat 1 w1 (.words [v]) w2)
    (hw : RegWrites d (f.addr.toNat - d.key.toNat) [maskedWord v f.andMask f.orMask] w2 e w3)
    (hn : if e = .ok then Told s.cfg.callbacks.commitRegsWrite .commitRegsWrite w3 w' else w' = w3) :
    exec (.maskWriteRegister (.fields f)) s = .next
      (ended 0x16 t wl (0x16 :: (be16Bytes f.addr ++ be16Bytes f.andMask ++ be16Bytes f.orMask)) e
        { s with world := w' }) := by
  have hcov := covers_of_cover hc
  have hone : min (nwords d - (f.addr.toNat - d.key.toNat)) 1 = 1 := by omega
  have hstore := regStore_says (d := d) (a := f.addr.toNat) (rem := 1)
    (data := [maskedWord v f.andMask f.orMask]) (w := w2) (w' := w3) (e := e)
    (by rw [hone]; rfl) (by rw [hone]; exact hw)
  refine runFunction_table_ended hs hT ?_ (List.cons_ne_nil _ _)
  rw [maskWriteHandler_writes hc (regWriteAllowed_says ha) hk (regRead_says hr) hstore]
  unfold Res.ofStatus
  by_cases he : e = .ok
  · simp only [he, if_true] at hn ⊢
    rw [notifyIf_told hn]
    rfl
  · simp only [he, if_false] at hn ⊢
    rw [hn]
    rfl

/-- FC 0x15 ends as R415 says, whatever the host answers. -/
theorem exec_writeFileRecord_follows {s : State} {t : Txn} {wl : Bool} (hs : AtHandler s t wl)
    {T : List FileDesc} {subs : List (SubRequest × List Word)} {e : Status} {w' : World}
    (hT : s.cfg.files = some T) (hne : subs ≠ [])
    (hvalid : ∀ x ∈ subs, headerValid s.cfg.extFileRange T x.1 = true
      ∧ x.2.length = x.1.recLen.toNat)
    (h : FilesEnd s.cfg.callbacks.commitRegsWrite T subs s.world e w') :
    exec (.writeFileRecord (.fields (fileWriteBytes subs))) s = .next
      (ended 0x15 t wl (0x15 :: countByte (fileWriteBytes subs).length :: fileWriteBytes subs) e
        { s with world := w' }) := by
  have hlen := length_fileWriteBytes_pos hne hvalid
  rcases h with ⟨rfl, h⟩ | ⟨w1, w2, h1, h2, h3⟩
  · obtain ⟨l, -, -, hc⟩ := checkFileWrites_follows h hvalid _ (Nat.le_refl _)
    exact exec_writeFileRecord_raise hs hT (by decide) (writeFileHandler_rejected hlen hc)
  · obtain ⟨l, hmap, hF, hc⟩ := checkFileWrites_follows h1 hvalid _ (Nat.le_refl _)
    refine exec_writeFileRecord hs hT hlen hc
      (applyFileWrites_follows h2 (fun x hx => (hvalid x hx).2) l hmap hF) ?_
    by_cases he : e = .ok
    · rw [if_pos he] at h3 ⊢
      exact notifyIf_told h3
    · rw [if_neg he] at h3 ⊢
      exact h3

section
variable {s : State} {t : Txn} {wl : Bool} {e : Status} {cells : List CellChange}
  {rest : List HostDraw} (hs : AtHandler s t wl)
include hs

/-- FC 0x0F after plain targets, at a coil whose store fails: what was stored stays (R315, R585). -/
theorem exec_writeMultipleCoils_aborts {C : List CoilDesc} {f : MultiWrite} {d : CoilDesc} {i : Nat}
    {w' : World} (hT : s.cfg.coils = some C) (h1 : 1 ≤ f.qty.toNat) (h2 : f.qty.toNat ≤ 1968)
    (hd : f.data.length = (f.qty.toNat + 7) / 8) (hr : f.addr.toNat + f.qty.toNat ≤ 0x10000)
    (ho : openCoils C f.addr.toNat f.qty.toNat = true) (hi : i < f.qty.toNat)
    (ht : plainCoilTargets C f.addr.toNat i = true) (hf : findCoil C (f.addr.toNat + i) = some d)
    (he : e ≠ .ok)
    (hst : coilStore d (packedBit f.data i) { s.world with
      byteCells := storeCoils C f.addr.toNat (requestBits f.data i) s.world.byteCells }
        = .val e w') :
    exec (.writeMultipleCoils (.fields f)) s
      = .next (failed 0x0F t wl e { s with world := w' }) := by
  rw [exec_writeMultipleCoils hs hT h1 h2 hd hr (writeCoilBlock_aborts ho hi ht hf he hst),
    ended_of_ne he]

/-- FC 0x15 after plain targets, at a register whose callback fails: what was stored stays (R415, R585). -/
theorem exec_writeFileRecord_aborts {T : List FileDesc} {pre post : List (SubRequest × List Word)}
    {h : SubRequest} {ws : List Word} {w' : World} (hT : s.cfg.files = some T)
    (hv : fileTableValid T = true) (he : e ≠ .ok)
    (hall : ∀ x ∈ pre ++ (h, ws) :: post, openFileWrite s.cfg.extFileRange T x = true)
    (hpre : ∀ x ∈ pre,
      plainRegTargets (recordsOf T x.1) x.1.recNo.toNat x.1.recLen.toNat = true)
    (hw : applyWrites (recordsOf T h) h.recLen.toNat h.recNo.toNat h.recLen.toNat ws
      { s.world with wordCells := storeFiles T pre s.world.wordCells } = .raise e w') :
    exec (.writeFileRecord (.fields (fileWriteBytes (pre ++ (h, ws) :: post)))) s
      = .next (failed 0x15 t wl e { s with world := w' }) := by
  have hvalid : ∀ x ∈ pre ++ (h, ws) :: post,
      headerValid s.cfg.extFileRange T x.1 = true ∧ x.2.length = x.1.recLen.toNat := fun x hx => by
    obtain ⟨hh, hl, -⟩ := openFileWrite_parts (hall x hx)
    exact ⟨hh, hl⟩
  obtain ⟨l, hmap, hF, hc⟩ := checkFileWrites_open s.world hv hall
  have ha := applyFileWrites_aborts hv hmap hF
    (fun x hx => ⟨(hvalid x (by simp [hx])).2, hpre x hx⟩) hw
  rw [exec_writeFileRecord hs hT (length_fileWriteBytes_pos (by simp) hvalid) hc
    (ha.trans (ofStatus_raise he w').symm) (by rw [if_neg he]), ended_of_ne he]

end

/-- The bytes outside the first `i` targets of a block stay when only those are written. -/
theorem storeRegs_take_out {T : List RegDesc} {ws : List Word} {m : Memory} {a i b : Nat}
    (hi : i ≤ ws.length) (hm : m.wf = true) (hb : outsideRegs T a i b) :
    (storeRegs T a (ws.take i) m).read b = m.read b :=
  storeRegs_out _ _ _ hm b (by rwa [List.length_take, Nat.min_eq_left hi])

/-- Settles O48: the callback of one coil and of one register, the failing target of each multiple write, every
write by the relations of its loops, and the fallback. -/
theorem callbackStatusDecidesTheOutcome : Obligations.CallbackStatusDecidesTheOutcome := by
  rintro s t wl code e cells rest hs rfl
  refine ⟨?_, ?_, ?_, ?_, ?_, ?_, ?_, ?_, ?_⟩
  · -- FC 0x05 on one callback
    intro C d f hT hf hl hm hp hcm hv hscript
    refine exec_writeSingleCoil_follows hs hT hv
      (coilsEnd_open hf (lockSays_absent hl) (coilWrites_callback hm hp (saysStatus_scripted hscript))
        ?_)
    split
    · exact told_absent hcm
    · rfl
  · -- FC 0x06 on one callback
    intro T d f hT hc hkey hl hm hp hcm hscript
    have hcov := covers_of_cover hc
    have hoff : f.addr.toNat - d.key.toNat = 0 := by rw [hkey, Nat.sub_self]
    have hr : refusesWrite d f.addr.toNat 1 = false := by simp [refusesWrite, hm, hkey]
    refine exec_writeSingleRegister_follows hs hT
      (regsEnd_open hc (regAdmits_open hr hcov.1 hcov.2 (lockSays_absent hl))
        (by rw [hoff]; exact regWrites_callback hm hp (saysStatus_scripted hscript)) ?_)
    split
    · exact told_absent hcm
    · rfl
  · -- FC 0x0F
    rintro C d f i m hT h1 h2 hd hr ho hi ht hf rfl
    refine ⟨fun hm he hscript => ?_, fun hm => ?_, fun hg c hc => ?_⟩
    · refine exec_writeMultipleCoils_aborts hs hT h1 h2 hd hr ho hi ht hf he ?_
      simp only [coilStore, hm]
      exact askStatus_says (saysStatus_scripted hscript)
    · refine exec_writeMultipleCoils_aborts hs hT h1 h2 hd hr ho hi ht hf (by decide) ?_
      rcases hm with hm | ⟨r, b, hm, hb⟩
      · simp only [coilStore, hm]
      · simp only [coilStore, hm, if_pos hb]
    · exact storeCoils_out _ _ _ (World.good_parts hg).1 c (by simpa [requestBits] using hc)
  · -- FC 0x10 and 0x17
    rintro T d a n i k off ws m w' hT hv he hscript hl ho hi ht hc hm rfl rfl rfl rfl
    have hw := fun c => writeRegs_aborts (c := c) (w := s.world) hv ho hl hi ht hc hm he
      (askStatus_says (saysStatus_scripted hscript))
    refine ⟨?_, ?_, fun hg b => storeRegs_take_out (by omega) (World.good_parts hg).2⟩
    · rintro f rfl rfl h2 hr hd
      have hdata : f.data.length = 2 * f.qty.toNat := by rw [hd, length_bytesOfWords, hl]
      rw [exec_writeMultipleRegisters hs hT (by omega) h2 hdata hr
        (by rw [hd, wordsOfBytes_bytesOfWords, ofStatus_raise he]; exact hw _), ended_of_ne he]
    · rintro f c rfl rfl h2 hr hd h3 h4 hr' hc' hrl hrm
      have hdata : f.data.length = 2 * f.wq.toNat := by rw [hd, length_bytesOfWords, hl]
      exact exec_readWriteMultipleRegisters_failedWrite hs hT
        ⟨h3, h4, by omega, h2, hdata, hr', hr⟩ hc' (regReadDenied_open (lockSays_absent hrl) hrm) he
        (by rw [hd, wordsOfBytes_bytesOfWords]; exact hw _)
  · -- FC 0x15
    rintro T pre post h ws d i k off m w' hT hv he hscript hall hpre hi ht hc hm rfl rfl rfl rfl
    obtain ⟨-, hl, -⟩ := openFileWrite_parts (hall (h, ws) (by simp))
    refine ⟨exec_writeFileRecord_aborts hs hT hv he hall hpre
      (applyWrites_aborts (recordsOf_valid hv h) hl hi ht hc hm he
        (askStatus_says (saysStatus_scripted hscript))), fun hg b hb hbpre => ?_⟩
    have hwords := (World.good_parts hg).2
    rw [storeRegs_take_out (hl ▸ Nat.le_of_lt hi) (storeFiles_wf pre _ hwords) hb]
    exact storeFiles_out pre _ hwords fun x hx =>
      ⟨(openFileWrite_parts (hall x (by simp [hx]))).2.1, hbpre x hx⟩
  · -- every write of coils
    intro C w' hT
    exact ⟨fun f hv h => exec_writeSingleCoil_follows hs hT hv h, fun f h1 h2 hd hr h =>
      exec_writeMultipleCoils hs hT h1 h2 hd hr (writeCoilBlock_follows rfl h)⟩
  · -- every write of registers
    intro T w' hT
    refine ⟨fun f h => exec_writeSingleRegister_follows hs hT h, fun f h1 h2 hd hr h =>
      exec_writeMultipleRegisters hs hT h1 h2 hd hr
        (writeRegs_follows (length_wordsOfBytes _ _ hd).symm h), ?_, ?_⟩
    · intro f d k v w1 w2 w3 hc ha
      refine ⟨?_, fun hk hr hw hn => exec_maskWriteRegister_follows hs hT hc ha hk hr hw hn⟩
      rintro rfl
      exact exec_maskWriteRegister_refused hs hT (.inr ⟨d, hc, regWriteAllowed_says ha⟩)
    · intro f d w0 h1 h2 h3 h4 hd hr hr' hc hl hm he h
      exact exec_readWriteMultipleRegisters_failedWrite hs hT ⟨h1, h2, h3, h4, hd, hr, hr'⟩ hc
        (regReadDenied_open hl hm) he
        (by rw [writeRegs_follows (length_wordsOfBytes _ _ hd).symm h, ofStatus_raise he])
  · -- every write of files
    intro T subs w' hT hne hvalid h
    exact exec_writeFileRecord_follows hs hT hne hvalid h
  · -- the fallback
    intro i fc body answer hi hp hl hscript
    obtain ⟨h, hex, hh⟩ := exec_takesFallback hi
    have hend := hex.trans (runFunction_fallback hs hh hp hl hscript)
    refine ⟨hend, fun he => ?_⟩
    rw [ended_of_ne he] at hend
    refine ⟨_, hend, failed_outputs _ _ _ _ _, ?_⟩
    rw [failed_ring, eventByte_eq he]

end Sys2Proof.Machine
end

section
/-! PROOFS of the encoding family: the decoder and the encoder undo each other, requests of a wrong length and of
an unimplemented code, packed bits, and FC 0x0F. -/

namespace Sys2Proof.Machine

/-! ## Requests and their bytes (R146, R148, R160) -/

/-- Settles O3: each request is decoded by evaluation. -/
theorem writtenOutRequestsDecode : Obligations.WrittenOutRequestsDecode :=
  ⟨rfl, rfl, rfl, rfl, rfl, rfl, rfl, rfl, rfl, rfl, rfl⟩

/-! ## A byte count is the byte it was read from (R146) -/

theorem countByte_eq {n : Nat} {b : Byte} (h : n = b.toNat) : countByte n = b := by
  rw [countByte, h, BitVec.ofNat_toNat, BitVec.setWidth_eq]

theorem toNat_countByte {n : Nat} (h : n ≤ 252) : (countByte n).toNat = n := by
  rw [countByte, BitVec.toNat_ofNat]
  omega

theorem be16Bytes_be16 (a b : Byte) : be16Bytes (be16 a b) = [a, b] := by
  rw [be16Bytes, hiByte_be16, loByte_be16]

/-! ## Encoding what was parsed gives the bytes back (R146, R148) -/

theorem encodeWith_parseAddrQty (body : List Byte) :
    (parseAddrQty body).encodeWith encodeAddrQty = body := by
  unfold parseAddrQty
  split
  · simp [Form.encodeWith, encodeAddrQty, be16Bytes_be16]
  · rfl

theorem encodeWith_parseAddrValue (body : List Byte) :
    (parseAddrValue body).encodeWith encodeAddrValue = body := by
  unfold parseAddrValue
  split
  · simp [Form.encodeWith, encodeAddrValue, be16Bytes_be16]
  · rfl

theorem encodeWith_parseUnit (body : List Byte) :
    ((parseUnit body).encodeWith fun _ => []) = body := by
  unfold parseUnit
  split <;> rfl

theorem encodeWith_parseMaskWrite (body : List Byte) :
    (parseMaskWrite body).encodeWith encodeMaskWrite = body := by
  unfold parseMaskWrite
  split
  · simp [Form.encodeWith, encodeMaskWrite, be16Bytes_be16]
  · rfl

theorem encodeWith_parseData (body : List Byte) :
    (parseData body).encodeWith be16Bytes = body := by
  unfold parseData
  split
  · exact be16Bytes_be16 _ _
  · rfl

theorem encodeWith_parseDelim (body : List Byte) :
    (parseDelim body).encodeWith encodeDelim = body := by
  unfold parseDelim
  split <;> rfl

theorem encodeWith_parseMultiWrite (body : List Byte) :
    (parseMultiWrite body).encodeWith encodeMultiWrite = body := by
  unfold parseMultiWrite
  split
  · split
    · rename_i hcount
      simp [Form.encodeWith, encodeMultiWrite, be16Bytes_be16, countByte_eq hcount]
    · rfl
  · rfl

theorem encodeWith_parseFileBytes (body : List Byte) :
    (parseFileBytes body).encodeWith encodeFileBytes = body := by
  unfold parseFileBytes
  split
  · split
    · rename_i hcount
      simp [Form.encodeWith, encodeFileBytes, countByte_eq hcount]
    · rfl
  · rfl

theorem encodeWith_parseReadWrite (body : List Byte) :
    (parseReadWrite body).encodeWith encodeReadWrite = body := by
  unfold parseReadWrite
  split
  · split
    · rename_i hcount
      simp [Form.encodeWith, encodeReadWrite, be16Bytes_be16, countByte_eq hcount]
    · rfl
  · rfl

/-- A request whose first byte and whose bytes after it are the given ones. -/
theorem pdu_eq {fc c : Byte} {b body : List Byte} (hfc : fc.toNat = c.toNat) (hb : b = body) :
    Encoded.pdu (c :: b) = .pdu (fc :: body) := by
  rw [hb, BitVec.eq_of_toNat_eq hfc]

theorem encodeDiag_eq {sub c : Word} {b data : List Byte} (hsub : sub.toNat = c.toNat)
    (hb : b = data) : Encoded.pdu (encodeDiag c b) = .pdu (encodeDiag sub data) := by
  rw [hb, BitVec.eq_of_toNat_eq hsub]

theorem encode_decodeSub (sub : Word) (data : List Byte) :
    encode (decodeSub sub data) = .pdu (encodeDiag sub data) := by
  have hdata := encodeWith_parseData data
  unfold decodeSub
  split
  case h_1 h => exact encodeDiag_eq h rfl
  case h_4 h => exact encodeDiag_eq h (encodeWith_parseDelim data)
  case h_16 => rfl
  all_goals exact encodeDiag_eq ‹sub.toNat = _› hdata

theorem encode_decodeDiag (body : List Byte) : encode (decodeDiag body) = .pdu (0x08 :: body) := by
  unfold decodeDiag
  split
  · rw [encode_decodeSub, encodeDiag, be16Bytes_be16]
    rfl
  · rfl

theorem encode_decodeFc (fc : Byte) (body : List Byte) :
    encode (decodeFc fc body) = .pdu (fc :: body) := by
  unfold decodeFc
  split
  case h_1 h => exact pdu_eq h (encodeWith_parseAddrQty body)
  case h_2 h => exact pdu_eq h (encodeWith_parseAddrQty body)
  case h_3 h => exact pdu_eq h (encodeWith_parseAddrQty body)
  case h_4 h => exact pdu_eq h (encodeWith_parseAddrQty body)
  case h_5 h => exact pdu_eq h (encodeWith_parseAddrValue body)
  case h_6 h => exact pdu_eq h (encodeWith_parseAddrValue body)
  case h_7 h => exact pdu_eq h (encodeWith_parseUnit body)
  case h_8 h => exact (encode_decodeDiag body).trans (pdu_eq h rfl)
  case h_9 h => exact pdu_eq h (encodeWith_parseUnit body)
  case h_10 h => exact pdu_eq h (encodeWith_parseUnit body)
  case h_11 h => exact pdu_eq h (encodeWith_parseMultiWrite body)
  case h_12 h => exact pdu_eq h (encodeWith_parseMultiWrite body)
  case h_13 h => exact pdu_eq h rfl
  case h_14 h => exact pdu_eq h (encodeWith_parseFileBytes body)
  case h_15 h => exact pdu_eq h (encodeWith_parseFileBytes body)
  case h_16 h => exact pdu_eq h (encodeWith_parseMaskWrite body)
  case h_17 h => exact pdu_eq h (encodeWith_parseReadWrite body)
  case h_18 => rfl

/-- The instruction read from a request PDU stands for exactly these bytes. -/
theorem encode_decodePdu {p : List Byte} {i : Instr} (h : decodePdu p = .ok i) :
    encode i = .pdu p := by
  unfold decodePdu at h
  split at h
  · cases h
  · split at h
    · cases h
      exact encode_decodeFc _ _
    · cases h

/-- Settles O2: `decodePdu_total`, and what it reads is well formed and encodes to the bytes read. -/
theorem everyPduDecodesToItsEncoding : Obligations.EveryPduDecodesToItsEncoding := by
  refine fun p => ⟨fun ⟨h1, h2⟩ => ?_, fun h => ?_, fun h => ?_⟩
  · obtain ⟨i, hd⟩ := decodePdu_total h1 h2
    exact ⟨i, hd, decodePdu_wf hd, encode_decodePdu hd⟩
  · rw [List.length_eq_zero_iff.mp h]
    rfl
  · match p, h with
    | fc :: body, h =>
      simp only [List.length_cons] at h
      exact if_neg (by simp only [Config.pduMax]; omega)

/-! ## Parsing what was encoded gives the operands back (R146, R148) -/

section
variable {α : Type} {enc : α → List Byte} {o : Form α} {k lead at_ : Nat}

/-- The fields of a fixed length encode to that length, so a form that encodes to another has none. -/
theorem Form.badLength_of_length_ne (hlen : ∀ a, (enc a).length = k)
    (h : (o.encodeWith enc).length ≠ k) : ∃ body, o = .badLength body := by
  cases o with
  | fields a => exact absurd (hlen a) h
  | badLength body => exact ⟨body, rfl⟩

/-- A byte count in front of as many bytes is no bad count. -/
theorem wfBadCount_counted (pre data : List Byte) (hpre : pre.length = at_) :
    wfBadCount at_ (pre ++ countByte data.length :: data) = false := by
  subst hpre
  by_cases hfit : data.length ≤ 252
  · simp [wfBadCount, toNat_countByte hfit]
    omega
  · have hlong : ¬ pre.length + (data.length + 1) ≤ 252 := by omega
    simp [wfBadCount, fitsBody, hlong]

theorem Form.badLength_of_wfBadCount (hcount : ∀ a, wfBadCount at_ (enc a) = false)
    (h : wfBadCount at_ (o.encodeWith enc) = true) : ∃ body, o = .badLength body := by
  cases o with
  | fields a => exact absurd (hcount a) (by simpa [Form.encodeWith] using h)
  | badLength body => exact ⟨body, rfl⟩

variable {parse : List Byte → Form α} (hround : ∀ body, (parse body).encodeWith enc = body)
include hround

/-- A parser that loses nothing leaves bytes that no fields encode to undecoded. -/
theorem parse_eq_badLength {body : List Byte} (hne : ∀ a, enc a ≠ body) :
    parse body = .badLength body := by
  have h := hround body
  cases hp : parse body with
  | fields a =>
    rw [hp] at h
    exact absurd h (hne a)
  | badLength b =>
    rw [hp] at h
    exact congrArg Form.badLength h

/-- A parser of a fixed length that reads back its fields reads back every well-formed form. -/
theorem parse_encodeWith_fixed (hfields : ∀ a, parse (enc a) = .fields a)
    (hlen : ∀ a, (enc a).length = k) (h : o.wfFixed k lead = true) :
    parse (o.encodeWith enc) = o := by
  cases o with
  | fields a => exact hfields a
  | badLength body =>
    simp only [Form.wfFixed, Bool.and_eq_true, bne_iff_ne] at h
    obtain ⟨-, hne⟩ := h
    exact parse_eq_badLength hround fun a ha => hne ((congrArg List.length ha).symm.trans (hlen a))

/-- A parser with a byte count leaves the bytes of a bad count undecoded. -/
theorem parse_eq_badLength_of_wfBadCount {body : List Byte}
    (hcount : ∀ a, wfBadCount at_ (enc a) = false) (h : wfBadCount at_ body = true) :
    parse body = .badLength body :=
  parse_eq_badLength hround fun a ha => by
    rw [← ha, hcount a] at h
    cases h

end

theorem length_encodeAddrQty (a : AddrQty) : (encodeAddrQty a).length = 4 := rfl

theorem length_encodeAddrValue (a : AddrValue) : (encodeAddrValue a).length = 4 := rfl

theorem length_encodeMaskWrite (a : MaskWrite) : (encodeMaskWrite a).length = 6 := rfl

theorem length_encodeDelim (f : DelimField) : (encodeDelim f).length = 2 := rfl

theorem wfBadCount_encodeMultiWrite (m : MultiWrite) : wfBadCount 4 (encodeMultiWrite m) = false :=
  wfBadCount_counted _ m.data rfl

theorem wfBadCount_encodeFileBytes (d : List Byte) : wfBadCount 0 (encodeFileBytes d) = false :=
  wfBadCount_counted [] d rfl

theorem wfBadCount_encodeReadWrite (m : ReadWrite) : wfBadCount 8 (encodeReadWrite m) = false :=
  wfBadCount_counted _ m.data rfl

theorem parseAddrQty_encodeWith {o : Form AddrQty} (h : o.wfFixed 4 0 = true) :
    parseAddrQty (o.encodeWith encodeAddrQty) = o :=
  parse_encodeWith_fixed encodeWith_parseAddrQty
    (fun a => by simp [encodeAddrQty, be16Bytes, parseAddrQty]) length_encodeAddrQty h

theorem parseAddrValue_encodeWith {o : Form AddrValue} (h : o.wfFixed 4 0 = true) :
    parseAddrValue (o.encodeWith encodeAddrValue) = o :=
  parse_encodeWith_fixed encodeWith_parseAddrValue
    (fun a => by simp [encodeAddrValue, be16Bytes, parseAddrValue]) length_encodeAddrValue h

theorem parseUnit_encodeWith {o : Form Unit} (h : o.wfFixed 0 0 = true) :
    parseUnit (o.encodeWith fun _ => []) = o :=
  parse_encodeWith_fixed encodeWith_parseUnit (fun _ => rfl) (fun _ => rfl) h

theorem parseMaskWrite_encodeWith {o : Form MaskWrite} (h : o.wfFixed 6 0 = true) :
    parseMaskWrite (o.encodeWith encodeMaskWrite) = o :=
  parse_encodeWith_fixed encodeWith_parseMaskWrite
    (fun a => by simp [encodeMaskWrite, be16Bytes, parseMaskWrite]) length_encodeMaskWrite h

theorem parseData_encodeWith {o : Form Word} (h : o.wfFixed 2 2 = true) :
    parseData (o.encodeWith be16Bytes) = o :=
  parse_encodeWith_fixed encodeWith_parseData (fun v => by simp [be16Bytes, parseData])
    length_be16Bytes h

theorem parseDelim_encodeWith {o : Form DelimField} (h : o.wfFixed 2 2 = true) :
    parseDelim (o.encodeWith encodeDelim) = o :=
  parse_encodeWith_fixed encodeWith_parseDelim (fun _ => rfl) length_encodeDelim h

theorem parseMultiWrite_encodeWith {o : Form MultiWrite} (h : wfMultiWrite o = true) :
    parseMultiWrite (o.encodeWith encodeMultiWrite) = o := by
  cases o with
  | fields m =>
    simp only [wfMultiWrite, fitsBody, decide_eq_true_eq] at h
    simp [Form.encodeWith, encodeMultiWrite, be16Bytes, parseMultiWrite,
      toNat_countByte (n := m.data.length) (by omega)]
  | badLength body =>
    exact parse_eq_badLength_of_wfBadCount encodeWith_parseMultiWrite wfBadCount_encodeMultiWrite h

theorem parseFileBytes_encodeWith {o : Form (List Byte)} (h : wfFileBytes o = true) :
    parseFileBytes (o.encodeWith encodeFileBytes) = o := by
  cases o with
  | fields d =>
    simp only [wfFileBytes, fitsBody, decide_eq_true_eq] at h
    simp [Form.encodeWith, encodeFileBytes, parseFileBytes,
      toNat_countByte (n := d.length) (by omega)]
  | badLength body =>
    exact parse_eq_badLength_of_wfBadCount encodeWith_parseFileBytes wfBadCount_encodeFileBytes h

theorem parseReadWrite_encodeWith {o : Form ReadWrite} (h : wfReadWrite o = true) :
    parseReadWrite (o.encodeWith encodeReadWrite) = o := by
  cases o with
  | fields m =>
    simp only [wfReadWrite, fitsBody, decide_eq_true_eq] at h
    simp [Form.encodeWith, encodeReadWrite, be16Bytes, parseReadWrite,
      toNat_countByte (n := m.data.length) (by omega)]
  | badLength body =>
    exact parse_eq_badLength_of_wfBadCount encodeWith_parseReadWrite wfBadCount_encodeReadWrite h

/-! ## Decoding what was encoded gives the instruction back (R140, R146, R148, R160) -/

/-- The request of every well-formed instruction is a PDU's length at most (R140). -/
theorem length_encodePdu_le : ∀ i : Instr, Laws.EncodedLength.Statement i
  | .rxRtu f => Laws.EncodedLength.rxRtu f
  | .rxAscii a => Laws.EncodedLength.rxAscii a
  | .rxTcp f => Laws.EncodedLength.rxTcp f
  | .rxPdu p => Laws.EncodedLength.rxPdu p
  | .setStatus v => Laws.EncodedLength.setStatus v
  | .readCoils o => Laws.EncodedLength.readCoils o
  | .readDiscreteInputs o => Laws.EncodedLength.readDiscreteInputs o
  | .readHoldingRegisters o => Laws.EncodedLength.readHoldingRegisters o
  | .readInputRegisters o => Laws.EncodedLength.readInputRegisters o
  | .writeSingleCoil o => Laws.EncodedLength.writeSingleCoil o
  | .writeSingleRegister o => Laws.EncodedLength.writeSingleRegister o
  | .readExceptionStatus o => Laws.EncodedLength.readExceptionStatus o
  | .getCommEventCounter o => Laws.EncodedLength.getCommEventCounter o
  | .getCommEventLog o => Laws.EncodedLength.getCommEventLog o
  | .writeMultipleCoils o => Laws.EncodedLength.writeMultipleCoils o
  | .writeMultipleRegisters o => Laws.EncodedLength.writeMultipleRegisters o
  | .readFileRecord o => Laws.EncodedLength.readFileRecord o
  | .writeFileRecord o => Laws.EncodedLength.writeFileRecord o
  | .maskWriteRegister o => Laws.EncodedLength.maskWriteRegister o
  | .readWriteMultipleRegisters o => Laws.EncodedLength.readWriteMultipleRegisters o
  | .diagReturnQueryData data => Laws.EncodedLength.diagReturnQueryData data
  | .diagRestartCommunications o => Laws.EncodedLength.diagRestartCommunications o
  | .diagReturnDiagnosticRegister o => Laws.EncodedLength.diagReturnDiagnosticRegister o
  | .diagChangeAsciiDelimiter o => Laws.EncodedLength.diagChangeAsciiDelimiter o
  | .diagForceListenOnly o => Laws.EncodedLength.diagForceListenOnly o
  | .diagClearCounters o => Laws.EncodedLength.diagClearCounters o
  | .diagReturnBusMessageCount o => Laws.EncodedLength.diagReturnBusMessageCount o
  | .diagReturnBusCommErrorCount o => Laws.EncodedLength.diagReturnBusCommErrorCount o
  | .diagReturnExceptionErrorCount o => Laws.EncodedLength.diagReturnExceptionErrorCount o
  | .diagReturnServerMessageCount o => Laws.EncodedLength.diagReturnServerMessageCount o
  | .diagReturnServerNoResponseCount o => Laws.EncodedLength.diagReturnServerNoResponseCount o
  | .diagReturnNakCount o => Laws.EncodedLength.diagReturnNakCount o
  | .diagReturnBusyCount o => Laws.EncodedLength.diagReturnBusyCount o
  | .diagReturnBusCharOverrunCount o => Laws.EncodedLength.diagReturnBusCharOverrunCount o
  | .diagClearOverrun o => Laws.EncodedLength.diagClearOverrun o
  | .diagUnimplementedSub o => Laws.EncodedLength.diagUnimplementedSub o
  | .reportSlaveId body => Laws.EncodedLength.reportSlaveId body
  | .fallback fc body => Laws.EncodedLength.fallback fc body

/-- A function-code instruction decodes by the first byte of its request. -/
theorem decode_encode_of_decodeFc {i : Instr} {fc : Byte} {body : List Byte} (hw : i.wf = true)
    (he : encode i = .pdu (fc :: body)) (hd : decodeFc fc body = i) : decode (encode i) = .ok i := by
  have hlen := length_encodePdu_le i hw
  simp only [encodePdu, he, List.length_cons] at hlen
  rw [he, decode, decodePdu, if_pos (by omega), hd]

/-- FC 0x08 decodes by its sub-function. -/
theorem decodeFc_diag (sub : Word) (rest : List Byte) :
    decodeFc 0x08 (be16Bytes sub ++ rest) = decodeSub sub rest := by
  show decodeSub (be16 (hiByte sub) (loByte sub)) rest = _
  rw [be16_hiByte_loByte]

theorem decode_encode_of_decodeSub {i : Instr} {sub : Word} {rest : List Byte} (hw : i.wf = true)
    (he : encode i = .pdu (encodeDiag sub rest)) (hd : decodeSub sub rest = i) :
    decode (encode i) = .ok i :=
  decode_encode_of_decodeFc hw he ((decodeFc_diag sub rest).trans hd)

/-- Without a sub-function field FC 0x08 is left undecoded (R441). -/
theorem decodeDiag_short {body : List Byte} (h : body.length < 2) :
    decodeDiag body = .diagUnimplementedSub (.truncated body) := by
  match body, h with
  | [], _ => rfl
  | [_], _ => rfl

/-- A sub-function that is not implemented has no row of its own in the decoder (R452). -/
theorem decodeSub_of_not_implemented {sub : Word} (h : implementedSub sub = false) (data : List Byte) :
    decodeSub sub data = .diagUnimplementedSub (.unknown sub data) := by
  have hn : implementedSub (BitVec.ofNat 16 sub.toNat) = false := by
    rwa [BitVec.ofNat_toNat, BitVec.setWidth_eq]
  unfold decodeSub
  split
  case h_16 => rfl
  all_goals
    rename_i hsub
    rw [hsub] at hn
    exact absurd hn (by decide)

/-- A function code that is not listed has no row of its own in the decoder (R161). -/
theorem decodeFc_of_not_listed {fc : Byte} (h : listedFc fc = false) (body : List Byte) :
    decodeFc fc body = .fallback fc body := by
  have hn : listedFc (BitVec.ofNat 8 fc.toNat) = false := by
    rwa [BitVec.ofNat_toNat, BitVec.setWidth_eq]
  unfold decodeFc
  split
  case h_18 => rfl
  all_goals
    rename_i hfc
    rw [hfc] at hn
    exact absurd hn (by decide)

theorem implementedSub_of_wf {sub : Word} {data : List Byte}
    (h : (Instr.diagUnimplementedSub (.unknown sub data)).wf = true) : implementedSub sub = false := by
  simp only [Instr.wf, SubForm.wf, Bool.and_eq_true, Bool.not_eq_true'] at h
  exact h.1

theorem listedFc_of_wf {fc : Byte} {body : List Byte} (h : (Instr.fallback fc body).wf = true) :
    listedFc fc = false := by
  simp only [Instr.wf, Bool.and_eq_true, Bool.not_eq_true'] at h
  exact h.1

/-- Settles O1: a command is read as it stands; a function code is selected by its first byte, a sub-function by
the two behind it, and its operands are parsed back. -/
theorem decodeOfEncodeIsTheInstruction : Obligations.DecodeOfEncodeIsTheInstruction := by
  intro i hw
  cases i with
  | rxRtu f => rfl
  | rxAscii a => rfl
  | rxTcp f => rfl
  | rxPdu p => rfl
  | setStatus v => rfl
  | readCoils o => exact decode_encode_of_decodeFc hw rfl (congrArg _ (parseAddrQty_encodeWith hw))
  | readDiscreteInputs o => exact decode_encode_of_decodeFc hw rfl (congrArg _ (parseAddrQty_encodeWith hw))
  | readHoldingRegisters o => exact decode_encode_of_decodeFc hw rfl (congrArg _ (parseAddrQty_encodeWith hw))
  | readInputRegisters o => exact decode_encode_of_decodeFc hw rfl (congrArg _ (parseAddrQty_encodeWith hw))
  | writeSingleCoil o => exact decode_encode_of_decodeFc hw rfl (congrArg _ (parseAddrValue_encodeWith hw))
  | writeSingleRegister o =>
    exact decode_encode_of_decodeFc hw rfl (congrArg _ (parseAddrValue_encodeWith hw))
  | readExceptionStatus o => exact decode_encode_of_decodeFc hw rfl (congrArg _ (parseUnit_encodeWith hw))
  | getCommEventCounter o => exact decode_encode_of_decodeFc hw rfl (congrArg _ (parseUnit_encodeWith hw))
  | getCommEventLog o => exact decode_encode_of_decodeFc hw rfl (congrArg _ (parseUnit_encodeWith hw))
  | writeMultipleCoils o =>
    exact decode_encode_of_decodeFc hw rfl (congrArg _ (parseMultiWrite_encodeWith hw))
  | writeMultipleRegisters o =>
    exact decode_encode_of_decodeFc hw rfl (congrArg _ (parseMultiWrite_encodeWith hw))
  | readFileRecord o => exact decode_encode_of_decodeFc hw rfl (congrArg _ (parseFileBytes_encodeWith hw))
  | writeFileRecord o => exact decode_encode_of_decodeFc hw rfl (congrArg _ (parseFileBytes_encodeWith hw))
  | maskWriteRegister o => exact decode_encode_of_decodeFc hw rfl (congrArg _ (parseMaskWrite_encodeWith hw))
  | readWriteMultipleRegisters o =>
    exact decode_encode_of_decodeFc hw rfl (congrArg _ (parseReadWrite_encodeWith hw))
  | diagReturnQueryData data => exact decode_encode_of_decodeSub hw rfl rfl
  | diagRestartCommunications o =>
    exact decode_encode_of_decodeSub hw rfl (congrArg _ (parseData_encodeWith hw))
  | diagReturnDiagnosticRegister o =>
    exact decode_encode_of_decodeSub hw rfl (congrArg _ (parseData_encodeWith hw))
  | diagChangeAsciiDelimiter o =>
    exact decode_encode_of_decodeSub hw rfl (congrArg _ (parseDelim_encodeWith hw))
  | diagForceListenOnly o => exact decode_encode_of_decodeSub hw rfl (congrArg _ (parseData_encodeWith hw))
  | diagClearCounters o => exact decode_encode_of_decodeSub hw rfl (congrArg _ (parseData_encodeWith hw))
  | diagReturnBusMessageCount o =>
    exact decode_encode_of_decodeSub hw rfl (congrArg _ (parseData_encodeWith hw))
  | diagReturnBusCommErrorCount o =>
    exact decode_encode_of_decodeSub hw rfl (congrArg _ (parseData_encodeWith hw))
  | diagReturnExceptionErrorCount o =>
    exact decode_encode_of_decodeSub hw rfl (congrArg _ (parseData_encodeWith hw))
  | diagReturnServerMessageCount o =>
    exact decode_encode_of_decodeSub hw rfl (congrArg _ (parseData_encodeWith hw))
  | diagReturnServerNoResponseCount o =>
    exact decode_encode_of_decodeSub hw rfl (congrArg _ (parseData_encodeWith hw))
  | diagReturnNakCount o => exact decode_encode_of_decodeSub hw rfl (congrArg _ (parseData_encodeWith hw))
  | diagReturnBusyCount o => exact decode_encode_of_decodeSub hw rfl (congrArg _ (parseData_encodeWith hw))
  | diagReturnBusCharOverrunCount o =>
    exact decode_encode_of_decodeSub hw rfl (congrArg _ (parseData_encodeWith hw))
  | diagClearOverrun o => exact decode_encode_of_decodeSub hw rfl (congrArg _ (parseData_encodeWith hw))
  | diagUnimplementedSub o =>
    cases o with
    | truncated body =>
      exact decode_encode_of_decodeFc hw rfl (decodeDiag_short (of_decide_eq_true hw))
    | unknown sub data =>
      exact decode_encode_of_decodeSub hw rfl (decodeSub_of_not_implemented (implementedSub_of_wf hw) data)
  | reportSlaveId body => exact decode_encode_of_decodeFc hw rfl rfl
  | fallback fc body =>
    exact decode_encode_of_decodeFc hw rfl (decodeFc_of_not_listed (listedFc_of_wf hw) body)

/-! ## Requests of a wrong length (R146, R274, R276, R441)

What `lengthRight`, written from R146 and R441, says of each class of requests. -/

section
variable {fc : Byte} {body : List Byte} (h : lengthRight (fc :: body) = false)
include h

/-- The function codes whose requests have one length. -/
theorem length_ne_of_lengthRight {k : Nat}
    (hfc : (fc = 0x01 ∨ fc = 0x02 ∨ fc = 0x03 ∨ fc = 0x04 ∨ fc = 0x05 ∨ fc = 0x06) ∧ k = 4
      ∨ (fc = 0x07 ∨ fc = 0x0B ∨ fc = 0x0C) ∧ k = 0 ∨ fc = 0x16 ∧ k = 6) : body.length ≠ k := by
  rcases hfc with ⟨rfl | rfl | rfl | rfl | rfl | rfl, rfl⟩ | ⟨rfl | rfl | rfl, rfl⟩ | ⟨rfl, rfl⟩ <;>
    simpa [lengthRight] using h

/-- The function codes whose requests have a byte count, `at_` bytes after the function code. -/
theorem wfBadCount_of_lengthRight {at_ : Nat}
    (hfc : (fc = 0x0F ∨ fc = 0x10) ∧ at_ = 4 ∨ (fc = 0x14 ∨ fc = 0x15) ∧ at_ = 0
      ∨ fc = 0x17 ∧ at_ = 8) (hl : body.length ≤ 252) : wfBadCount at_ body = true := by
  have hcount : at_ + 1 ≤ body.length → ¬ body.length = at_ + 1 + (body.getD at_ 0).toNat := by
    rcases hfc with ⟨rfl | rfl, rfl⟩ | ⟨rfl | rfl, rfl⟩ | ⟨rfl, rfl⟩ <;>
      simp [lengthRight] at h ⊢ <;> omega
  simp only [wfBadCount, fitsBody, hl, decide_true, Bool.true_and, Bool.or_eq_true, decide_eq_true_eq,
    bne_iff_ne]
  omega

/-- A function code that has no row of its own has no wrong length (R161). -/
theorem listedFc_of_lengthRight : listedFc fc = true := by
  by_contra hn
  have hne : ∀ c, listedFc c = true → fc ≠ c := fun c hc heq => hn (heq ▸ hc)
  simp [lengthRight, hne 1#8 rfl, hne 2#8 rfl, hne 3#8 rfl, hne 4#8 rfl, hne 5#8 rfl,
    hne 6#8 rfl, hne 7#8 rfl, hne 8#8 rfl, hne 11#8 rfl, hne 12#8 rfl, hne 15#8 rfl,
    hne 16#8 rfl, hne 20#8 rfl, hne 21#8 rfl, hne 22#8 rfl, hne 23#8 rfl] at h

end

section
variable {α : Type} {fc : Byte} {enc : α → List Byte} {o : Form α}
  (h : lengthRight (fc :: o.encodeWith enc) = false)
include h

/-- What is left of a request of a wrong length, where the function code has one length. -/
theorem Form.badLength_of_fixed {k : Nat} (hlen : ∀ a, (enc a).length = k)
    (hfc : (fc = 0x01 ∨ fc = 0x02 ∨ fc = 0x03 ∨ fc = 0x04 ∨ fc = 0x05 ∨ fc = 0x06) ∧ k = 4
      ∨ (fc = 0x07 ∨ fc = 0x0B ∨ fc = 0x0C) ∧ k = 0 ∨ fc = 0x16 ∧ k = 6) :
    ∃ body, o = .badLength body :=
  Form.badLength_of_length_ne hlen (length_ne_of_lengthRight h hfc)

/-- What is left of a request of a wrong length, where the function code has a byte count. -/
theorem Form.badLength_of_counted {at_ : Nat} (hcount : ∀ a, wfBadCount at_ (enc a) = false)
    (hl : (o.encodeWith enc).length ≤ 252)
    (hfc : (fc = 0x0F ∨ fc = 0x10) ∧ at_ = 4 ∨ (fc = 0x14 ∨ fc = 0x15) ∧ at_ = 0
      ∨ fc = 0x17 ∧ at_ = 8) : ∃ body, o = .badLength body :=
  Form.badLength_of_wfBadCount hcount (wfBadCount_of_lengthRight h hfc hl)

end

/-- Only an implemented sub-function other than the echo has a length of its own (R441, R442, R452). -/
theorem of_lengthRight_encodeDiag {sub : Word} {rest : List Byte}
    (h : lengthRight (encodeDiag sub rest) = false) :
    rest.length ≠ 2 ∧ implementedSub sub = true ∧ sub ≠ 0x0000 := by
  simpa [lengthRight, encodeDiag, be16Bytes, and_assoc] using h

section
variable {s : State} {t : Txn} {wl : Bool} (hs : AtHandler s t wl)
include hs

theorem runFunction_table_badLength {α β : Type} {fc : Byte} {table : Option (List β)}
    {req : List Byte} {g : Form α → List β → World → Res World (List Byte)} {o : Form α}
    (hT : table.isNone = false)
    (hg : ∀ body T w, g (.badLength body) T w = .raise .illegalDataVal w)
    (ho : ∃ body, o = .badLength body) :
    runFunction fc (withTable table req (g o)) s = .next (failed fc t wl .illegalDataVal s) := by
  obtain ⟨body, rfl⟩ := ho
  cases hT' : table with
  | none =>
    rw [hT'] at hT
    cases hT
  | some T => exact runFunction_table_raise hs rfl (hg body T s.world) (by decide)

/-- FC 0x08 with an implemented sub-function that decodes its data. -/
theorem exec_diag_wrongLength {α : Type} {sub : Word} {enc : α → List Byte} {o : Form α}
    {h : α → Handler} {i : Instr} (hi : exec i s = runFunction 0x08 (onFields o h) s)
    (hlen : ∀ a, (enc a).length = 2) (hl : lengthRight (encodeDiag sub (o.encodeWith enc)) = false) :
    exec i s = .next (failed 0x08 t wl .illegalDataVal s) := by
  obtain ⟨hne, -, -⟩ := of_lengthRight_encodeDiag hl
  obtain ⟨body, rfl⟩ := Form.badLength_of_length_ne hlen hne
  exact hi.trans (runFunction_at_raise hs rfl rfl (by decide))

/-- A request of a wrong length reaches its handler undecoded, and the handler raises ILLEGAL_DATA_VAL. -/
theorem exec_wrongLength {i : Instr} (hw : i.wf = true) (hu : unimplemented s.cfg i = false)
    (hl : lengthRight (encodePdu i) = false) :
    exec i s = .next (failed ((encodePdu i).headD 0) t wl .illegalDataVal s) := by
  cases i with
  | rxRtu f => cases hl
  | rxAscii a => cases hl
  | rxTcp f => cases hl
  | rxPdu p => cases hl
  | setStatus v => cases hl
  | readCoils o =>
    exact runFunction_table_badLength hs hu (fun _ _ _ => rfl)
      (Form.badLength_of_fixed hl length_encodeAddrQty (by decide))
  | readDiscreteInputs o =>
    exact runFunction_table_badLength hs hu (fun _ _ _ => rfl)
      (Form.badLength_of_fixed hl length_encodeAddrQty (by decide))
  | readHoldingRegisters o =>
    exact runFunction_table_badLength hs hu (fun _ _ _ => rfl)
      (Form.badLength_of_fixed hl length_encodeAddrQty (by decide))
  | readInputRegisters o =>
    exact runFunction_table_badLength hs hu (fun _ _ _ => rfl)
      (Form.badLength_of_fixed hl length_encodeAddrQty (by decide))
  | writeSingleCoil o =>
    exact runFunction_table_badLength hs hu (fun _ _ _ => rfl)
      (Form.badLength_of_fixed hl length_encodeAddrValue (by decide))
  | writeSingleRegister o =>
    exact runFunction_table_badLength hs hu (fun _ _ _ => rfl)
      (Form.badLength_of_fixed hl length_encodeAddrValue (by decide))
  | readExceptionStatus o =>
    obtain ⟨body, rfl⟩ := Form.badLength_of_fixed (k := 0) hl (fun _ => rfl) (by decide)
    refine runFunction_at_raise hs ?_ rfl (by decide)
    have hp : s.cfg.callbacks.readExceptionStatus = true := by
      simpa [unimplemented, fcOf, encode] using hu
    simp only [exceptionStatusHandler, hp, if_true, onFields]
  | getCommEventCounter o =>
    obtain ⟨body, rfl⟩ := Form.badLength_of_fixed (k := 0) hl (fun _ => rfl) (by decide)
    exact runFunction_at_raise hs rfl rfl (by decide)
  | getCommEventLog o =>
    obtain ⟨body, rfl⟩ := Form.badLength_of_fixed (k := 0) hl (fun _ => rfl) (by decide)
    exact runFunction_at_raise hs rfl rfl (by decide)
  | writeMultipleCoils o =>
    exact runFunction_table_badLength hs hu (fun _ _ _ => rfl)
      (Form.badLength_of_counted hl wfBadCount_encodeMultiWrite (Laws.length_encodeMultiWrite o hw) (by decide))
  | writeMultipleRegisters o =>
    exact runFunction_table_badLength hs hu (fun _ _ _ => rfl)
      (Form.badLength_of_counted hl wfBadCount_encodeMultiWrite (Laws.length_encodeMultiWrite o hw) (by decide))
  | readFileRecord o =>
    exact runFunction_table_badLength hs hu (fun _ _ _ => rfl)
      (Form.badLength_of_counted hl wfBadCount_encodeFileBytes (Laws.length_encodeFileBytes o hw) (by decide))
  | writeFileRecord o =>
    exact runFunction_table_badLength hs hu (fun _ _ _ => rfl)
      (Form.badLength_of_counted hl wfBadCount_encodeFileBytes (Laws.length_encodeFileBytes o hw) (by decide))
  | maskWriteRegister o =>
    exact runFunction_table_badLength hs hu (fun _ _ _ => rfl)
      (Form.badLength_of_fixed hl length_encodeMaskWrite (by decide))
  | readWriteMultipleRegisters o =>
    exact runFunction_table_badLength hs hu (fun _ _ _ => rfl)
      (Form.badLength_of_counted hl wfBadCount_encodeReadWrite (Laws.length_encodeReadWrite o hw) (by decide))
  | diagReturnQueryData data =>
    obtain ⟨-, -, hsub⟩ := of_lengthRight_encodeDiag hl
    exact absurd rfl hsub
  | diagRestartCommunications o => exact exec_diag_wrongLength hs rfl length_be16Bytes hl
  | diagReturnDiagnosticRegister o => exact exec_diag_wrongLength hs rfl length_be16Bytes hl
  | diagChangeAsciiDelimiter o => exact exec_diag_wrongLength hs rfl length_encodeDelim hl
  | diagForceListenOnly o => exact exec_diag_wrongLength hs rfl length_be16Bytes hl
  | diagClearCounters o => exact exec_diag_wrongLength hs rfl length_be16Bytes hl
  | diagReturnBusMessageCount o => exact exec_diag_wrongLength hs rfl length_be16Bytes hl
  | diagReturnBusCommErrorCount o => exact exec_diag_wrongLength hs rfl length_be16Bytes hl
  | diagReturnExceptionErrorCount o => exact exec_diag_wrongLength hs rfl length_be16Bytes hl
  | diagReturnServerMessageCount o => exact exec_diag_wrongLength hs rfl length_be16Bytes hl
  | diagReturnServerNoResponseCount o => exact exec_diag_wrongLength hs rfl length_be16Bytes hl
  | diagReturnNakCount o => exact exec_diag_wrongLength hs rfl length_be16Bytes hl
  | diagReturnBusyCount o => exact exec_diag_wrongLength hs rfl length_be16Bytes hl
  | diagReturnBusCharOverrunCount o => exact exec_diag_wrongLength hs rfl length_be16Bytes hl
  | diagClearOverrun o => exact exec_diag_wrongLength hs rfl length_be16Bytes hl
  | diagUnimplementedSub o =>
    cases o with
    | truncated body => exact runFunction_at_raise hs rfl rfl (by decide)
    | unknown sub data =>
      obtain ⟨-, himpl, -⟩ := of_lengthRight_encodeDiag hl
      exact absurd ((implementedSub_of_wf hw).symm.trans himpl) (by decide)
  | reportSlaveId body => cases hl
  | fallback fc body =>
    exact absurd ((listedFc_of_wf hw).symm.trans (listedFc_of_lengthRight hl)) (by decide)

end

/-- Settles O59: the request is the encoding of the instruction read from it, so `exec_wrongLength` says it. -/
theorem wrongLengthsRaiseValueErrors : Obligations.WrongLengthsRaiseValueErrors := by
  intro s t wl p i hs hd hu hl
  obtain rfl : encodePdu i = p := by rw [encodePdu, encode_decodePdu hd]
  exact exec_wrongLength hs (decodePdu_wf hd) hu hl

/-! ## Codes that are not implemented (R161, R264, R272, R441, R452) -/

section
variable {s : State} {t : Txn} {wl : Bool} (hs : AtHandler s t wl)
include hs

/-- The fallback without `handle_fn` raises ILLEGAL_FN (R272). -/
theorem exec_unimplemented {i : Instr} {fc : Byte} (hu : unimplemented s.cfg i = true)
    (hfc : fcOf i = some fc) (hf : s.cfg.callbacks.handleFn = false) :
    exec i s = .next (failed fc t wl .illegalFn s) := by
  rcases functionOf_cases i with ⟨fc', h, hi, hfc'⟩ | ⟨-, hn⟩
  · obtain rfl : fc = fc' := Option.some.inj (hfc.symm.trans hfc')
    rw [exec_functionOf hi]
    have hraise : h s s = .raise .illegalFn s := by
      rw [functionOf_unimplemented hi hu]
      simp only [fallbackHandler, hf, Bool.false_eq_true, if_false]
    exact runFunction_at_raise hs hraise rfl (by decide)
  · cases hfc.symm.trans hn

end

/-- Settles O58: FC 0x08's own handler for its two statuses, `exec_unimplemented` for the function codes. -/
theorem unimplementedCodesRaiseIllegalFunction : Obligations.UnimplementedCodesRaiseIllegalFunction :=
  fun _ _ _ hs => ⟨fun _ _ => runFunction_at_raise hs rfl rfl (by decide),
    fun _ => runFunction_at_raise hs rfl rfl (by decide),
    fun _ _ hu hfc hf => exec_unimplemented hs hu hfc hf⟩

/-! ## Packed bits (R151) -/

theorem getLsbD_setBit (acc : Byte) (b : Bool) (n : Nat) {j : Nat} (hj : j < 8) :
    (if b then acc ||| ((1 : Byte) <<< n) else acc).getLsbD j
      = (acc.getLsbD j || (b && decide (j = n))) := by
  have hbit : ((1 : Byte) <<< n).getLsbD j = decide (j = n) := by
    rw [Bool.eq_iff_iff]
    simp [hj]
    omega
  cases b
  · simp
  · simp only [if_true, BitVec.getLsbD_or, hbit, Bool.true_and]

/-- `byteOfBits` after its first `n` elements: these are set as the list says, the bits above are 0. -/
theorem getLsbD_foldl_setBit (bits : List Bool) (n : Nat) {j : Nat} (hj : j < 8) :
    ((List.range n).foldl
      (fun acc j => if bits.getD j false then acc ||| ((1 : Byte) <<< j) else acc) 0).getLsbD j
      = (decide (j < n) && bits.getD j false) := by
  induction n with
  | zero => simp
  | succ n ih =>
    rw [List.range_succ, List.foldl_append, List.foldl_cons, List.foldl_nil, getLsbD_setBit _ _ _ hj, ih]
    by_cases hjn : j = n
    · simp [hjn]
    · have hlt : j < n + 1 ↔ j < n := by omega
      simp [hjn, hlt]

theorem getLsbD_byteOfBits (bits : List Bool) {j : Nat} (hj : j < 8) :
    (byteOfBits bits).getLsbD j = bits.getD j false := by
  rw [byteOfBits, getLsbD_foldl_setBit bits 8 hj, decide_eq_true hj, Bool.true_and]

/-- Byte `m` holds the elements from `8 * m` on: the first byte the first eight, the rest those behind them. -/
theorem getLsbD_packBits {bc m j : Nat} (bits : List Bool) (hm : m < bc) (hj : j < 8) :
    ((packBits bc bits).getD m 0).getLsbD j = bits.getD (8 * m + j) false := by
  induction bc generalizing m bits with
  | zero => exact absurd hm (Nat.not_lt_zero m)
  | succ bc ih =>
    cases m with
    | zero =>
      rw [packBits, List.getD_cons_zero, getLsbD_byteOfBits _ hj]
      simp [List.getD_eq_getElem?_getD, hj]
    | succ m =>
      have hidx : 8 + (8 * m + j) = 8 * (m + 1) + j := by omega
      rw [packBits, List.getD_cons_succ, ih _ (Nat.lt_of_succ_lt_succ hm)]
      simp [List.getD_eq_getElem?_getD, List.getElem?_drop, hidx]

/-- Settles O31: `length_packBits`, and `getLsbD_packBits` for every bit. -/
theorem packedBitsAreLsbFirst : Obligations.PackedBitsAreLsbFirst :=
  fun bits bc => ⟨length_packBits bc bits, fun _ _ hm hj => getLsbD_packBits bits hm hj⟩

/-! ## FC 0x0F (R151, R315) -/

/-- The two loops of FC 0x0F and the commit, on plain targets (R315). -/
theorem writeCoilBlock_plain {c : Bool} {T : List CoilDesc} {a n : Nat} (data : List Byte) {w : World}
    (ht : plainCoilTargets T a n = true) (hc : listens c w = true) :
    writeCoilBlock c T a n data w = .ofStatus .ok
      (notified c .commitCoilsWrite
        { w with byteCells := storeCoils T a (requestBits data n) w.byteCells }) := by
  simp only [writeCoilBlock, validateCoils_open w (plainCoilTargets_open ht),
    writeCoils_plain data w ht, Res.bind]
  exact notifyIf_told (told_of_listens hc)

/-- Settles O35: `writeCoilBlock_plain`, and the storage after `storeCoils`. -/
theorem writeMultipleCoilsStoresEveryBit : Obligations.WriteMultipleCoilsStoresEveryBit := by
  rintro s t wl T f hs hg hT h1 h2 hd hr ht hcommit m rfl
  have hbytes := (World.good_parts hg).1
  have hlen : (requestBits f.data f.qty.toNat).length = f.qty.toNat := by simp [requestBits]
  refine ⟨exec_writeMultipleCoils hs (e := .ok) hT h1 h2 hd hr (writeCoilBlock_plain f.data ht hcommit),
    fun c hc => storeCoils_out _ _ _ hbytes c (by rwa [hlen]), ?_, ?_⟩
  · intro i r b hi htarget hlast
    obtain ⟨_, -, -, -, -, hb⟩ := coilTarget_some htarget
    rw [storeCoils_last _ _ _ hbytes i r b (by omega) (by rwa [hlen]) htarget (by rwa [hlen])]
    simp [requestBits, packedBit, List.getD_eq_getElem?_getD, hi]
  · exact fun r b hb hk => storeCoils_bit _ _ _ hbytes r b hb (by rwa [hlen])

end Sys2Proof.Machine
end

section
/-! PROOFS of the framing family: the integrity codes and the hexadecimal codec, what the receive commands do with
a frame, and who gets a reply. -/

namespace Sys2Proof.Machine

/-! ## The CRC (R201, R202, R205) -/

/-- The bit shifted out is the top bit of the result, since 0xA001 has its top bit set. -/
theorem getLsbD_crcBit_top (c : Word) : (crcBit c).getLsbD 15 = c.getLsbD 0 := by
  unfold crcBit
  split
  next h => simp [h]
  next h => simpa using h

theorem crcBit_injective : Function.Injective crcBit := by
  intro c d h
  have hlow : c.getLsbD 0 = d.getLsbD 0 := by
    rw [← getLsbD_crcBit_top c, ← getLsbD_crcBit_top d, h]
  have hshift : c >>> 1 = d >>> 1 := by
    unfold crcBit at h
    rw [hlow] at h
    split at h
    · exact (BitVec.xor_left_inj _).mp h
    · exact h
  apply BitVec.eq_of_getLsbD_eq
  intro i hi
  cases i with
  | zero => exact hlow
  | succ i =>
    have hbit := congrArg (·.getLsbD i) hshift
    simpa [BitVec.getLsbD_ushiftRight, Nat.add_comm] using hbit

theorem crcByte_eq (c : Word) (b : Byte) : crcByte c b = crcBit^[8] (c ^^^ b.zeroExtend 16) := rfl

/-- A byte of the CRC keeps apart the CRCs before it. -/
theorem crcByte_injective_left (b : Byte) : Function.Injective (crcByte · b) := fun _ _ h =>
  (BitVec.xor_left_inj _).mp (crcBit_injective.iterate 8 h)

/-- After the same CRC, different bytes give different CRCs. -/
theorem crcByte_injective_right (c : Word) : Function.Injective (crcByte c) := fun a b h => by
  have hbytes := (BitVec.xor_right_inj _).mp (crcBit_injective.iterate 8 h)
  simpa using congrArg (BitVec.setWidth 8) hbytes

theorem foldl_crcByte_injective (l : List Byte) : Function.Injective (l.foldl crcByte) := by
  induction l with
  | nil => exact fun _ _ h => h
  | cons b l ih => exact fun _ _ h => crcByte_injective_left b (ih h)

/-- Another byte at one position gives another CRC: the CRCs differ right after that byte, and every later byte
keeps them apart. -/
theorem foldl_crcByte_set_ne (v : Byte) : ∀ (l : List Byte) (k : Nat) (c : Word), k < l.length →
    v ≠ l.getD k 0 → (l.set k v).foldl crcByte c ≠ l.foldl crcByte c
  | _ :: l, 0, c, _, hv => fun h =>
    hv (crcByte_injective_right c (foldl_crcByte_injective l h))
  | b :: l, k + 1, c, hk, hv =>
    foldl_crcByte_set_ne v l k (crcByte c b) (Nat.lt_of_succ_lt_succ hk) hv

/-- Bits that are 0 are shifted out without a trace. -/
theorem crcBit_iterate_of_low_zero : ∀ (n : Nat) (c : Word), (∀ i < n, c.getLsbD i = false) →
    crcBit^[n] c = c >>> n
  | 0, c, _ => by simp
  | n + 1, c, h => by
    have hbit : crcBit c = c >>> 1 := by
      unfold crcBit
      rw [h 0 (by omega), if_neg Bool.false_ne_true]
    have hrest : ∀ i < n, (c >>> 1).getLsbD i = false := fun i hi => by
      rw [BitVec.getLsbD_ushiftRight]
      exact h _ (by omega)
    rw [Function.iterate_succ_apply, hbit, crcBit_iterate_of_low_zero n _ hrest,
      ← BitVec.shiftRight_add, Nat.add_comm]

/-- The CRC goes to 0 behind its own two bytes, the low one first. -/
theorem crcByte_loByte (c : Word) : crcByte c (loByte c) = c >>> 8 := by
  have hlow : ∀ i < 8, (c ^^^ (loByte c).zeroExtend 16).getLsbD i = false := by
    intro i hi
    have : i < 16 := by omega
    simp [loByte, hi, this]
  rw [crcByte_eq, crcBit_iterate_of_low_zero 8 _ hlow]
  apply BitVec.eq_of_getLsbD_eq
  intro i hi
  simp [loByte]

@[inherit_doc crcByte_loByte]
theorem crcByte_hiByte (c : Word) : crcByte (c >>> 8) (hiByte c) = 0 := by
  have hzero : c >>> 8 ^^^ (hiByte c).zeroExtend 16 = 0 := by
    apply BitVec.eq_of_getLsbD_eq
    intro i hi
    by_cases h8 : i < 8
    · simp [hiByte, hi, h8]
    · simpa [hiByte, hi, h8] using BitVec.getLsbD_of_ge c (8 + i) (by omega)
  rw [crcByte_eq, hzero]
  decide

theorem crc16_rtuFrame (body : List Byte) : crc16 (rtuFrame body) = 0x0000 := by
  rw [rtuFrame, crc16, List.foldl_append]
  show crcByte (crcByte (crc16 body) (loByte (crc16 body))) (hiByte (crc16 body)) = 0x0000
  rw [crcByte_loByte, crcByte_hiByte]

/-- Settles O15: a substitution changes the CRC of the body (`foldl_crcByte_set_ne`), so that the old trailer is
not the new body's. -/
theorem crcDetectsEverySubstitution : Obligations.CrcDetectsEverySubstitution := by
  intro body
  refine ⟨rtuPasses_rtuFrame body, crc16_rtuFrame body, fun k v hk hv => ?_⟩
  have hne : crc16 (body.set k v) ≠ crc16 body := foldl_crcByte_set_ne v body k 0xFFFF hk hv
  rw [rtuPasses_append _ _ rfl]
  simpa [le16Bytes] using hne

/-! ## The hexadecimal codec (R210 to R212) -/

theorem hexDigit_of_hexValue {c v : Byte} (h : hexValue c = some v) : hexDigit v = c ∧ v.toNat < 16 := by
  have hall : ∀ c : Byte, (hexValue c).all (fun v => hexDigit v = c ∧ v.toNat < 16) = true := by
    decide +kernel
  simpa [h] using hall c

/-- Two nibbles are the nibbles of the byte they are put together to. -/
theorem nibbles_of_pair {v1 v2 : Byte} (h1 : v1.toNat < 16) (h2 : v2.toNat < 16) :
    (v1 <<< 4 ||| v2) >>> 4 = v1 ∧ (v1 <<< 4 ||| v2) &&& 0x0F = v2 := by
  have hfin : ∀ m n : Fin 16, (BitVec.ofNat 8 m <<< 4 ||| BitVec.ofNat 8 n) >>> 4 = BitVec.ofNat 8 m
      ∧ (BitVec.ofNat 8 m <<< 4 ||| BitVec.ofNat 8 n) &&& 0x0F = BitVec.ofNat 8 n := by
    decide +kernel
  simpa using hfin ⟨v1.toNat, h1⟩ ⟨v2.toNat, h2⟩

/-- A pair of digits is the encoding of the byte it decodes to. -/
theorem hexByte_of_unhexPair {c1 c2 b : Byte} (h : unhexPair c1 c2 = some b) : hexByte b = [c1, c2] := by
  unfold unhexPair at h
  split at h
  next v1 v2 h1 h2 =>
    obtain ⟨rfl, hv1⟩ := hexDigit_of_hexValue h1
    obtain ⟨rfl, hv2⟩ := hexDigit_of_hexValue h2
    obtain ⟨hhigh, hlow⟩ := nibbles_of_pair hv1 hv2
    cases h
    rw [hexByte, hhigh, hlow]
  next => cases h

theorem hexString_of_unhexString : ∀ {c b : List Byte}, unhexString c = some b → c = hexString b
  | [], b, h => by cases h; rfl
  | [_], b, h => by cases h
  | c1 :: c2 :: rest, b, h => by
    rw [unhexString] at h
    split at h
    next x xs hx hxs =>
      cases h
      rw [hexString, hexByte_of_unhexPair hx, ← hexString_of_unhexString hxs]
      rfl
    next => cases h

theorem unhexString_iff (b c : List Byte) : unhexString c = some b ↔ c = hexString b :=
  ⟨hexString_of_unhexString, fun h => h ▸ unhexString_hexString b⟩

/-- The digits 0..9 and A..F (R211). -/
def upperHexDigits : List Byte :=
  [0x30, 0x31, 0x32, 0x33, 0x34, 0x35, 0x36, 0x37, 0x38, 0x39, 0x41, 0x42, 0x43, 0x44, 0x45, 0x46]

theorem hexByte_eq_upperHexDigits : ∀ b : Byte, hexByte b =
    [upperHexDigits.getD (b.toNat / 16) 0, upperHexDigits.getD (b.toNat % 16) 0] := by
  decide +kernel

/-- Settles O17: the codec is exact (`unhexString_iff`), and each byte's digits are those of R211. -/
theorem hexCodecIsExact : Obligations.HexCodecIsExact := by
  refine ⟨unhexString_iff, rfl, fun D b c hD => ?_⟩
  rw [show D = upperHexDigits from hD, hexString, hexByte_eq_upperHexDigits]
  rfl

/-! ## The LRC (R203 to R205) -/

theorem hexByte_injective : Function.Injective hexByte := fun a b h => by
  have ha := unhexPair_hexByte a
  have hb := unhexPair_hexByte b
  simp only [hexByte, List.cons.injEq] at h
  obtain ⟨h1, h2, _⟩ := h
  rw [h1, h2] at ha
  exact Option.some.inj (ha.symm.trans hb)

theorem hexString_injective : Function.Injective hexString := fun a b h =>
  Option.some.inj <| (unhexString_hexString a).symm.trans <| (congrArg unhexString h).trans <|
    unhexString_hexString b

theorem lrc_eq_neg_sum (b : List Byte) : lrc b = -b.sum := by
  rw [lrc, List.sum_eq_foldl]

/-- The LRC holds iff the whole image sums to 0. -/
theorem lrcPasses_iff_sum_eq_zero {bin : List Byte} (h : bin ≠ []) :
    lrcPasses bin = true ↔ bin.sum = 0 := by
  obtain ⟨body, x, rfl⟩ := (List.eq_nil_or_concat bin).resolve_left h
  rw [List.concat_eq_append, lrcPasses_append, decide_eq_true_iff, lrc_eq_neg_sum, List.sum_append,
    List.sum_singleton, neg_eq_iff_add_eq_zero]

/-- Another digit at one position gives an image with another sum: it changes one byte of it. -/
theorem sum_ne_of_hexString_set (c : Byte) : ∀ (xs ys : List Byte) (k : Nat),
    k < (hexString xs).length → c ≠ (hexString xs).getD k 0 → (hexString xs).set k c = hexString ys →
    ys.sum ≠ xs.sum
  | [], _, _, hk, _, _ => absurd hk (Nat.not_lt_zero _)
  | x :: xs, [], k, _, _, h => by
    simpa [hexString, hexByte] using congrArg List.length h
  | x :: xs, y :: ys, 0, _, hc, h => by
    obtain ⟨hd, hrest⟩ : c = hexDigit (y >>> 4) ∧ _ = _ := List.cons.inj h
    obtain rfl := hexString_injective (List.cons.inj hrest).2
    have hxy : y ≠ x := fun hyx => hc (hyx ▸ hd)
    simpa using hxy
  | x :: xs, y :: ys, 1, _, hc, h => by
    obtain ⟨hd, hrest⟩ : c = hexDigit (y &&& 0x0F) ∧ _ = _ := List.cons.inj (List.cons.inj h).2
    obtain rfl := hexString_injective hrest
    have hxy : y ≠ x := fun hyx => hc (hyx ▸ hd)
    simpa using hxy
  | x :: xs, y :: ys, k + 2, hk, hc, h => by
    have hxy : x = y := hexByte_injective (congrArg (List.take 2) h)
    have hrest : (hexString xs).set k c = hexString ys := (List.cons.inj (List.cons.inj h).2).2
    have ih := sum_ne_of_hexString_set c xs ys k (by simp at hk ⊢; omega) hc hrest
    simpa [hxy] using ih

/-- Settles O16: an accepted string is the encoding of what it decodes to (`unhexString_iff`), and an image and
its substitution cannot both sum to 0. -/
theorem asciiDetectsEverySubstitution : Obligations.AsciiDetectsEverySubstitution := by
  intro body
  refine ⟨lrcPasses_lrc body, fun k c hk hc bin hbin => ?_⟩
  have hset := (unhexString_iff _ _).mp hbin
  have hne := sum_ne_of_hexString_set c _ _ k hk hc hset
  have hnil : bin ≠ [] := by
    rintro rfl
    simpa [hexString] using congrArg List.length hset
  rw [Bool.eq_false_iff, Ne, lrcPasses_iff_sum_eq_zero hnil]
  rwa [(lrcPasses_iff_sum_eq_zero (by simp)).mp (lrcPasses_lrc body)] at hne

/-! ## The receive commands (R220 to R245)

A receive command as the checks of its transport, on the states its phases find. A sound frame comes to phase
RX_FILTER with its address and its request. -/

/-- A receive command in phase RX_SHAPE (R60). -/
def atShape (t : Txn) (s : State) : State := { s with phase := .rxShape, busy := true, txn := some t }

/-- A receive command in phase RX_CHECK: the frame is counted (R221, R231, R241). -/
def atCheck (t : Txn) (s : State) : State :=
  { s.count Counters.incBusMsg with phase := .rxCheck, busy := true, txn := some t }

/-- A receive command in phase RX_FILTER. -/
def atFilter (t : Txn) (s : State) : State := { atCheck t s with phase := .rxFilter }

section
variable {s : State} {t : Txn} {f : List Byte}

theorem recvEvent_eq (listenOnly : Bool) (extra : Byte) :
    recvEvent listenOnly extra = (if listenOnly then 0xA0 else 0x80) ||| extra := by
  cases listenOnly <;> simp [recvEvent]

/-- The frame's count, and its receive event behind it. -/
theorem received_eq (extra : Byte) (r : Registers) :
    received extra r = (r.count Counters.incBusMsg).log (recvEvent r.isListenOnly extra) := by
  rw [recvEvent_eq]
  rfl

theorem drop_atShape : drop (atShape t s) = .next (dropped s.regs s) := rfl

/-- A corrupt frame is counted twice, logged and dropped (R222, R232, R233, R242). -/
theorem integrityFailure_atCheck :
    integrityFailure (atCheck t s) = .next (dropped (corrupted s.regs) s) := by
  rw [corrupted, received_eq]
  rfl

/-- A foreign frame is logged and dropped (R215, R223, R234, R243). -/
theorem filterAddress_foreign {a : Byte} {p : List Byte} (ha : accept s.cfg a = false) :
    filterAddress a p t (atFilter t s) = .next (dropped (received 0x00 s.regs) s) := by
  rw [received_eq, filterAddress, if_neg (by rw [show (atFilter t s).cfg = s.cfg from rfl, ha]; decide)]
  rfl

/-- The request of an accepted frame reaches phase EXEC if the gate lets it in (R224, R235, R244, R263). -/
theorem filterAddress_open {a : Byte} {p : List Byte} (ha : accept s.cfg a = true)
    (h1 : 1 ≤ p.length) (h2 : p.length ≤ 253) (hg : gateOpen s p = true) :
    filterAddress a p t (atFilter t s)
      = .next (dispatched { t with addr := some a } p (received (broadcastBit a) s.regs) s) := by
  have ha' : accept (atFilter t s).cfg a = true := ha
  rw [filterAddress_eq, if_pos ha']
  exact enterDispatcher_open rfl h1 h2 hg

theorem beginReceive_takes {e : Entry} {shape : Txn → State → Answer} (hs : s.takesCommand = true) :
    beginReceive e f shape s = shape (Txn.start e f) (atShape (Txn.start e f) s) := by
  rw [beginReceive, beginCommand_takes hs]
  rfl

/-! ### RTU -/

theorem exec_rxRtu (hs : s.takesCommand = true) :
    exec (.rxRtu f) s =
      if f.length < 4 ∨ 256 < f.length then drop (atShape (Txn.start .rtu f) s)
      else if rtuPasses f = true then
        filterAddress (f.getD 0 0) ((f.take (f.length - 2)).drop 1) (Txn.start .rtu f)
          (atFilter (Txn.start .rtu f) s)
      else integrityFailure (atCheck (Txn.start .rtu f) s) :=
  (beginReceive_takes (shape := rtuShape) hs).trans rfl

/-- A sound RTU frame comes to phase RX_FILTER with its address and its request (R222, R223). -/
theorem exec_rxRtu_frame {a : Byte} {p : List Byte} (hs : s.takesCommand = true) (h1 : 1 ≤ p.length)
    (h2 : p.length ≤ 253) :
    exec (.rxRtu (rtuFrame (a :: p))) s
      = filterAddress a p (Txn.start .rtu (rtuFrame (a :: p)))
        (atFilter (Txn.start .rtu (rtuFrame (a :: p))) s) := by
  have hlen : (rtuFrame (a :: p)).length = p.length + 3 := by simp [rtuFrame]
  have hreq : ((rtuFrame (a :: p)).take ((rtuFrame (a :: p)).length - 2)).drop 1 = p := by
    rw [hlen, rtuFrame, List.take_left' (by simp)]
    rfl
  rw [exec_rxRtu hs, if_neg (by omega), if_pos (rtuPasses_rtuFrame _), hreq]
  rfl

/-! ### ASCII -/

theorem asciiHasShape_iff (d : Byte) : asciiHasShape f d = true ↔
    11 ≤ f.length ∧ f.length ≤ 513 ∧ f.length % 2 = 1 ∧ f.getD 0 0 = 0x3A
      ∧ f.getD (f.length - 2) 0 = 0x0D ∧ f.getD (f.length - 1) 0 = d := by
  simp only [asciiHasShape, Bool.and_eq_true, decide_eq_true_eq, and_assoc]
  exact Iff.rfl

/-- The transaction registers of an ASCII frame past its shape: the delimiter is latched (R231). -/
def latched (f : List Byte) (d : Byte) : Txn := { Txn.start .ascii f with delim := some d }

theorem exec_rxAscii (hs : s.takesCommand = true) :
    exec (.rxAscii f) s =
      if asciiHasShape f s.regs.asciiDelimiter = true then
        asciiCheck (latched f s.regs.asciiDelimiter)
          (atCheck (latched f s.regs.asciiDelimiter) s)
      else drop (atShape (Txn.start .ascii f) s) :=
  (beginReceive_takes (shape := asciiShape) hs).trans rfl

/-- A character that is no digit, or an image that fails its LRC (R232, R233). -/
theorem asciiCheck_corrupt
    (hc : ∀ bin, unhexString ((t.adu.take (t.adu.length - 2)).drop 1) = some bin → lrcPasses bin = false) :
    asciiCheck t (atCheck t s) = integrityFailure (atCheck t s) := by
  unfold asciiCheck
  split
  next => rfl
  next bin hbin => rw [if_neg (by rw [hc bin hbin]; decide)]

/-- An image that passes its LRC (R233, R234). -/
theorem asciiCheck_sound {bin : List Byte}
    (hbin : unhexString ((t.adu.take (t.adu.length - 2)).drop 1) = some bin) (hl : lrcPasses bin = true) :
    asciiCheck t (atCheck t s)
      = filterAddress (bin.getD 0 0) ((bin.take (bin.length - 1)).drop 1) { t with bin := some bin }
        (atFilter { t with bin := some bin } s) := by
  simp only [asciiCheck, hbin, hl, if_true]
  rfl

theorem asciiFrame_eq (body : List Byte) (d : Byte) :
    asciiFrame body d = (0x3A :: hexString (body ++ [lrc body])) ++ [0x0D, d] := rfl

/-- The characters between the colon and the end of an ASCII frame (R232). -/
theorem asciiFrame_chars (body : List Byte) (d : Byte) :
    ((asciiFrame body d).take ((asciiFrame body d).length - 2)).drop 1 = hexString (body ++ [lrc body]) := by
  rw [asciiFrame_eq, List.take_left' (by simp)]
  rfl

theorem asciiHasShape_asciiFrame {body : List Byte} (d : Byte) (h3 : 3 ≤ body.length)
    (h254 : body.length ≤ 254) : asciiHasShape (asciiFrame body d) d = true := by
  have hlen : (asciiFrame body d).length = 2 * body.length + 5 := by
    simp [asciiFrame]; omega
  have htail (i : Nat) : (asciiFrame body d).getD (2 * body.length + 3 + i) 0 = [0x0D, d].getD i 0 := by
    have hfront : (0x3A :: hexString (body ++ [lrc body])).length = 2 * body.length + 3 := by
      simp; omega
    rw [asciiFrame_eq, List.getD_append_right _ _ _ _ (by omega), hfront, Nat.add_sub_cancel_left]
  rw [asciiHasShape_iff, hlen]
  exact ⟨by omega, by omega, by omega, rfl, htail 0, htail 1⟩

/-- A sound ASCII frame comes to phase RX_FILTER with its address and its request (R232 to R234). -/
theorem exec_rxAscii_frame {a : Byte} {p : List Byte} (hs : s.takesCommand = true) (h2 : 2 ≤ p.length)
    (h253 : p.length ≤ 253) (ht : t = { latched (asciiFrame (a :: p) s.regs.asciiDelimiter)
      s.regs.asciiDelimiter with bin := some (a :: p ++ [lrc (a :: p)]) }) :
    exec (.rxAscii (asciiFrame (a :: p) s.regs.asciiDelimiter)) s
      = filterAddress a p t (atFilter t s) := by
  have hchars := asciiFrame_chars (a :: p) s.regs.asciiDelimiter
  have himage : ((a :: p ++ [lrc (a :: p)]).take ((a :: p ++ [lrc (a :: p)]).length - 1)).drop 1 = p := by
    rw [List.take_left' (by simp)]
    rfl
  have hshape := asciiHasShape_asciiFrame (body := a :: p) s.regs.asciiDelimiter
    (Nat.succ_le_succ h2) (Nat.succ_le_succ h253)
  subst ht
  rw [exec_rxAscii hs, if_pos hshape,
    asciiCheck_sound (hchars ▸ unhexString_hexString _) (lrcPasses_lrc _), himage]
  rfl

/-! ### TCP -/

theorem exec_rxTcp (hs : s.takesCommand = true) :
    exec (.rxTcp f) s =
      if f.length < 8 ∨ 260 < f.length then drop (atShape (Txn.start .tcp f) s)
      else if tcpHeaderPasses f = true then
        filterAddress (f.getD 6 0) (f.drop 7) (Txn.start .tcp f) (atFilter (Txn.start .tcp f) s)
      else integrityFailure (atCheck (Txn.start .tcp f) s) :=
  (beginReceive_takes (shape := tcpShape) hs).trans rfl

theorem tcpHeaderPasses_iff : tcpHeaderPasses f = true ↔
    be16 (f.getD 2 0) (f.getD 3 0) = 0x0000 ∧ (be16 (f.getD 4 0) (f.getD 5 0)).toNat = f.length - 6 := by
  simp only [tcpHeaderPasses, Bool.and_eq_true, decide_eq_true_eq]

/-- A sound TCP frame comes to phase RX_FILTER with its address and its request (R242, R243). -/
theorem exec_rxTcp_frame {a : Byte} {p : List Byte} (id : Word) (hs : s.takesCommand = true)
    (h1 : 1 ≤ p.length) (h2 : p.length ≤ 253) :
    exec (.rxTcp (tcpFrame (be16Bytes id ++ [0x00, 0x00]) a p)) s
      = filterAddress a p (Txn.start .tcp (tcpFrame (be16Bytes id ++ [0x00, 0x00]) a p))
        (atFilter (Txn.start .tcp (tcpFrame (be16Bytes id ++ [0x00, 0x00]) a p)) s) := by
  have hlen : (tcpFrame (be16Bytes id ++ [0x00, 0x00]) a p).length = p.length + 7 := by
    simp [tcpFrame]; omega
  have hheader : tcpHeaderPasses (tcpFrame (be16Bytes id ++ [0x00, 0x00]) a p) = true := by
    rw [tcpHeaderPasses_iff, hlen]
    refine ⟨show be16 0x00 0x00 = 0x0000 by decide, ?_⟩
    show (be16 (hiByte (BitVec.ofNat 16 (1 + p.length))) (loByte (BitVec.ofNat 16 (1 + p.length)))).toNat = _
    rw [be16_hiByte_loByte, BitVec.toNat_ofNat]
    omega
  rw [exec_rxTcp hs, if_neg (by omega), if_pos hheader]
  rfl

end

/-- Settles O18: the sound frame comes to phase RX_FILTER (`exec_rxRtu_frame`), and from there to phase EXEC. -/
theorem rtuFrameReachesItsHandler : Obligations.RtuFrameReachesItsHandler :=
  fun _ _ _ hs ha h1 h2 hg => (exec_rxRtu_frame hs h1 h2).trans (filterAddress_open ha h1 h2 hg)

/-- Settles O19: as O18, by `exec_rxAscii_frame`. -/
theorem asciiFrameReachesItsHandler : Obligations.AsciiFrameReachesItsHandler :=
  fun _ _ _ hs ha h2 h253 hg =>
    (exec_rxAscii_frame hs h2 h253 rfl).trans (filterAddress_open ha (by omega) h253 hg)

/-- Settles O20: as O18, by `exec_rxTcp_frame`. -/
theorem tcpFrameReachesItsHandler : Obligations.TcpFrameReachesItsHandler :=
  fun _ id _ _ hs ha h1 h2 hg => (exec_rxTcp_frame id hs h1 h2).trans (filterAddress_open ha h1 h2 hg)

/-- Settles O26: the shape passes and the check fails, so that each command ends in `integrityFailure`. -/
theorem corruptFramesAreCountedAndDropped : Obligations.CorruptFramesAreCountedAndDropped := by
  refine fun s f hs => ⟨fun h4 h256 hcrc => ?_, fun h8 h260 hheader => ?_,
    fun h11 h513 hodd hcolon hcr hdelim hbin => ?_⟩
  · have hfails : ¬ rtuPasses f = true := by simpa [rtuPasses] using hcrc
    rw [exec_rxRtu hs, if_neg (by omega), if_neg hfails, integrityFailure_atCheck]
  · have hfails : ¬ tcpHeaderPasses f = true := by
      rw [tcpHeaderPasses_iff]
      exact fun ⟨hid, hlen⟩ => hheader.elim (· hid) (· hlen)
    rw [exec_rxTcp hs, if_neg (by omega), if_neg hfails, integrityFailure_atCheck]
  · have hshape := (asciiHasShape_iff _).mpr ⟨h11, h513, hodd, hcolon, hcr, hdelim⟩
    rw [exec_rxAscii hs, if_pos hshape, asciiCheck_corrupt hbin, integrityFailure_atCheck]

/-- R215's complement. -/
theorem accept_eq_false {c : InstanceConfig} {a : Byte} (h1 : a ≠ c.slaveAddr) (h2 : a ≠ 0x00)
    (h3 : a = 0xF8 → c.defaultRespEn = false) : accept c a = false := by
  simp only [accept, Bool.or_eq_false_iff, Bool.and_eq_false_iff, decide_eq_false_iff_not]
  exact ⟨⟨h1, h2⟩, (Decidable.em (a = 0xF8)).imp h3 id⟩

/-- Settles O27: the sound frame of each transport comes to phase RX_FILTER, which drops it. -/
theorem foreignFramesAreLoggedAndDropped : Obligations.ForeignFramesAreLoggedAndDropped := by
  intro s id a p hs hslave hbroadcast hdefault h1 h2
  have ha := accept_eq_false hslave hbroadcast hdefault
  exact ⟨(exec_rxRtu_frame hs h1 h2).trans (filterAddress_foreign ha),
    fun h2' => (exec_rxAscii_frame hs h2' h2 rfl).trans (filterAddress_foreign ha),
    (exec_rxTcp_frame id hs h1 h2).trans (filterAddress_foreign ha)⟩

/-- Settles O25: the shape fails, and each command drops the frame in phase RX_SHAPE. -/
theorem shapelessFramesChangeNothing : Obligations.ShapelessFramesChangeNothing := by
  refine fun s f hs => ⟨fun hf => ?_, fun hf => ?_, fun hf => ?_⟩
  · rw [exec_rxRtu hs, if_pos hf, drop_atShape]
  · rw [exec_rxTcp hs, if_pos hf, drop_atShape]
  · have hshape : ¬ asciiHasShape f s.regs.asciiDelimiter = true := by
      rw [asciiHasShape_iff]
      rintro ⟨h11, h513, hodd, hcolon, hcr, hdelim⟩
      rcases hf with h | h | h | h | h | h
      · omega
      · omega
      · omega
      · exact h hcolon
      · exact h hcr
      · exact h hdelim
    rw [exec_rxAscii hs, if_neg hshape, drop_atShape]

/-! ## The loopback (R225, R236, R245, R442) -/

section
variable {s : State} {t : Txn} {frame data : List Byte}

/-- The request of sub 0x0000 (R148, R442). -/
def loopbackPdu (data : List Byte) : List Byte := 0x08 :: 0x00 :: 0x00 :: data

@[simp] theorem length_loopbackPdu : (loopbackPdu data).length = data.length + 3 := rfl

theorem decodePdu_queryData (h : data.length ≤ 250) :
    decodePdu (loopbackPdu data) = .ok (.diagReturnQueryData data) :=
  if_pos (by simp only [List.length_cons, Config.pduMax]; omega)

/-- A request that is neither a broadcast nor silenced by listen-only mode is answered (R225, R236, R245). -/
theorem closed_reply {res : List Byte} (hl : s.regs.isListenOnly = false) (hb : isBroadcast t = false)
    (hf : framed t res = some frame) : closed t false res s = endCommand frame s := by
  simp [closed, replyOf, endCommand, hl, hb, hf]

/-- At its handler a loopback is answered with itself, behind its send event (R268, R442). -/
theorem exec_queryData (hs : AtHandler s t false) (hl : s.regs.isListenOnly = false)
    (hb : isBroadcast t = false) (hf : framed t (loopbackPdu data) = some frame) :
    exec (.diagReturnQueryData data) s = .next (endCommand frame (s.log 0x40)) :=
  calc exec (.diagReturnQueryData data) s
      = .next (completed 0x08 t false (loopbackPdu data) s) :=
        runFunction_at_val (h := queryDataHandler data) hs rfl rfl nofun
    _ = .next (closed t false (loopbackPdu data) (s.log 0x40)) := rfl
    _ = .next (endCommand frame (s.log 0x40)) := congrArg _ (closed_reply hl hb hf)

/-- The second step of a loopback. -/
theorem step_dispatched_loopback {r : Registers} (hl : s.regs.isListenOnly = false)
    (hr : r.isListenOnly = false) (ht : t.framerReady = true) (hb : isBroadcast t = false)
    (hd : data.length ≤ 250) (hf : framed t (loopbackPdu data) = some frame) :
    step (dispatched t (loopbackPdu data) r s)
      = .next (endCommand frame { s with regs := (r.count Counters.incMsg).log 0x40 }) :=
  (step_exec rfl rfl rfl (decodePdu_queryData hd)).trans <|
    exec_queryData (s := dispatched t (loopbackPdu data) r s)
      ⟨rfl, rfl, congrArg some hl, ht⟩ hr hb hf

/-- The state a loopback leaves: the frame counted and logged, `msg` counted, one send event, one output. -/
def loopedBack (rest : List HostRequest) (frame : List Byte) (s : State) : State :=
  { s with
    regs :=
      { s.regs with
        counters :=
          { s.regs.counters with
            busMsg := s.regs.counters.busMsg + 1
            msg := s.regs.counters.msg + 1 }
        ring := (s.regs.ring.append 0x80).append 0x40 }
    pending := rest
    outputs := s.outputs ++ [frame] }

/-- The two steps of a loopback whose frame comes to phase RX_FILTER with transaction registers `t`, over which
its request goes out as the frame itself. -/
theorem steps_loopback {rest : List HostRequest} {c : Command} {a : Byte} (hs : s.takesCommand = true)
    (hp : s.phase = .idle) (hx : s.txn = none) (hl : s.regs.isListenOnly = false)
    (ha : accept s.cfg a = true) (h0 : a ≠ 0x00) (hd : data.length ≤ 250)
    (hq : s.pending = ⟨[], c⟩ :: rest)
    (hc : exec (decodeCommand c) { s with pending := rest }
      = filterAddress a (loopbackPdu data) t (atFilter t { s with pending := rest }))
    (ht : ({ t with addr := some a } : Txn).framerReady = true)
    (hf : framed { t with addr := some a } (loopbackPdu data) = some frame) :
    ∃ m, step s = .next m ∧ step m = .next (loopedBack rest frame s) := by
  have hbusy : s.busy = false := by
    simp only [State.takesCommand, Bool.and_eq_true, Bool.not_eq_true'] at hs
    exact hs.1
  have hbit : broadcastBit a = 0x00 := if_neg h0
  have hnot : isBroadcast { t with addr := some a } = false :=
    Bool.and_eq_false_iff.mpr (.inr (decide_eq_false fun h => h0 (Option.some.inj h)))
  have hfirst : step s = .next _ :=
    (step_idle_cons hp hq).trans <| hc.trans <|
      filterAddress_open (s := { s with pending := rest }) ha (by simp) (by simp; omega)
        (by simp [gateOpen, hl])
  refine ⟨_, hfirst, ?_⟩
  rw [step_dispatched_loopback (r := received (broadcastBit a) s.regs) (s := { s with pending := rest })
    hl hl ht hnot hd hf]
  simp only [endCommand, received, hbit, loopedBack, hl, hp, hx, hbusy]
  rfl

end

/-- The reply over TCP has the request's header and unit (R245): to send the request back is to send its frame. -/
theorem framed_tcp {t : Txn} {header pdu : List Byte} {a : Byte} (he : t.entry = .tcp)
    (ht : t.adu = tcpFrame header a pdu) (hl : header.length = 4) :
    framed t pdu = some (tcpFrame header a pdu) := by
  match header, hl with
  | [b0, b1, b2, b3], _ => simp [framed, he, ht, tcpFrame, be16Bytes]

/-- Settles O28: the frame of each transport comes to phase RX_FILTER, and `steps_loopback`. -/
theorem loopbackReturnsTheFrame : Obligations.LoopbackReturnsTheFrame := by
  intro s rest frame c id a data hs hp hx hl ha h0 hd hq hframe
  have h1 : 1 ≤ (loopbackPdu data).length := by simp
  have h253 : (loopbackPdu data).length ≤ 253 := by simp; omega
  rcases hframe with ⟨rfl, rfl⟩ | ⟨rfl, rfl⟩ | ⟨rfl, rfl⟩
  · exact steps_loopback hs hp hx hl ha h0 hd hq
      (exec_rxRtu_frame (s := { s with pending := rest }) hs h1 h253) rfl rfl
  · exact steps_loopback hs hp hx hl ha h0 hd hq
      (exec_rxAscii_frame (s := { s with pending := rest }) hs (by simp) h253 rfl) rfl rfl
  · exact steps_loopback hs hp hx hl ha h0 hd hq
      (exec_rxTcp_frame (s := { s with pending := rest }) id hs h1 h253) rfl (framed_tcp rfl rfl rfl)

/-! ## Who gets no reply (R219, R270, R444, R449) -/

/-- The instructions that zero `no_resp`: the restart, and sub 0x000A (R42, R444, R449). -/
def ClearsNoResp (i : Instr) : Prop :=
  i = .diagRestartCommunications (.fields 0x0000) ∨ i = .diagRestartCommunications (.fields 0xFF00)
    ∨ i = .diagClearCounters (.fields 0x0000)

section
variable {s s' : State} {t : Txn} {wl : Bool} {fc : Byte} {i : Instr}

/-- A notification does not raise a status: it is heard, or the host broke its contract (R111). -/
theorem notifyIf_cases (present : Bool) (c : HostCall) (w : World) :
    (∃ w', notifyIf present c w = .val () w') ∨ ∃ x, notifyIf present c w = .stop x := by
  unfold notifyIf askUnit
  split
  · split
    · exact .inl ⟨_, rfl⟩
    · exact .inl ⟨_, rfl⟩
    · exact .inr ⟨_, rfl⟩
  · exact .inl ⟨_, rfl⟩

theorem restartHandler_cases {data : Word} (hd : data = 0x0000 ∨ data = 0xFF00) (s : State) :
    (∃ w, restartHandler data s = .val (diagResponse 0x0001 data)
      { s with world := w, regs := restartRegisters data s.regs })
    ∨ ∃ x, restartHandler data s = .stop x := by
  have hlegal : ¬ (data ≠ 0x0000 ∧ data ≠ 0xFF00) := fun ⟨h0, h1⟩ => hd.elim h0 h1
  rw [restartHandler, if_neg hlegal]
  rcases notifyIf_cases s.cfg.callbacks.requestRestart .requestRestart s.world with ⟨w, hw⟩ | ⟨x, hx⟩
  · exact .inl ⟨w, by rw [onWorld_val hw]; rfl⟩
  · exact .inr ⟨x, by rw [onWorld_stop hx]; rfl⟩

theorem clearCountersHandler_cases (s : State) :
    (∃ w, clearCountersHandler s = .val (diagResponse 0x000A 0)
      { s with world := w, regs := s.regs.resetCounters })
    ∨ ∃ x, clearCountersHandler s = .stop x := by
  unfold clearCountersHandler
  rcases notifyIf_cases s.cfg.callbacks.resetDiagnostics .resetDiagnostics s.world with ⟨w, hw⟩ | ⟨x, hx⟩
  · exact .inl ⟨w, by rw [onWorld_val (s := { s with regs := s.regs.resetCounters }) hw]; rfl⟩
  · exact .inr ⟨x, by rw [onWorld_stop (s := { s with regs := s.regs.resetCounters }) hx]; rfl⟩

/-- What a function code leaves at its end, completed or failed: in `s₁` stands what its handler left of the
registers. -/
def EndsFrom (fc : Byte) (t : Txn) (wl : Bool) (s₁ s' : State) : Prop :=
  (∃ res, s' = completed fc t wl res s₁) ∨ ∃ e, s' = failed fc t wl e s₁

/-- A handler that leaves zeroed counters or stops, never raising a status. -/
theorem runFunction_zeroed {h : Handler} {res : List Byte} {r : Registers} (hs : AtHandler s t wl)
    (hn : res ≠ []) (hr : r.counters = Counters.zero)
    (hh : (∃ w, h s = .val res { s with world := w, regs := r }) ∨ ∃ x, h s = .stop x)
    (he : runFunction fc h s = .next s') :
    ∃ s₁, s₁.outputs = s.outputs ∧ s₁.regs.counters.noResp = 0 ∧ EndsFrom fc t wl s₁ s' := by
  rcases hh with ⟨w, hv⟩ | ⟨x, hx⟩
  · rw [runFunction_at_val hs hv rfl hn] at he
    cases he
    exact ⟨{ s with world := w, regs := r }, rfl, congrArg Counters.noResp hr, .inl ⟨res, rfl⟩⟩
  · rw [runFunction_stop hs.1 hx] at he
    exact absurd he (Stop.answer_ne_next x s')

/-- The restart and sub 0x000A do not fail, and leave `no_resp` at 0. -/
theorem exec_clearsNoResp (hz : ClearsNoResp i) (hi : fcOf i = some fc) (hs : AtHandler s t wl)
    (he : exec i s = .next s') :
    ∃ s₁, s₁.outputs = s.outputs ∧ s₁.regs.counters.noResp = 0 ∧ EndsFrom fc t wl s₁ s' := by
  have hrestart (data : Word) := (restartRegisters_writes data s.regs).2.2.2
  rcases hz with rfl | rfl | rfl <;> obtain rfl := Option.some.inj hi
  · exact runFunction_zeroed (h := restartHandler 0x0000) hs (List.cons_ne_nil _ _) (hrestart 0x0000)
      (restartHandler_cases (.inl rfl) s) he
  · exact runFunction_zeroed (h := restartHandler 0xFF00) hs (List.cons_ne_nil _ _) (hrestart 0xFF00)
      (restartHandler_cases (.inr rfl) s) he
  · exact runFunction_zeroed (h := clearCountersHandler) hs (List.cons_ne_nil _ _)
      (Registers.resetCounters_counters s.regs) (clearCountersHandler_cases s) he

theorem handlerRegs_noResp (hz : ¬ ClearsNoResp i) (r : Registers) :
    (handlerRegs i r).counters.noResp = r.counters.noResp := by
  unfold handlerRegs
  split
  next data =>
    rw [if_neg fun hd => hz (by
      rcases hd with rfl | rfl
      · exact .inl rfl
      · exact .inr (.inl rfl))]
  next => split <;> rfl
  next => split <;> rfl
  next data =>
    rw [if_neg fun hd => hz (by
      subst hd
      exact .inr (.inr rfl))]
  next => split <;> rfl
  next => rfl

/-- Every other function code leaves `no_resp` to its end. -/
theorem exec_keepsNoResp (hz : ¬ ClearsNoResp i) (hi : fcOf i = some fc) (hs : AtHandler s t wl)
    (he : exec i s = .next s') :
    ∃ s₁, s₁.outputs = s.outputs ∧ s₁.regs.counters.noResp = s.regs.counters.noResp
      ∧ EndsFrom fc t wl s₁ s' := by
  rcases exec_function_cases worldLaw_any hi hs trivial with
    ⟨res, w, -, -, -, hx⟩ | ⟨e, w, -, -, hx⟩ | ⟨x, -, hx⟩
  · rw [hx] at he
    cases he
    exact ⟨{ s with world := w, regs := handlerRegs i s.regs }, rfl, handlerRegs_noResp hz s.regs,
      .inl ⟨res, rfl⟩⟩
  · rw [hx] at he
    cases he
    exact ⟨{ s with world := w }, rfl, rfl, .inr ⟨e, rfl⟩⟩
  · exact absurd (hx.symm.trans he) (Stop.answer_ne_next x s')

/-- A broadcast gets no reply (R219), nor does a request received in listen-only mode (R270). -/
theorem replyOf_silent (h : isBroadcast t = true ∨ wl = true) (b : Bool) (res : List Byte) :
    replyOf t (wl || b) res = [] := by
  rcases h with h | h <;> simp [replyOf, h]

theorem EndsFrom.outputs {s₁ : State} (h : EndsFrom fc t wl s₁ s')
    (hsilent : isBroadcast t = true ∨ wl = true) : s'.outputs = s₁.outputs ++ [[]] := by
  rcases h with ⟨res, rfl⟩ | ⟨e, rfl⟩
  · exact congrArg (s₁.outputs ++ [·]) (replyOf_silent hsilent _ _)
  · exact congrArg (s₁.outputs ++ [·]) (replyOf_silent hsilent _ _)

theorem closed_noResp (hb : isBroadcast t = true) (res : List Byte) :
    (closed t wl res s).regs.counters.noResp = s.regs.counters.noResp + 1 := by
  simp only [closed, hb, if_true]
  rfl

/-- A broadcast counts in `no_resp` (R219). -/
theorem EndsFrom.noResp {s₁ : State} (h : EndsFrom fc t wl s₁ s') (hb : isBroadcast t = true) :
    s'.regs.counters.noResp = s₁.regs.counters.noResp + 1 := by
  rcases h with ⟨res, rfl⟩ | ⟨e, rfl⟩
  · rw [completed, closed_noResp hb]
    dsimp only
    split <;> rfl
  · exact closed_noResp hb _

end

/-- Settles O29: a function code ends behind what its handler left of `no_resp`, without a reply where it is
silent, and a broadcast counts once more there. -/
theorem silentRequestsGetNoReply : Obligations.SilentRequestsGetNoReply := by
  intro i s s' t wl fc hi hs he
  by_cases hz : ClearsNoResp i
  · obtain ⟨s₁, hout, hno, hends⟩ := exec_clearsNoResp hz hi hs he
    refine ⟨fun hsilent => hout ▸ hends.outputs hsilent, fun hb => ?_⟩
    rw [hends.noResp hb, hno]
    exact (if_pos hz).symm
  · obtain ⟨s₁, hout, hno, hends⟩ := exec_keepsNoResp hz hi hs he
    refine ⟨fun hsilent => hout ▸ hends.outputs hsilent, fun hb => ?_⟩
    rw [hends.noResp hb, hno]
    exact (if_neg hz).symm

end Sys2Proof.Machine
end

section
/-! PROOFS of the dispatcher family: what a bare PDU does at the gate, what the gate drops in listen-only mode, and
the checks of quantities, byte counts and ranges in front of every target. -/

namespace Sys2Proof.Machine

/-! ## A bare PDU (R260, R263, R271) -/

section
variable {s : State} {t : Txn} {p : List Byte}

/-- `RX_PDU` enters the dispatcher directly (R271). -/
theorem exec_rxPdu (hs : s.takesCommand = true) :
    exec (.rxPdu p) s = enterDispatcher p (Txn.start .pdu p) { s with busy := true } :=
  beginCommand_takes hs

/-- A request out of length ends its command at the gate, before the mode is looked at (R260). -/
theorem enterDispatcher_outOfLength (hl : p.length < 1 ∨ 253 < p.length)
    (he : t.entry = .pdu ∨ t.addr.isSome = true) :
    enterDispatcher p t s = .next
      (if isBroadcast t then endCommand [] (s.count Counters.incNoResp) else endCommand [] s) := by
  have hgate : enterDispatcher p t s = dispatcherReturns 0 { t with req := some p }
      { s with phase := .gate, txn := some { t with req := some p } } := if_pos hl
  rw [hgate, dispatcherReturns_zero (t := { t with req := some p }) he]
  rfl

end

/-- Settles O21: the gate lets the request in (`enterDispatcher_open`), with the registers as they were. -/
theorem barePduReachesItsHandler : Obligations.BarePduReachesItsHandler :=
  fun _ _ hs h1 h2 hg => (exec_rxPdu hs).trans (enterDispatcher_open rfl h1 h2 hg)

/-- Settles O22: the length check of the gate; a bare PDU is no broadcast. -/
theorem pduOutOfLengthChangesNothing : Obligations.PduOutOfLengthChangesNothing :=
  fun _ _ hs hl => (exec_rxPdu hs).trans (enterDispatcher_outOfLength hl (.inl rfl))

/-! ## The listen-only gate (R219, R262, R268) -/

/-- The registers after an accepted frame whose request is gated: counted and logged as received, a broadcast
counted in `no_resp`, and the send event 0x60 logged behind (R218, R219, R262). -/
def gated (a : Byte) (r : Registers) : Registers :=
  { received (broadcastBit a) r with
    counters :=
      { r.counters with
        busMsg := r.counters.busMsg + 1
        noResp := if a = 0x00 then r.counters.noResp + 1 else r.counters.noResp }
    ring := (received (broadcastBit a) r).ring.append 0x60 }

section
variable {s : State} {t : Txn} {a : Byte} {p : List Byte}

theorem gated_broadcast (r : Registers) :
    gated 0x00 r = ((received 0x40 r).log 0x60).count Counters.incNoResp := rfl

theorem gated_unicast (r : Registers) (h0 : a ≠ 0x00) :
    gated a r = (received 0x00 r).log 0x60 := by
  simp only [gated, broadcastBit, if_neg h0]
  rfl

/-- A frame is a broadcast by its address alone (R218). -/
theorem isBroadcast_frame (he : t.entry ≠ .pdu) :
    isBroadcast { t with addr := some a } = decide (a = 0x00) := by
  simp [isBroadcast, he, Config.broadcastAddr]

/-- The request of an accepted frame that the gate keeps out (R262). -/
theorem filterAddress_gated (ha : accept s.cfg a = true) (h1 : 1 ≤ p.length) (h2 : p.length ≤ 253)
    (hg : gateOpen s p = false) (he : t.entry ≠ .pdu) :
    filterAddress a p t (atFilter t s) = .next (dropped (gated a s.regs) s) := by
  have ha' : accept (atFilter t s).cfg a = true := ha
  rw [filterAddress_eq, if_pos ha']
  refine Eq.trans (enterDispatcher_closed h1 h2 hg (.inr rfl)) ?_
  rw [isBroadcast_frame he]
  by_cases h0 : a = 0x00
  · subst h0
    rw [gated_broadcast]
    rfl
  · rw [gated_unicast s.regs h0, broadcastBit, if_neg h0, decide_eq_false h0]
    rfl

end

/-- Settles O23: a bare PDU meets the gate at once (`enterDispatcher_closed`); the frame of each transport comes to
phase RX_FILTER, and from there to the gate (`filterAddress_gated`). -/
theorem gateDropsAllButTheRestart : Obligations.GateDropsAllButTheRestart := by
  intro s p hs h1 h2 hg
  refine ⟨(exec_rxPdu hs).trans (enterDispatcher_closed h1 h2 hg (.inl rfl)), fun a id i ha hi => ?_⟩
  rcases hi with rfl | rfl | ⟨h2', rfl⟩
  · exact (exec_rxRtu_frame hs h1 h2).trans (filterAddress_gated ha h1 h2 hg nofun)
  · exact (exec_rxTcp_frame id hs h1 h2).trans (filterAddress_gated ha h1 h2 hg nofun)
  · exact (exec_rxAscii_frame hs h2' h2 rfl).trans (filterAddress_gated ha h1 h2 hg nofun)

/-! ## Quantities, byte counts and ranges (R276, R277)

What each handler raises on operands that fail a check: whatever its table holds, it leaves the storage as it
was. -/

theorem qtyOutside_iff {n max : Nat} : qtyOutside n max = true ↔ n < 1 ∨ max < n := by
  simp only [qtyOutside, Bool.or_eq_true, decide_eq_true_eq]

theorem rangeOverflows_eq_true {a n : Nat} (h : 0x10000 < a + n) : rangeOverflows a n = true :=
  decide_eq_true (by omega)

section
variable {fc : Byte} {c : Bool} {C : List CoilDesc} {T : List RegDesc} {w : World}

section
variable {f : AddrQty}

theorem readBitsHandler_badQty (hq : f.qty.toNat < 1 ∨ 2000 < f.qty.toNat) :
    readBitsHandler fc (.fields f) C w = .raise .illegalDataVal w :=
  if_pos (qtyOutside_iff.mpr hq)

theorem readBitsHandler_badRange (h1 : 1 ≤ f.qty.toNat) (h2 : f.qty.toNat ≤ 2000)
    (hr : 0x10000 < f.addr.toNat + f.qty.toNat) :
    readBitsHandler fc (.fields f) C w = .raise .illegalDataAddr w := by
  simp only [readBitsHandler, qtyOutside_eq_false h1 h2, rangeOverflows_eq_true hr, Bool.false_eq_true,
    if_false, if_true]

theorem readRegsHandler_badQty (hq : f.qty.toNat < 1 ∨ 125 < f.qty.toNat) :
    readRegsHandler fc (.fields f) T w = .raise .illegalDataVal w :=
  if_pos (qtyOutside_iff.mpr hq)

theorem readRegsHandler_badRange (h1 : 1 ≤ f.qty.toNat) (h2 : f.qty.toNat ≤ 125)
    (hr : 0x10000 < f.addr.toNat + f.qty.toNat) :
    readRegsHandler fc (.fields f) T w = .raise .illegalDataAddr w := by
  simp only [readRegsHandler, qtyOutside_eq_false h1 h2, rangeOverflows_eq_true hr, Bool.false_eq_true,
    if_false, if_true]

end

section
variable {m : MultiWrite}

theorem writeCoilsHandler_badQtyOrCount
    (hq : m.qty.toNat < 1 ∨ 1968 < m.qty.toNat ∨ m.data.length ≠ (m.qty.toNat + 7) / 8) :
    writeCoilsHandler c (.fields m) C w = .raise .illegalDataVal w := by
  rw [← or_assoc, ← qtyOutside_iff] at hq
  by_cases hout : qtyOutside m.qty.toNat 1968 = true
  · exact if_pos hout
  · exact (if_neg hout).trans (if_pos (hq.resolve_left hout))

theorem writeCoilsHandler_badRange (h1 : 1 ≤ m.qty.toNat) (h2 : m.qty.toNat ≤ 1968)
    (hd : m.data.length = (m.qty.toNat + 7) / 8) (hr : 0x10000 < m.addr.toNat + m.qty.toNat) :
    writeCoilsHandler c (.fields m) C w = .raise .illegalDataAddr w := by
  simp only [writeCoilsHandler, qtyOutside_eq_false h1 h2, rangeOverflows_eq_true hr, hd, ceilDiv8,
    ne_eq, not_true_eq_false, Bool.false_eq_true, if_false, if_true]

theorem writeRegsHandler_badQtyOrCount
    (hq : m.qty.toNat < 1 ∨ 123 < m.qty.toNat ∨ m.data.length ≠ 2 * m.qty.toNat) :
    writeRegsHandler c (.fields m) T w = .raise .illegalDataVal w := by
  rw [← or_assoc, ← qtyOutside_iff] at hq
  by_cases hout : qtyOutside m.qty.toNat 123 = true
  · exact if_pos hout
  · exact (if_neg hout).trans (if_pos (hq.resolve_left hout))

theorem writeRegsHandler_badRange (h1 : 1 ≤ m.qty.toNat) (h2 : m.qty.toNat ≤ 123)
    (hd : m.data.length = 2 * m.qty.toNat) (hr : 0x10000 < m.addr.toNat + m.qty.toNat) :
    writeRegsHandler c (.fields m) T w = .raise .illegalDataAddr w := by
  simp only [writeRegsHandler, qtyOutside_eq_false h1 h2, rangeOverflows_eq_true hr, hd, ne_eq,
    not_true_eq_false, Bool.false_eq_true, if_false, if_true]

end

section
variable {x : ReadWrite}

theorem readWriteHandler_badQtyOrCount
    (hq : x.rq.toNat < 1 ∨ 125 < x.rq.toNat ∨ x.wq.toNat < 1 ∨ 121 < x.wq.toNat
      ∨ x.data.length ≠ 2 * x.wq.toNat) :
    readWriteHandler c (.fields x) T w = .raise .illegalDataVal w := by
  rw [← or_assoc, ← qtyOutside_iff, ← or_assoc (a := _ < 1), ← qtyOutside_iff] at hq
  by_cases hread : qtyOutside x.rq.toNat 125 = true
  · exact if_pos hread
  · refine (if_neg hread).trans ?_
    by_cases hwrite : qtyOutside x.wq.toNat 121 = true
    · exact if_pos hwrite
    · exact (if_neg hwrite).trans (if_pos ((hq.resolve_left hread).resolve_left hwrite))

theorem readWriteHandler_badRange (hr1 : 1 ≤ x.rq.toNat) (hr2 : x.rq.toNat ≤ 125)
    (hw1 : 1 ≤ x.wq.toNat) (hw2 : x.wq.toNat ≤ 121) (hd : x.data.length = 2 * x.wq.toNat)
    (hr : 0x10000 < x.raddr.toNat + x.rq.toNat ∨ 0x10000 < x.waddr.toNat + x.wq.toNat) :
    readWriteHandler c (.fields x) T w = .raise .illegalDataAddr w := by
  have hover : (rangeOverflows x.raddr.toNat x.rq.toNat
      || rangeOverflows x.waddr.toNat x.wq.toNat) = true :=
    Bool.or_eq_true_iff.mpr (hr.imp rangeOverflows_eq_true rangeOverflows_eq_true)
  simp only [readWriteHandler, qtyOutside_eq_false hr1 hr2, qtyOutside_eq_false hw1 hw2, hd, hover, ne_eq,
    not_true_eq_false, Bool.false_eq_true, if_false, if_true]

end

/-- A function code whose table is present, when its handler fails a check before it looks at the table: it is
answered with the exception, and the object store and the host are left alone. -/
theorem runFunction_table_unchecked {α : Type} {s : State} {t : Txn} {wl : Bool}
    {table : Option (List α)} {req : List Byte} {g : List α → World → Res World (List Byte)} {e : Status}
    (hs : AtHandler s t wl) (hT : table.isSome = true) (hg : ∀ T, g T s.world = .raise e s.world)
    (he : e ≠ .ok) : runFunction fc (withTable table req g) s = .next (failed fc t wl e s) := by
  obtain ⟨T, hT⟩ := Option.isSome_iff_exists.mp hT
  exact runFunction_table_raise hs hT (hg T) he

end

/-- Settles O38: the two checks of each handler, before its table is looked at (`runFunction_table_unchecked`). -/
theorem quantitiesAndRangesAreChecked : Obligations.QuantitiesAndRangesAreChecked := by
  intro s t wl f m x hs
  refine ⟨fun hq => ⟨fun hT => ?_, fun hT => ?_⟩, fun hq => ⟨fun hT => ?_, fun hT => ?_⟩,
    fun h1 h2 hr => ⟨fun hT => ?_, fun hT => ?_⟩, fun h1 h2 hr => ⟨fun hT => ?_, fun hT => ?_⟩,
    fun hT => ⟨fun hq => ?_, fun h1 h2 hd hr => ?_⟩,
    fun hT => ⟨fun hq => ?_, fun h1 h2 hd hr => ?_, fun hq => ?_, fun hr1 hr2 hw1 hw2 hd hr => ?_⟩⟩
  · exact runFunction_table_unchecked hs hT (fun _ => readBitsHandler_badQty hq) nofun
  · exact runFunction_table_unchecked hs hT (fun _ => readBitsHandler_badQty hq) nofun
  · exact runFunction_table_unchecked hs hT (fun _ => readRegsHandler_badQty hq) nofun
  · exact runFunction_table_unchecked hs hT (fun _ => readRegsHandler_badQty hq) nofun
  · exact runFunction_table_unchecked hs hT (fun _ => readBitsHandler_badRange h1 h2 hr) nofun
  · exact runFunction_table_unchecked hs hT (fun _ => readBitsHandler_badRange h1 h2 hr) nofun
  · exact runFunction_table_unchecked hs hT (fun _ => readRegsHandler_badRange h1 h2 hr) nofun
  · exact runFunction_table_unchecked hs hT (fun _ => readRegsHandler_badRange h1 h2 hr) nofun
  · exact runFunction_table_unchecked hs hT (fun _ => writeCoilsHandler_badQtyOrCount hq) nofun
  · exact runFunction_table_unchecked hs hT (fun _ => writeCoilsHandler_badRange h1 h2 hd hr) nofun
  · exact runFunction_table_unchecked hs hT (fun _ => writeRegsHandler_badQtyOrCount hq) nofun
  · exact runFunction_table_unchecked hs hT (fun _ => writeRegsHandler_badRange h1 h2 hd hr) nofun
  · exact runFunction_table_unchecked hs hT (fun _ => readWriteHandler_badQtyOrCount hq) nofun
  · exact runFunction_table_unchecked hs hT
      (fun _ => readWriteHandler_badRange hr1 hr2 hw1 hw2 hd hr) nofun

end Sys2Proof.Machine
end

section
/-! PROOFS of the bit access family: the reads of FC 0x01 and 0x02 where no host software has a say. -/

namespace Sys2Proof.Machine

/-! ## Bit reads (R300, R301, R305) -/

/-- Settles O32: the bit loop by `readBits_plain`, which leaves the storage as it was, and FC 0x01 and 0x02 around it
by `exec_readBits`. -/
theorem readBitsAnswersTheTable : Obligations.ReadBitsAnswersTheTable := by
  intro s t wl T f hs h1 h2 hr hp hread
  have hbits : readBits T f.addr.toNat 0 f.qty.toNat s.world
      = .ofExcept (.ok (coilBits s.world T f.addr.toNat f.qty.toNat)) s.world :=
    readBits_plain T f.addr.toNat s.world f.qty.toNat 0 (plainCoilReads_on hp _ _) fun _ _ => hread
  refine ⟨fun hT => ?_, fun hT => ?_⟩
  · exact exec_readBits hs h1 h2 hr (.inl ⟨rfl, hT, rfl⟩) hbits nofun
  · exact exec_readBits hs h1 h2 hr (.inr ⟨rfl, hT, rfl⟩) hbits nofun

end Sys2Proof.Machine
end

section
/-! PROOFS of the register access family: FC 0x16 and FC 0x17 on registers that ask no host software. -/

namespace Sys2Proof.Machine

/-! ## Targets that ask no host software (R99, R100) -/

section
variable {T : List RegDesc} {a : Nat} {d : RegDesc} {w : World}

/-- A readable address of a table that asks no host software when it is read. -/
theorem regReadable_plain (hp : plainRegReads T = true) (hr : regReadable T a = true) :
    ∃ d, cover T a = some d ∧ d.rlock = false ∧ d.rmode ≠ .cb ∧ d.rmode ≠ .none := by
  unfold regReadable at hr
  cases hc : cover T a with
  | none => simp [hc] at hr
  | some d =>
    have hplain := List.all_eq_true.mp hp d (List.mem_of_find?_eq_some hc)
    simp only [plainRegRead, Bool.and_eq_true, Bool.not_eq_true', bne_iff_ne] at hplain
    obtain ⟨hl, hcb⟩ := hplain
    exact ⟨d, rfl, hl, hcb, by simpa [hc] using hr⟩

/-- A read of one word of such a register (R99). -/
theorem regSays_plain (hc : cover T a = some d) (hl : d.rlock = false) (hcb : d.rmode ≠ .cb)
    (hn : d.rmode ≠ .none) : RegSays d a 1 w (.words [regWord w T a]) w := by
  have hcov := covers_of_cover hc
  have hone : min (nwords d - (a - d.key.toNat)) 1 = 1 := by omega
  refine ⟨false, w, lockSays_absent hl, ?_⟩
  cases hm : d.rmode with
  | none => exact absurd hm hn
  | cb => exact absurd hm hcb
  | const v => simp [hone, regWord, hc, hm, offset]
  | ptr r => simp [hone, regWord, hc, hm, offset]

/-- A register in a word array that a write of one word does not cut can be written (R100). -/
theorem refusesWrite_whole {r : Nat} (hc : cover T a = some d) (hm : d.wmode = .ptr r)
    (hw : wholeWrites T a 1 = true) : refusesWrite d a 1 = false := by
  have hwhole : d.allowPartialWrite = true ∨ a ≤ d.key.toNat ∧ d.key.toNat + nwords d ≤ a + 1 := by
    simpa [wholeWrites, hc] using hw
  simp only [refusesWrite, hm, Bool.and_eq_false_iff, Bool.not_eq_false', Bool.or_eq_false_iff,
    decide_eq_false_iff_not, Nat.not_lt]
  exact hwhole

end

/-! ## FC 0x16 (R360) -/

/-- The mask law keeps the word under the masks 0xFFFF and 0. -/
theorem maskedWord_keep (v : Word) : maskedWord v 0xFFFF 0x0000 = v := by
  have hand : v &&& 65535#16 = v := BitVec.and_allOnes
  simp [maskedWord, hand]

/-- Settles O42: the read and the write of one plain target around the mask law, and the storage after the
word's write. -/
theorem maskWriteFollowsTheMaskLaw : Obligations.MaskWriteFollowsTheMaskLaw := by
  rintro s t wl T f r off ty hs hg hT ht hw hp hread hcommit m rfl
  obtain ⟨-, hwords⟩ := World.good_parts hg
  obtain ⟨d, hc, hl, hpost, hm, rfl, rfl⟩ := regTarget_some ht
  obtain ⟨e, hce, hrl, hcb, hn⟩ := regReadable_plain hp hread
  obtain rfl : d = e := Option.some.inj (hc.symm.trans hce)
  have hcov := covers_of_cover hc
  refine ⟨?_, fun b h0 h1 => by rw [Memory.read_writeWord hwords, if_neg h1, if_neg h0],
    fun hty hptr hand hor => ?_⟩
  · exact exec_maskWriteRegister_follows hs hT hc
      (regAdmits_open (refusesWrite_whole hc hm hw) hcov.1 hcov.2 (lockSays_absent hl)) Nat.one_pos
      (regSays_plain hc hrl hcb hn) (regWrites_array hm (told_absent hpost)) (e := .ok)
      (told_of_listens hcommit)
  · have hmask := maskedWord_keep (regWord s.world T f.addr.toNat)
    rw [hand, hor, hty]
    simp only [regWord, hc, hptr d hc] at hmask ⊢
    rw [Memory.readWord_writeWord_same hwords]
    exact hmask

/-! ## FC 0x17 (R365) -/

/-- Settles O43: `writeRegs_plain`, then `readRegs_plain` on the storage it leaves. -/
theorem readWriteReadsWhatItWrote : Obligations.ReadWriteReadsWhatItWrote := by
  rintro s t wl T f m w' hs hg hT hv hr1 hr2 hw1 hw2 hd hr hwr hp hread ht hw hcommit rfl rfl
  obtain ⟨-, hwords⟩ := World.good_parts hg
  have hlen := length_wordsOfBytes f.wq.toNat f.data hd
  obtain ⟨d, hc, hrl, -, hn⟩ := regReadable_plain hp hread
  refine ⟨?_, fun b hb => storeRegs_out _ _ _ hwords b (by rwa [hlen])⟩
  exact exec_readWriteMultipleRegisters_reads hs hT ⟨hr1, hr2, hw1, hw2, hd, hr, hwr⟩ hc
    (regReadDenied_open (lockSays_absent hrl) hn) (writeRegs_plain hv hlen ht hw hcommit)
    (out := .ok _)
    (readRegs_plain _ hv (Nat.le_refl _) (plainRegReads_on hp _ _) fun _ _ => hread) (by simp)

end Sys2Proof.Machine
end

section
/-! PROOFS of the diagnostics family: the sub-functions of FC 0x08, and the event requests FC 0x0B and 0x0C. -/

namespace Sys2Proof.Machine

/-! ## Sub-functions whose data must be 0 (R448 to R451) -/

section
variable {s s' : State} {t : Txn} {wl : Bool} {h : Handler}

theorem onZeroData_zero (h : Handler) (s : State) : onZeroData (.fields 0x0000) h s = h s := by
  simp only [onZeroData, onFields, if_true]

theorem onZeroData_nonzero {data : Word} (hd : data ≠ 0x0000) (h : Handler) (s : State) :
    onZeroData (.fields data) h s = .raise .illegalDataVal s := if_neg hd

/-- With data 0 the sub-function's handler answers. -/
theorem runFunction_zeroData {res : List Byte} (hs : AtHandler s t wl) (hh : h s = .val res s')
    (hx : s'.txn = s.txn) (hn : res ≠ []) :
    runFunction 0x08 (onZeroData (.fields 0x0000) h) s = .next (completed 0x08 t wl res s') :=
  runFunction_at_val hs ((onZeroData_zero h s).trans hh) hx hn

/-- With other data the sub-function's handler is not reached. -/
theorem runFunction_nonzeroData {data : Word} (hs : AtHandler s t wl) (hd : data ≠ 0x0000) :
    runFunction 0x08 (onZeroData (.fields data) h) s = .next (failed 0x08 t wl .illegalDataVal s) :=
  runFunction_at_raise hs (onZeroData_nonzero hd h s) rfl nofun

end

/-! ## Query data and the delimiter (R442, R446) -/

/-- Settles O51: the handler's response is the request. -/
theorem queryDataIsEchoed : Obligations.QueryDataIsEchoed :=
  fun _ _ _ data hs => runFunction_at_val hs (h := queryDataHandler data) rfl rfl nofun

theorem delimiterHandler_legal {f : DelimField} (hd : f.delim.toNat ≤ 127) (hz : f.zero = 0x00)
    (s : State) :
    delimiterHandler f s = .val [0x08, 0x00, 0x03, f.delim, 0x00]
      { s with regs := { s.regs with asciiDelimiter := f.delim } } := by
  have hlegal : ¬ (127 < f.delim.toNat ∨ f.zero ≠ 0x00) :=
    not_or.mpr ⟨Nat.not_lt.mpr hd, not_not.mpr hz⟩
  rw [delimiterHandler, if_neg hlegal, encodeDelim, hz]
  rfl

/-- Settles O53: the handler on a legal field, and its one check. -/
theorem delimiterIsStoredIfLegal : Obligations.DelimiterIsStoredIfLegal := by
  intro s t wl f hs
  refine ⟨fun hd hz => ?_, fun hbad => ?_⟩
  · exact runFunction_at_val (h := delimiterHandler f) hs (delimiterHandler_legal hd hz s) rfl nofun
  · exact runFunction_at_raise (h := delimiterHandler f) hs (if_pos hbad) rfl nofun

/-! ## The restart and sub 0x000A, which tell the host (R444, R449) -/

theorem restartHandler_listens {data : Word} {s : State} (hd : data = 0x0000 ∨ data = 0xFF00)
    (hl : listens s.cfg.callbacks.requestRestart s.world = true) :
    restartHandler data s = .val (diagResponse 0x0001 data)
      { s with
        world := notified s.cfg.callbacks.requestRestart .requestRestart s.world
        regs := restartRegisters data s.regs } := by
  have hlegal : ¬ (data ≠ 0x0000 ∧ data ≠ 0xFF00) := fun ⟨h0, h1⟩ => hd.elim h0 h1
  rw [restartHandler, if_neg hlegal, onWorld_val (notifyIf_listens hl)]
  rfl

/-- What R444 writes, register by register: delimiter and status word stay (R561). -/
theorem restartRegisters_eq (data : Word) (r : Registers) :
    restartRegisters data r =
      { r with
        isListenOnly := false
        counters := ⟨0, 0, 0, 0, 0, 0, 0, 0, 0⟩
        ring := if data = 0xFF00 then { r.ring with wpos := 0, count := 0 }
          else r.ring.append 0x00 } := by
  unfold restartRegisters
  split <;> rfl

/-- Settles O52: the handler with a host that listens, the registers of `restartRegisters_eq`, and its one
check. -/
theorem restartReturnsToNormalMode : Obligations.RestartReturnsToNormalMode := by
  intro s t wl data hs
  refine ⟨fun hd hl => ?_, fun h0 h1 => ?_⟩
  · rw [← restartRegisters_eq]
    exact runFunction_at_val (h := restartHandler data) hs (restartHandler_listens hd hl) rfl nofun
  · exact runFunction_at_raise (h := restartHandler data) hs (if_pos ⟨h0, h1⟩) rfl nofun

theorem clearCountersHandler_listens {s : State}
    (hl : listens s.cfg.callbacks.resetDiagnostics s.world = true) :
    clearCountersHandler s = .val (diagResponse 0x000A 0)
      { s with
        world := notified s.cfg.callbacks.resetDiagnostics .resetDiagnostics s.world
        regs := s.regs.resetCounters } := by
  rw [clearCountersHandler,
    onWorld_val (s := { s with regs := s.regs.resetCounters }) (notifyIf_listens hl)]
  rfl

/-- Settles O55: sub 0x000A with a host that listens, sub 0x0014, and the data check of both. -/
theorem clearingSubfunctionsZeroTheirCounters : Obligations.ClearingSubfunctionsZeroTheirCounters := by
  intro s t wl data hs
  refine ⟨?_, fun hd => ⟨?_, ?_⟩⟩
  · rintro rfl
    refine ⟨fun hl => ?_, ?_⟩
    · exact runFunction_zeroData hs (clearCountersHandler_listens hl) rfl nofun
    · exact runFunction_zeroData (h := clearOverrunHandler) hs rfl rfl nofun
  · exact runFunction_nonzeroData hs hd
  · exact runFunction_nonzeroData hs hd

/-! ## Force Listen Only (R448) -/

/-- A request that leaves the instance in listen-only mode gets no reply (R270). -/
theorem completed_outputs_listenOnly {s : State} (hl : s.regs.isListenOnly = true) (fc : Byte) (t : Txn)
    (wl : Bool) (res : List Byte) : (completed fc t wl res s).outputs = s.outputs ++ [[]] := by
  simp [completed, closed, replyOf, hl]

/-- Settles O54: the handler enters the mode, so `completed_outputs_listenOnly`; and its data check. -/
theorem forceListenOnlyEntersTheMode : Obligations.ForceListenOnlyEntersTheMode := by
  intro s t wl data hs
  refine ⟨?_, fun hd => runFunction_nonzeroData hs hd⟩
  rintro rfl
  exact ⟨_, runFunction_zeroData (h := listenOnlyHandler) hs rfl rfl nofun, rfl,
    completed_outputs_listenOnly (by rfl) _ _ _ _⟩

/-! ## The counters (R450) -/

/-- A counter's sub-function, by its number, its counter and its data. -/
theorem returnCounter_answers {s : State} {t : Txn} {wl : Bool} (hs : AtHandler s t wl)
    (c : Counters → Word) (low : Byte) (data : Word) :
    (data = 0x0000 → returnCounter (be16 0x00 low) c (.fields data) s
      = .next (completed 0x08 t wl (0x08 :: 0x00 :: low :: be16Bytes (c s.regs.counters)) s))
    ∧ (data ≠ 0x0000 → returnCounter (be16 0x00 low) c (.fields data) s
      = .next (failed 0x08 t wl .illegalDataVal s)) := by
  refine ⟨?_, fun hd => runFunction_nonzeroData hs hd⟩
  rintro rfl
  have hsub : be16Bytes (be16 0x00 low) = [0x00, low] := by simp [be16Bytes]
  refine runFunction_zeroData hs ?_ rfl nofun
  rw [counterHandler, diagResponse, encodeDiag, hsub]
  rfl

/-- Settles O56: each sub-function is `returnCounter` at its own number and counter. -/
theorem counterSubfunctionsAnswerTheirCounter : Obligations.CounterSubfunctionsAnswerTheirCounter := by
  intro s t wl data i low c hs hi
  rcases hi with ⟨rfl, rfl, rfl⟩ | ⟨rfl, rfl, rfl⟩ | ⟨rfl, rfl, rfl⟩ | ⟨rfl, rfl, rfl⟩ | ⟨rfl, rfl, rfl⟩
    | ⟨rfl, rfl, rfl⟩ | ⟨rfl, rfl, rfl⟩ | ⟨rfl, rfl, rfl⟩
  · exact returnCounter_answers hs Counters.busMsg 0x0B data
  · exact returnCounter_answers hs Counters.busCommErr 0x0C data
  · exact returnCounter_answers hs Counters.exception 0x0D data
  · exact returnCounter_answers hs Counters.msg 0x0E data
  · exact returnCounter_answers hs Counters.noResp 0x0F data
  · exact returnCounter_answers hs Counters.nak 0x10 data
  · exact returnCounter_answers hs Counters.busy 0x11 data
  · exact returnCounter_answers hs Counters.busCharOverrun 0x12 data

/-! ## FC 0x0B and FC 0x0C (R460, R462) -/

/-- FC 0x0C's byte count is the six register bytes and one per event in the log (R462). -/
theorem eventLogResponse_eq (r : Registers) :
    eventLogResponse r = 0x0C :: countByte (6 + r.ring.count.val)
      :: (be16Bytes r.status ++ be16Bytes r.counters.commEvent ++ be16Bytes r.counters.busMsg
        ++ r.ring.newestFirst) := by
  rw [← length_newestFirst]
  rfl

/-- Settles O57: each handler answers from the registers as they stand, and refuses another length. -/
theorem eventRequestsAnswerTheRegisters : Obligations.EventRequestsAnswerTheRegisters := by
  intro s t wl hs
  refine ⟨?_, ?_, fun body => ⟨?_, ?_⟩⟩
  · exact runFunction_at_val (h := eventCounterHandler) hs rfl rfl nofun
  · rw [← eventLogResponse_eq]
    exact runFunction_at_val (h := eventLogHandler) hs rfl rfl nofun
  · exact runFunction_at_raise hs rfl rfl nofun
  · exact runFunction_at_raise hs rfl rfl nofun

end Sys2Proof.Machine
end

section
/-! PROOFS of the reset family: what creation answers, and that a block just created over a valid
configuration and canonical storage is a good state. -/

namespace Sys2Proof.Machine

/-! ## Creation (R9, R560, R565) -/

section
variable {c : InstanceConfig} {w : World}

theorem createInstance_valid (hc : configValid c = true) :
    createInstance c w = .next (State.created c w) := if_pos hc

theorem createInstance_invalid (hc : configValid c = false) :
    createInstance c w = .refused .invalidConfiguration := by
  simp [createInstance, hc]

/-- A block just created waits for the host's first command (R560). -/
theorem step_created : step (State.created c w) = .next (State.created c w) :=
  step_idle_nil rfl rfl

end

/-- Settles O5: a valid configuration gives `State.created`, whose registers are `Registers.reset`. -/
theorem creationLeavesTheResetValues : Obligations.CreationLeavesTheResetValues := by
  refine fun c w => ⟨fun hc => ?_, createInstance_invalid⟩
  have hcreated : createInstance c w = .next (State.created c w) := createInstance_valid hc
  have hwaits : step (State.created c w) = .next (State.created c w) := step_created
  exact ⟨State.created c w, hcreated, rfl, rfl, rfl, rfl, rfl, rfl, rfl, rfl, rfl, rfl, hwaits⟩

/-! ## The invariant at reset (R37, R50, R560) -/

/-- The delimiter 0x0A is at most 127, and the empty ring's write position is its count. -/
theorem Registers.reset_good : Registers.reset.good = true :=
  (Registers.good_iff _).mpr ⟨by decide, .inr rfl⟩

/-- A block just created is good where its configuration is valid and its storage canonical. -/
theorem State.created_inv {c : InstanceConfig} {w : World} (hc : configValid c = true)
    (hw : w.good = true) : (State.created c w).inv = true :=
  State.inv_idle hc Registers.reset_good hw rfl rfl rfl

/-- The test vectors' configuration is valid: its address is 0x11, and its tables are ABSENT (R32, R35). -/
theorem configValid_testVectors : configValid InstanceConfig.testVectors = true := by decide

/-- Storage that nothing has written is canonical. -/
theorem World.initial_good : World.initial.good = true := rfl

/-- Settles O6: the reset state is a block just created, over a valid configuration and empty storage. -/
theorem resetMeetsTheInvariant : Obligations.ResetMeetsTheInvariant :=
  State.created_inv configValid_testVectors World.initial_good

end Sys2Proof.Machine
end
